-- ==== Sys2Proof/Word.lean ====
section
/-! DEFINITION. The two word types of the host bus: 32-bit command and host registers (30_encoding.md R70,
20_memory.md R54) and the bytes of the I/O buffer (10_state.md R35). -/

namespace Sys2Proof

/-- A 32-bit command word or host register (30_encoding.md R70, 20_memory.md R54). -/
abbrev Word := BitVec 32

/-- One byte of the I/O buffer (10_state.md R35). -/
abbrev Byte := BitVec 8

end Sys2Proof
end

