-- ==== Sys2Proof/Config.lean ====
section
/-! DEFINITION. The parameters of the core (00_scope.md R7) and the values the spec leaves free. -/

namespace Sys2Proof

/-- The OPEN parameter `DIGIT_BITS`: "must be one of 8, 16, 24, 32, 64" (00_scope.md R7). -/
inductive DigitWidth where
  | w8 | w16 | w24 | w32 | w64
deriving DecidableEq, Repr

/-- `W`, bits per digit (00_scope.md R7). -/
def DigitWidth.bits : DigitWidth → Nat
  | .w8 => 8
  | .w16 => 16
  | .w24 => 24
  | .w32 => 32
  | .w64 => 64

namespace Config

/-- The instance value of `DIGIT_BITS` (00_scope.md R7): the width the reset state of the model has (log 1). -/
def resetWidth : DigitWidth := .w32

/-- `IOB_BYTES` (00_scope.md R7, 10_state.md R35). -/
def iobBytes : Nat := 1024

/-- `CAP = ceil(8*IOB_BYTES / W)`, the capacity of a big-number register in digits (00_scope.md R7). -/
def cap (W : Nat) : Nat := (8 * iobBytes + W - 1) / W

/-- `MAX_S = floor(CAP / 2)`, the largest modulus length in digits (00_scope.md R7). -/
def maxS (W : Nat) : Nat := cap W / 2

/-- FREE VALUE: the byte a host read of `IOB` returns while `BUSY = 1`, "an unspecified byte (model: any value)"
(20_memory.md R65; log 5). The argument is the number of such reads made before. -/
opaque busyByte : Nat → Byte

/-- FREE VALUE: the digit `CTXGET` selector 7 writes when the count `s` does not fit one digit, which the rule's own
remark excludes and `W = 8` allows (41_montgomery.md R142; log 21). The argument is `s`. -/
opaque wideCount : Nat → Nat

end Config
end Sys2Proof
end

