-- ==== Sys2Proof/Syntax.lean ====
section
/-! DEFINITION. The 43 commands, one constructor per row of spec/opcode_table.json (30_encoding.md R75), operands in the
assembler's order: destinations, sources, context, immediate (30_encoding.md R80). -/

namespace Sys2Proof

/-- A big-number register selector, all 16 values legal (30_encoding.md R73). -/
abbrev BSel := Fin 16

/-- A point register selector `0..7` (30_encoding.md R73). -/
abbrev PSel := Fin 8

/-- A context slot selector `0..3` (30_encoding.md R73). -/
abbrev CSel := Fin 4

/-- A 10-bit field of format M: `lenm1` or `off` (30_encoding.md R72, R74). -/
abbrev Imm10 := Fin 1024

/-- An unsigned 8-bit immediate (30_encoding.md R74). -/
abbrev Imm8 := Fin 256

/-- The selectors of `CTXGET`, `0..7` in this order (41_montgomery.md R142). -/
inductive CtxField where
  | m | rmod | r2mod | r3mod | mu | mprime | m0 | s
deriving DecidableEq, Repr

/-- The selectors of `CRVGET`, `0..7` in this order (43_curve_point_forms.md R175). -/
inductive CrvField where
  | p | a | bd | order | gx | gy | rbits | info
deriving DecidableEq, Repr

/-- The selectors of `PGET`, `0..5` in this order (43_curve_point_forms.md R178). -/
inductive PtField where
  | x | y | z | ta | tb | flags
deriving DecidableEq, Repr

/-- A command (30_encoding.md R75). -/
inductive Instr where
  | ldb (bd : BSel) (off lenm1 : Imm10)
  | stb (bs : BSel) (off lenm1 : Imm10)
  | mov (bd bs : BSel)
  | clr (bd : BSel)
  | norm (bd bs : BSel)
  | cmp (ba bb : BSel)
  | add (bd ba bb : BSel)
  | sub (bd ba bb : BSel)
  | mul (bd ba bb : BSel)
  | divrem (bq br ba bb : BSel)
  | ctxnew (c : CSel) (bs : BSel)
  | montmul (bd ba bb : BSel) (c : CSel)
  | tomont (bd bs : BSel) (c : CSel)
  | frommont (bd bs : BSel) (c : CSel)
  | modexp (bd base expo : BSel) (c : CSel)
  | bred (bd bs : BSel) (c : CSel)
  | ctxget (bd : BSel) (c : CSel) (sel : CtxField)
  | modinv (bd ba bn : BSel)
  | modinvct (bd bs : BSel) (c : CSel)
  | gcd (bd ba bb : BSel)
  | modadd (bd ba bb : BSel) (c : CSel)
  | modsub (bd ba bb : BSel) (c : CSel)
  | modmul (bd ba bb : BSel) (c : CSel)
  | crvnew (first : BSel) (type : Imm8)
  | crvld (id : Imm8)
  | pset (pd : PSel) (xb yb : BSel)
  | pget (bd : BSel) (ps : PSel) (sel : PtField)
  | pgen (pd : PSel)
  | pinf (pd : PSel)
  | pmov (pd ps : PSel)
  | pclr (pd : PSel)
  | ptomont (pd ps : PSel)
  | pfrommont (pd ps : PSel)
  | ptoproj (pd ps : PSel)
  | ptoaff (pd ps : PSel)
  | pval (ps : PSel)
  | penc (ps : PSel) (off lenm1 : Imm10)
  | pdec (pd : PSel) (off lenm1 : Imm10)
  | crvget (bd : BSel) (sel : CrvField)
  | pdbl (pd ps : PSel)
  | padd (pd pa pb : PSel)
  | pneg (pd ps : PSel)
  | smul (pd ps : PSel) (bk : BSel)
deriving DecidableEq, Repr

end Sys2Proof
end

