-- ==== Sys2Proof/WellFormed.lean ====
section
/-! DEFINITION. Which terms of `Instr` have a legal encoding (30_encoding.md R76). The selector ranges of R76 (c) and (e) hold by
the types of `Instr`; the must-be-zero fields of R76 (b) are no operands. What is left is R76 (d) and (f). -/

namespace Sys2Proof

/-- `DIVREM` must name two different destinations (R76 d); a `CRVNEW` register run must not pass `B15` (R76 f), where a
`type` above 1 has no run and is refused later, by the command (30_encoding.md R77). -/
def Instr.wf : Instr → Bool
  | .divrem q r _ _ => q != r
  | .crvnew first type =>
    if type.val = 0 then decide (first.val + 6 ≤ 16)
    else if type.val = 1 then decide (first.val + 7 ≤ 16)
    else true
  | _ => true

/-- The instruction has an encoding that 30_encoding.md R76 does not call illegal. -/
abbrev Instr.WellFormed (i : Instr) : Prop := i.wf = true

end Sys2Proof
end

