-- ==== Sys2Proof/Decode.lean ====
section
/-! DEFINITION. The decoder, total on every 32-bit word (30_encoding.md R82), its rejections by name (R76), and the encoder
(R71, R72, R75). -/

namespace Sys2Proof

/-- Why a word is illegal (30_encoding.md R76). Every one of them raises `E_ILLEGAL_CMD`. -/
inductive DecodeError where
  /-- R76 (a): the opcode is not one of the 43. -/
  | unknownOpcode
  /-- R76 (b): a field the table shows as `-` is not zero. -/
  | nonZeroField
  /-- R76 (c): a point selector above 7. -/
  | pointSelector
  /-- R76 (c): a context selector above 3. -/
  | contextSelector
  /-- R76 (d): `DIVREM` with `rd = rc`. -/
  | sameDestination
  /-- R76 (e): a field selector of `CTXGET`, `CRVGET` or `PGET` out of range. -/
  | fieldSelector
  /-- R76 (f): a `CRVNEW` register run past `B15`. -/
  | registerRun
deriving DecidableEq, Repr

/-- `w[hi:lo]` as a number (00_scope.md R9). -/
def bitsOf (w : Word) (hi lo : Nat) : Nat := w.toNat / 2 ^ lo % 2 ^ (hi + 1 - lo)

/-- A big-number selector: all sixteen values are legal (30_encoding.md R73). -/
def bSel (n : Nat) : BSel := Fin.ofNat 16 n

/-- A 10-bit field as it is (30_encoding.md R74). -/
def imm10 (n : Nat) : Imm10 := Fin.ofNat 1024 n

/-- An 8-bit immediate as it is (30_encoding.md R74). -/
def imm8 (n : Nat) : Imm8 := Fin.ofNat 256 n

/-- A point selector, refused above 7 (30_encoding.md R73, R76 c). -/
def pSel (n : Nat) : Except DecodeError PSel :=
  if h : n < 8 then .ok ⟨n, h⟩ else .error .pointSelector

/-- A context selector, refused above 3 (30_encoding.md R73, R76 c). -/
def cSel (n : Nat) : Except DecodeError CSel :=
  if h : n < 4 then .ok ⟨n, h⟩ else .error .contextSelector

/-- Fields the table shows as `-` must be zero (30_encoding.md R75, R76 b). -/
def mustBeZero (fields : List Nat) : Except DecodeError Unit :=
  if fields.all (· == 0) then .ok () else .error .nonZeroField

/-- The `CTXGET` selector (41_montgomery.md R142). -/
def ctxField : Nat → Except DecodeError CtxField
  | 0 => .ok .m
  | 1 => .ok .rmod
  | 2 => .ok .r2mod
  | 3 => .ok .r3mod
  | 4 => .ok .mu
  | 5 => .ok .mprime
  | 6 => .ok .m0
  | 7 => .ok .s
  | _ => .error .fieldSelector

/-- The `CRVGET` selector (43_curve_point_forms.md R175). -/
def crvField : Nat → Except DecodeError CrvField
  | 0 => .ok .p
  | 1 => .ok .a
  | 2 => .ok .bd
  | 3 => .ok .order
  | 4 => .ok .gx
  | 5 => .ok .gy
  | 6 => .ok .rbits
  | 7 => .ok .info
  | _ => .error .fieldSelector

/-- The `PGET` selector (43_curve_point_forms.md R178). -/
def ptField : Nat → Except DecodeError PtField
  | 0 => .ok .x
  | 1 => .ok .y
  | 2 => .ok .z
  | 3 => .ok .ta
  | 4 => .ok .tb
  | 5 => .ok .flags
  | _ => .error .fieldSelector

/-- A term whose remaining legality conditions (R76 d, f) are `Instr.wf`'s. -/
def legal (i : Instr) (e : DecodeError) : Except DecodeError Instr :=
  if i.wf then .ok i else .error e

/-- The decoder (30_encoding.md R75, R76, R82). -/
def decode (w : Word) : Except DecodeError Instr :=
  let rd := bitsOf w 23 20
  let ra := bitsOf w 19 16
  let rb := bitsOf w 15 12
  let rc := bitsOf w 11 8
  let im := bitsOf w 7 0
  let len := imm10 (bitsOf w 19 10)
  let off := imm10 (bitsOf w 9 0)
  match bitsOf w 31 24 with
  | 0x10 => .ok (.ldb (bSel rd) off len)
  | 0x11 => .ok (.stb (bSel rd) off len)
  | 0x12 => do mustBeZero [rb, rc, im]; return .mov (bSel rd) (bSel ra)
  | 0x13 => do mustBeZero [ra, rb, rc, im]; return .clr (bSel rd)
  | 0x14 => do mustBeZero [rb, rc, im]; return .norm (bSel rd) (bSel ra)
  | 0x15 => do mustBeZero [rd, rc, im]; return .cmp (bSel ra) (bSel rb)
  | 0x16 => do mustBeZero [rc, im]; return .add (bSel rd) (bSel ra) (bSel rb)
  | 0x17 => do mustBeZero [rc, im]; return .sub (bSel rd) (bSel ra) (bSel rb)
  | 0x18 => do mustBeZero [rc, im]; return .mul (bSel rd) (bSel ra) (bSel rb)
  | 0x19 => do mustBeZero [im]; legal (.divrem (bSel rd) (bSel rc) (bSel ra) (bSel rb)) .sameDestination
  | 0x20 => do mustBeZero [rd, rb, im]; return .ctxnew (← cSel rc) (bSel ra)
  | 0x21 => do mustBeZero [im]; return .montmul (bSel rd) (bSel ra) (bSel rb) (← cSel rc)
  | 0x22 => do mustBeZero [rb, im]; return .tomont (bSel rd) (bSel ra) (← cSel rc)
  | 0x23 => do mustBeZero [rb, im]; return .frommont (bSel rd) (bSel ra) (← cSel rc)
  | 0x24 => do mustBeZero [im]; return .modexp (bSel rd) (bSel ra) (bSel rb) (← cSel rc)
  | 0x25 => do mustBeZero [rb, im]; return .bred (bSel rd) (bSel ra) (← cSel rc)
  | 0x26 => do mustBeZero [ra, rb]; return .ctxget (bSel rd) (← cSel rc) (← ctxField im)
  | 0x30 => do mustBeZero [rc, im]; return .modinv (bSel rd) (bSel ra) (bSel rb)
  | 0x31 => do mustBeZero [rb, im]; return .modinvct (bSel rd) (bSel ra) (← cSel rc)
  | 0x32 => do mustBeZero [rc, im]; return .gcd (bSel rd) (bSel ra) (bSel rb)
  | 0x33 => do mustBeZero [im]; return .modadd (bSel rd) (bSel ra) (bSel rb) (← cSel rc)
  | 0x34 => do mustBeZero [im]; return .modsub (bSel rd) (bSel ra) (bSel rb) (← cSel rc)
  | 0x35 => do mustBeZero [im]; return .modmul (bSel rd) (bSel ra) (bSel rb) (← cSel rc)
  | 0x40 => do mustBeZero [rd, rb, rc]; legal (.crvnew (bSel ra) (imm8 im)) .registerRun
  | 0x41 => do mustBeZero [rd, ra, rb, rc]; return .crvld (imm8 im)
  | 0x42 => do mustBeZero [rc, im]; return .pset (← pSel rd) (bSel ra) (bSel rb)
  | 0x43 => do mustBeZero [rb, rc]; return .pget (bSel rd) (← pSel ra) (← ptField im)
  | 0x44 => do mustBeZero [ra, rb, rc, im]; return .pgen (← pSel rd)
  | 0x45 => do mustBeZero [ra, rb, rc, im]; return .pinf (← pSel rd)
  | 0x46 => do mustBeZero [rb, rc, im]; return .pmov (← pSel rd) (← pSel ra)
  | 0x47 => do mustBeZero [ra, rb, rc, im]; return .pclr (← pSel rd)
  | 0x48 => do mustBeZero [rb, rc, im]; return .ptomont (← pSel rd) (← pSel ra)
  | 0x49 => do mustBeZero [rb, rc, im]; return .pfrommont (← pSel rd) (← pSel ra)
  | 0x4A => do mustBeZero [rb, rc, im]; return .ptoproj (← pSel rd) (← pSel ra)
  | 0x4B => do mustBeZero [rb, rc, im]; return .ptoaff (← pSel rd) (← pSel ra)
  | 0x4C => do mustBeZero [rd, rb, rc, im]; return .pval (← pSel ra)
  | 0x4D => do return .penc (← pSel rd) off len
  | 0x4E => do return .pdec (← pSel rd) off len
  | 0x4F => do mustBeZero [ra, rb, rc]; return .crvget (bSel rd) (← crvField im)
  | 0x50 => do mustBeZero [rb, rc, im]; return .pdbl (← pSel rd) (← pSel ra)
  | 0x51 => do mustBeZero [rc, im]; return .padd (← pSel rd) (← pSel ra) (← pSel rb)
  | 0x52 => do mustBeZero [rb, rc, im]; return .pneg (← pSel rd) (← pSel ra)
  | 0x58 => do mustBeZero [rc, im]; return .smul (← pSel rd) (← pSel ra) (bSel rb)
  | _ => .error .unknownOpcode

/-- A format R word (30_encoding.md R71). -/
def packR (op rd ra rb rc im : Nat) : Word :=
  BitVec.ofNat 32 (op * 2 ^ 24 + rd * 2 ^ 20 + ra * 2 ^ 16 + rb * 2 ^ 12 + rc * 2 ^ 8 + im)

/-- A format M word; `off` and `lenm1` in the order the commands list them (30_encoding.md R72). -/
def packM (op r off lenm1 : Nat) : Word :=
  BitVec.ofNat 32 (op * 2 ^ 24 + r * 2 ^ 20 + lenm1 * 2 ^ 10 + off)

/-- The `imm8` of a `CTXGET` selector (41_montgomery.md R142). -/
def CtxField.code : CtxField → Nat
  | .m => 0
  | .rmod => 1
  | .r2mod => 2
  | .r3mod => 3
  | .mu => 4
  | .mprime => 5
  | .m0 => 6
  | .s => 7

/-- The `imm8` of a `CRVGET` selector (43_curve_point_forms.md R175). -/
def CrvField.code : CrvField → Nat
  | .p => 0
  | .a => 1
  | .bd => 2
  | .order => 3
  | .gx => 4
  | .gy => 5
  | .rbits => 6
  | .info => 7

/-- The `imm8` of a `PGET` selector (43_curve_point_forms.md R178). -/
def PtField.code : PtField → Nat
  | .x => 0
  | .y => 1
  | .z => 2
  | .ta => 3
  | .tb => 4
  | .flags => 5

/-- The encoder: the one word of a command (30_encoding.md R71, R72, R75). -/
def encode : Instr → Word
  | .ldb d off len => packM 0x10 d off len
  | .stb a off len => packM 0x11 a off len
  | .mov d a => packR 0x12 d a 0 0 0
  | .clr d => packR 0x13 d 0 0 0 0
  | .norm d a => packR 0x14 d a 0 0 0
  | .cmp a b => packR 0x15 0 a b 0 0
  | .add d a b => packR 0x16 d a b 0 0
  | .sub d a b => packR 0x17 d a b 0 0
  | .mul d a b => packR 0x18 d a b 0 0
  | .divrem q r a b => packR 0x19 q a b r 0
  | .ctxnew c a => packR 0x20 0 a 0 c 0
  | .montmul d a b c => packR 0x21 d a b c 0
  | .tomont d a c => packR 0x22 d a 0 c 0
  | .frommont d a c => packR 0x23 d a 0 c 0
  | .modexp d a b c => packR 0x24 d a b c 0
  | .bred d a c => packR 0x25 d a 0 c 0
  | .ctxget d c sel => packR 0x26 d 0 0 c sel.code
  | .modinv d a b => packR 0x30 d a b 0 0
  | .modinvct d a c => packR 0x31 d a 0 c 0
  | .gcd d a b => packR 0x32 d a b 0 0
  | .modadd d a b c => packR 0x33 d a b c 0
  | .modsub d a b c => packR 0x34 d a b c 0
  | .modmul d a b c => packR 0x35 d a b c 0
  | .crvnew a type => packR 0x40 0 a 0 0 type
  | .crvld id => packR 0x41 0 0 0 0 id
  | .pset d a b => packR 0x42 d a b 0 0
  | .pget d a sel => packR 0x43 d a 0 0 sel.code
  | .pgen d => packR 0x44 d 0 0 0 0
  | .pinf d => packR 0x45 d 0 0 0 0
  | .pmov d a => packR 0x46 d a 0 0 0
  | .pclr d => packR 0x47 d 0 0 0 0
  | .ptomont d a => packR 0x48 d a 0 0 0
  | .pfrommont d a => packR 0x49 d a 0 0 0
  | .ptoproj d a => packR 0x4A d a 0 0 0
  | .ptoaff d a => packR 0x4B d a 0 0 0
  | .pval a => packR 0x4C 0 a 0 0 0
  | .penc a off len => packM 0x4D a off len
  | .pdec d off len => packM 0x4E d off len
  | .crvget d sel => packR 0x4F d 0 0 0 sel.code
  | .pdbl d a => packR 0x50 d a 0 0 0
  | .padd d a b => packR 0x51 d a b 0 0
  | .pneg d a => packR 0x52 d a 0 0 0
  | .smul d a b => packR 0x58 d a b 0 0

/-- The instruction the decoder reads from an opcode-table row's word `w` of `nbits` bits: a command is one 32-bit word
(30_encoding.md R70), whose bits above `nbits` are zero. -/
def decodeTableWord (nbits w : Nat) : Option Instr :=
  if nbits ≤ 32 ∧ w < 2 ^ 32 then (decode (BitVec.ofNat 32 w)).toOption else none

end Sys2Proof
end

