-- ==== Sys2Proof/Machine/State.lean ====
section
/-! DEFINITION. The architectural state (10_state.md R20 to R42), the host's side of the command port (20_memory.md R54), and
the state after reset (10_state.md R41, 70_reset_and_hazards.md R280). Integers of `n` digits are held by value, as the
pair `(len, val)` of 10_state.md R21 (log 2). -/

namespace Sys2Proof.Machine

/-- Nothing raises it: the type has no constructor. The core's faults are the NEXT states of 60_exceptions.md R260
(`State.takeFault`), and no step of the core stops the machine (70_reset_and_hazards.md R289; log 9). Safe. -/
inductive Fault where
deriving DecidableEq, Repr

/-- Why a step has no meaning. -/
inductive Refusal where
  /-- An instruction without a meaning yet. Raised by `exec`'s arm only; no arm raises it now. Safe. -/
  | notModelled (mnemonic : String)
deriving DecidableEq, Repr

/-- The sixteen fault names of 60_exceptions.md R251, in the order of their codes `0x01` to `0x10`. -/
inductive ErrCode where
  | illegalCmd | uninit | len | range | modulus | divZero | notInvertible | pointForm
  | scalarRange | malformedPoint | curveUnsupported | unknownCurve | iobRange | curveParam
  | valueFit | notValidated
deriving DecidableEq, Repr

/-- A big-number register `B[i]` (10_state.md R21, R22). -/
structure BReg where
  /-- Written since reset (R22). -/
  valid : Bool
  /-- The number of digits, `1 ≤ len ≤ CAP` (R21). -/
  len : Nat
  /-- The value of the digits, `< 2^(W*len)` (R21). -/
  val : Nat
deriving DecidableEq, Repr

/-- A context slot `C[i]`, and the field context inside the curve slot (10_state.md R30). -/
structure Ctx where
  valid : Bool
  s : Nat
  m : Nat
  m0 : Nat
  mprime : Nat
  rmod : Nat
  r2mod : Nat
  r3mod : Nat
  mu : Nat
deriving DecidableEq, Repr

/-- `CRV.type` (10_state.md R32). -/
inductive CurveType where
  | weierstrass | twistedEdwards
deriving DecidableEq, Repr

/-- `CRV.spec`, the doubling specialization: 0 for `a = 0`, 1 for `a = p - 3`, 2 for TED-curves (10_state.md R33). -/
inductive DblSpec where
  | aZero | aMinus3 | twisted
deriving DecidableEq, Repr

/-- The curve slot `CRV` (10_state.md R32) with its derived fields (R33). -/
structure Curve where
  valid : Bool
  type : CurveType
  p : Nat
  a : Nat
  bd : Nat
  order : Nat
  gx : Nat
  gy : Nat
  rbits : Nat
  fctx : Ctx
  spec : DblSpec
  w : Nat
  one : Nat
  /-- `a_m = a*R mod p` (R33). -/
  aM : Nat
  /-- `bd_m = bd*R mod p` (R33). -/
  bdM : Nat
deriving DecidableEq, Repr

/-- A point register `P[i]` (10_state.md R28). -/
structure PReg where
  valid : Bool
  x : Nat
  y : Nat
  z : Nat
  ta : Nat
  tb : Nat
  hasZ : Bool
  hasT : Bool
  inf : Bool
  mont : Bool
  onc : Bool
deriving DecidableEq, Repr

/-- `STATUS.CMP`: 0 equal, 1 greater, 2 less; "`3` never produced" (10_state.md R24). -/
inductive CmpFlag where
  | equal | greater | less
deriving DecidableEq, Repr

/-- The fields of `STATUS` (10_state.md R25); the reserved bits read 0 and hold nothing. -/
structure Status where
  busy : Bool
  done : Bool
  fault : Bool
  carry : Bool
  v : Bool
  cmp : CmpFlag
deriving DecidableEq, Repr

/-- One access of the host to the block (20_memory.md R53, R54), or the reset wire (70_reset_and_hazards.md R281). Register
accesses are whole aligned words, so a register is named by its word number, offset divided by 4. The wire, level or pulse in R281, is one
instantaneous event here, and nothing is said of accesses made while it is held: DESIGN CHOICE, log 25. -/
inductive HostAccess where
  | writeReg (word : Fin 256) (data : Word)
  | readReg (word : Fin 256)
  | writeIob (a : Fin 1024) (data : Byte)
  | readIob (a : Fin 1024)
  | reset
deriving DecidableEq, Repr

/-- A pending host access. `early` says that it lands before the running command completes, when one is running
(20_memory.md R65; log 3). -/
structure HostOp where
  access : HostAccess
  early : Bool
deriving DecidableEq, Repr

/-- The bytes of `IOB` that are not `0x00`, addresses strictly rising (10_state.md R35, R41). -/
abbrev Memory := List Host.Cell

/-- The whole state: 10_state.md R20's list, the parameter `W` that `ID` shows, and the host's side. -/
structure State where
  /-- `DIGIT_BITS`, an OPEN parameter (00_scope.md R7) readable through `ID` (10_state.md R40); no step changes it (log 1). -/
  width : DigitWidth
  /-- `B[0..15]` (10_state.md R21). -/
  b : Vector BReg 16
  /-- `P[0..7]` (10_state.md R28). -/
  p : Vector PReg 8
  /-- `C[0..3]` (10_state.md R30). -/
  c : Vector Ctx 4
  /-- `CRV` (10_state.md R32, R33). -/
  crv : Curve
  /-- `IOB[0..1023]` (10_state.md R35). -/
  iob : Memory
  /-- `STATUS` (10_state.md R25). -/
  status : Status
  /-- `FAULTCODE` (10_state.md R26). -/
  faultCode : Word
  /-- `FAULTCMD` (10_state.md R26). -/
  faultCmd : Word
  /-- The latched word of the accepted command (10_state.md R27); zero when none is running (log 6). -/
  cmd : Word
  /-- The host's script index `ci` (10_state.md R23; log 7). -/
  ci : Nat
  /-- The host's pending accesses, first first (log 4). -/
  host : List HostOp
  /-- What the host's last read returned (20_memory.md R54; log 8). -/
  rdata : Word
  /-- The model's own counter of free values read (20_memory.md R65; log 5). -/
  freeReads : Nat
deriving DecidableEq, Repr

/-- An unwritten big-number register (10_state.md R41). -/
def BReg.empty : BReg := ⟨false, 0, 0⟩

/-- An unwritten context slot (10_state.md R41). -/
def Ctx.empty : Ctx := ⟨false, 0, 0, 0, 0, 0, 0, 0, 0⟩

/-- An unwritten curve slot (10_state.md R41). -/
def Curve.empty : Curve :=
  ⟨false, .weierstrass, 0, 0, 0, 0, 0, 0, 0, Ctx.empty, .aZero, 0, 0, 0, 0⟩

/-- An unwritten point register (10_state.md R41). -/
def PReg.empty : PReg := ⟨false, 0, 0, 0, 0, 0, false, false, false, false, false⟩

/-- The core right after reset, for the digit width `w` (10_state.md R41, 70_reset_and_hazards.md R280). -/
def State.resetOf (w : DigitWidth) : State where
  width := w
  b := Vector.replicate 16 BReg.empty
  p := Vector.replicate 8 PReg.empty
  c := Vector.replicate 4 Ctx.empty
  crv := Curve.empty
  iob := []
  status := ⟨false, false, false, false, false, .equal⟩
  faultCode := 0
  faultCmd := 0
  cmd := 0
  ci := 0
  host := []
  rdata := 0
  freeReads := 0

/-- The machine right after reset, `W` at its instance value (00_scope.md R7, 70_reset_and_hazards.md R280). -/
def State.reset : State := State.resetOf Config.resetWidth

end Sys2Proof.Machine
end

