-- ==== Sys2Proof/Machine/Operands.lean ====
section
/-! DEFINITION. The spec's notation on numbers, digit arrays, byte strings and residues (00_scope.md R9 to R13). -/

namespace Sys2Proof.Machine

/-- "0 for `v = 0` and otherwise the position of the highest one bit plus one" (00_scope.md R9). -/
def bitlen (v : Nat) : Nat := if v = 0 then 0 else Nat.log2 v + 1

/-- `ceil(a / b)` (00_scope.md R9). -/
def ceilDiv (a b : Nat) : Nat := (a + b - 1) / b

/-- `normlen(v) = max(1, ceil(bitlen(v) / W))` (00_scope.md R10). -/
def normlen (W v : Nat) : Nat := max 1 (ceilDiv (bitlen v) W)

/-- `sel(mask, u, v)` as a value (00_scope.md R12). -/
def sel (mask : Bool) (u v : Nat) : Nat := if mask then u else v

/-- `be(s)`, the value of a byte string read big-endian (00_scope.md R12). -/
def be (bytes : List Byte) : Nat := bytes.foldl (fun acc b => acc * 256 + b.toNat) 0

/-- `bytes_be(v, n)`, the `n`-byte big-endian string of `v` (00_scope.md R12). -/
def bytesBE (v n : Nat) : List Byte :=
  (List.range n).map fun i => BitVec.ofNat 8 (v / 256 ^ (n - 1 - i))

/-- `(a - b) mod 2^n` on the integers (40_digit_array.md R108). -/
def wrapSub (a b n : Nat) : Nat := (((a : Int) - (b : Int)) % ((2 ^ n : Nat) : Int)).toNat

/-- `a^e mod m` for `e < 2^fuel`, by squaring. -/
def powModAux (m : Nat) : Nat → Nat → Nat → Nat
  | 0, _, _ => 1 % m
  | fuel + 1, a, e =>
    if e % 2 = 1 then a * powModAux m fuel (a * a % m) (e / 2) % m
    else powModAux m fuel (a * a % m) (e / 2)

/-- `a^e mod m`, "with a^0 = 1, also for a = 0" (41_montgomery.md R131; log 12). -/
def powMod (a e m : Nat) : Nat := powModAux m (bitlen e) a e

/-- `Rinv`, the inverse of `R = 2^(W * c.s)` modulo `c.m` (00_scope.md R13): `(m + 1) / 2` is the inverse of 2 modulo an odd `m`
(log 11). -/
def rinv (W : Nat) (c : Ctx) : Nat := powMod ((c.m + 1) / 2) (W * c.s) c.m

/-- `mont(a, b, c) = a * b * Rinv mod c.m` (00_scope.md R13). -/
def mont (W : Nat) (c : Ctx) (a b : Nat) : Nat := a * b * rinv W c % c.m

/-- The inverse of an odd `m0` modulo `2^W` by Newton's iteration, `y * (2 - m0*y) mod 2^W` once per doubling of the number of
correct bits (41_montgomery.md R122). -/
def newtonInv (W m0 : Nat) : Nat → Nat
  | 0 => 1
  | k + 1 =>
    let y := newtonInv W m0 k
    y * (2 ^ W + 2 - m0 * y % 2 ^ W) % 2 ^ W

/-- `(-(m0^-1)) mod 2^W` (10_state.md R30, 41_montgomery.md R122: `ceil(log2 W)` iterations, and
`ceil(log2 W) = bitlen(W - 1)`). -/
def mPrime (W m0 : Nat) : Nat := (2 ^ W - newtonInv W m0 (bitlen (W - 1))) % 2 ^ W

/-- The loop of `euclid`, which ends when `r1 = 0`; every turn lowers `r1`, so `fuel ≥ r1` never runs out
(42_inversion_group.md R152; log 23). -/
def euclidLoop : Nat → Nat → Nat → Nat → Nat → Nat → Nat × Nat × Nat
  | 0, r0, _, t0, _, k => (r0, t0, k)
  | fuel + 1, r0, r1, t0, t1, k =>
    if r1 = 0 then (r0, t0, k)
    else euclidLoop fuel r1 (r0 - r0 / r1 * r1) t1 (t0 + r0 / r1 * t1) (k + 1)

/-- `euclid(r0, r1)`, which returns `(r0, t0, k)` (42_inversion_group.md R152). -/
def euclid (r0 r1 : Nat) : Nat × Nat × Nat := euclidLoop r1 r0 r1 0 1 0

/-- The masked modular addition: `t - m` always computed, chosen when `t ≥ m` (42_inversion_group.md R157). -/
def modAdd (m a b : Nat) : Nat := sel (decide (m ≤ a + b)) (a + b - m) (a + b)

/-- The masked modular subtraction (42_inversion_group.md R158). -/
def modSub (m a b : Nat) : Nat := sel (decide (a < b)) (a + m - b) (a - b)

end Sys2Proof.Machine
end

