-- ==== Sys2Proof/Machine/Flags.lean ====
section
/-! DEFINITION. Every flag computation of the spec (10_state.md R24) and the word views of `STATUS` and `ID` (R25, R40). -/

namespace Sys2Proof.Machine

/-- `STATUS.C` of `ADD`: the carry out of digit position `n - 1` of the exact sum `t` (40_digit_array.md R107). -/
def carryOut (W n t : Nat) : Bool := decide (2 ^ (W * n) ≤ t)

/-- `STATUS.C` of `SUB`: the borrow out (40_digit_array.md R108). -/
def borrowOut (a b : Nat) : Bool := decide (a < b)

/-- `STATUS.CMP` of `CMP` (40_digit_array.md R106). -/
def compareFlag (a b : Nat) : CmpFlag :=
  if a = b then .equal else if b < a then .greater else .less

/-- The two-bit code of `STATUS.CMP` (10_state.md R24). -/
def CmpFlag.code : CmpFlag → Nat
  | .equal => 0
  | .greater => 1
  | .less => 2

/-- Write the flag `C`, nothing else. -/
def State.setCarry (s : State) (f : Bool) : State := { s with status := { s.status with carry := f } }

/-- Write the flag `V`, nothing else. -/
def State.setV (s : State) (f : Bool) : State := { s with status := { s.status with v := f } }

/-- Write the field `CMP`, nothing else. -/
def State.setCmp (s : State) (f : CmpFlag) : State := { s with status := { s.status with cmp := f } }

/-- A one-bit field at bit `i`. -/
def flagBit (f : Bool) (i : Nat) : Nat := if f then 2 ^ i else 0

/-- The 32-bit `STATUS` register: BUSY 0, DONE 1, FAULT 2, C 4, V 5, CMP 7:6, the others read 0 (10_state.md R25). -/
def Status.word (t : Status) : Word :=
  BitVec.ofNat 32 (flagBit t.busy 0 + flagBit t.done 1 + flagBit t.fault 2 + flagBit t.carry 4 + flagBit t.v 5
    + t.cmp.code * 2 ^ 6)

/-- The `ID` register: `0x4D4D0100 + W` (10_state.md R40, R41). -/
def State.idWord (s : State) : Word := BitVec.ofNat 32 (0x4D4D0100 + s.width.bits)

end Sys2Proof.Machine
end

