-- ==== Sys2Proof/Machine/Ops.lean ====
section
/-! DEFINITION. The named operations every meaning is written in: the bytes of `IOB`, the register files, the end of a command, and
TAKING A FAULT (60_exceptions.md R260). There is no return from a fault (60_exceptions.md R263). -/

namespace Sys2Proof.Machine

/-- What a command does before its end: the writes of its rule, or the fault it raises. Every read of a rule is of the state
before the command (70_reset_and_hazards.md R290). -/
abbrev Effect (α : Type) := Except ErrCode α

/-! ## The I/O buffer -/

/-- One byte of `IOB`; an unlisted byte is `0x00`, its reset value (10_state.md R41). -/
def Memory.read : Memory → Nat → Byte
  | [], _ => 0
  | (k, v) :: rest, a => if k = a then v else Memory.read rest a

/-- Write one byte, keeping the canonical form: addresses strictly rising, `0x00` never listed. -/
def Memory.write : Memory → Nat → Byte → Memory
  | [], a, b => if b = 0 then [] else [(a, b)]
  | (k, v) :: rest, a, b =>
    if a < k then (if b = 0 then (k, v) :: rest else (a, b) :: (k, v) :: rest)
    else if a = k then (if b = 0 then rest else (k, b) :: rest)
    else (k, v) :: Memory.write rest a b

/-- `MemRead(a, n)` (00_scope.md R12). -/
def Memory.readBytes (m : Memory) (a n : Nat) : List Byte := (List.range n).map fun i => m.read (a + i)

/-- `MemWrite(a, n, s)` for the bytes `s` (00_scope.md R12). -/
def Memory.writeBytes (m : Memory) (a : Nat) : List Byte → Memory
  | [] => m
  | b :: bs => (m.write a b).writeBytes (a + 1) bs

/-- The canonical form holds above `lo`: every listed address is at least `lo` and below `1024`, addresses rise, no listed byte is
`0x00`. -/
def Memory.wfFrom : Nat → Memory → Bool
  | _, [] => true
  | lo, (k, v) :: rest => decide (lo ≤ k) && decide (k < Config.iobBytes) && (v != 0) && Memory.wfFrom (k + 1) rest

/-- The canonical form of `IOB`. -/
def Memory.wf (m : Memory) : Bool := Memory.wfFrom 0 m

/-! ## Raising a fault -/

/-- The code of a fault (60_exceptions.md R251). -/
def ErrCode.code : ErrCode → Nat
  | .illegalCmd => 0x01
  | .uninit => 0x02
  | .len => 0x03
  | .range => 0x04
  | .modulus => 0x05
  | .divZero => 0x06
  | .notInvertible => 0x07
  | .pointForm => 0x08
  | .scalarRange => 0x09
  | .malformedPoint => 0x0A
  | .curveUnsupported => 0x0B
  | .unknownCurve => 0x0C
  | .iobRange => 0x0D
  | .curveParam => 0x0E
  | .valueFit => 0x0F
  | .notValidated => 0x10

/-- `if cond: raise E` (00_scope.md R12). -/
def raiseIf (cond : Bool) (e : ErrCode) : Effect Unit := if cond then .error e else .ok ()

/-! ## Register files -/

/-- `W`, bits per digit (00_scope.md R7). -/
def State.W (s : State) : Nat := s.width.bits

/-- Read a big-number register: `E_UNINIT` when it is not valid (10_state.md R22, 00_scope.md R11). -/
def State.readB (s : State) (i : BSel) : Effect BReg :=
  if s.b[i].valid then .ok s.b[i] else .error .uninit

/-- `B[i] <- (n, v)` (00_scope.md R11). -/
def State.writeB (s : State) (i : BSel) (n v : Nat) : State := { s with b := s.b.set i ⟨true, n, v⟩ }

/-- Read a context slot (10_state.md R22, R30). -/
def State.readC (s : State) (i : CSel) : Effect Ctx :=
  if s.c[i].valid then .ok s.c[i] else .error .uninit

/-- Replace a context slot as a whole (10_state.md R31). -/
def State.writeC (s : State) (i : CSel) (c : Ctx) : State := { s with c := s.c.set i c }

/-- Read the curve slot (10_state.md R22, R32). -/
def State.readCrv (s : State) : Effect Curve :=
  if s.crv.valid then .ok s.crv else .error .uninit

/-- Install a curve: the whole descriptor is replaced and every point register becomes invalid (10_state.md R34). -/
def State.installCurve (s : State) (k : Curve) : State :=
  { s with crv := k, p := s.p.map fun q => { q with valid := false } }

/-- Read a point register (10_state.md R22, R28). -/
def State.readP (s : State) (i : PSel) : Effect PReg :=
  if s.p[i].valid then .ok s.p[i] else .error .uninit

/-- Write a point register as a whole (43_curve_point_forms.md R170 d). -/
def State.writeP (s : State) (i : PSel) (q : PReg) : State := { s with p := s.p.set i q }

/-- `MemWrite` on the state's buffer. -/
def State.writeIob (s : State) (a : Nat) (bytes : List Byte) : State := { s with iob := s.iob.writeBytes a bytes }

/-! ## The end of a command -/

/-- Completion: `BUSY <- 0`, `DONE <- 1` (70_reset_and_hazards.md R283), the latch is empty again (log 6), and the host's script
index advances by 1 (10_state.md R23). -/
def State.complete (s : State) : State :=
  { s with status := { s.status with busy := false, done := true }, cmd := 0, ci := s.ci + 1 }

/-- TAKING A FAULT `e` during the latched command word, "and nothing else" (60_exceptions.md R260, R261). -/
def State.takeFault (s : State) (e : ErrCode) : State :=
  { s with
    status := { s.status with busy := false, done := false, fault := true }
    faultCode := BitVec.ofNat 32 e.code
    faultCmd := s.cmd
    cmd := 0 }

/-- A command ends with all its writes, or with the fault and none of them (60_exceptions.md R261, 70_reset_and_hazards.md R283). -/
def State.finish (s : State) (r : Effect State) : Host.Outcome State Fault Refusal :=
  match r with
  | .ok t => .next t.complete
  | .error e => .next (s.takeFault e)

end Sys2Proof.Machine
end

