-- ==== Sys2Proof/Machine/Montgomery.lean ====
section
/-! DEFINITION. The Montgomery engine commands (41_montgomery.md): CTXNEW MONTMUL TOMONT FROMMONT MODEXP BRED CTXGET. -/

namespace Sys2Proof.Machine

/-- The context of an `n`-digit modulus `m`, with the checks of 41_montgomery.md R121 in their order; `CRVNEW` builds its field
context the same way (43_curve_point_forms.md R171). -/
def makeCtx (W n m : Nat) : Effect Ctx := do
  raiseIf (n > Config.maxS W) .modulus
  raiseIf (m / 2 ^ (W * (n - 1)) = 0) .modulus
  raiseIf (m = 1 ∨ m % 2 = 0) .modulus
  return {
    valid := true
    s := n
    m := m
    m0 := m % 2 ^ W
    mprime := mPrime W (m % 2 ^ W)
    rmod := 2 ^ (W * n) % m
    r2mod := 2 ^ (2 * W * n) % m
    r3mod := 2 ^ (3 * W * n) % m
    mu := 2 ^ (2 * W * n) / m }

/-- A residue operand: the value of a register, `E_RANGE` when it is not below the modulus (41_montgomery.md R120 b). -/
def residue (c : Ctx) (r : BReg) : Effect Nat := do
  raiseIf (r.val ≥ c.m) .range
  return r.val

/-- `CTXNEW C, Bs` (41_montgomery.md R121). -/
def execCtxnew (c : CSel) (bs : BSel) (s : State) : Host.Outcome State Fault Refusal :=
  s.finish do
    let r ← s.readB bs
    let k ← makeCtx s.W r.len r.val
    return s.writeC c k

/-- `MONTMUL Bd, Bs1, Bs2, C` (41_montgomery.md R123). -/
def execMontmul (bd ba bb : BSel) (c : CSel) (s : State) : Host.Outcome State Fault Refusal :=
  s.finish do
    let k ← s.readC c
    let ra ← s.readB ba
    let rb ← s.readB bb
    let a ← residue k ra
    let b ← residue k rb
    return s.writeB bd k.s (mont s.W k a b)

/-- `TOMONT Bd, Bs, C` (41_montgomery.md R127). -/
def execTomont (bd bs : BSel) (c : CSel) (s : State) : Host.Outcome State Fault Refusal :=
  s.finish do
    let k ← s.readC c
    let ra ← s.readB bs
    let a ← residue k ra
    return s.writeB bd k.s (mont s.W k a k.r2mod)

/-- `FROMMONT Bd, Bs, C` (41_montgomery.md R128). -/
def execFrommont (bd bs : BSel) (c : CSel) (s : State) : Host.Outcome State Fault Refusal :=
  s.finish do
    let k ← s.readC c
    let ra ← s.readB bs
    let a ← residue k ra
    return s.writeB bd k.s (mont s.W k a 1)

/-- `MODEXP Bd, Bbase, Bexp, C` (41_montgomery.md R131). The exponent is not reduced and not range-checked. -/
def execModexp (bd base expo : BSel) (c : CSel) (s : State) : Host.Outcome State Fault Refusal :=
  s.finish do
    let k ← s.readC c
    let ra ← s.readB base
    let re ← s.readB expo
    let a ← residue k ra
    return s.writeB bd k.s (powMod a re.val k.m)

/-- `BRED Bd, Bs, C` (41_montgomery.md R139). -/
def execBred (bd bs : BSel) (c : CSel) (s : State) : Host.Outcome State Fault Refusal :=
  s.finish do
    let k ← s.readC c
    let rx ← s.readB bs
    raiseIf (rx.val ≥ 2 ^ (2 * s.W * k.s)) .range
    return s.writeB bd k.s (rx.val % k.m)

/-- The one digit `CTXGET` selector 7 writes: `s`, as the rule says; where `s` does not fit one digit (`W = 8`, `s ≥ 256`) a free digit
(41_montgomery.md R142; log 21). -/
def countDigit (W n : Nat) : Nat := if n < 2 ^ W then n else Config.wideCount n % 2 ^ W

/-- The length and the value `CTXGET` writes (41_montgomery.md R142). -/
def ctxFieldValue (W : Nat) (k : Ctx) : CtxField → Nat × Nat
  | .m => (k.s, k.m)
  | .rmod => (k.s, k.rmod)
  | .r2mod => (k.s, k.r2mod)
  | .r3mod => (k.s, k.r3mod)
  | .mu => (k.s + 1, k.mu)
  | .mprime => (1, k.mprime)
  | .m0 => (1, k.m0)
  | .s => (1, countDigit W k.s)

/-- `CTXGET Bd, C, sel` (41_montgomery.md R142). -/
def execCtxget (bd : BSel) (c : CSel) (field : CtxField) (s : State) : Host.Outcome State Fault Refusal :=
  s.finish do
    let k ← s.readC c
    let f := ctxFieldValue s.W k field
    return s.writeB bd f.1 f.2

end Sys2Proof.Machine
end

