-- ==== Sys2Proof/Machine/Rom.lean ====
section
/-! DEFINITION. Building a curve descriptor (43_curve_point_forms.md R171) and the ROM of named curves (R174, R176; log 24). -/

namespace Sys2Proof.Machine

/-- The parameters of a curve, standard form (43_curve_point_forms.md R171); `np` is the digit length `p` is given with. -/
structure CurveParams where
  np : Nat
  p : Nat
  a : Nat
  bd : Nat
  order : Nat
  gx : Nat
  gy : Nat
  rbits : Nat
deriving DecidableEq, Repr

/-- `spec` of a W-curve from its coefficient `a`: 0 or `p - 3`, nothing else (43_curve_point_forms.md R171). -/
def weierstrassSpec (p a : Nat) : Effect DblSpec :=
  if a = 0 then .ok .aZero else if a = p - 3 then .ok .aMinus3 else .error .curveUnsupported

/-- The descriptor of given parameters, with the checks of 43_curve_point_forms.md R171 from `E_MODULUS` on, in their order. -/
def buildCurve (W : Nat) (type : CurveType) (q : CurveParams) : Effect Curve := do
  let fctx ← makeCtx W q.np q.p
  raiseIf (q.a ≥ q.p) .range
  raiseIf (q.bd ≥ q.p) .range
  raiseIf (q.gx ≥ q.p) .range
  raiseIf (q.gy ≥ q.p) .range
  let spec ← match type with
    | .weierstrass => weierstrassSpec q.p q.a
    | .twistedEdwards => .ok .twisted
  raiseIf (q.order < 3 ∨ q.order % 2 = 0 ∨ normlen W q.order > Config.maxS W) .curveParam
  raiseIf (type = .twistedEdwards ∧ (q.rbits < bitlen q.order ∨ q.rbits > W * Config.maxS W)) .curveParam
  return {
    valid := true
    type := type
    p := q.p
    a := q.a
    bd := q.bd
    order := q.order
    gx := q.gx
    gy := q.gy
    rbits := match type with
      | .weierstrass => bitlen q.order
      | .twistedEdwards => q.rbits
    fctx := fctx
    spec := spec
    w := if bitlen q.p ≤ 256 then 5 else 6
    one := fctx.rmod
    aM := q.a * 2 ^ (W * fctx.s) % q.p
    bdM := q.bd * 2 ^ (W * fctx.s) % q.p }

/-- P-256, `id = 1` (43_curve_point_forms.md R176). -/
def romP256 (W : Nat) : CurveParams :=
  let p := 0xFFFFFFFF00000001000000000000000000000000FFFFFFFFFFFFFFFFFFFFFFFF
  { np := normlen W p
    p := p
    a := p - 3
    bd := 0x5AC635D8AA3A93E7B3EBBD55769886BC651D06B0CC53B0F63BCE3C3E27D2604B
    order := 0xFFFFFFFF00000000FFFFFFFFFFFFFFFFBCE6FAADA7179E84F3B9CAC2FC632551
    gx := 0x6B17D1F2E12C4247F8BCE6E563A440F277037D812DEB33A0F4A13945D898C296
    gy := 0x4FE342E2FE1A7F9B8EE7EB4A7C0F9E162BCE33576B315ECECBB6406837BF51F5
    rbits := 0 }

/-- P-384, `id = 2` (43_curve_point_forms.md R176). -/
def romP384 (W : Nat) : CurveParams :=
  let p := 0xFFFFFFFFFFFFFFFFFFFFFFFFFFFFFFFFFFFFFFFFFFFFFFFFFFFFFFFFFFFFFFFEFFFFFFFF0000000000000000FFFFFFFF
  { np := normlen W p
    p := p
    a := p - 3
    bd := 0xB3312FA7E23EE7E4988E056BE3F82D19181D9C6EFE8141120314088F5013875AC656398D8A2ED19D2A85C8EDD3EC2AEF
    order := 0xFFFFFFFFFFFFFFFFFFFFFFFFFFFFFFFFFFFFFFFFFFFFFFFFC7634D81F4372DDF581A0DB248B0A77AECEC196ACCC52973
    gx := 0xAA87CA22BE8B05378EB1C71EF320AD746E1D3B628BA79B9859F741E082542A385502F25DBF55296C3A545E3872760AB7
    gy := 0x3617DE4A96262C6F5D9E98BF9292DC29F8F41DBD289A147CE9DA3113B5F0B8C00A60B1CE1D7E819D7A431D7C90EA0E5F
    rbits := 0 }

/-- P-521, `id = 3` (43_curve_point_forms.md R176). -/
def romP521 (W : Nat) : CurveParams :=
  let p := 0x01FFFFFFFFFFFFFFFFFFFFFFFFFFFFFFFFFFFFFFFFFFFFFFFFFFFFFFFFFFFFFFFFFFFFFFFFFFFFFFFFFFFFFFFFFFFFFFFFFFFFFFFFFFFFFFFFFFFFFFFFFFFFFFFFFF
  { np := normlen W p
    p := p
    a := p - 3
    bd := 0x0051953EB9618E1C9A1F929A21A0B68540EEA2DA725B99B315F3B8B489918EF109E156193951EC7E937B1652C0BD3BB1BF073573DF883D2C34F1EF451FD46B503F00
    order := 0x01FFFFFFFFFFFFFFFFFFFFFFFFFFFFFFFFFFFFFFFFFFFFFFFFFFFFFFFFFFFFFFFFFA51868783BF2F966B7FCC0148F709A5D03BB5C9B8899C47AEBB6FB71E91386409
    gx := 0x00C6858E06B70404E9CD9E3ECB662395B4429C648139053FB521F828AF606B4D3DBAA14B5E77EFE75928FE1DC127A2FFA8DE3348B3C1856A429BF97E7E31C2E5BD66
    gy := 0x011839296A789A3BC0045C8A5FB42C7D1BD998F54449579B446817AFBD17273E662C97EE72995EF42640C550B9013FAD0761353C7086A272C24088BE94769FD16650
    rbits := 0 }

/-- The named-curve table: ids 1, 2, 3, every other id is `E_UNKNOWN_CURVE` (43_curve_point_forms.md R174). -/
def romCurve (W id : Nat) : Effect CurveParams :=
  match id with
  | 1 => .ok (romP256 W)
  | 2 => .ok (romP384 W)
  | 3 => .ok (romP521 W)
  | _ => .error .unknownCurve

end Sys2Proof.Machine
end

