-- ==== Sys2Proof/Machine/Points.lean ====
section
/-! DEFINITION. The operations on points that several commands share: field arithmetic on stored values, the changes of form, doubling,
addition and negation (43_curve_point_forms.md R185 to R194, 44_point_arith.md R210 to R218).

Formulas are stated in the spec on represented values; evaluated on stored values with `mont` for the product they give the same
stored result (00_scope.md R13, 44_point_arith.md R210 d). -/

namespace Sys2Proof.Machine

/-! ## Field arithmetic on stored values modulo `p` -/

/-- `x * y`: the Montgomery product under the curve's field context (44_point_arith.md R210 d). -/
def Curve.fmul (k : Curve) (W x y : Nat) : Nat := mont W k.fctx x y

/-- `x + y` modulo `p` (44_point_arith.md R210 d). -/
def Curve.fadd (k : Curve) (x y : Nat) : Nat := (x + y) % k.p

/-- `x - y` modulo `p` (44_point_arith.md R210 d). -/
def Curve.fsub (k : Curve) (x y : Nat) : Nat := (x + (k.p - y % k.p)) % k.p

/-- `2x`, `3x`, `4x`, `8x`: repeated additions (44_point_arith.md R210 d). -/
def Curve.ftimes (k : Curve) (n x : Nat) : Nat := n * x % k.p

/-- `(p - x) mod p` (44_point_arith.md R218, 45_scalar_mul.md R237). -/
def Curve.fneg (k : Curve) (x : Nat) : Nat := (k.p - x) % k.p

/-- `finv(z) = mont(modexp(mont(z, 1), p - 2, s, fctx), fctx.r2mod)` (43_curve_point_forms.md R194). -/
def Curve.finv (k : Curve) (W z : Nat) : Nat :=
  mont W k.fctx (powMod (mont W k.fctx z 1) (k.p - 2) k.fctx.m) k.fctx.r2mod

/-! ## Identities -/

/-- `1` in a residue form: `R mod p` in Montgomery form, else 1 (10_state.md R29 c). -/
def Curve.unit (k : Curve) (isMont : Bool) : Nat := if isMont then k.one else 1

/-- The affine identity of 43_curve_point_forms.md R180: `(0, 0)` on a W-curve, `(0, 1)` on a TED-curve, in a residue form. -/
def Curve.affineIdentity (k : Curve) (isMont isOnc : Bool) : PReg where
  valid := true
  x := 0
  y := match k.type with
    | .weierstrass => 0
    | .twistedEdwards => k.unit isMont
  z := 0
  ta := 0
  tb := 0
  hasZ := false
  hasT := false
  inf := true
  mont := isMont
  onc := isOnc

/-- The canonical Jacobian identity `(1, 1, 0)` in a residue form (10_state.md R29 c, 43_curve_point_forms.md R192). -/
def Curve.jacobianIdentity (k : Curve) (isMont isOnc : Bool) : PReg where
  valid := true
  x := k.unit isMont
  y := k.unit isMont
  z := 0
  ta := 0
  tb := 0
  hasZ := true
  hasT := false
  inf := true
  mont := isMont
  onc := isOnc

/-- An affine point that is not flagged as the identity. -/
def affinePoint (x y : Nat) (isMont isOnc : Bool) : PReg where
  valid := true
  x := x
  y := y
  z := 0
  ta := 0
  tb := 0
  hasZ := false
  hasT := false
  inf := false
  mont := isMont
  onc := isOnc

/-- A Jacobian point that is not the identity. -/
def jacobianPoint (x y z : Nat) (isMont isOnc : Bool) : PReg where
  valid := true
  x := x
  y := y
  z := z
  ta := 0
  tb := 0
  hasZ := true
  hasT := false
  inf := false
  mont := isMont
  onc := isOnc

/-- An extended-projective point; its `inf` flag is never set (43_curve_point_forms.md R192, 44_point_arith.md R213). -/
def extendedPoint (x y z ta tb : Nat) (isMont isOnc : Bool) : PReg where
  valid := true
  x := x
  y := y
  z := z
  ta := ta
  tb := tb
  hasZ := true
  hasT := true
  inf := false
  mont := isMont
  onc := isOnc

/-! ## Changes of form -/

/-- The coordinates a point has: `x, y`; `z` if `hasZ`; `ta, tb` if `hasT` (43_curve_point_forms.md R190). -/
def PReg.present (q : PReg) : List Nat :=
  [q.x, q.y] ++ (if q.hasZ then [q.z] else []) ++ (if q.hasT then [q.ta, q.tb] else [])

/-- Replace each present coordinate; absent ones are written with zero (43_curve_point_forms.md R170 d, R190). -/
def PReg.mapCoords (q : PReg) (f : Nat → Nat) (isMont : Bool) : PReg :=
  { q with
    x := f q.x
    y := f q.y
    z := if q.hasZ then f q.z else 0
    ta := if q.hasT then f q.ta else 0
    tb := if q.hasT then f q.tb else 0
    mont := isMont }

/-- `PTOPROJ`'s operation on an affine point (43_curve_point_forms.md R192). -/
def Curve.proj (k : Curve) (q : PReg) : PReg :=
  match k.type with
  | .weierstrass =>
    if q.inf then k.jacobianIdentity q.mont q.onc
    else jacobianPoint q.x q.y (k.unit q.mont) q.mont q.onc
  | .twistedEdwards => extendedPoint q.x q.y (k.unit q.mont) q.x q.y q.mont q.onc

/-- `PTOAFF`'s operation on a projective point in Montgomery form (43_curve_point_forms.md R193). -/
def Curve.affine (k : Curve) (W : Nat) (q : PReg) : PReg :=
  match k.type with
  | .weierstrass =>
    if q.inf then k.affineIdentity true q.onc
    else
      let zi := k.finv W q.z
      let zi2 := k.fmul W zi zi
      affinePoint (k.fmul W q.x zi2) (k.fmul W q.y (k.fmul W zi2 zi)) true q.onc
  | .twistedEdwards =>
    let zi := k.finv W q.z
    let x := k.fmul W q.x zi
    let y := k.fmul W q.y zi
    { affinePoint x y true q.onc with inf := decide (x = 0 ∧ y = k.one) }

/-! ## Arithmetic -/

/-- Weierstrass doubling, Jacobian in and out (44_point_arith.md R212): the stated values, with the stored coefficient `a_m` for `a`
(log 13). -/
def Curve.wdbl (k : Curve) (W : Nat) (q : PReg) : PReg :=
  let mul := k.fmul W
  if q.inf then k.jacobianIdentity true q.onc
  else
    let yy := mul q.y q.y
    let zz := mul q.z q.z
    let s := k.ftimes 4 (mul q.x yy)
    let m := k.fadd (k.ftimes 3 (mul q.x q.x)) (mul k.aM (mul zz zz))
    let x3 := k.fsub (mul m m) (k.ftimes 2 s)
    let y3 := k.fsub (mul m (k.fsub s x3)) (k.ftimes 8 (mul yy yy))
    let z3 := k.ftimes 2 (mul q.y q.z)
    if z3 = 0 then k.jacobianIdentity true q.onc
    else jacobianPoint x3 y3 z3 true q.onc

/-- Twisted Edwards doubling, extended-projective in and out (44_point_arith.md R213). -/
def Curve.tdbl (k : Curve) (W : Nat) (q : PReg) : PReg :=
  let mul := k.fmul W
  let a := mul q.x q.x
  let b := mul q.y q.y
  let c := k.ftimes 2 (mul q.z q.z)
  let d := mul k.aM a
  let xy := k.fadd q.x q.y
  let e := k.fsub (k.fsub (mul xy xy) a) b
  let g := k.fadd d b
  let f := k.fsub g c
  let h := k.fsub d b
  extendedPoint (mul e f) (mul g h) (mul f g) e h true q.onc

/-- Weierstrass mixed addition, Jacobian + affine, with its degenerate cases (44_point_arith.md R215). -/
def Curve.wmadd (k : Curve) (W : Nat) (q1 q2 : PReg) : PReg :=
  let mul := k.fmul W
  let isOnc := q1.onc && q2.onc
  if q1.inf && q2.inf then k.jacobianIdentity true isOnc
  else if q1.inf then jacobianPoint q2.x q2.y k.one true isOnc
  else if q2.inf then { q1 with valid := true, hasT := false, mont := true, onc := isOnc }
  else
    let zz := mul q1.z q1.z
    let u2 := mul q2.x zz
    let s2 := mul (mul q2.y q1.z) zz
    let h := k.fsub u2 q1.x
    let r := k.fsub s2 q1.y
    if h = 0 ∧ r = 0 then { k.wdbl W q1 with onc := isOnc }
    else if h = 0 then k.jacobianIdentity true isOnc
    else
      let hh := mul h h
      let hhh := mul h hh
      let v := mul q1.x hh
      let x3 := k.fsub (k.fsub (mul r r) hhh) (k.ftimes 2 v)
      let y3 := k.fsub (mul r (k.fsub v x3)) (mul q1.y hhh)
      let z3 := mul q1.z h
      if z3 = 0 then k.jacobianIdentity true isOnc
      else jacobianPoint x3 y3 z3 true isOnc

/-- Twisted Edwards addition, both extended-projective, no case tested (44_point_arith.md R216). -/
def Curve.tadd (k : Curve) (W : Nat) (q1 q2 : PReg) : PReg :=
  let mul := k.fmul W
  let t1 := mul q1.ta q1.tb
  let t2 := mul q2.ta q2.tb
  let a := mul q1.x q2.x
  let b := mul q1.y q2.y
  let c := mul (mul k.bdM t1) t2
  let d := mul q1.z q2.z
  let e := k.fsub (k.fsub (mul (k.fadd q1.x q1.y) (k.fadd q2.x q2.y)) a) b
  let f := k.fsub d c
  let g := k.fadd d c
  let h := k.fsub b (mul k.aM a)
  extendedPoint (mul e f) (mul g h) (mul f g) e h true (q1.onc && q2.onc)

/-- Negate the coordinates that carry the sign: `y` on a W-curve, `x` and a present `ta` on a TED-curve (44_point_arith.md R218,
45_scalar_mul.md R237). -/
def Curve.negCoords (k : Curve) (q : PReg) : PReg :=
  match k.type with
  | .weierstrass => { q with y := k.fneg q.y }
  | .twistedEdwards => { q with x := k.fneg q.x, ta := if q.hasT then k.fneg q.ta else q.ta }

/-- `PNEG`'s operation: a flagged identity is returned as it is (44_point_arith.md R218). -/
def Curve.neg (k : Curve) (q : PReg) : PReg := if q.inf then q else k.negCoords q

/-- The doubling of the curve's family (44_point_arith.md R211). -/
def Curve.dbl (k : Curve) (W : Nat) (q : PReg) : PReg :=
  match k.type with
  | .weierstrass => k.wdbl W q
  | .twistedEdwards => k.tdbl W q

/-- The addition of the curve's family (44_point_arith.md R214). -/
def Curve.padd (k : Curve) (W : Nat) (q1 q2 : PReg) : PReg :=
  match k.type with
  | .weierstrass => k.wmadd W q1 q2
  | .twistedEdwards => k.tadd W q1 q2

end Sys2Proof.Machine
end

