-- ==== Sys2Proof/Machine/CurveForms.lean ====
section
/-! DEFINITION. The curve and point-form commands (43_curve_point_forms.md): CRVNEW CRVLD CRVGET PSET PGET PGEN PINF PMOV PCLR PTOMONT
PFROMMONT PTOPROJ PTOAFF PVAL PENC PDEC. -/

namespace Sys2Proof.Machine

/-- Read `B[n]` of a register run by its number; a run past `B15` is `E_ILLEGAL_CMD` (43_curve_point_forms.md R171). -/
def State.readRun (s : State) (n : Nat) : Effect BReg :=
  if h : n < 16 then s.readB ⟨n, h⟩ else .error .illegalCmd

/-- The curve type `imm8` selects, or `E_CURVE_UNSUPPORTED` (43_curve_point_forms.md R171). -/
def curveType (t : Nat) : Effect CurveType :=
  match t with
  | 0 => .ok .weierstrass
  | 1 => .ok .twistedEdwards
  | _ => .error .curveUnsupported

/-- `CRVNEW Bfirst, type` (43_curve_point_forms.md R171). The type is checked before the register run (30_encoding.md R77), which the
decoder refuses as well (log 15). -/
def execCrvnew (first : BSel) (type : Imm8) (s : State) : Host.Outcome State Fault Refusal :=
  s.finish do
    let t ← curveType type.val
    let cnt := match t with
      | .weierstrass => 6
      | .twistedEdwards => 7
    raiseIf (first.val + cnt > 16) .illegalCmd
    let p ← s.readRun first.val
    let a ← s.readRun (first.val + 1)
    let bd ← s.readRun (first.val + 2)
    let order ← s.readRun (first.val + 3)
    let gx ← s.readRun (first.val + 4)
    let gy ← s.readRun (first.val + 5)
    let rbits ← match t with
      | .weierstrass => .ok 0
      | .twistedEdwards => (s.readRun (first.val + 6)).map BReg.val
    let k ← buildCurve s.W t ⟨p.len, p.val, a.val, bd.val, order.val, gx.val, gy.val, rbits⟩
    return s.installCurve k

/-- `CRVLD id`: the ROM descriptor, built as `CRVNEW` would, type 0 (43_curve_point_forms.md R174; log 16). -/
def execCrvld (id : Imm8) (s : State) : Host.Outcome State Fault Refusal :=
  s.finish do
    let q ← romCurve s.W id.val
    let k ← buildCurve s.W .weierstrass q
    return s.installCurve k

/-- `CRV.type` as a number (10_state.md R32). -/
def CurveType.code : CurveType → Nat
  | .weierstrass => 0
  | .twistedEdwards => 1

/-- `CRV.spec` as a number (10_state.md R33). -/
def DblSpec.code : DblSpec → Nat
  | .aZero => 0
  | .aMinus3 => 1
  | .twisted => 2

/-- The length and the value `CRVGET` writes (43_curve_point_forms.md R175). -/
def crvFieldValue (W : Nat) (k : Curve) : CrvField → Nat × Nat
  | .p => (k.fctx.s, k.p)
  | .a => (k.fctx.s, k.a)
  | .bd => (k.fctx.s, k.bd)
  | .order => (normlen W k.order, k.order)
  | .gx => (k.fctx.s, k.gx)
  | .gy => (k.fctx.s, k.gy)
  | .rbits => (normlen W k.rbits, k.rbits)
  | .info => (1, k.type.code + 2 * k.spec.code + 16 * k.w)

/-- `CRVGET Bd, sel` (43_curve_point_forms.md R175). -/
def execCrvget (bd : BSel) (field : CrvField) (s : State) : Host.Outcome State Fault Refusal :=
  s.finish do
    let k ← s.readCrv
    let f := crvFieldValue s.W k field
    return s.writeB bd f.1 f.2

/-- `PSET Pd, Bx, By` (43_curve_point_forms.md R177). -/
def execPset (pd : PSel) (xb yb : BSel) (s : State) : Host.Outcome State Fault Refusal :=
  s.finish do
    let k ← s.readCrv
    let x ← s.readB xb
    let y ← s.readB yb
    raiseIf (x.val ≥ 2 ^ (s.W * k.fctx.s) ∨ y.val ≥ 2 ^ (s.W * k.fctx.s)) .len
    return s.writeP pd (affinePoint x.val y.val false false)

/-- The flags word of `PGET` selector 5 (43_curve_point_forms.md R178). -/
def PReg.flags (q : PReg) : Nat :=
  flagBit q.hasZ 0 + flagBit q.hasT 1 + flagBit q.inf 2 + flagBit q.mont 3 + flagBit q.onc 4

/-- The length and the value `PGET` writes; an absent coordinate is `E_POINT_FORM` (43_curve_point_forms.md R178, 10_state.md R28). -/
def ptFieldValue (n : Nat) (q : PReg) : PtField → Effect (Nat × Nat)
  | .x => .ok (n, q.x)
  | .y => .ok (n, q.y)
  | .z => if q.hasZ then .ok (n, q.z) else .error .pointForm
  | .ta => if q.hasT then .ok (n, q.ta) else .error .pointForm
  | .tb => if q.hasT then .ok (n, q.tb) else .error .pointForm
  | .flags => .ok (1, q.flags)

/-- `PGET Bd, Ps, sel` (43_curve_point_forms.md R178). -/
def execPget (bd : BSel) (ps : PSel) (field : PtField) (s : State) : Host.Outcome State Fault Refusal :=
  s.finish do
    let k ← s.readCrv
    let q ← s.readP ps
    let f ← ptFieldValue k.fctx.s q field
    return s.writeB bd f.1 f.2

/-- `PGEN Pd` (43_curve_point_forms.md R179). -/
def execPgen (pd : PSel) (s : State) : Host.Outcome State Fault Refusal :=
  s.finish do
    let k ← s.readCrv
    return s.writeP pd (affinePoint k.gx k.gy false false)

/-- `PINF Pd` (43_curve_point_forms.md R180). -/
def execPinf (pd : PSel) (s : State) : Host.Outcome State Fault Refusal :=
  s.finish do
    let k ← s.readCrv
    return s.writeP pd (k.affineIdentity false true)

/-- `PMOV Pd, Ps` (43_curve_point_forms.md R181). -/
def execPmov (pd ps : PSel) (s : State) : Host.Outcome State Fault Refusal :=
  s.finish do
    let _ ← s.readCrv
    let q ← s.readP ps
    return s.writeP pd q

/-- `PCLR Pd`: reads nothing and needs no curve (43_curve_point_forms.md R182). -/
def execPclr (pd : PSel) (s : State) : Host.Outcome State Fault Refusal :=
  s.finish (.ok (s.writeP pd PReg.empty))

/-- `PTOMONT Pd, Ps` (43_curve_point_forms.md R190). -/
def execPtomont (pd ps : PSel) (s : State) : Host.Outcome State Fault Refusal :=
  s.finish do
    let k ← s.readCrv
    let q ← s.readP ps
    raiseIf q.mont .pointForm
    raiseIf (q.present.any fun t => decide (t ≥ k.p)) .range
    return s.writeP pd (q.mapCoords (fun t => mont s.W k.fctx t k.fctx.r2mod) true)

/-- `PFROMMONT Pd, Ps` (43_curve_point_forms.md R191). -/
def execPfrommont (pd ps : PSel) (s : State) : Host.Outcome State Fault Refusal :=
  s.finish do
    let k ← s.readCrv
    let q ← s.readP ps
    raiseIf (!q.mont) .pointForm
    return s.writeP pd (q.mapCoords (fun t => mont s.W k.fctx t 1) false)

/-- `PTOPROJ Pd, Ps` (43_curve_point_forms.md R192). -/
def execPtoproj (pd ps : PSel) (s : State) : Host.Outcome State Fault Refusal :=
  s.finish do
    let k ← s.readCrv
    let q ← s.readP ps
    raiseIf q.hasZ .pointForm
    return s.writeP pd (k.proj q)

/-- `PTOAFF Pd, Ps` (43_curve_point_forms.md R193). -/
def execPtoaff (pd ps : PSel) (s : State) : Host.Outcome State Fault Refusal :=
  s.finish do
    let k ← s.readCrv
    let q ← s.readP ps
    raiseIf (!q.hasZ || !q.mont) .pointForm
    return s.writeP pd (k.affine s.W q)

/-- The curve equation modulo `p`: `y^2 = x^3 + a*x + b`, or `a*x^2 + y^2 = 1 + d*x^2*y^2` with the coefficient `a`
(43_curve_point_forms.md R196, 90_conflicts.md C4). -/
def Curve.equation (k : Curve) (x y : Nat) : Bool :=
  match k.type with
  | .weierstrass => decide (y * y % k.p = (x * x * x + k.a * x + k.bd) % k.p)
  | .twistedEdwards => decide ((k.a * (x * x) + y * y) % k.p = (1 + k.bd * (x * x) * (y * y)) % k.p)

/-- `validatePoint` on an affine standard-form point (43_curve_point_forms.md R196). -/
def Curve.validate (k : Curve) (q : PReg) : Bool :=
  !q.inf && decide (q.x < k.p) && decide (q.y < k.p) && k.equation q.x q.y

/-- `PVAL Ps` (43_curve_point_forms.md R196). -/
def execPval (ps : PSel) (s : State) : Host.Outcome State Fault Refusal :=
  s.finish do
    let k ← s.readCrv
    let q ← s.readP ps
    raiseIf (q.hasZ || q.mont) .pointForm
    let ok := k.validate q
    return (s.writeP ps { q with onc := ok }).setV ok

/-- `L = ceil(bitlen(p) / 8)`, the byte length of the field prime (43_curve_point_forms.md R198). -/
def Curve.byteLen (k : Curve) : Nat := ceilDiv (bitlen k.p) 8

/-- `PENC Ps, off, len` (43_curve_point_forms.md R198). -/
def execPenc (ps : PSel) (off lenm1 : Imm10) (s : State) : Host.Outcome State Fault Refusal :=
  s.finish do
    let len := lenm1.val + 1
    raiseIf (off.val + len > Config.iobBytes) .iobRange
    let k ← s.readCrv
    let q ← s.readP ps
    raiseIf (q.hasZ || q.mont) .pointForm
    let l := k.byteLen
    raiseIf (len ≠ (if q.inf then 1 else 1 + 2 * l)) .len
    if q.inf then
      return s.writeIob off.val [0x00]
    else
      raiseIf (q.x ≥ 256 ^ l ∨ q.y ≥ 256 ^ l) .valueFit
      return s.writeIob off.val (0x04 :: (bytesBE q.x l ++ bytesBE q.y l))

/-- The point a byte string encodes (43_curve_point_forms.md R199). -/
def Curve.decodePoint (k : Curve) (buf : List Byte) : Effect PReg :=
  match buf with
  | [] => .error .malformedPoint
  | lead :: rest =>
    if lead = 0x00 ∧ rest.length = 0 then .ok (k.affineIdentity false false)
    else if lead = 0x04 ∧ rest.length = 2 * k.byteLen then
      .ok (affinePoint (be (rest.take k.byteLen)) (be (rest.drop k.byteLen)) false false)
    else .error .malformedPoint

/-- `PDEC Pd, off, len` (43_curve_point_forms.md R199). -/
def execPdec (pd : PSel) (off lenm1 : Imm10) (s : State) : Host.Outcome State Fault Refusal :=
  s.finish do
    let len := lenm1.val + 1
    raiseIf (off.val + len > Config.iobBytes) .iobRange
    let k ← s.readCrv
    let q ← k.decodePoint (s.iob.readBytes off.val len)
    return s.writeP pd q

end Sys2Proof.Machine
end

