-- ==== Sys2Proof/Machine/DigitArray.lean ====
section
/-! DEFINITION. The digit-array commands (40_digit_array.md): LDB STB MOV CLR NORM CMP ADD SUB MUL DIVREM. -/

namespace Sys2Proof.Machine

/-- `LDB Bd, off, len` (40_digit_array.md R101). -/
def execLdb (bd : BSel) (off lenm1 : Imm10) (s : State) : Host.Outcome State Fault Refusal :=
  s.finish do
    raiseIf (off.val + (lenm1.val + 1) > Config.iobBytes) .iobRange
    let v := be (s.iob.readBytes off.val (lenm1.val + 1))
    return s.writeB bd (normlen s.W v) v

/-- `STB Bs, off, len` (40_digit_array.md R102). -/
def execStb (bs : BSel) (off lenm1 : Imm10) (s : State) : Host.Outcome State Fault Refusal :=
  s.finish do
    raiseIf (off.val + (lenm1.val + 1) > Config.iobBytes) .iobRange
    let a ← s.readB bs
    raiseIf (a.val ≥ 256 ^ (lenm1.val + 1)) .valueFit
    return s.writeIob off.val (bytesBE a.val (lenm1.val + 1))

/-- `MOV Bd, Bs` (40_digit_array.md R103). -/
def execMov (bd bs : BSel) (s : State) : Host.Outcome State Fault Refusal :=
  s.finish do
    let a ← s.readB bs
    return s.writeB bd a.len a.val

/-- `CLR Bd` (40_digit_array.md R104). -/
def execClr (bd : BSel) (s : State) : Host.Outcome State Fault Refusal :=
  s.finish (.ok (s.writeB bd 1 0))

/-- `NORM Bd, Bs` (40_digit_array.md R105). -/
def execNorm (bd bs : BSel) (s : State) : Host.Outcome State Fault Refusal :=
  s.finish do
    let a ← s.readB bs
    return s.writeB bd (normlen s.W a.val) a.val

/-- `CMP Bs1, Bs2` (40_digit_array.md R106). -/
def execCmp (ba bb : BSel) (s : State) : Host.Outcome State Fault Refusal :=
  s.finish do
    let a ← s.readB ba
    let b ← s.readB bb
    return s.setCmp (compareFlag a.val b.val)

/-- `ADD Bd, Bs1, Bs2` (40_digit_array.md R107). -/
def execAdd (bd ba bb : BSel) (s : State) : Host.Outcome State Fault Refusal :=
  s.finish do
    let a ← s.readB ba
    let b ← s.readB bb
    let n := max a.len b.len
    let t := a.val + b.val
    return (s.writeB bd n (t % 2 ^ (s.W * n))).setCarry (carryOut s.W n t)

/-- `SUB Bd, Bs1, Bs2` (40_digit_array.md R108). -/
def execSub (bd ba bb : BSel) (s : State) : Host.Outcome State Fault Refusal :=
  s.finish do
    let a ← s.readB ba
    let b ← s.readB bb
    let n := max a.len b.len
    return (s.writeB bd n (wrapSub a.val b.val (s.W * n))).setCarry (borrowOut a.val b.val)

/-- `MUL Bd, Bs1, Bs2` (40_digit_array.md R109). -/
def execMul (bd ba bb : BSel) (s : State) : Host.Outcome State Fault Refusal :=
  s.finish do
    let a ← s.readB ba
    let b ← s.readB bb
    raiseIf (a.len + b.len > Config.cap s.W) .len
    return s.writeB bd (a.len + b.len) (a.val * b.val)

/-- `DIVREM Bq, Br, Bs1, Bs2` (40_digit_array.md R110). The decoder refuses `Bq = Br` (30_encoding.md R76 d); so does the command
(log 15). -/
def execDivrem (bq br ba bb : BSel) (s : State) : Host.Outcome State Fault Refusal :=
  s.finish do
    raiseIf (bq = br) .illegalCmd
    let a ← s.readB ba
    let b ← s.readB bb
    raiseIf (b.val = 0) .divZero
    let q := a.val / b.val
    let r := a.val % b.val
    return (s.writeB bq (normlen s.W q) q).writeB br (normlen s.W r) r

end Sys2Proof.Machine
end

