-- ==== Sys2Proof/Machine/Inversion.lean ====
section
/-! DEFINITION. The inversion and integer-group commands (42_inversion_group.md): MODINV MODINVCT GCD MODADD MODSUB MODMUL. -/

namespace Sys2Proof.Machine

/-- `MODINV Bd, Ba, Bn` (42_inversion_group.md R151). -/
def execModinv (bd ba bn : BSel) (s : State) : Host.Outcome State Fault Refusal :=
  s.finish do
    let a ← s.readB ba
    let n ← s.readB bn
    raiseIf (n.val = 0) .divZero
    raiseIf (n.val = 1) .modulus
    let e := euclid n.val (a.val % n.val)
    raiseIf (e.1 ≠ 1) .notInvertible
    let inv := if e.2.2 % 2 = 1 then e.2.1 else n.val - e.2.1
    return s.writeB bd (normlen s.W n.val) inv

/-- `MODINVCT Bd, Bs, C` (42_inversion_group.md R154). -/
def execModinvct (bd bs : BSel) (c : CSel) (s : State) : Host.Outcome State Fault Refusal :=
  s.finish do
    let k ← s.readC c
    let ra ← s.readB bs
    let a ← residue k ra
    return s.writeB bd k.s (powMod a (k.m - 2) k.m)

/-- `GCD Bd, Bs1, Bs2` (42_inversion_group.md R155). -/
def execGcd (bd ba bb : BSel) (s : State) : Host.Outcome State Fault Refusal :=
  s.finish do
    let a ← s.readB ba
    let b ← s.readB bb
    let g := (euclid a.val b.val).1
    return s.writeB bd (normlen s.W g) g

/-- `MODADD Bd, Bs1, Bs2, C` (42_inversion_group.md R157). -/
def execModadd (bd ba bb : BSel) (c : CSel) (s : State) : Host.Outcome State Fault Refusal :=
  s.finish do
    let k ← s.readC c
    let ra ← s.readB ba
    let rb ← s.readB bb
    let a ← residue k ra
    let b ← residue k rb
    return s.writeB bd k.s (modAdd k.m a b)

/-- `MODSUB Bd, Bs1, Bs2, C` (42_inversion_group.md R158). -/
def execModsub (bd ba bb : BSel) (c : CSel) (s : State) : Host.Outcome State Fault Refusal :=
  s.finish do
    let k ← s.readC c
    let ra ← s.readB ba
    let rb ← s.readB bb
    let a ← residue k ra
    let b ← residue k rb
    return s.writeB bd k.s (modSub k.m a b)

/-- `MODMUL Bd, Bs1, Bs2, C`: two passes of the multiplier (42_inversion_group.md R159). -/
def execModmul (bd ba bb : BSel) (c : CSel) (s : State) : Host.Outcome State Fault Refusal :=
  s.finish do
    let k ← s.readC c
    let ra ← s.readB ba
    let rb ← s.readB bb
    let a ← residue k ra
    let b ← residue k rb
    return s.writeB bd k.s (mont s.W k (mont s.W k a b) k.r2mod)

end Sys2Proof.Machine
end

