-- ==== Sys2Proof/Machine/PointArith.lean ====
section
/-! DEFINITION. The point arithmetic commands (44_point_arith.md): PDBL PADD PNEG. -/

namespace Sys2Proof.Machine

/-- A projective point in Montgomery form, on a TED-curve with its auxiliary coordinates (44_point_arith.md R210 a). -/
def Curve.isProjMont (k : Curve) (q : PReg) : Bool :=
  q.hasZ && q.mont && (q.hasT || k.type == .weierstrass)

/-- The second source of `PADD`: affine on a W-curve, extended-projective on a TED-curve, in Montgomery form (44_point_arith.md R210 a). -/
def Curve.isSecondMont (k : Curve) (q : PReg) : Bool :=
  match k.type with
  | .weierstrass => !q.hasZ && q.mont
  | .twistedEdwards => q.hasZ && q.hasT && q.mont

/-- `PDBL Pd, Ps` (44_point_arith.md R211). -/
def execPdbl (pd ps : PSel) (s : State) : Host.Outcome State Fault Refusal :=
  s.finish do
    let k ← s.readCrv
    let q ← s.readP ps
    raiseIf (!k.isProjMont q) .pointForm
    return s.writeP pd (k.dbl s.W q)

/-- `PADD Pd, Ps1, Ps2` (44_point_arith.md R214). -/
def execPadd (pd pa pb : PSel) (s : State) : Host.Outcome State Fault Refusal :=
  s.finish do
    let k ← s.readCrv
    let q1 ← s.readP pa
    let q2 ← s.readP pb
    raiseIf (!k.isProjMont q1 || !k.isSecondMont q2) .pointForm
    return s.writeP pd (k.padd s.W q1 q2)

/-- `PNEG Pd, Ps` (44_point_arith.md R218). -/
def execPneg (pd ps : PSel) (s : State) : Host.Outcome State Fault Refusal :=
  s.finish do
    let k ← s.readCrv
    let q ← s.readP ps
    raiseIf (!q.mont) .pointForm
    return s.writeP pd (k.neg q)

end Sys2Proof.Machine
end

