-- ==== Sys2Proof/Machine/ScalarMul.lean ====
section
/-! DEFINITION. Scalar multiplication (45_scalar_mul.md): SMUL by the algorithm of R232 to R238, which is the definition of its result
wherever the group law's side conditions fail, and the group element of R231 where they hold (R239; log 14). -/

namespace Sys2Proof.Machine

/-- `fixedWindowRecode(kk, w, t)`: the digits `d[0] .. d[t]`, least significant first (45_scalar_mul.md R234). -/
def recode (w : Nat) : Nat → Nat → List Int
  | 0, kk => [(kk : Int)]
  | t + 1, kk =>
    (((kk % 2 ^ w : Nat) : Int) - ((2 ^ (w - 1) : Nat) : Int))
      :: recode w t ((kk + 2 ^ (w - 1) - kk % 2 ^ w) / 2 ^ (w - 1))

/-- The rest of the table after the entry `prev`, `n` entries, each the sum of the one before it and the doubled point `d`
(45_scalar_mul.md R235). -/
def Curve.tableFrom (k : Curve) (W : Nat) (d : PReg) : Nat → PReg → List PReg
  | 0, _ => []
  | n + 1, prev =>
    let next := match k.type with
      | .weierstrass => k.affine W (k.wmadd W (k.proj prev) d)
      | .twistedEdwards => k.tadd W prev d
    next :: k.tableFrom W d n next

/-- The table `T[0 .. 2^(w-2) - 1]`, `T[j] = (2j+1) * Q`: affine entries on a W-curve, extended-projective on a TED-curve
(45_scalar_mul.md R235, 90_conflicts.md C8). -/
def Curve.table (k : Curve) (W : Nat) (q : PReg) : List PReg :=
  match k.type with
  | .weierstrass => q :: k.tableFrom W (k.affine W (k.wdbl W (k.proj q))) (2 ^ (k.w - 2) - 1) q
  | .twistedEdwards => k.proj q :: k.tableFrom W (k.tdbl W (k.proj q)) (2 ^ (k.w - 2) - 1) (k.proj q)

/-- `lookup(T, d)`: the entry `(|d| - 1) / 2`, negated when `d` is negative (45_scalar_mul.md R237). -/
def Curve.lookup (k : Curve) (table : List PReg) (d : Int) : PReg :=
  let ent := table.getD ((d.natAbs - 1) / 2) PReg.empty
  if d < 0 then k.negCoords ent else ent

/-- `n` doublings (45_scalar_mul.md R232). -/
def Curve.doublings (k : Curve) (W : Nat) : Nat → PReg → PReg
  | 0, a => a
  | n + 1, a => k.doublings W n (k.dbl W a)

/-- The main loop over the digits below the top one, most significant first (45_scalar_mul.md R232). -/
def Curve.mainLoop (k : Curve) (W : Nat) (table : List PReg) : List Int → PReg → PReg
  | [], a => a
  | d :: ds, a => k.mainLoop W table ds (k.padd W (k.doublings W (k.w - 1) a) (k.lookup table d))

/-- The accumulator's start: the entry of the top digit in projective form (45_scalar_mul.md R232, R237). -/
def Curve.firstEntry (k : Curve) (table : List PReg) (d : Int) : PReg :=
  match k.type with
  | .weierstrass => k.proj (k.lookup table d)
  | .twistedEdwards => k.lookup table d

/-- The parity step `kk <- sel(even, n - kc, kc)` (45_scalar_mul.md R233). -/
def oddScalar (n scalar : Nat) : Nat := sel (scalar % 2 == 0) (n - scalar) scalar

/-- `t = ceil(rbits / (w - 1))`, the number of windows below the top digit (45_scalar_mul.md R232). -/
def Curve.windows (k : Curve) : Nat := ceilDiv k.rbits (k.w - 1)

/-- `smul(k, Q)` (45_scalar_mul.md R232 to R238). -/
def Curve.smul (k : Curve) (W scalar : Nat) (q : PReg) : PReg :=
  if q.inf then k.affineIdentity true true
  else
    let table := k.table W q
    match (recode k.w k.windows (oddScalar k.order scalar)).reverse with
    | [] => k.affineIdentity true true
    | top :: rest =>
      let a := k.mainLoop W table rest (k.firstEntry table top)
      let a := if scalar % 2 = 0 then k.neg a else a
      { k.affine W a with onc := true }

/-- `SMUL Pd, Ps, Bk` (45_scalar_mul.md R231). -/
def execSmul (pd ps : PSel) (bk : BSel) (s : State) : Host.Outcome State Fault Refusal :=
  s.finish do
    let k ← s.readCrv
    let q ← s.readP ps
    let r ← s.readB bk
    raiseIf (q.hasZ || !q.mont) .pointForm
    raiseIf (!q.onc) .notValidated
    raiseIf (r.val < 1 ∨ r.val ≥ k.order) .scalarRange
    return s.writeP pd (k.smul s.W r.val q)

end Sys2Proof.Machine
end

