-- ==== Sys2Proof/Machine/Dispatch.lean ====
section
/-! DEFINITION. The meaning of every command (30_encoding.md R75): one arm per constructor, one direct call each. -/

namespace Sys2Proof.Machine

/-- What a command does once it has been accepted: its effect, or the fault it takes (70_reset_and_hazards.md R283, R289). -/
def exec (i : Instr) (s : State) : Host.Outcome State Fault Refusal :=
  match i with
  | .ldb bd off lenm1 => Sys2Proof.Machine.execLdb bd off lenm1 s
  | .stb bs off lenm1 => Sys2Proof.Machine.execStb bs off lenm1 s
  | .mov bd bs => Sys2Proof.Machine.execMov bd bs s
  | .clr bd => Sys2Proof.Machine.execClr bd s
  | .norm bd bs => Sys2Proof.Machine.execNorm bd bs s
  | .cmp ba bb => Sys2Proof.Machine.execCmp ba bb s
  | .add bd ba bb => Sys2Proof.Machine.execAdd bd ba bb s
  | .sub bd ba bb => Sys2Proof.Machine.execSub bd ba bb s
  | .mul bd ba bb => Sys2Proof.Machine.execMul bd ba bb s
  | .divrem bq br ba bb => Sys2Proof.Machine.execDivrem bq br ba bb s
  | .ctxnew c bs => Sys2Proof.Machine.execCtxnew c bs s
  | .montmul bd ba bb c => Sys2Proof.Machine.execMontmul bd ba bb c s
  | .tomont bd bs c => Sys2Proof.Machine.execTomont bd bs c s
  | .frommont bd bs c => Sys2Proof.Machine.execFrommont bd bs c s
  | .modexp bd base expo c => Sys2Proof.Machine.execModexp bd base expo c s
  | .bred bd bs c => Sys2Proof.Machine.execBred bd bs c s
  | .ctxget bd c sel => Sys2Proof.Machine.execCtxget bd c sel s
  | .modinv bd ba bn => Sys2Proof.Machine.execModinv bd ba bn s
  | .modinvct bd bs c => Sys2Proof.Machine.execModinvct bd bs c s
  | .gcd bd ba bb => Sys2Proof.Machine.execGcd bd ba bb s
  | .modadd bd ba bb c => Sys2Proof.Machine.execModadd bd ba bb c s
  | .modsub bd ba bb c => Sys2Proof.Machine.execModsub bd ba bb c s
  | .modmul bd ba bb c => Sys2Proof.Machine.execModmul bd ba bb c s
  | .crvnew first type => Sys2Proof.Machine.execCrvnew first type s
  | .crvld id => Sys2Proof.Machine.execCrvld id s
  | .pset pd xb yb => Sys2Proof.Machine.execPset pd xb yb s
  | .pget bd ps sel => Sys2Proof.Machine.execPget bd ps sel s
  | .pgen pd => Sys2Proof.Machine.execPgen pd s
  | .pinf pd => Sys2Proof.Machine.execPinf pd s
  | .pmov pd ps => Sys2Proof.Machine.execPmov pd ps s
  | .pclr pd => Sys2Proof.Machine.execPclr pd s
  | .ptomont pd ps => Sys2Proof.Machine.execPtomont pd ps s
  | .pfrommont pd ps => Sys2Proof.Machine.execPfrommont pd ps s
  | .ptoproj pd ps => Sys2Proof.Machine.execPtoproj pd ps s
  | .ptoaff pd ps => Sys2Proof.Machine.execPtoaff pd ps s
  | .pval ps => Sys2Proof.Machine.execPval ps s
  | .penc ps off lenm1 => Sys2Proof.Machine.execPenc ps off lenm1 s
  | .pdec pd off lenm1 => Sys2Proof.Machine.execPdec pd off lenm1 s
  | .crvget bd sel => Sys2Proof.Machine.execCrvget bd sel s
  | .pdbl pd ps => Sys2Proof.Machine.execPdbl pd ps s
  | .padd pd pa pb => Sys2Proof.Machine.execPadd pd pa pb s
  | .pneg pd ps => Sys2Proof.Machine.execPneg pd ps s
  | .smul pd ps bk => Sys2Proof.Machine.execSmul pd ps bk s

end Sys2Proof.Machine
end

