-- ==== Sys2Proof/Machine/HostPort.lean ====
section
/-! DEFINITION. The host's side: its accesses to the block and the reset wire (20_memory.md R54, R65, 10_state.md R27,
70_reset_and_hazards.md R280 to R288). -/

namespace Sys2Proof.Machine

/-- Host read of the register at byte offset `4 * word`: `CMD` reads 0, `STATUS`, `FAULTCODE`, `FAULTCMD`, `ID`, reserved reads 0
(20_memory.md R54). -/
def State.hostRegister (s : State) (word : Fin 256) : Word :=
  match word.val with
  | 1 => s.status.word
  | 2 => s.faultCode
  | 3 => s.faultCmd
  | 4 => s.idWord
  | _ => 0

/-- The acceptance of a command word: `BUSY <- 1`, `DONE <- 0`, the word is latched (10_state.md R27). -/
def State.accept (s : State) (w : Word) : State :=
  { s with status := { s.status with busy := true, done := false }, cmd := w }

/-- Reset: the core's whole state at its reset values, the script index at 0 (70_reset_and_hazards.md R280, R281). What is the host's
own (its pending accesses, the data of its last read) and the model's counter of free values stay (log 17). The wire is one
instantaneous event, with no state of its being held: DESIGN CHOICE, log 25. -/
def State.resetCore (s : State) : State :=
  { State.resetOf s.width with host := s.host, rdata := s.rdata, freeReads := s.freeReads }

/-- One host access, landing on the state as it is (20_memory.md R54, R56, R65; 70_reset_and_hazards.md R288; 60_exceptions.md R262). -/
def State.hostAccess (s : State) : HostAccess → State
  | .writeReg word data =>
    if word.val = 0 ∧ s.status.busy = false ∧ s.status.fault = false then s.accept data else s
  | .readReg word => { s with rdata := s.hostRegister word }
  | .writeIob a data => if s.status.busy then s else s.writeIob a.val [data]
  | .readIob a =>
    if s.status.busy then
      { s with rdata := (Config.busyByte s.freeReads).zeroExtend 32, freeReads := s.freeReads + 1 }
    else { s with rdata := (s.iob.read a.val).zeroExtend 32 }
  | .reset => s.resetCore

/-- The offset of `IOB[0]` from the block's base (20_memory.md R54, 92_eei_decisions.md D6): byte `a` of `IOB` lies at `0x400 + a`. -/
def iobOffset : Nat := 0x400

/-- The size of the block; "everything outside the 2 KiB block is the platform's" (20_memory.md R54). -/
def blockBytes : Nat := 0x800

/-- A transfer of the host's bus at an offset of the block: a whole word, or one byte (20_memory.md R53). -/
inductive BusOp where
  | readWord
  | writeWord (data : Word)
  | readByte
  | writeByte (data : Byte)
deriving DecidableEq, Repr

/-- The register at an offset: aligned words below `IOB` (20_memory.md R53, R54). -/
def registerAt (off : Nat) : Option (Fin 256) :=
  if off < iobOffset ∧ off % 4 = 0 then some (Fin.ofNat 256 (off / 4)) else none

/-- The byte of `IOB` at an offset (20_memory.md R54). -/
def iobByteAt (off : Nat) : Option (Fin 1024) :=
  if iobOffset ≤ off ∧ off < blockBytes then some (Fin.ofNat 1024 (off - iobOffset)) else none

/-- The host view of 20_memory.md R54: which access of the core a bus transfer at an offset is. A misaligned or sub-word access to a register, a
word access to `IOB` and any access outside the block is none: the platform's bus decides, "a model has no such operation"
(93_implementation_defined.md U24; log 19). -/
def decodeBus (off : Nat) : BusOp → Option HostAccess
  | .readWord => (registerAt off).map .readReg
  | .writeWord data => (registerAt off).map fun word => .writeReg word data
  | .readByte => (iobByteAt off).map .readIob
  | .writeByte data => (iobByteAt off).map fun a => .writeIob a data

/-- A bus transfer of the host at an offset of the block, where it is an access of the core (20_memory.md R54). -/
def State.busAccess (s : State) (off : Nat) (op : BusOp) : Option State := (decodeBus off op).map s.hostAccess

/-- The next pending host access is marked to land before the running command completes (log 3). -/
def State.hostFirst (s : State) : Bool :=
  match s.host with
  | op :: _ => op.early
  | [] => false

/-- The host's turn: its next pending access, or nothing when it has none (70_reset_and_hazards.md R282: the core waits, idle; log 10). -/
def State.hostTurn (s : State) : State :=
  match s.host with
  | op :: rest => { s with host := rest }.hostAccess op.access
  | [] => s

/-- The first pending access is not marked early. -/
def lateHead : List HostOp → List HostOp
  | op :: rest => { op with early := false } :: rest
  | [] => []

/-- The core as if it had just accepted the word `w` and no host access landed before its completion. -/
def State.accepted (s : State) (w : Word) : State :=
  { s with
    status := { s.status with busy := true, done := false, fault := false }
    faultCode := 0
    faultCmd := 0
    cmd := w
    host := lateHead s.host }

end Sys2Proof.Machine
end

