-- ==== Sys2Proof/Machine/Control.lean ====
section
/-! DEFINITION. The core's turn: the latched command word decoded and executed (70_reset_and_hazards.md R283). -/

namespace Sys2Proof.Machine

/-- Decode the latched word and run it; a word that is illegal raises `E_ILLEGAL_CMD` (30_encoding.md R76, R82). -/
def runCommand (s : State) : Host.Outcome State Fault Refusal :=
  match decode s.cmd with
  | .ok i => exec i s
  | .error _ => .next (s.takeFault .illegalCmd)

/-- One step: the command in progress completes, unless a host access marked early comes first; with no command in progress the host
moves (log 3). -/
def stepOnce (s : State) : Host.Outcome State Fault Refusal :=
  if s.status.busy && !s.hostFirst then runCommand s else .next s.hostTurn

end Sys2Proof.Machine
end

