-- ==== Sys2Proof/Machine/Step.lean ====
section
/-! DEFINITION. The step of the machine, and how a test word comes to be its next command. -/

namespace Sys2Proof.Machine

/-- One step of the machine (70_reset_and_hazards.md R283; log 3). -/
def step (s : State) : Host.Outcome State Fault Refusal := stepOnce s

/-- `s` with the command word `w` accepted, so that the very next step decodes and runs it: the core has no program counter and takes its
commands from the host's write data (10_state.md R23, R27; log 4). -/
def State.withFetchWord (s : State) (nbits w : Nat) : State := s.accepted (BitVec.ofNat 32 (w % 2 ^ nbits))

end Sys2Proof.Machine
end

