-- ==== Sys2Proof/Machine/Datapath.lean ====
section
/-! DEFINITION. The loops inside the commands and their leak trace: what the spec gives "so that a model of the datapath has
something to be proved equal" to the commands' values (41_montgomery.md preamble). No meaning calls this file: a command's result is
its rule's value, and these loops hold nothing at a command boundary (10_state.md R36, R37; log 12, log 18, log 22).

The leak trace is "the list of (operation name, table index or register index touched) pairs a command performs", an observation and not
state (10_state.md R38). Where the spec gives a step by its value alone, its loops here run digit by digit and the value is the rule's. -/

namespace Sys2Proof.Machine

/-- A register of the files of 10_state.md R20, by its index. -/
inductive RegRef where
  | b (i : BSel)
  | p (i : PSel)
  | c (i : CSel)
  | crv
deriving DecidableEq, Repr

/-- One observed operation: "a call of `mont`, a read of a table entry, a read or write of a register, or a loop iteration"
(70_reset_and_hazards.md section 5; 10_state.md R38). Every loop of the rules leaves one `iter` each time its body runs. How a step that a rule
gives by its value alone is carried out, and with which of these operations, the spec does not say: DESIGN CHOICE, log 18, which lists them. -/
inductive LeakOp where
  | iter
  | mont
  | tableRead (j : Nat)
  | regRead (r : RegRef)
  | regWrite (r : RegRef)
deriving DecidableEq, Repr

/-- The operation is a read of a table entry. -/
def LeakOp.isTableRead : LeakOp → Bool
  | .tableRead _ => true
  | .iter | .mont | .regRead _ | .regWrite _ => false

/-- A computation with the operations it performs, in order. -/
abbrev Traced (α : Type) := WriterT (List LeakOp) Id α

/-- The value a traced computation returns. -/
def Traced.value {α : Type} (x : Traced α) : α := (Id.run x.run).1

/-- The trace a traced computation leaves. -/
def Traced.trace {α : Type} (x : Traced α) : List LeakOp := (Id.run x.run).2

/-- Perform one observed operation. -/
def observe (op : LeakOp) : Traced Unit := WriterT.mk (pure ((), [op]))

/-- Perform a loop of `n` turns whose body is not looked into: a copy, a scan or a shift, one turn a digit or a byte. -/
def turns : Nat → Traced Unit
  | 0 => return ()
  | n + 1 => do
    observe .iter
    turns n

/-! ## Digit arrays -/

/-- `digits(v, n)`, least significant first (00_scope.md R10). -/
def digits (W v n : Nat) : List Nat := (List.range n).map fun i => v / 2 ^ (W * i) % 2 ^ W

/-- `val(d)` (00_scope.md R10). -/
def digitsVal (W : Nat) : List Nat → Nat
  | [] => 0
  | d :: ds => d + 2 ^ W * digitsVal W ds

/-- The digit level of `ADD` (40_digit_array.md R107). -/
def addLoop (W : Nat) : List Nat → List Nat → Nat → Traced (List Nat × Nat)
  | a :: as, b :: bs, c => do
    observe .iter
    let rest ← addLoop W as bs ((a + b + c) / 2 ^ W)
    return ((a + b + c) % 2 ^ W :: rest.1, rest.2)
  | _, _, c => return ([], c)

/-- The digit level of `SUB` (40_digit_array.md R108). -/
def subLoop (W : Nat) : List Nat → List Nat → Nat → Traced (List Nat × Nat)
  | a :: as, b :: bs, c => do
    observe .iter
    let rest ← subLoop W as bs (if a < b + c then 1 else 0)
    return ((2 ^ W + a - b - c) % 2 ^ W :: rest.1, rest.2)
  | _, _, c => return ([], c)

/-- The digit level of `CMP`: the pairs of digits, most significant first, are all scanned and the verdict is kept in two mask bits
(40_digit_array.md R106). The rule allows this order or the reverse: DESIGN CHOICE, log 18. -/
def cmpLoop : List (Nat × Nat) → Bool → Bool → Traced CmpFlag
  | (a, b) :: rest, gt, lt => do
    observe .iter
    cmpLoop rest (gt || (!lt && decide (b < a))) (lt || (!gt && decide (a < b)))
  | [], gt, lt => return (if gt then .greater else if lt then .less else .equal)

/-- `CMP` of `a` and `b` at `n` digit positions, most significant first (40_digit_array.md R106, which allows the reverse as well: DESIGN CHOICE,
log 18). -/
def cmpDigits (W n a b : Nat) : Traced CmpFlag :=
  cmpLoop ((digits W a n).zip (digits W b n)).reverse false false

/-- One row of multiply-accumulate: the digits of `rs + as * b + c`, the last element the carry out (40_digit_array.md R111). -/
def mulRow (W b : Nat) : List Nat → List Nat → Nat → Traced (List Nat)
  | a :: as, r :: rs, c => do
    observe .iter
    let rest ← mulRow W b as rs ((r + a * b + c) / 2 ^ W)
    return (r + a * b + c) % 2 ^ W :: rest
  | _, _, c => return [c]

/-- The multiply loop over the digits of the second operand; `r` holds `r[i .. i+la-1]` (40_digit_array.md R111). -/
def mulLoop (W : Nat) (as : List Nat) : List Nat → List Nat → Traced (List Nat)
  | [], r => return r
  | b :: bs, r => do
    observe .iter
    let row ← mulRow W b as r 0
    let rest ← mulLoop W as bs row.tail
    return row.headD 0 :: rest

/-- The digit level of `MUL` (40_digit_array.md R111). -/
def mulDigits (W : Nat) (as bs : List Nat) : Traced (List Nat) :=
  mulLoop W as bs (List.replicate as.length 0)

/-- The scan for the normalized length: from the top digit down, as long as the digits are zero (40_digit_array.md R105; its length depends
on the value, 70_reset_and_hazards.md R294). -/
def stripLoop (W v : Nat) : Nat → Traced Unit
  | 0 => return ()
  | n + 1 => do
    observe .iter
    if v / 2 ^ (W * n) % 2 ^ W = 0 then stripLoop W v n else return ()

/-- `normlen(v)` of a value of `n` digits, found by the scan (00_scope.md R10, 40_digit_array.md R105). -/
def normlenT (W n v : Nat) : Traced Nat := do
  stripLoop W v n
  return normlen W v

/-- The masked modular addition: the sum, and the sum less `m`, both always computed (42_inversion_group.md R157). -/
def modAddT (W : Nat) (c : Ctx) (a b : Nat) : Traced Nat := do
  let _ ← addLoop W (digits W a c.s) (digits W b c.s) 0
  let _ ← subLoop W (digits W (a + b) (c.s + 1)) (digits W c.m (c.s + 1)) 0
  return modAdd c.m a b

/-- The masked modular subtraction: the difference, and the difference plus `m`, both always computed (42_inversion_group.md R158). -/
def modSubT (W : Nat) (c : Ctx) (a b : Nat) : Traced Nat := do
  let _ ← subLoop W (digits W a c.s) (digits W b c.s) 0
  let _ ← addLoop W (digits W (wrapSub a b (W * c.s)) c.s) (digits W c.m c.s) 0
  return modSub c.m a b

/-! ## Division (40_digit_array.md R112) -/

/-- At most `fuel` corrections of a trial quotient digit `qh` with its remainder `rh` (40_digit_array.md R112). -/
def correctDigit (W v1 v2 u2 : Nat) : Nat → Nat → Nat → Nat
  | 0, qh, _ => qh
  | fuel + 1, qh, rh =>
    if rh < 2 ^ W ∧ (qh ≥ 2 ^ W ∨ qh * v2 > rh * 2 ^ W + u2) then correctDigit W v1 v2 u2 fuel (qh - 1) (rh + v1)
    else qh

/-- One step of Algorithm D on the dividend `u`, for the divisor `v` of `n` digits: the quotient digit at position `j` and what is left
(40_digit_array.md R112). -/
def knuthStep (W n v j u : Nat) : Nat × Nat :=
  let digit := fun (x i : Nat) => x / 2 ^ (W * i) % 2 ^ W
  let v1 := digit v (n - 1)
  let top := digit u (j + n) * 2 ^ W + digit u (j + n - 1)
  let qh := correctDigit W v1 (digit v (n - 2)) (digit u (j + n - 2)) 2 (top / v1) (top % v1)
  let part := u / 2 ^ (W * j)
  let low := u % 2 ^ (W * j)
  if part < qh * v then (qh - 1, (part + v - qh * v) * 2 ^ (W * j) + low)
  else (qh, (part - qh * v) * 2 ^ (W * j) + low)

/-- The quotient digits at positions below `j`, and the remainder (40_digit_array.md R112). -/
def knuthLoop (W n v : Nat) : Nat → Nat → Nat × Nat
  | 0, u => (0, u)
  | j + 1, u =>
    let here := knuthStep W n v j u
    let rest := knuthLoop W n v j here.2
    (here.1 * 2 ^ (W * j) + rest.1, rest.2)

/-- Short division by one digit, from the top (40_digit_array.md R112). -/
def shortDivLoop (W b a : Nat) : Nat → Nat → Nat × Nat
  | 0, r => (0, r)
  | j + 1, r =>
    let cur := r * 2 ^ W + a / 2 ^ (W * j) % 2 ^ W
    let rest := shortDivLoop W b a j (cur % b)
    (cur / b * 2 ^ (W * j) + rest.1, rest.2)

/-- `divRem` of an `la`-digit `a` by `b ≠ 0`, by Knuth's Algorithm D (40_digit_array.md R112). -/
def knuthDivRem (W la a b : Nat) : Nat × Nat :=
  let n := normlen W b
  if a < b then (0, a)
  else if n = 1 then shortDivLoop W b a la 0
  else
    let sh := W * n - bitlen b
    let r := knuthLoop W n (b * 2 ^ sh) (la - n + 1) (a * 2 ^ sh)
    (r.1, r.2 / 2 ^ sh)

/-- The corrections of a trial quotient digit, traced: as many turns as there are corrections (40_digit_array.md R112). -/
def correctDigitT (W v1 v2 u2 : Nat) : Nat → Nat → Nat → Traced Nat
  | 0, qh, _ => return qh
  | fuel + 1, qh, rh =>
    if rh < 2 ^ W ∧ (qh ≥ 2 ^ W ∨ qh * v2 > rh * 2 ^ W + u2) then do
      observe .iter
      correctDigitT W v1 v2 u2 fuel (qh - 1) (rh + v1)
    else return qh

/-- One step of Algorithm D, traced: the corrections, the multiply-subtract over `n + 1` digits, and the add back when it borrowed
(40_digit_array.md R112). -/
def knuthStepT (W n v j u : Nat) : Traced (Nat × Nat) := do
  let digit := fun (x i : Nat) => x / 2 ^ (W * i) % 2 ^ W
  let v1 := digit v (n - 1)
  let top := digit u (j + n) * 2 ^ W + digit u (j + n - 1)
  let qh ← correctDigitT W v1 (digit v (n - 2)) (digit u (j + n - 2)) 2 (top / v1) (top % v1)
  turns (n + 1)
  if u / 2 ^ (W * j) < qh * v then turns (n + 1)
  return knuthStep W n v j u

/-- The loop of Algorithm D, traced (40_digit_array.md R112). -/
def knuthLoopT (W n v : Nat) : Nat → Nat → Traced Unit
  | 0, _ => return ()
  | j + 1, u => do
    observe .iter
    let here ← knuthStepT W n v j u
    knuthLoopT W n v j here.2

/-- `divRem` of an `la`-digit `a` by an `lb`-digit `b ≠ 0`, traced: the strip of the divisor, the comparison, then the short division, or the two
shifts, Algorithm D's loop and the shift back (40_digit_array.md R110, R112; the trace depends on the values, 70_reset_and_hazards.md R294). -/
def divRemT (W la lb a b : Nat) : Traced (Nat × Nat) := do
  let n ← normlenT W lb b
  let _ ← cmpDigits W (max la lb) a b
  if a < b then return (0, a)
  else if n = 1 then do
    turns la
    return (a / b, a % b)
  else do
    let sh := W * n - bitlen b
    turns n
    turns (la + 1)
    knuthLoopT W n (b * 2 ^ sh) (la - n + 1) (a * 2 ^ sh)
    turns n
    return (a / b, a % b)

/-- The loop of `euclid`, traced: one division a turn, then the cofactor's product and sum, the product on
normalized lengths and the sum `t0 + q*t1` over `normlen q + normlen t1` digits (42_inversion_group.md R152, which gives no length). The test `r1 ≠ 0` and the finding of those lengths leave no turn: DESIGN CHOICE, log 18. -/
def euclidLoopT (W : Nat) : Nat → Nat → Nat → Nat → Nat → Traced Unit
  | 0, _, _, _, _ => return ()
  | fuel + 1, r0, r1, t0, t1 =>
    if r1 = 0 then return ()
    else do
      observe .iter
      let qr ← divRemT W (normlen W r0) (normlen W r1) r0 r1
      let n := normlen W qr.1 + normlen W t1
      let _ ← mulDigits W (digits W qr.1 (normlen W qr.1)) (digits W t1 (normlen W t1))
      let _ ← addLoop W (digits W t0 n) (digits W (qr.1 * t1) n) 0
      euclidLoopT W fuel r1 qr.2 t1 (t0 + qr.1 * t1)

/-- `euclid(r0, r1)`, traced (42_inversion_group.md R152). -/
def euclidT (W r0 r1 : Nat) : Traced (Nat × Nat × Nat) := do
  euclidLoopT W r1 r0 r1 0 1
  return euclid r0 r1

/-! ## The Montgomery multiplier (41_montgomery.md R124, R126) -/

/-- One outer iteration of CIOS on the accumulator `t[0 .. s+1]`: the multiply row by the digit `b`, then the reduce row
(41_montgomery.md R124). -/
def ciosRow (W mprime : Nat) (as ms : List Nat) (b : Nat) (t : List Nat) : Traced (List Nat) := do
  let s := ms.length
  let low ← mulRow W b as (t.take s) 0
  let u := t.getD s 0 + low.getD s 0
  let t1 := low.take s ++ [u % 2 ^ W, u / 2 ^ W]
  let q := t1.headD 0 * mprime % 2 ^ W
  let red ← mulRow W q ms.tail (t1.tail.take (s - 1)) ((t1.headD 0 + q * ms.headD 0) / 2 ^ W)
  let u' := t1.getD s 0 + red.getD (s - 1) 0
  return red.take (s - 1) ++ [u' % 2 ^ W, t1.getD (s + 1) 0 + u' / 2 ^ W, t1.getD (s + 1) 0]

/-- The outer loop of CIOS over the digits of the second operand (41_montgomery.md R124). -/
def ciosLoop (W mprime : Nat) (as ms : List Nat) : List Nat → List Nat → Traced (List Nat)
  | [], t => return t
  | b :: bs, t => do
    observe .iter
    let t' ← ciosRow W mprime as ms b t
    ciosLoop W mprime as ms bs t'

/-- The branch-free select: each digit `(D AND M) OR (T AND NOT M)`, `M` all ones without a borrow (41_montgomery.md R126). -/
def selectDigits (W : Nat) (noBorrow : Bool) (d t : List Nat) : List Nat :=
  let mask := if noBorrow then 2 ^ W - 1 else 0
  List.zipWith (fun x y => (x &&& mask) ||| (y &&& (2 ^ W - 1 - mask))) d t

/-- The CIOS datapath with its final subtraction (41_montgomery.md R124, R126). The zeroing of the accumulator and the select leave no turn:
DESIGN CHOICE, log 18. -/
def cios (W : Nat) (c : Ctx) (a b : Nat) : Traced Nat := do
  let ms := digits W c.m c.s
  let t ← ciosLoop W c.mprime (digits W a c.s) ms (digits W b c.s) (List.replicate (c.s + 2) 0)
  let total := t.take (c.s + 1)
  let diff ← subLoop W total (digits W c.m (c.s + 1)) 0
  return digitsVal W ((selectDigits W (diff.2 == 0) diff.1 total).take c.s)

/-! ## Barrett reduction (41_montgomery.md R140) -/

/-- The masked subtraction of Barrett's end (41_montgomery.md R140). -/
def barrettCorrect (m r : Nat) : Nat := sel (decide (m ≤ r)) (r - m) r

/-- The Barrett datapath (41_montgomery.md R140). -/
def barrett (W : Nat) (c : Ctx) (x : Nat) : Nat :=
  let q1 := x / 2 ^ (W * (c.s - 1))
  let q2 := q1 * c.mu
  let q3 := q2 / 2 ^ (W * (c.s + 1))
  let r := wrapSub (x % 2 ^ (W * (c.s + 1))) (q3 * c.m % 2 ^ (W * (c.s + 1))) (W * (c.s + 1))
  barrettCorrect c.m (barrettCorrect c.m r)

/-- The Barrett steps, traced: the two products, the subtraction, and the two masked subtractions, all of them always done
(41_montgomery.md R140). Each of the `repeat 2 times` is one turn and its subtraction. -/
def barrettT (W : Nat) (c : Ctx) (x : Nat) : Traced Nat := do
  let n := c.s + 1
  let q1 := x / 2 ^ (W * (c.s - 1))
  let _ ← mulDigits W (digits W q1 n) (digits W c.mu n)
  let q3 := q1 * c.mu / 2 ^ (W * n)
  let _ ← mulDigits W (digits W q3 n) (digits W c.m c.s)
  let _ ← subLoop W (digits W x n) (digits W (q3 * c.m) n) 0
  let r := wrapSub (x % 2 ^ (W * n)) (q3 * c.m % 2 ^ (W * n)) (W * n)
  observe .iter
  let _ ← subLoop W (digits W r n) (digits W c.m n) 0
  observe .iter
  let _ ← subLoop W (digits W (barrettCorrect c.m r) n) (digits W c.m n) 0
  return x % c.m

/-! ## The constants of a context (41_montgomery.md R122) -/

/-- One reduction step of the constants: a product of two residues and its division by the modulus (41_montgomery.md R122). -/
def productModT (W n a b m : Nat) : Traced Nat := do
  let _ ← mulDigits W (digits W a n) (digits W b n)
  let qr ← divRemT W (2 * n) n (a * b) m
  return qr.2

/-- The constants of a context, computed as 41_montgomery.md R122 says: Newton's iteration, two divisions, two products reduced. -/
def ctxConstantsT (W n m : Nat) : Traced Unit := do
  turns (bitlen (W - 1))
  let _ ← divRemT W (2 * n + 1) n (2 ^ (2 * W * n)) m
  let r ← divRemT W (n + 1) n (2 ^ (W * n)) m
  let r2 ← productModT W n r.2 r.2 m
  let _ ← productModT W n r2 r.2 m

/-! ## Fixed-window exponentiation (41_montgomery.md R132 to R134) -/

/-- `cost(w)` (41_montgomery.md R133). -/
def windowCost (nbits w : Nat) : Nat := 2 ^ w - 2 + ceilDiv nbits w

/-- `optimalWindowSize(nbits)`: the cheapest `w` in `1..6`, the smallest on a tie (41_montgomery.md R133). The choice leaves no turn: DESIGN
CHOICE, log 18. -/
def optimalWindow (nbits : Nat) : Nat :=
  [2, 3, 4, 5, 6].foldl (fun best w => if windowCost nbits w < windowCost nbits best then w else best) 1

/-- A call of the multiplier: the loops of CIOS (41_montgomery.md R123, R124). -/
def montT (W : Nat) (c : Ctx) (a b : Nat) : Traced Nat := do
  observe .mont
  let _ ← cios W c a b
  return mont W c a b

/-- The `n` table entries from index `i` on, each the product of `tab[i-1]`, here `prev`, and `tab[1]`, both read from the table
(41_montgomery.md R132, 70_reset_and_hazards.md section 5). -/
def powerTable (W : Nat) (c : Ctx) (base : Nat) : Nat → Nat → Nat → Traced (List Nat)
  | 0, _, _ => return []
  | n + 1, i, prev => do
    observe .iter
    observe (.tableRead (i - 1))
    observe (.tableRead 1)
    let next ← montT W c prev base
    let rest ← powerTable W c base n (i + 1) next
    return next :: rest

/-- The full-table scan: every entry is read and masked (41_montgomery.md R134). An entry is one turn and one table read, its digits leave none:
DESIGN CHOICE, log 18. -/
def scanTable (d : Nat) : List Nat → Nat → Nat → Traced Nat
  | [], _, ent => return ent
  | t :: ts, j, ent => do
    observe .iter
    observe (.tableRead j)
    scanTable d ts (j + 1) (ent ||| sel (j == d) t 0)

/-- `n` squarings (41_montgomery.md R132). -/
def squarings (W : Nat) (c : Ctx) : Nat → Nat → Traced Nat
  | 0, acc => return acc
  | n + 1, acc => do
    observe .iter
    let sq ← montT W c acc acc
    squarings W c n sq

/-- The windows below `i`, most significant first (41_montgomery.md R132). -/
def windowLoop (W : Nat) (c : Ctx) (w e : Nat) (tab : List Nat) : Nat → Nat → Traced Nat
  | 0, acc => return acc
  | i + 1, acc => do
    observe .iter
    let sq ← squarings W c w acc
    let ent ← scanTable (e / 2 ^ (w * i) % 2 ^ w) tab 0 0
    let next ← montT W c sq ent
    windowLoop W c w e tab i next

/-- `modexp(a, e, le, c)` (41_montgomery.md R132). -/
def modexpWindows (W : Nat) (c : Ctx) (a e le : Nat) : Traced Nat := do
  let w := optimalWindow (W * le)
  let base ← montT W c a c.r2mod
  let more ← powerTable W c base (2 ^ w - 2) 2 base
  let acc ← windowLoop W c w e (c.rmod :: base :: more) (ceilDiv (W * le) w) c.rmod
  montT W c acc 1

end Sys2Proof.Machine
end

