-- ==== Sys2Proof/Machine/PointDatapath.lean ====
section
/-! DEFINITION. The datapath of the curve layer with its leak trace: field operations, doubling, addition, inversion, and scalar
multiplication with its recoding, its table and its masked lookups (44_point_arith.md R210 to R218, 45_scalar_mul.md R232 to R238). Each
operation runs the digit loops of its steps and returns the value its rule gives (log 18, log 22). -/

namespace Sys2Proof.Machine

/-! ## Field operations (44_point_arith.md R210 d) -/

/-- `x * y`: one call of the multiplier. -/
def Curve.mulT (k : Curve) (W x y : Nat) : Traced Nat := montT W k.fctx x y

/-- `x + y`: the masked modular addition. -/
def Curve.addT (k : Curve) (W x y : Nat) : Traced Nat := do
  let _ ← modAddT W k.fctx x y
  return k.fadd x y

/-- `x - y`: the masked modular subtraction. -/
def Curve.subT (k : Curve) (W x y : Nat) : Traced Nat := do
  let _ ← modSubT W k.fctx x y
  return k.fsub x y

/-- `(p - x) mod p`, as the masked subtraction of `x` from 0 (44_point_arith.md R218, 45_scalar_mul.md R237, which give the value alone:
DESIGN CHOICE, log 18). -/
def Curve.negT (k : Curve) (W x : Nat) : Traced Nat := do
  let _ ← modSubT W k.fctx 0 x
  return k.fneg x

/-- `n` additions of `x` to `acc`. An addition is seen by the turns of its digit loops and leaves no turn of its own: DESIGN CHOICE, log 18. -/
def Curve.addTimes (k : Curve) (W x : Nat) : Nat → Nat → Traced Nat
  | 0, acc => return acc
  | n + 1, acc => do
    let next ← k.addT W acc x
    k.addTimes W x n next

/-- `2x`, `3x`, `4x`, `8x`: repeated additions. -/
def Curve.timesT (k : Curve) (W n x : Nat) : Traced Nat := do
  let _ ← k.addTimes W x (n - 1) x
  return k.ftimes n x

/-! ## Point doubling by the operation sequences of 44_point_arith.md R212 and R213 -/

/-- The doubling sequence for `a = -3`, traced (44_point_arith.md R212, `spec = 1`): `(X3, Y3, Z3)`. -/
def Curve.dblMinus3T (k : Curve) (W x y z : Nat) : Traced (Nat × Nat × Nat) := do
  let delta ← k.mulT W z z
  let gamma ← k.mulT W y y
  let beta ← k.mulT W x gamma
  let alpha ← k.timesT W 3 (← k.mulT W (← k.subT W x delta) (← k.addT W x delta))
  let x3 ← k.subT W (← k.mulT W alpha alpha) (← k.timesT W 8 beta)
  let yz ← k.addT W y z
  let z3 ← k.subT W (← k.subT W (← k.mulT W yz yz) gamma) delta
  let y3 ← k.subT W (← k.mulT W alpha (← k.subT W (← k.timesT W 4 beta) x3)) (← k.timesT W 8 (← k.mulT W gamma gamma))
  return (x3, y3, z3)

/-- The doubling sequence for `a = -3`: the values of `dblMinus3T`. -/
def Curve.dblMinus3 (k : Curve) (W x y z : Nat) : Nat × Nat × Nat := (k.dblMinus3T W x y z).value

/-- The doubling sequence for `a = 0`, traced (44_point_arith.md R212, `spec = 0`): `(X3, Y3, Z3)`. -/
def Curve.dblZeroT (k : Curve) (W x y z : Nat) : Traced (Nat × Nat × Nat) := do
  let a ← k.mulT W x x
  let b ← k.mulT W y y
  let c ← k.mulT W b b
  let xb ← k.addT W x b
  let d ← k.timesT W 2 (← k.subT W (← k.subT W (← k.mulT W xb xb) a) c)
  let e ← k.timesT W 3 a
  let f ← k.mulT W e e
  let x3 ← k.subT W f (← k.timesT W 2 d)
  let y3 ← k.subT W (← k.mulT W e (← k.subT W d x3)) (← k.timesT W 8 c)
  let z3 ← k.timesT W 2 (← k.mulT W y z)
  return (x3, y3, z3)

/-- The doubling sequence for `a = 0`: the values of `dblZeroT`. -/
def Curve.dblZero (k : Curve) (W x y z : Nat) : Nat × Nat × Nat := (k.dblZeroT W x y z).value

/-- Weierstrass doubling, traced: nothing but a copy for a flagged identity, else the sequence the curve's `spec` selects, whatever `Z3` comes
out as (44_point_arith.md R212, 10_state.md R33). The copy is one turn a digit, and the test `Z3 = 0` leaves no turn: DESIGN CHOICE, log 18. -/
def Curve.wdblT (k : Curve) (W : Nat) (q : PReg) : Traced PReg :=
  if q.inf then do
    turns (3 * k.fctx.s)
    return k.wdbl W q
  else if k.spec = .aZero then do
    let _ ← k.dblZeroT W q.x q.y q.z
    return k.wdbl W q
  else do
    let _ ← k.dblMinus3T W q.x q.y q.z
    return k.wdbl W q

/-- Twisted Edwards doubling, traced (44_point_arith.md R213). -/
def Curve.tdblT (k : Curve) (W : Nat) (q : PReg) : Traced PReg := do
  let a ← k.mulT W q.x q.x
  let b ← k.mulT W q.y q.y
  let c ← k.timesT W 2 (← k.mulT W q.z q.z)
  let d ← k.mulT W k.aM a
  let xy ← k.addT W q.x q.y
  let e ← k.subT W (← k.subT W (← k.mulT W xy xy) a) b
  let g ← k.addT W d b
  let f ← k.subT W g c
  let h ← k.subT W d b
  let _ ← k.mulT W e f
  let _ ← k.mulT W g h
  let _ ← k.mulT W f g
  return k.tdbl W q

/-- The doubling of the curve's family, traced (44_point_arith.md R211). -/
def Curve.dblT (k : Curve) (W : Nat) (q : PReg) : Traced PReg :=
  match k.type with
  | .weierstrass => k.wdblT W q
  | .twistedEdwards => k.tdblT W q

/-! ## Point addition (44_point_arith.md R215, R216) -/

/-- The four paths of the mixed addition (44_point_arith.md R215). -/
inductive AddCase where
  /-- An operand is flagged as the identity. -/
  | identity
  /-- `H = 0` and `r = 0`: the doubling. -/
  | same
  /-- `H = 0` and `r ≠ 0`: the identity. -/
  | opposite
  /-- `H ≠ 0`: the whole formula. -/
  | general
deriving DecidableEq, Repr

/-- `H` and `r` of the mixed addition, traced (44_point_arith.md R215). -/
def Curve.differencesT (k : Curve) (W : Nat) (q1 q2 : PReg) : Traced (Nat × Nat) := do
  let zz ← k.mulT W q1.z q1.z
  let u2 ← k.mulT W q2.x zz
  let s2 ← k.mulT W (← k.mulT W q2.y q1.z) zz
  let h ← k.subT W u2 q1.x
  let r ← k.subT W s2 q1.y
  return (h, r)

/-- Which path the mixed addition takes (44_point_arith.md R215). -/
def Curve.addCase (k : Curve) (W : Nat) (q1 q2 : PReg) : AddCase :=
  let hr := (k.differencesT W q1 q2).value
  if q1.inf || q2.inf then .identity
  else if hr.1 = 0 ∧ hr.2 = 0 then .same
  else if hr.1 = 0 then .opposite
  else .general

/-- The part of the mixed addition after its tests: `X3`, `Y3`, `Z3` (44_point_arith.md R215). -/
def Curve.addGeneralT (k : Curve) (W : Nat) (q1 : PReg) (h r : Nat) : Traced Unit := do
  let hh ← k.mulT W h h
  let hhh ← k.mulT W h hh
  let v ← k.mulT W q1.x hh
  let x3 ← k.subT W (← k.subT W (← k.mulT W r r) hhh) (← k.timesT W 2 v)
  let _ ← k.subT W (← k.mulT W r (← k.subT W v x3)) (← k.mulT W q1.y hhh)
  let _ ← k.mulT W q1.z h

/-- Weierstrass mixed addition, traced: its path depends on the case (44_point_arith.md R215; 70_reset_and_hazards.md R294). The tests
`H = 0`, `r = 0` and `Z3 = 0`, and the canonical identity returned after one of them, leave no turn, while a point returned for a flagged operand is
copied at one turn a digit: DESIGN CHOICE, log 18. -/
def Curve.wmaddT (k : Curve) (W : Nat) (q1 q2 : PReg) : Traced PReg :=
  match k.addCase W q1 q2 with
  | .identity => do
    turns (3 * k.fctx.s)
    return k.wmadd W q1 q2
  | .same => do
    let _ ← k.differencesT W q1 q2
    let _ ← k.wdblT W q1
    return k.wmadd W q1 q2
  | .opposite => do
    let _ ← k.differencesT W q1 q2
    return k.wmadd W q1 q2
  | .general => do
    let hr ← k.differencesT W q1 q2
    k.addGeneralT W q1 hr.1 hr.2
    return k.wmadd W q1 q2

/-- Twisted Edwards addition, traced: one path (44_point_arith.md R216). -/
def Curve.taddT (k : Curve) (W : Nat) (q1 q2 : PReg) : Traced PReg := do
  let t1 ← k.mulT W q1.ta q1.tb
  let t2 ← k.mulT W q2.ta q2.tb
  let a ← k.mulT W q1.x q2.x
  let b ← k.mulT W q1.y q2.y
  let c ← k.mulT W (← k.mulT W k.bdM t1) t2
  let d ← k.mulT W q1.z q2.z
  let e ← k.subT W (← k.subT W (← k.mulT W (← k.addT W q1.x q1.y) (← k.addT W q2.x q2.y)) a) b
  let f ← k.subT W d c
  let g ← k.addT W d c
  let h ← k.subT W b (← k.mulT W k.aM a)
  let _ ← k.mulT W e f
  let _ ← k.mulT W g h
  let _ ← k.mulT W f g
  return k.tadd W q1 q2

/-- The addition of the curve's family, traced (44_point_arith.md R214). -/
def Curve.paddT (k : Curve) (W : Nat) (q1 q2 : PReg) : Traced PReg :=
  match k.type with
  | .weierstrass => k.wmaddT W q1 q2
  | .twistedEdwards => k.taddT W q1 q2

/-! ## Negation, inversion and the change to affine form -/

/-- The negated coordinates, traced: `y` on a W-curve; `x`, and `ta` where `withT` says so, on a TED-curve
(44_point_arith.md R218, 45_scalar_mul.md R237). -/
def Curve.negCoordsT (k : Curve) (W : Nat) (withT : Bool) (q : PReg) : Traced PReg :=
  match k.type with
  | .weierstrass => do
    let _ ← k.negT W q.y
    return k.negCoords q
  | .twistedEdwards => do
    let _ ← k.negT W q.x
    if withT then
      let _ ← k.negT W q.ta
    return k.negCoords q

/-- `finv(z)`, traced: a conversion, the exponentiation, a conversion (43_curve_point_forms.md R194). The exponent `p - 2` leaves no turn: DESIGN
CHOICE, log 18. -/
def Curve.finvT (k : Curve) (W z : Nat) : Traced Nat := do
  let a ← k.mulT W z 1
  let _ ← modexpWindows W k.fctx a (k.p - 2) k.fctx.s
  let _ ← k.mulT W (powMod a (k.p - 2) k.fctx.m) k.fctx.r2mod
  return k.finv W z

/-- The conversion to affine, traced; it branches on the public flag `inf` of a Jacobian point (43_curve_point_forms.md R193,
70_reset_and_hazards.md R294). The identity is stored at one turn a digit, and the test for it on a TED-curve leaves no turn; `mont(zi, zi)`, which
R193 writes twice, is two calls: DESIGN CHOICE, log 18. -/
def Curve.affineT (k : Curve) (W : Nat) (q : PReg) : Traced PReg :=
  match k.type with
  | .weierstrass =>
    if q.inf then do
      turns (2 * k.fctx.s)
      return k.affine W q
    else do
      let zi ← k.finvT W q.z
      let _ ← k.mulT W q.x (← k.mulT W zi zi)
      let _ ← k.mulT W q.y (← k.mulT W (← k.mulT W zi zi) zi)
      return k.affine W q
  | .twistedEdwards => do
    let zi ← k.finvT W q.z
    let _ ← k.mulT W q.x zi
    let _ ← k.mulT W q.y zi
    return k.affine W q

/-! ## Scalar multiplication (45_scalar_mul.md R232 to R238) -/

/-- The copy of the scalar and the parity step, traced: `n - kc` is always computed (45_scalar_mul.md R232, R233). Both run over the
`normlen` digits of the order, a length the rules do not give: DESIGN CHOICE, log 18. -/
def oddScalarT (W n scalar : Nat) : Traced Nat := do
  turns (normlen W n)
  let _ ← subLoop W (digits W n (normlen W n)) (digits W scalar (normlen W n)) 0
  return oddScalar n scalar

/-- The recoding, traced: one turn a window, whatever the scalar (45_scalar_mul.md R234). -/
def recodeT (w t kk : Nat) : Traced (List Int) := do
  turns t
  return recode w t kk

/-- The `n` table entries from index `j` on, traced, each made from `T[j-1]`, here `prev`, read from the table (45_scalar_mul.md R235,
70_reset_and_hazards.md section 5). -/
def Curve.tableFromT (k : Curve) (W : Nat) (d : PReg) : Nat → Nat → PReg → Traced (List PReg)
  | 0, _, _ => return []
  | n + 1, j, prev => do
    observe .iter
    observe (.tableRead (j - 1))
    let next ← match k.type with
      | .weierstrass => do k.affineT W (← k.paddT W (k.proj prev) d)
      | .twistedEdwards => k.paddT W prev d
    let rest ← k.tableFromT W d n (j + 1) next
    return next :: rest

/-- The table, traced (45_scalar_mul.md R235). -/
def Curve.tableT (k : Curve) (W : Nat) (q : PReg) : Traced (List PReg) := do
  let d ← k.dblT W (k.proj q)
  match k.type with
  | .weierstrass =>
    let d ← k.affineT W d
    let rest ← k.tableFromT W d (2 ^ (k.w - 2) - 1) 1 q
    return q :: rest
  | .twistedEdwards =>
    let rest ← k.tableFromT W d (2 ^ (k.w - 2) - 1) 1 (k.proj q)
    return k.proj q :: rest

/-- `acc OR (t AND mask)` on every coordinate and flag of an entry (45_scalar_mul.md R237). -/
def PReg.orMasked (acc t : PReg) (mask : Bool) : PReg where
  valid := acc.valid || (t.valid && mask)
  x := acc.x ||| sel mask t.x 0
  y := acc.y ||| sel mask t.y 0
  z := acc.z ||| sel mask t.z 0
  ta := acc.ta ||| sel mask t.ta 0
  tb := acc.tb ||| sel mask t.tb 0
  hasZ := acc.hasZ || (t.hasZ && mask)
  hasT := acc.hasT || (t.hasT && mask)
  inf := acc.inf || (t.inf && mask)
  mont := acc.mont || (t.mont && mask)
  onc := acc.onc || (t.onc && mask)

/-- The table scan of `lookup`: every entry read, the indices in order (45_scalar_mul.md R237). An entry is one turn and one table read, its
coordinates leave none: DESIGN CHOICE, log 18. -/
def scanPoints (idx : Nat) : List PReg → Nat → PReg → Traced PReg
  | [], _, ent => return ent
  | t :: ts, j, ent => do
    observe .iter
    observe (.tableRead j)
    scanPoints idx ts (j + 1) (ent.orMasked t (j == idx))

/-- `lookup(T, d)` by the scan, the negated value always computed and the choice by the digit's sign (45_scalar_mul.md R237). -/
def Curve.lookupT (k : Curve) (W : Nat) (table : List PReg) (d : Int) : Traced PReg := do
  let ent ← scanPoints ((d.natAbs - 1) / 2) table 0 PReg.empty
  let negated ← k.negCoordsT W true ent
  return if d < 0 then negated else ent

/-- `n` doublings, traced (45_scalar_mul.md R232). -/
def Curve.doublingsT (k : Curve) (W : Nat) : Nat → PReg → Traced PReg
  | 0, a => return a
  | n + 1, a => do
    observe .iter
    let a' ← k.dblT W a
    k.doublingsT W n a'

/-- The main loop, traced (45_scalar_mul.md R232). -/
def Curve.mainLoopT (k : Curve) (W : Nat) (table : List PReg) : List Int → PReg → Traced PReg
  | [], a => return a
  | d :: ds, a => do
    observe .iter
    let a' ← k.doublingsT W (k.w - 1) a
    let ent ← k.lookupT W table d
    let a'' ← k.paddT W a' ent
    k.mainLoopT W table ds a''

/-- The end: the negated accumulator always computed, the choice by the scalar's parity, the change to affine form
(45_scalar_mul.md R238). -/
def Curve.smulEndT (k : Curve) (W scalar : Nat) (a : PReg) : Traced PReg := do
  let _ ← k.negCoordsT W true a
  let out ← k.affineT W (if scalar % 2 = 0 then k.neg a else a)
  return { out with onc := true }

/-- `smul(k, Q)`, traced (45_scalar_mul.md R232 to R238). -/
def Curve.smulT (k : Curve) (W scalar : Nat) (q : PReg) : Traced PReg :=
  if q.inf then do
    turns (2 * k.fctx.s)
    return k.affineIdentity true true
  else do
    let kk ← oddScalarT W k.order scalar
    let ds ← recodeT k.w k.windows kk
    let table ← k.tableT W q
    match ds.reverse with
    | [] => return k.affineIdentity true true
    | top :: rest => do
      let ent ← k.lookupT W table top
      let start := match k.type with
        | .weierstrass => k.proj ent
        | .twistedEdwards => ent
      let a ← k.mainLoopT W table rest start
      k.smulEndT W scalar a

/-! ## The exception of 70_reset_and_hazards.md R292 -/

/-- None of `n` doublings from `a` meets a flagged identity. -/
def Curve.regularDoublings (k : Curve) (W : Nat) : Nat → PReg → Bool
  | 0, _ => true
  | n + 1, a => !a.inf && k.regularDoublings W n (k.dbl W a)

/-- No doubling and no addition of the main loop meets a degenerate case, and it does not end in a flagged identity
(45_scalar_mul.md R236). -/
def Curve.regularLoop (k : Curve) (W : Nat) (table : List PReg) : List Int → PReg → Bool
  | [], a => !a.inf
  | d :: ds, a =>
    k.regularDoublings W (k.w - 1) a
    && k.addCase W (k.doublings W (k.w - 1) a) (k.lookup table d) == .general
    && k.regularLoop W table ds (k.padd W (k.doublings W (k.w - 1) a) (k.lookup table d))

/-- The scalar is none of the cases of 45_scalar_mul.md R236 for the point: the mixed additions of `smul` all take the general path. On a
TED-curve no case arises. -/
def Curve.regular (k : Curve) (W scalar : Nat) (q : PReg) : Bool :=
  match k.type with
  | .twistedEdwards => true
  | .weierstrass =>
    match (recode k.w k.windows (oddScalar k.order scalar)).reverse with
    | [] => true
    | top :: rest => k.regularLoop W (k.table W q) rest (k.firstEntry (k.table W q) top)

end Sys2Proof.Machine
end

