-- ==== Sys2Proof/Machine/Leak.lean ====
section
/-! DEFINITION. The leak trace of every command: "the list of (operation name, table index or register index touched) pairs a command
performs" (10_state.md R38, 70_reset_and_hazards.md section 5 and R292 to R294). `commandT i s` runs the command `i` through its datapath: the
registers it reads, its checks, its loops and multiplier calls, the registers it writes; its value is the command's effect, and its trace stops
where a fault stops the command. The operations are those of log 18; the trace is an observation and no rule reads it. -/

namespace Sys2Proof.Machine

/-- A command's run through its datapath: operations performed until it ends or faults. -/
abbrev Run (α : Type) := ExceptT ErrCode Traced α

/-- What the run ends with. -/
def Run.value {α : Type} (x : Run α) : Effect α := Traced.value x.run

/-- The operations the run performed. -/
def Run.trace {α : Type} (x : Run α) : List LeakOp := Traced.trace x.run

/-- Part of a run that cannot fault. -/
def perform {α : Type} (x : Traced α) : Run α := ExceptT.mk (do return .ok (← x))

/-- A check of a run: its fault, or its value. -/
def require {α : Type} (r : Effect α) : Run α := ExceptT.mk (return r)

/-! ## Registers -/

/-- Read a big-number register. -/
def State.readBT (s : State) (i : BSel) : Run BReg := do
  perform (observe (.regRead (.b i)))
  require (s.readB i)

/-- Read a context slot. -/
def State.readCT (s : State) (i : CSel) : Run Ctx := do
  perform (observe (.regRead (.c i)))
  require (s.readC i)

/-- Read the curve slot. -/
def State.readCrvT (s : State) : Run Curve := do
  perform (observe (.regRead .crv))
  require s.readCrv

/-- Read a point register. -/
def State.readPT (s : State) (i : PSel) : Run PReg := do
  perform (observe (.regRead (.p i)))
  require (s.readP i)

/-- Write a big-number register. -/
def State.writeBT (s : State) (i : BSel) (n v : Nat) : Run State := do
  perform (observe (.regWrite (.b i)))
  return s.writeB i n v

/-- Write a point register. -/
def State.writePT (s : State) (i : PSel) (q : PReg) : Run State := do
  perform (observe (.regWrite (.p i)))
  return s.writeP i q

/-! ## Checks and copies that several commands share -/

/-- `raise e if v ≥ bound`, for a value of `n` digits: the length-only comparator against a public bound (70_reset_and_hazards.md R294). -/
def belowT (W n v bound : Nat) (e : ErrCode) : Run Unit := do
  let _ ← perform (cmpDigits W (max n (normlen W bound)) v bound)
  require (raiseIf (v ≥ bound) e)

/-- A residue operand, its range check done by the comparator (41_montgomery.md R120 b, 70_reset_and_hazards.md R294). -/
def residueT (W : Nat) (c : Ctx) (r : BReg) : Run Nat := do
  belowT W r.len r.val c.m .range
  return r.val

/-- The reading and checking that `MONTMUL`, `MODADD`, `MODSUB` and `MODMUL` share (41_montgomery.md R120 e). -/
def State.residuesT (s : State) (c : CSel) (ba bb : BSel) : Run (Ctx × Nat × Nat) := do
  let k ← s.readCT c
  let ra ← s.readBT ba
  let rb ← s.readBT bb
  let a ← residueT s.W k ra
  let b ← residueT s.W k rb
  return (k, a, b)

/-- The reading and checking that `TOMONT`, `FROMMONT` and `MODINVCT` share. -/
def State.residueOperandT (s : State) (c : CSel) (ba : BSel) : Run (Ctx × Nat) := do
  let k ← s.readCT c
  let ra ← s.readBT ba
  let a ← residueT s.W k ra
  return (k, a)

/-- The reading that all commands on one point share (43_curve_point_forms.md R170 a). -/
def State.pointT (s : State) (ps : PSel) : Run (Curve × PReg) := do
  let k ← s.readCrvT
  let q ← s.readPT ps
  return (k, q)

/-- The copy of a point's present coordinates. -/
def Curve.copyT (k : Curve) (q : PReg) : Run Unit := perform (turns (k.fctx.s * q.present.length))

/-- The loop "if v >= p: raise E_RANGE" over values with their lengths: one turn and one comparison a value, up to the one that faults
(43_curve_point_forms.md R171, R190). -/
def rangesT (W p : Nat) : List (Nat × Nat) → Run Unit
  | [] => return ()
  | (n, v) :: rest => do
    perform (observe .iter)
    belowT W n v p .range
    rangesT W p rest

/-- The range checks of `PTOMONT`, a coordinate at a time (43_curve_point_forms.md R190). -/
def Curve.coordsT (k : Curve) (W : Nat) (ts : List Nat) : Run Unit := rangesT W k.p (ts.map fun t => (k.fctx.s, t))

/-- Each present coordinate converted: one turn and one call of the multiplier (43_curve_point_forms.md R190, R191). -/
def Curve.convertT (k : Curve) (W factor : Nat) : List Nat → Traced Unit
  | [] => return ()
  | t :: ts => do
    observe .iter
    let _ ← k.mulT W t factor
    k.convertT W factor ts

/-- The context of a modulus: the checks on its length and value, then the constants (41_montgomery.md R121, R122). -/
def makeCtxT (W n m : Nat) : Run Ctx := do
  require (raiseIf (n > Config.maxS W) .modulus)
  perform (turns n)
  let k ← require (makeCtx W n m)
  perform (ctxConstantsT W n m)
  return k

/-- The doubling formula of a curve, traced: on a W-curve with `a ≠ 0`, `a` of `n` digits is compared with `p - 3`, and an unsupported `a` raises there,
before anything after it (43_curve_point_forms.md R171). The test `a = 0` leaves no turn: DESIGN CHOICE, log 18. -/
def doublingSpecT (W : Nat) (type : CurveType) (fctx : Ctx) (n : Nat) (q : CurveParams) : Run DblSpec :=
  match type with
  | .weierstrass =>
    if q.a = 0 then return .aZero
    else do
      let _ ← perform (cmpDigits W (max n fctx.s) q.a (q.p - 3))
      require (weierstrassSpec q.p q.a)
  | .twistedEdwards => return .twisted

/-- A curve's descriptor from parameters whose registers have the lengths `lens` (`a`, `bd`, `order`, `gx`, `gy`): the context, the range checks by the
comparator, the checks on the coefficient and the order, and the derived fields (43_curve_point_forms.md R171). Of the checks on the
order and on `rbits` one scan of the order is recorded, before either is decided: DESIGN CHOICE, log 18. -/
def buildCurveT (W : Nat) (type : CurveType) (q : CurveParams) (lens : List Nat) : Run Curve := do
  let fctx ← makeCtxT W q.np q.p
  rangesT W q.p [(lens.getD 0 1, q.a), (lens.getD 1 1, q.bd), (lens.getD 3 1, q.gx), (lens.getD 4 1, q.gy)]
  let _ ← doublingSpecT W type fctx (lens.getD 0 1) q
  let _ ← perform (normlenT W (lens.getD 2 1) q.order)
  let k ← require (buildCurve W type q)
  let _ ← perform (montT W fctx q.a fctx.r2mod)
  let _ ← perform (montT W fctx q.bd fctx.r2mod)
  return k

/-- Install a curve: the slot is written and every point register's valid bit (10_state.md R34). The loop over the
point registers is one turn and one write each (43_curve_point_forms.md R171, R174). -/
def State.installCurveT (s : State) (k : Curve) : Run State := do
  perform (observe (.regWrite .crv))
  perform ((List.finRange 8).forM fun i => do
    observe .iter
    observe (.regWrite (.p i)))
  return s.installCurve k

/-- Read `B[n]` of a register run (43_curve_point_forms.md R171). -/
def State.readRunT (s : State) (n : Nat) : Run BReg :=
  if h : n < 16 then s.readBT ⟨n, h⟩ else require (.error .illegalCmd)

/-- The fixed sequence of `PVAL`: two comparisons, the conversions, both sides of the curve equation, and their comparison, all done whatever the
point is, "told apart only by the masks" (43_curve_point_forms.md R196). Which products make up the two sides is the model's choice (log 18). -/
def Curve.validateT (k : Curve) (W : Nat) (q : PReg) : Traced Bool := do
  let _ ← cmpDigits W k.fctx.s q.x k.p
  let _ ← cmpDigits W k.fctx.s q.y k.p
  let x ← k.mulT W q.x k.fctx.r2mod
  let y ← k.mulT W q.y k.fctx.r2mod
  let xx ← k.mulT W x x
  let yy ← k.mulT W y y
  match k.type with
  | .weierstrass =>
    let ax ← k.mulT W k.aM x
    let right ← k.addT W (← k.addT W (← k.mulT W xx x) ax) k.bdM
    let _ ← cmpDigits W k.fctx.s yy right
    return k.validate q
  | .twistedEdwards =>
    let left ← k.addT W (← k.mulT W k.aM xx) yy
    let right ← k.addT W k.one (← k.mulT W (← k.mulT W k.bdM xx) yy)
    let _ ← cmpDigits W k.fctx.s left right
    return k.validate q

/-! ## The commands -/

/-- `LDB`: one turn a byte, then the scan for the normalized length (40_digit_array.md R101). -/
def ldbT (bd : BSel) (off lenm1 : Imm10) (s : State) : Run State := do
  let len := lenm1.val + 1
  require (raiseIf (off.val + len > Config.iobBytes) .iobRange)
  perform (turns len)
  let v := be (s.iob.readBytes off.val len)
  let n ← perform (normlenT s.W (ceilDiv (8 * len) s.W) v)
  s.writeBT bd n v

/-- `STB`: the fit check, a scan from the top digit, then one turn a byte (40_digit_array.md R102, 70_reset_and_hazards.md R294). -/
def stbT (bs : BSel) (off lenm1 : Imm10) (s : State) : Run State := do
  let len := lenm1.val + 1
  require (raiseIf (off.val + len > Config.iobBytes) .iobRange)
  let a ← s.readBT bs
  let _ ← perform (normlenT s.W a.len a.val)
  require (raiseIf (a.val ≥ 256 ^ len) .valueFit)
  perform (turns len)
  return s.writeIob off.val (bytesBE a.val len)

/-- `MOV`: one turn a digit (40_digit_array.md R103). -/
def movT (bd bs : BSel) (s : State) : Run State := do
  let a ← s.readBT bs
  perform (turns a.len)
  s.writeBT bd a.len a.val

/-- `NORM`: one turn a digit, then the scan for the length (40_digit_array.md R105). -/
def normT (bd bs : BSel) (s : State) : Run State := do
  let a ← s.readBT bs
  perform (turns a.len)
  let n ← perform (normlenT s.W a.len a.val)
  s.writeBT bd n a.val

/-- `CMP` (40_digit_array.md R106). -/
def cmpT (ba bb : BSel) (s : State) : Run State := do
  let a ← s.readBT ba
  let b ← s.readBT bb
  let _ ← perform (cmpDigits s.W (max a.len b.len) a.val b.val)
  return s.setCmp (compareFlag a.val b.val)

/-- `ADD` (40_digit_array.md R107). -/
def addT (bd ba bb : BSel) (s : State) : Run State := do
  let a ← s.readBT ba
  let b ← s.readBT bb
  let n := max a.len b.len
  let _ ← perform (addLoop s.W (digits s.W a.val n) (digits s.W b.val n) 0)
  let t ← s.writeBT bd n ((a.val + b.val) % 2 ^ (s.W * n))
  return t.setCarry (carryOut s.W n (a.val + b.val))

/-- `SUB` (40_digit_array.md R108). -/
def subT (bd ba bb : BSel) (s : State) : Run State := do
  let a ← s.readBT ba
  let b ← s.readBT bb
  let n := max a.len b.len
  let _ ← perform (subLoop s.W (digits s.W a.val n) (digits s.W b.val n) 0)
  let t ← s.writeBT bd n (wrapSub a.val b.val (s.W * n))
  return t.setCarry (borrowOut a.val b.val)

/-- `MUL` (40_digit_array.md R109, R111). -/
def mulT (bd ba bb : BSel) (s : State) : Run State := do
  let a ← s.readBT ba
  let b ← s.readBT bb
  require (raiseIf (a.len + b.len > Config.cap s.W) .len)
  let _ ← perform (mulDigits s.W (digits s.W a.val a.len) (digits s.W b.val b.len))
  s.writeBT bd (a.len + b.len) (a.val * b.val)

/-- `DIVREM`: the test of the divisor's digits, the division, the two scans (40_digit_array.md R110, R112). -/
def divremT (bq br ba bb : BSel) (s : State) : Run State := do
  require (raiseIf (bq = br) .illegalCmd)
  let a ← s.readBT ba
  let b ← s.readBT bb
  perform (turns b.len)
  require (raiseIf (b.val = 0) .divZero)
  let qr ← perform (divRemT s.W a.len b.len a.val b.val)
  let nq ← perform (normlenT s.W a.len qr.1)
  let nr ← perform (normlenT s.W b.len qr.2)
  let t ← s.writeBT bq nq qr.1
  t.writeBT br nr qr.2

/-- `CTXNEW` (41_montgomery.md R121). -/
def ctxnewT (c : CSel) (bs : BSel) (s : State) : Run State := do
  let r ← s.readBT bs
  let k ← makeCtxT s.W r.len r.val
  perform (observe (.regWrite (.c c)))
  return s.writeC c k

/-- `MONTMUL` (41_montgomery.md R123). -/
def montmulT (bd ba bb : BSel) (c : CSel) (s : State) : Run State := do
  let r ← s.residuesT c ba bb
  let v ← perform (montT s.W r.1 r.2.1 r.2.2)
  s.writeBT bd r.1.s v

/-- `TOMONT` (41_montgomery.md R127). -/
def tomontT (bd bs : BSel) (c : CSel) (s : State) : Run State := do
  let r ← s.residueOperandT c bs
  let v ← perform (montT s.W r.1 r.2 r.1.r2mod)
  s.writeBT bd r.1.s v

/-- `FROMMONT` (41_montgomery.md R128). -/
def frommontT (bd bs : BSel) (c : CSel) (s : State) : Run State := do
  let r ← s.residueOperandT c bs
  let v ← perform (montT s.W r.1 r.2 1)
  s.writeBT bd r.1.s v

/-- `MODEXP`: the windows of the exponent's register length (41_montgomery.md R131, R132). -/
def modexpT (bd base expo : BSel) (c : CSel) (s : State) : Run State := do
  let k ← s.readCT c
  let ra ← s.readBT base
  let re ← s.readBT expo
  let a ← residueT s.W k ra
  let _ ← perform (modexpWindows s.W k a re.val re.len)
  s.writeBT bd k.s (powMod a re.val k.m)

/-- `BRED` (41_montgomery.md R139, R140). -/
def bredT (bd bs : BSel) (c : CSel) (s : State) : Run State := do
  let k ← s.readCT c
  let rx ← s.readBT bs
  belowT s.W rx.len rx.val (2 ^ (2 * s.W * k.s)) .range
  let v ← perform (barrettT s.W k rx.val)
  s.writeBT bd k.s v

/-- `CTXGET`: one turn a digit (41_montgomery.md R142). -/
def ctxgetT (bd : BSel) (c : CSel) (field : CtxField) (s : State) : Run State := do
  let k ← s.readCT c
  let f := ctxFieldValue s.W k field
  perform (turns f.1)
  s.writeBT bd f.1 f.2

/-- `MODINV`: the tests of the modulus, the reduction, the Euclidean loop, the sign adjustment on even `k` (42_inversion_group.md R151, R152). -/
def modinvT (bd ba bn : BSel) (s : State) : Run State := do
  let a ← s.readBT ba
  let n ← s.readBT bn
  perform (turns n.len)
  require (raiseIf (n.val = 0) .divZero)
  require (raiseIf (n.val = 1) .modulus)
  let qr ← perform (divRemT s.W a.len n.len a.val n.val)
  let e ← perform (euclidT s.W n.val qr.2)
  require (raiseIf (e.1 ≠ 1) .notInvertible)
  let len ← perform (normlenT s.W n.len n.val)
  if e.2.2 % 2 = 1 then s.writeBT bd len e.2.1
  else do
    let _ ← perform (subLoop s.W (digits s.W n.val len) (digits s.W e.2.1 len) 0)
    s.writeBT bd len (n.val - e.2.1)

/-- `MODINVCT` (42_inversion_group.md R154). -/
def modinvctT (bd bs : BSel) (c : CSel) (s : State) : Run State := do
  let r ← s.residueOperandT c bs
  let _ ← perform (modexpWindows s.W r.1 r.2 (r.1.m - 2) r.1.s)
  s.writeBT bd r.1.s (powMod r.2 (r.1.m - 2) r.1.m)

/-- `GCD` (42_inversion_group.md R152, R155). -/
def gcdT (bd ba bb : BSel) (s : State) : Run State := do
  let a ← s.readBT ba
  let b ← s.readBT bb
  let e ← perform (euclidT s.W a.val b.val)
  let n ← perform (normlenT s.W (max a.len b.len) e.1)
  s.writeBT bd n e.1

/-- `MODADD` (42_inversion_group.md R157). -/
def modaddT (bd ba bb : BSel) (c : CSel) (s : State) : Run State := do
  let r ← s.residuesT c ba bb
  let v ← perform (modAddT s.W r.1 r.2.1 r.2.2)
  s.writeBT bd r.1.s v

/-- `MODSUB` (42_inversion_group.md R158). -/
def modsubT (bd ba bb : BSel) (c : CSel) (s : State) : Run State := do
  let r ← s.residuesT c ba bb
  let v ← perform (modSubT s.W r.1 r.2.1 r.2.2)
  s.writeBT bd r.1.s v

/-- `MODMUL`: two passes of the multiplier (42_inversion_group.md R159). -/
def modmulT (bd ba bb : BSel) (c : CSel) (s : State) : Run State := do
  let r ← s.residuesT c ba bb
  let v ← perform (montT s.W r.1 r.2.1 r.2.2)
  let v ← perform (montT s.W r.1 v r.1.r2mod)
  s.writeBT bd r.1.s v

/-- `CRVNEW` (43_curve_point_forms.md R171). -/
def crvnewT (first : BSel) (type : Imm8) (s : State) : Run State := do
  let t ← require (curveType type.val)
  let cnt := match t with
    | .weierstrass => 6
    | .twistedEdwards => 7
  require (raiseIf (first.val + cnt > 16) .illegalCmd)
  let p ← s.readRunT first.val
  let a ← s.readRunT (first.val + 1)
  let bd ← s.readRunT (first.val + 2)
  let order ← s.readRunT (first.val + 3)
  let gx ← s.readRunT (first.val + 4)
  let gy ← s.readRunT (first.val + 5)
  let rbits ← match t with
    | .weierstrass => pure 0
    | .twistedEdwards => (do pure (← s.readRunT (first.val + 6)).val : Run Nat)
  let k ← buildCurveT s.W t ⟨p.len, p.val, a.val, bd.val, order.val, gx.val, gy.val, rbits⟩ [a.len, bd.len, order.len, gx.len, gy.len]
  s.installCurveT k

/-- `CRVLD`: the ROM's constants have the length of `p`, the order its own (43_curve_point_forms.md R174). The look-up in the named-curve table is one table read,
at the index `id`. -/
def crvldT (id : Imm8) (s : State) : Run State := do
  let q ← require (romCurve s.W id.val)
  perform (observe (.tableRead id.val))
  let k ← buildCurveT s.W .weierstrass q [q.np, q.np, normlen s.W q.order, q.np, q.np]
  s.installCurveT k

/-- `CRVGET`: one turn a digit (43_curve_point_forms.md R175). -/
def crvgetT (bd : BSel) (field : CrvField) (s : State) : Run State := do
  let k ← s.readCrvT
  let f := crvFieldValue s.W k field
  perform (turns f.1)
  s.writeBT bd f.1 f.2

/-- `PSET`: the fit check, a scan of each operand from the top digit, both scanned before the fault (43_curve_point_forms.md R177,
70_reset_and_hazards.md R294; DESIGN CHOICE, log 18). -/
def psetT (pd : PSel) (xb yb : BSel) (s : State) : Run State := do
  let k ← s.readCrvT
  let x ← s.readBT xb
  let y ← s.readBT yb
  let _ ← perform (normlenT s.W x.len x.val)
  let _ ← perform (normlenT s.W y.len y.val)
  require (raiseIf (x.val ≥ 2 ^ (s.W * k.fctx.s) ∨ y.val ≥ 2 ^ (s.W * k.fctx.s)) .len)
  perform (turns (2 * k.fctx.s))
  s.writePT pd (affinePoint x.val y.val false false)

/-- `PGET` (43_curve_point_forms.md R178). -/
def pgetT (bd : BSel) (ps : PSel) (field : PtField) (s : State) : Run State := do
  let kq ← s.pointT ps
  let f ← require (ptFieldValue kq.1.fctx.s kq.2 field)
  perform (turns f.1)
  s.writeBT bd f.1 f.2

/-- `PGEN`, `PINF`: a point made from the curve (43_curve_point_forms.md R179, R180). -/
def makePointT (pd : PSel) (make : Curve → PReg) (s : State) : Run State := do
  let k ← s.readCrvT
  perform (turns (2 * k.fctx.s))
  s.writePT pd (make k)

/-- `PMOV` (43_curve_point_forms.md R181). -/
def pmovT (pd ps : PSel) (s : State) : Run State := do
  let kq ← s.pointT ps
  kq.1.copyT kq.2
  s.writePT pd kq.2

/-- `PTOMONT` (43_curve_point_forms.md R190). -/
def ptomontT (pd ps : PSel) (s : State) : Run State := do
  let kq ← s.pointT ps
  require (raiseIf kq.2.mont .pointForm)
  kq.1.coordsT s.W kq.2.present
  perform (kq.1.convertT s.W kq.1.fctx.r2mod kq.2.present)
  s.writePT pd (kq.2.mapCoords (fun t => mont s.W kq.1.fctx t kq.1.fctx.r2mod) true)

/-- `PFROMMONT` (43_curve_point_forms.md R191). -/
def pfrommontT (pd ps : PSel) (s : State) : Run State := do
  let kq ← s.pointT ps
  require (raiseIf (!kq.2.mont) .pointForm)
  perform (kq.1.convertT s.W 1 kq.2.present)
  s.writePT pd (kq.2.mapCoords (fun t => mont s.W kq.1.fctx t 1) false)

/-- `PTOPROJ`: one turn a digit of every coordinate of the point it makes, the added `z`, `ta` and `tb` and those of the identity among them
(43_curve_point_forms.md R192, which gives the values alone: DESIGN CHOICE, log 18). -/
def ptoprojT (pd ps : PSel) (s : State) : Run State := do
  let kq ← s.pointT ps
  require (raiseIf kq.2.hasZ .pointForm)
  kq.1.copyT (kq.1.proj kq.2)
  s.writePT pd (kq.1.proj kq.2)

/-- `PTOAFF` (43_curve_point_forms.md R193). -/
def ptoaffT (pd ps : PSel) (s : State) : Run State := do
  let kq ← s.pointT ps
  require (raiseIf (!kq.2.hasZ || !kq.2.mont) .pointForm)
  let q ← perform (kq.1.affineT s.W kq.2)
  s.writePT pd q

/-- `PVAL` (43_curve_point_forms.md R196). -/
def pvalT (ps : PSel) (s : State) : Run State := do
  let kq ← s.pointT ps
  require (raiseIf (kq.2.hasZ || kq.2.mont) .pointForm)
  let ok ← perform (kq.1.validateT s.W kq.2)
  let t ← s.writePT ps { kq.2 with onc := ok }
  return t.setV ok

/-- `PENC`: the branch on the public flag `inf`, the fit check of the coordinates, both scanned before the fault, one turn a byte
(43_curve_point_forms.md R198; DESIGN CHOICE, log 18). -/
def pencT (ps : PSel) (off lenm1 : Imm10) (s : State) : Run State := do
  let len := lenm1.val + 1
  require (raiseIf (off.val + len > Config.iobBytes) .iobRange)
  let kq ← s.pointT ps
  require (raiseIf (kq.2.hasZ || kq.2.mont) .pointForm)
  let l := kq.1.byteLen
  require (raiseIf (len ≠ (if kq.2.inf then 1 else 1 + 2 * l)) .len)
  if kq.2.inf then do
    perform (turns 1)
    return s.writeIob off.val [0x00]
  else do
    let _ ← perform (normlenT s.W kq.1.fctx.s kq.2.x)
    let _ ← perform (normlenT s.W kq.1.fctx.s kq.2.y)
    require (raiseIf (kq.2.x ≥ 256 ^ l ∨ kq.2.y ≥ 256 ^ l) .valueFit)
    perform (turns (1 + 2 * l))
    return s.writeIob off.val (0x04 :: (bytesBE kq.2.x l ++ bytesBE kq.2.y l))

/-- `PDEC`: one turn a byte, where R199 reads the bytes, so a malformed encoding leaves them too (43_curve_point_forms.md R199). That a byte read is
such a turn: DESIGN CHOICE, log 18. -/
def pdecT (pd : PSel) (off lenm1 : Imm10) (s : State) : Run State := do
  let len := lenm1.val + 1
  require (raiseIf (off.val + len > Config.iobBytes) .iobRange)
  let k ← s.readCrvT
  perform (turns len)
  let q ← require (k.decodePoint (s.iob.readBytes off.val len))
  s.writePT pd q

/-- `PDBL` (44_point_arith.md R211). -/
def pdblT (pd ps : PSel) (s : State) : Run State := do
  let kq ← s.pointT ps
  require (raiseIf (!kq.1.isProjMont kq.2) .pointForm)
  let q ← perform (kq.1.dblT s.W kq.2)
  s.writePT pd q

/-- `PADD` (44_point_arith.md R214). -/
def paddT (pd pa pb : PSel) (s : State) : Run State := do
  let k ← s.readCrvT
  let q1 ← s.readPT pa
  let q2 ← s.readPT pb
  require (raiseIf (!k.isProjMont q1 || !k.isSecondMont q2) .pointForm)
  let q ← perform (k.paddT s.W q1 q2)
  s.writePT pd q

/-- `PNEG`: a flagged identity is copied (44_point_arith.md R218). -/
def pnegT (pd ps : PSel) (s : State) : Run State := do
  let kq ← s.pointT ps
  require (raiseIf (!kq.2.mont) .pointForm)
  if kq.2.inf then do
    kq.1.copyT kq.2
    s.writePT pd kq.2
  else do
    let q ← perform (kq.1.negCoordsT s.W kq.2.hasT kq.2)
    s.writePT pd q

/-- `SMUL`: the checks of the scalar by the comparator, then the algorithm (45_scalar_mul.md R231, 70_reset_and_hazards.md R294). `k < 1` is decided
first, and the order is compared only when that did not fault: DESIGN CHOICE, log 18. -/
def smulCommandT (pd ps : PSel) (bk : BSel) (s : State) : Run State := do
  let kq ← s.pointT ps
  let r ← s.readBT bk
  require (raiseIf (kq.2.hasZ || !kq.2.mont) .pointForm)
  require (raiseIf (!kq.2.onc) .notValidated)
  let _ ← perform (cmpDigits s.W r.len r.val 1)
  require (raiseIf (r.val < 1) .scalarRange)
  belowT s.W r.len r.val kq.1.order .scalarRange
  let q ← perform (kq.1.smulT s.W r.val kq.2)
  s.writePT pd q

/-- The run of a command through its datapath. `CLR` and `PCLR` are one register write each, and their overwriting of every digit position leaves no turn
(40_digit_array.md R104, 43_curve_point_forms.md R182): DESIGN CHOICE, log 18. -/
def commandT (i : Instr) (s : State) : Run State :=
  match i with
  | .ldb bd off lenm1 => ldbT bd off lenm1 s
  | .stb bs off lenm1 => stbT bs off lenm1 s
  | .mov bd bs => movT bd bs s
  | .clr bd => s.writeBT bd 1 0
  | .norm bd bs => normT bd bs s
  | .cmp ba bb => cmpT ba bb s
  | .add bd ba bb => addT bd ba bb s
  | .sub bd ba bb => subT bd ba bb s
  | .mul bd ba bb => mulT bd ba bb s
  | .divrem bq br ba bb => divremT bq br ba bb s
  | .ctxnew c bs => ctxnewT c bs s
  | .montmul bd ba bb c => montmulT bd ba bb c s
  | .tomont bd bs c => tomontT bd bs c s
  | .frommont bd bs c => frommontT bd bs c s
  | .modexp bd base expo c => modexpT bd base expo c s
  | .bred bd bs c => bredT bd bs c s
  | .ctxget bd c field => ctxgetT bd c field s
  | .modinv bd ba bn => modinvT bd ba bn s
  | .modinvct bd bs c => modinvctT bd bs c s
  | .gcd bd ba bb => gcdT bd ba bb s
  | .modadd bd ba bb c => modaddT bd ba bb c s
  | .modsub bd ba bb c => modsubT bd ba bb c s
  | .modmul bd ba bb c => modmulT bd ba bb c s
  | .crvnew first type => crvnewT first type s
  | .crvld id => crvldT id s
  | .crvget bd field => crvgetT bd field s
  | .pset pd xb yb => psetT pd xb yb s
  | .pget bd ps field => pgetT bd ps field s
  | .pgen pd => makePointT pd (fun k => affinePoint k.gx k.gy false false) s
  | .pinf pd => makePointT pd (fun k => k.affineIdentity false true) s
  | .pmov pd ps => pmovT pd ps s
  | .pclr pd => s.writePT pd PReg.empty
  | .ptomont pd ps => ptomontT pd ps s
  | .pfrommont pd ps => pfrommontT pd ps s
  | .ptoproj pd ps => ptoprojT pd ps s
  | .ptoaff pd ps => ptoaffT pd ps s
  | .pval ps => pvalT ps s
  | .penc ps off lenm1 => pencT ps off lenm1 s
  | .pdec pd off lenm1 => pdecT pd off lenm1 s
  | .pdbl pd ps => pdblT pd ps s
  | .padd pd pa pb => paddT pd pa pb s
  | .pneg pd ps => pnegT pd ps s
  | .smul pd ps bk => smulCommandT pd ps bk s

/-- The leak trace of a command in a state (10_state.md R38). -/
def leakTrace (i : Instr) (s : State) : List LeakOp := (commandT i s).trace

/-- The leak trace of the machine's next step: that of the command it runs; an illegal word and a host access perform none of the operations. -/
def stepTrace (s : State) : List LeakOp :=
  if s.status.busy && !s.hostFirst then
    match decode s.cmd with
    | .ok i => leakTrace i s
    | .error _ => []
  else []

end Sys2Proof.Machine
end

