-- ==== Sys2Proof/Safety.lean ====
section
/-! DEFINITION. What the statements about the machine speak of: the invariants of the state, what a stored coordinate represents, which
registers, bytes and flags a command names, which faults it can take, and the legality of a command word read off the opcode table. -/

namespace Sys2Proof.Machine

/-! ## Invariants -/

/-- A written register holds `1 ≤ len ≤ CAP` digits and a value below `2^(W*len)` (10_state.md R21); one never written is all zero
(R41). -/
structure BReg.Ok (W : Nat) (r : BReg) : Prop where
  written : r.valid = true → 1 ≤ r.len ∧ r.len ≤ Config.cap W ∧ r.val < 2 ^ (W * r.len)
  unwritten : r.valid = false → r = BReg.empty

/-- A constructed context: the fields have the values of 10_state.md R30's table. -/
structure Ctx.Ok (W : Nat) (c : Ctx) : Prop where
  valid : c.valid = true
  count : 1 ≤ c.s ∧ c.s ≤ Config.maxS W
  odd : c.m % 2 = 1
  gtOne : 1 < c.m
  topDigit : 2 ^ (W * (c.s - 1)) ≤ c.m
  fits : c.m < 2 ^ (W * c.s)
  m0 : c.m0 = c.m % 2 ^ W
  mprimeFits : c.mprime < 2 ^ W
  mprime : c.m * c.mprime % 2 ^ W = 2 ^ W - 1
  rmod : c.rmod = 2 ^ (W * c.s) % c.m
  r2mod : c.r2mod = 2 ^ (2 * W * c.s) % c.m
  r3mod : c.r3mod = 2 ^ (3 * W * c.s) % c.m
  mu : c.mu = 2 ^ (2 * W * c.s) / c.m

/-- An installed curve: the parameters pass the conditions of 43_curve_point_forms.md R171 and the derived fields have the values of
10_state.md R33. -/
structure Curve.Ok (W : Nat) (k : Curve) : Prop where
  valid : k.valid = true
  fctx : k.fctx.Ok W
  modulus : k.fctx.m = k.p
  a : k.a < k.p
  bd : k.bd < k.p
  gx : k.gx < k.p
  gy : k.gy < k.p
  order : 3 ≤ k.order ∧ k.order % 2 = 1 ∧ normlen W k.order ≤ Config.maxS W
  rbits : match k.type with
    | .weierstrass => k.rbits = bitlen k.order
    | .twistedEdwards => bitlen k.order ≤ k.rbits ∧ k.rbits ≤ W * Config.maxS W
  spec : match k.type with
    | .weierstrass => (k.a = 0 ∧ k.spec = .aZero) ∨ (k.a ≠ 0 ∧ k.a = k.p - 3 ∧ k.spec = .aMinus3)
    | .twistedEdwards => k.spec = .twisted
  w : k.w = if bitlen k.p ≤ 256 then 5 else 6
  one : k.one = k.fctx.rmod
  aM : k.aM = k.a * 2 ^ (W * k.fctx.s) % k.p
  bdM : k.bdM = k.bd * 2 ^ (W * k.fctx.s) % k.p

/-- The point form invariants (a) to (e) of 10_state.md R29, the coordinate width of R28, and zero in the coordinates that are not present
(43_curve_point_forms.md R170 d), for a valid point register under the curve `k`. -/
structure PReg.Ok (W : Nat) (k : Curve) (q : PReg) : Prop where
  fits : ∀ t ∈ [q.x, q.y, q.z, q.ta, q.tb], t < 2 ^ (W * k.fctx.s)
  absentZ : q.hasZ = false → q.z = 0
  absentT : q.hasT = false → q.ta = 0 ∧ q.tb = 0
  aux : q.hasT = true → q.hasZ = true ∧ k.type = .twistedEdwards
  reduced : q.mont = true → ∀ t ∈ q.present, t < k.p
  jacobian : k.type = .weierstrass → q.hasZ = true →
    (q.inf = true ↔ q.z = 0) ∧ (q.inf = true → q.x = k.unit q.mont ∧ q.y = k.unit q.mont)
  affineInf : k.type = .weierstrass → q.hasZ = false → q.inf = true → q.x = 0 ∧ q.y = 0
  twistedInf : k.type = .twistedEdwards → q.inf = true → q.hasZ = false ∧ q.x = 0 ∧ q.y = k.unit q.mont

/-- "At most one of `BUSY`, `DONE`, `FAULT` is 1 at any time" (10_state.md R25), and the fault registers are 0 when `FAULT = 0` and hold
one of the sixteen codes when it is 1 (R26). -/
structure State.StatusOk (s : State) : Prop where
  busyDone : ¬(s.status.busy = true ∧ s.status.done = true)
  busyFault : ¬(s.status.busy = true ∧ s.status.fault = true)
  doneFault : ¬(s.status.done = true ∧ s.status.fault = true)
  clear : s.status.fault = false → s.faultCode = 0 ∧ s.faultCmd = 0
  code : s.status.fault = true → ∃ e : ErrCode, s.faultCode = BitVec.ofNat 32 e.code

/-- The invariant of the whole state. A point register is valid only under an installed curve (10_state.md R34). -/
structure State.Inv (s : State) : Prop where
  b : ∀ i : BSel, s.b[i].Ok s.W
  c : ∀ i : CSel, s.c[i] = Ctx.empty ∨ s.c[i].Ok s.W
  crv : s.crv = Curve.empty ∨ s.crv.Ok s.W
  p : ∀ i : PSel, s.p[i].valid = true → s.crv.Ok s.W ∧ s.p[i].Ok s.W s.crv
  iob : s.iob.wf = true
  status : s.StatusOk

/-! ## What a register or a coordinate means -/

/-- `B[i]` is valid and is the pair `(n, v)` (00_scope.md R11). -/
abbrev State.holds (s : State) (i : BSel) (n v : Nat) : Prop := s.b[i] = ⟨true, n, v⟩

/-- The stored coordinate `t` is the reduced Montgomery form of the integer `v`: `t = v * R mod p` (00_scope.md R13). -/
def Curve.Reps (k : Curve) (W t : Nat) (v : Int) : Prop :=
  t < k.p ∧ (t : Int) ≡ v * 2 ^ (W * k.fctx.s) [ZMOD (k.p : Int)]

/-- Two states that agree in everything public: the digit width, the lengths of the big-number registers, the contexts, the curve, and the
points' flags; the values of registers and coordinates are free (70_reset_and_hazards.md R293: "operand lengths, the context or curve,
and public flags"). -/
structure State.SameShape (s t : State) : Prop where
  width : s.width = t.width
  b : ∀ i : BSel, s.b[i].valid = t.b[i].valid ∧ s.b[i].len = t.b[i].len
  c : s.c = t.c
  crv : s.crv = t.crv
  p : ∀ i : PSel, s.p[i].valid = t.p[i].valid ∧ s.p[i].hasZ = t.p[i].hasZ ∧ s.p[i].hasT = t.p[i].hasT
    ∧ s.p[i].inf = t.p[i].inf ∧ s.p[i].mont = t.p[i].mont

/-- A command that completed: the state `t` with `BUSY = 0`, `DONE = 1`, the latch empty and the script index advanced
(70_reset_and_hazards.md R283, 10_state.md R23); `t` differs from the state before by the command's writes alone.
That the latch is emptied is the model's choice (log 6). -/
def State.done (t : State) : State :=
  { t with
    status := { t.status with busy := false, done := true }
    cmd := 0
    ci := t.ci + 1 }

/-- A command that faulted with the code number `n`: only the registers of 60_exceptions.md R260 differ from the state `s` before, and the
latch is empty, which is the model's choice (log 6). -/
def State.faulted (s : State) (n : Nat) : State :=
  { s with
    status := { s.status with busy := false, done := false, fault := true }
    faultCode := BitVec.ofNat 32 n
    faultCmd := s.cmd
    cmd := 0 }

end Sys2Proof.Machine

namespace Sys2Proof

/-! ## What a command names -/

/-- The big-number registers a command writes (00_scope.md R11, the commands' rules). -/
def Instr.writesB : Instr → List BSel
  | .ldb d .. | .mov d .. | .clr d | .norm d .. | .add d .. | .sub d .. | .mul d .. => [d]
  | .divrem q r .. => [q, r]
  | .montmul d .. | .tomont d .. | .frommont d .. | .modexp d .. | .bred d .. | .ctxget d .. => [d]
  | .modinv d .. | .modinvct d .. | .gcd d .. | .modadd d .. | .modsub d .. | .modmul d .. => [d]
  | .pget d .. | .crvget d .. => [d]
  | .stb .. | .cmp .. | .ctxnew .. | .crvnew .. | .crvld .. | .pset .. | .pgen .. | .pinf .. | .pmov .. | .pclr ..
  | .ptomont .. | .pfrommont .. | .ptoproj .. | .ptoaff .. | .pval .. | .penc .. | .pdec .. | .pdbl .. | .padd ..
  | .pneg .. | .smul .. => []

/-- The point registers a command names as a destination, `PVAL`'s source among them (43_curve_point_forms.md R196). -/
def Instr.writesP : Instr → List PSel
  | .pset d .. | .pgen d | .pinf d | .pmov d .. | .pclr d | .ptomont d .. | .pfrommont d .. | .ptoproj d .. | .ptoaff d ..
  | .pval d | .pdec d .. | .pdbl d .. | .padd d .. | .pneg d .. | .smul d .. => [d]
  | .ldb .. | .stb .. | .mov .. | .clr .. | .norm .. | .cmp .. | .add .. | .sub .. | .mul .. | .divrem .. | .ctxnew ..
  | .montmul .. | .tomont .. | .frommont .. | .modexp .. | .bred .. | .ctxget .. | .modinv .. | .modinvct .. | .gcd ..
  | .modadd .. | .modsub .. | .modmul .. | .crvnew .. | .crvld .. | .crvget .. | .pget .. | .penc .. => []

/-- The point registers a command reads (43_curve_point_forms.md, 44_point_arith.md, 45_scalar_mul.md). -/
def Instr.readsP : Instr → List PSel
  | .pmov _ a | .ptomont _ a | .pfrommont _ a | .ptoproj _ a | .ptoaff _ a | .pval a | .penc a .. | .pdbl _ a | .pneg _ a
  | .smul _ a _ | .pget _ a _ => [a]
  | .padd _ a b => [a, b]
  | .pset .. | .pgen .. | .pinf .. | .pclr .. | .pdec .. | .ldb .. | .stb .. | .mov .. | .clr .. | .norm .. | .cmp ..
  | .add .. | .sub .. | .mul .. | .divrem .. | .ctxnew .. | .montmul .. | .tomont .. | .frommont .. | .modexp ..
  | .bred .. | .ctxget .. | .modinv .. | .modinvct .. | .gcd .. | .modadd .. | .modsub .. | .modmul .. | .crvnew ..
  | .crvld .. | .crvget .. => []

/-- The command installs a curve (10_state.md R34). -/
def Instr.installs : Instr → Bool
  | .crvnew .. | .crvld .. => true
  | _ => false

/-- The context slot a command writes (10_state.md R31). -/
def Instr.writesC : Instr → List CSel
  | .ctxnew c _ => [c]
  | _ => []

/-- The run of `IOB` a command stores to, offset and length (40_digit_array.md R102, 43_curve_point_forms.md R198). -/
def Instr.stores : Instr → Option (Nat × Nat)
  | .stb _ off lenm1 | .penc _ off lenm1 => some (off.val, lenm1.val + 1)
  | _ => none

/-- The byte address `a` is one the command stores to. -/
def Instr.storesTo (i : Instr) (a : Nat) : Prop :=
  match i.stores with
  | some (off, len) => off ≤ a ∧ a < off + len
  | none => False

/-- The run of `IOB` a command of format M names (30_encoding.md R72). -/
def Instr.run : Instr → Option (Nat × Nat)
  | .ldb _ off lenm1 | .stb _ off lenm1 | .penc _ off lenm1 | .pdec _ off lenm1 => some (off.val, lenm1.val + 1)
  | _ => none

/-- The run passes the end of the buffer (20_memory.md R55). -/
def Instr.outOfBuffer (i : Instr) : Bool :=
  match i.run with
  | some (off, len) => decide (1024 < off + len)
  | none => false

/-- A register a command must find valid. -/
inductive Source where
  | b (i : BSel)
  | p (i : PSel)
  | c (i : CSel)
  | crv
deriving DecidableEq, Repr

/-- What a command reads, in the order of 60_exceptions.md R254 (3). A `CRVNEW` of an unsupported type reads nothing
(43_curve_point_forms.md R171). -/
def Instr.sources : Instr → List Source
  | .ldb .. | .clr .. | .pclr .. | .crvld .. => []
  | .stb a .. | .mov _ a | .norm _ a | .ctxnew _ a => [.b a]
  | .cmp a b | .add _ a b | .sub _ a b | .mul _ a b | .divrem _ _ a b | .modinv _ a b | .gcd _ a b => [.b a, .b b]
  | .montmul _ a b c | .modexp _ a b c | .modadd _ a b c | .modsub _ a b c | .modmul _ a b c => [.c c, .b a, .b b]
  | .tomont _ a c | .frommont _ a c | .bred _ a c | .modinvct _ a c => [.c c, .b a]
  | .ctxget _ c _ => [.c c]
  | .crvnew first type =>
    if type.val = 0 then (List.range 6).map fun i => .b (Fin.ofNat 16 (first.val + i))
    else if type.val = 1 then (List.range 7).map fun i => .b (Fin.ofNat 16 (first.val + i))
    else []
  | .crvget .. | .pgen .. | .pinf .. | .pdec .. => [.crv]
  | .pset _ a b => [.crv, .b a, .b b]
  | .pget _ a _ | .pmov _ a | .ptomont _ a | .pfrommont _ a | .ptoproj _ a | .ptoaff _ a | .pval a | .penc a _ _
  | .pdbl _ a | .pneg _ a => [.crv, .p a]
  | .padd _ a b => [.crv, .p a, .p b]
  | .smul _ a k => [.crv, .p a, .b k]

/-- The commands whose leak trace is independent of every operand's value: the length-only commands of 70_reset_and_hazards.md R293, and
`MODEXP` (R292). -/
def Instr.lengthOnly : Instr → Bool
  | .cmp .. | .add .. | .sub .. | .mul .. | .mov .. | .montmul .. | .tomont .. | .frommont .. | .bred .. | .modadd ..
  | .modsub .. | .modmul .. | .modinvct .. | .ptomont .. | .pfrommont .. | .ptoproj .. | .pneg .. | .pdbl .. | .pval ..
  | .modexp .. => true
  | .ldb .. | .stb .. | .clr .. | .norm .. | .divrem .. | .ctxnew .. | .ctxget .. | .modinv .. | .gcd .. | .crvnew .. | .crvld ..
  | .crvget .. | .pset .. | .pget .. | .pgen .. | .pinf .. | .pmov .. | .pclr .. | .ptoaff .. | .penc .. | .pdec .. | .padd ..
  | .smul .. => false

/-- The faults a well-formed command can take, by the table of 60_exceptions.md R255. -/
def Instr.faults : Instr → List Machine.ErrCode
  | .ldb .. => [.iobRange]
  | .stb .. => [.iobRange, .uninit, .valueFit]
  | .mov .. | .norm .. | .cmp .. | .add .. | .sub .. | .gcd .. | .ctxget .. | .crvget .. | .pgen .. | .pinf .. | .pmov .. =>
    [.uninit]
  | .clr .. | .pclr .. => []
  | .mul .. => [.uninit, .len]
  | .divrem .. => [.uninit, .divZero]
  | .ctxnew .. => [.uninit, .modulus]
  | .montmul .. | .tomont .. | .frommont .. | .modexp .. | .bred .. | .modinvct .. | .modadd .. | .modsub .. | .modmul .. =>
    [.uninit, .range]
  | .modinv .. => [.uninit, .divZero, .modulus, .notInvertible]
  | .crvnew .. => [.curveUnsupported, .illegalCmd, .uninit, .modulus, .range, .curveParam]
  | .crvld .. => [.unknownCurve]
  | .pset .. => [.uninit, .len]
  | .pget .. | .pfrommont .. | .ptoproj .. | .ptoaff .. | .pval .. | .pdbl .. | .padd .. | .pneg .. => [.uninit, .pointForm]
  | .ptomont .. => [.uninit, .pointForm, .range]
  | .penc .. => [.iobRange, .uninit, .pointForm, .len, .valueFit]
  | .pdec .. => [.iobRange, .uninit, .malformedPoint]
  | .smul .. => [.uninit, .pointForm, .notValidated, .scalarRange]

end Sys2Proof

namespace Sys2Proof.Machine

/-- The source is valid (10_state.md R22). -/
def State.sourceValid (s : State) : Source → Bool
  | .b i => s.b[i].valid
  | .p i => s.p[i].valid
  | .c i => s.c[i].valid
  | .crv => s.crv.valid

/-! ## Faults of a curve construction -/

/-- The code of the first fault of a curve construction once its registers have been read, in the order of
43_curve_point_forms.md R171; none when the curve is installed. -/
def curveFault (W : Nat) (type : CurveType) (q : CurveParams) : Option Nat :=
  if Config.maxS W < q.np ∨ q.p < 2 ^ (W * (q.np - 1)) ∨ q.p = 1 ∨ q.p % 2 = 0 then some 0x05
  else if q.p ≤ q.a ∨ q.p ≤ q.bd ∨ q.p ≤ q.gx ∨ q.p ≤ q.gy then some 0x04
  else if type = .weierstrass ∧ q.a ≠ 0 ∧ q.a ≠ q.p - 3 then some 0x0B
  else if q.order < 3 ∨ q.order % 2 = 0 ∨ Config.maxS W < normlen W q.order then some 0x0E
  else if type = .twistedEdwards ∧ (q.rbits < bitlen q.order ∨ W * Config.maxS W < q.rbits) then some 0x0E
  else none

/-! ## The opcode table, read a second time -/

/-- What a field of a format R word may hold (30_encoding.md R73 to R75). -/
inductive FieldRule where
  | zero
  | below (n : Nat)
deriving DecidableEq, Repr

/-- The value is legal in the field. -/
def FieldRule.ok : FieldRule → Nat → Bool
  | .zero, v => v == 0
  | .below n, v => decide (v < n)

/-- One row of the opcode map (30_encoding.md R75): the opcode and the rules of `rd`, `ra`, `rb`, `rc`, `imm8`. A format M row states the
rule of its register, and the other fields are the two 10-bit numbers. -/
structure OpcodeRow where
  op : Nat
  rd : FieldRule
  ra : FieldRule
  rb : FieldRule
  rc : FieldRule
  im : FieldRule
deriving DecidableEq, Repr

/-- A format R row. -/
def rowR (op : Nat) (rd ra rb rc im : FieldRule) : OpcodeRow := ⟨op, rd, ra, rb, rc, im⟩

/-- A format M row: `lenm1` and `off` fill bits 19 to 0, and any values are legal (30_encoding.md R72, R82). -/
def rowM (op : Nat) (r : FieldRule) : OpcodeRow := ⟨op, r, .below 16, .below 16, .below 16, .below 256⟩

/-- The families `1`, `2` and `3` of the opcode map (30_encoding.md R75). -/
def opcodeRowsLow : List OpcodeRow :=
  let o := FieldRule.zero
  let b := FieldRule.below 16
  let c := FieldRule.below 4
  [rowM 0x10 b, rowM 0x11 b, rowR 0x12 b b o o o, rowR 0x13 b o o o o, rowR 0x14 b b o o o, rowR 0x15 o b b o o,
   rowR 0x16 b b b o o, rowR 0x17 b b b o o, rowR 0x18 b b b o o, rowR 0x19 b b b b o,
   rowR 0x20 o b o c o, rowR 0x21 b b b c o, rowR 0x22 b b o c o, rowR 0x23 b b o c o, rowR 0x24 b b b c o, rowR 0x25 b b o c o,
   rowR 0x26 b o o c (.below 8),
   rowR 0x30 b b b o o, rowR 0x31 b b o c o, rowR 0x32 b b b o o, rowR 0x33 b b b c o, rowR 0x34 b b b c o, rowR 0x35 b b b c o]

/-- The families `4` and `5` of the opcode map (30_encoding.md R75). -/
def opcodeRowsHigh : List OpcodeRow :=
  let o := FieldRule.zero
  let b := FieldRule.below 16
  let p := FieldRule.below 8
  [rowR 0x40 o b o o (.below 256), rowR 0x41 o o o o (.below 256), rowR 0x42 p b b o o, rowR 0x43 b p o o (.below 6),
   rowR 0x44 p o o o o, rowR 0x45 p o o o o, rowR 0x46 p p o o o, rowR 0x47 p o o o o, rowR 0x48 p p o o o, rowR 0x49 p p o o o,
   rowR 0x4A p p o o o, rowR 0x4B p p o o o, rowR 0x4C o p o o o, rowM 0x4D p, rowM 0x4E p, rowR 0x4F b o o o (.below 8),
   rowR 0x50 p p o o o, rowR 0x51 p p p o o, rowR 0x52 p p o o o, rowR 0x58 p p b o o]

/-- The word is not illegal by 30_encoding.md R76 (a) to (f), read off the opcode map and not off the decoder. -/
def legalWord (w : Nat) : Bool :=
  let op := w / 2 ^ 24
  let rd := w / 2 ^ 20 % 16
  let ra := w / 2 ^ 16 % 16
  let rb := w / 2 ^ 12 % 16
  let rc := w / 2 ^ 8 % 16
  let im := w % 256
  (opcodeRowsLow ++ opcodeRowsHigh).any (fun r =>
    r.op == op && r.rd.ok rd && r.ra.ok ra && r.rb.ok rb && r.rc.ok rc && r.im.ok im)
  && !(op == 0x19 && rd == rc)
  && !(op == 0x40 && im == 0 && decide (ra > 10))
  && !(op == 0x40 && im == 1 && decide (ra > 9))

end Sys2Proof.Machine
end

