-- ==== Sys2Proof/Certificates/Slice0/Obligations.lean ====
section
/-! DEFINITION. The statements about the machine, each from the numbered rules of spec/ its docstring names. A value below 2^(W*n) is
asked of a register where its rule (10_state.md R21) is what makes the result exact; contexts and curves are asked to be constructed
ones (`Ctx.Ok`, `Curve.Ok`), which `InvKept` says they always are. A command ends in `State.done` or `State.faulted`, which also empty the
command latch: the model's choice (log 6). -/

section
open Sys2Proof Sys2Proof.Machine

/-! ## Encoding -/

/-- Decoding the word of a well-formed command gives the command back (30_encoding.md R71, R72, R75). -/
def Obligations.DecodeEncode : Prop :=
  ∀ i : Instr, i.WellFormed → decode (encode i) = .ok i

/-- The command that a word decodes to is well formed, and the word is its encoding (30_encoding.md R82). -/
def Obligations.EncodeDecode : Prop :=
  ∀ (w : Word) (i : Instr), decode w = .ok i → i.WellFormed ∧ encode i = w

/-- A word decodes exactly when the opcode map and the conditions of 30_encoding.md R76 allow it. -/
def Obligations.LegalWords : Prop :=
  ∀ w : Word, (∃ i : Instr, decode w = .ok i) ↔ legalWord w.toNat = true

/-- Words printed in the spec decode to the commands printed beside them, one or more per family. -/
def Obligations.DecodeWords : Prop :=
  decode 0x10107C20 = .ok (.ldb 1 0x20 31) ∧ decode 0x11301C40 = .ok (.stb 3 0x40 7)
  ∧ decode 0x16312000 = .ok (.add 3 1 2) ∧ decode 0x19651700 = .ok (.divrem 6 7 5 1)
  ∧ decode 0x20000100 = .ok (.ctxnew 1 0) ∧ decode 0x21312000 = .ok (.montmul 3 1 2 0)
  ∧ decode 0x26D00004 = .ok (.ctxget 13 0 .mu) ∧ decode 0x31540100 = .ok (.modinvct 5 4 1)
  ∧ decode 0x40000001 = .ok (.crvnew 0 1) ∧ decode 0x43100005 = .ok (.pget 1 0 .flags)
  ∧ decode 0x4D310040 = .ok (.penc 3 0x40 64) ∧ decode 0x51731000 = .ok (.padd 7 3 1)
  ∧ decode 0x58100000 = .ok (.smul 1 0 0)
  ∧ decode 0x00000000 = .error .unknownOpcode ∧ decode 0xFF000000 = .error .unknownOpcode

/-! ## The step, faults and the host -/

/-- A step of a busy core, no host access coming first, runs the decoded command, and an illegal word takes `E_ILLEGAL_CMD`; before
that, the host's `CMD` write on an idle core is accepted, which is the step before (10_state.md R27, 70_reset_and_hazards.md R283,
30_encoding.md R76). That acceptance and completion are two steps is the model's choice (log 3). -/
def Obligations.StepRunsCommand : Prop :=
  (∀ (s : State) (i : Instr), s.status.busy = true → s.hostFirst = false → decode s.cmd = .ok i → step s = exec i s)
  ∧ (∀ (s : State) (e : DecodeError), s.status.busy = true → s.hostFirst = false → decode s.cmd = .error e →
      step s = .next (s.faulted 0x01))
  ∧ (∀ (s : State) (w : Word) (early : Bool) (rest : List HostOp), s.status.busy = false → s.status.fault = false →
      s.host = ⟨.writeReg 0 w, early⟩ :: rest →
      step s = .next { s with
        host := rest
        cmd := w
        status := { s.status with busy := true, done := false } })

/-- Every command ends in a next state: it completes, the fault and host side untouched, or it takes one of the sixteen faults and
changes nothing else (60_exceptions.md R260, R261; 70_reset_and_hazards.md R283, R289). -/
def Obligations.CompletesOrFaults : Prop :=
  ∀ (i : Instr) (s : State),
    (∃ t : State, exec i s = .next t.done
      ∧ t = { s with b := t.b, p := t.p, c := t.c, crv := t.crv, iob := t.iob,
                     status := { s.status with carry := t.status.carry, v := t.status.v, cmp := t.status.cmp } })
    ∨ ∃ n : Nat, 1 ≤ n ∧ n ≤ 16 ∧ exec i s = .next (s.faulted n)

/-- A well-formed command takes only the faults its row of 60_exceptions.md R255 lists. -/
def Obligations.FaultTable : Prop :=
  ∀ (i : Instr) (s : State) (e : ErrCode), i.WellFormed → exec i s = .next (s.faulted e.code) → e ∈ i.faults

/-- A buffer run past the end faults first, then a source that is not valid, whatever else is wrong; with the run inside and every source
valid there is no `E_UNINIT` (60_exceptions.md R254 (2) and (3), 20_memory.md R55, 10_state.md R22). -/
def Obligations.RangeThenUninit : Prop :=
  ∀ (i : Instr) (s : State), i.WellFormed →
    (i.outOfBuffer = true → exec i s = .next (s.faulted 0x0D))
    ∧ (i.outOfBuffer = false → (∃ r ∈ i.sources, s.sourceValid r = false) → exec i s = .next (s.faulted 0x02))
    ∧ (i.outOfBuffer = false → (∀ r ∈ i.sources, s.sourceValid r = true) → exec i s ≠ .next (s.faulted 0x02))

/-- A `CMD` write is accepted by an idle core without a fault and ignored otherwise; `CMD` reads 0 (10_state.md R27, 60_exceptions.md R262,
70_reset_and_hazards.md R288). -/
def Obligations.CmdWrite : Prop :=
  ∀ (s : State) (w : Word),
    (s.status.busy = false → s.status.fault = false →
      s.hostAccess (.writeReg 0 w) = { s with cmd := w, status := { s.status with busy := true, done := false } })
    ∧ (s.status.busy = true → s.hostAccess (.writeReg 0 w) = s)
    ∧ (s.status.fault = true → s.hostAccess (.writeReg 0 w) = s)
    ∧ (s.hostAccess (.readReg 0)).rdata = 0

/-- After a fault no run changes the status, the fault registers or a register file, unless the host pulls the reset wire
(60_exceptions.md R262, R263). -/
def Obligations.FaultSticky : Prop :=
  ∀ (n : Nat) (s : State), s.status.fault = true → s.status.busy = false → (∀ op ∈ s.host, op.access ≠ .reset) →
    ∃ t : State, Host.Core.run Sys2Proof.core n s = .next t ∧ t.status = s.status ∧ t.faultCode = s.faultCode
      ∧ t.faultCmd = s.faultCmd ∧ t.b = s.b ∧ t.p = s.p ∧ t.c = s.c ∧ t.crv = s.crv

/-- The reset wire and the state after reset: every value of 70_reset_and_hazards.md R280, from any state, whatever the core was doing. -/
def Obligations.ResetValues : Prop :=
  ∀ s t : State, t = s.hostAccess .reset ∨ (s = State.reset ∧ t = State.reset) →
    (∀ i : BSel, t.b[i] = ⟨false, 0, 0⟩)
    ∧ (∀ i : PSel, t.p[i] = ⟨false, 0, 0, 0, 0, 0, false, false, false, false, false⟩)
    ∧ (∀ i : CSel, t.c[i] = ⟨false, 0, 0, 0, 0, 0, 0, 0, 0⟩)
    ∧ t.crv = ⟨false, .weierstrass, 0, 0, 0, 0, 0, 0, 0, ⟨false, 0, 0, 0, 0, 0, 0, 0, 0⟩, .aZero, 0, 0, 0, 0⟩
    ∧ (∀ a : Nat, t.iob.read a = 0)
    ∧ t.status.word = 0 ∧ t.faultCode = 0 ∧ t.faultCmd = 0
    ∧ t.W = s.W ∧ t.idWord = BitVec.ofNat 32 (0x4D4D0100 + s.W)

/-- A host register read returns the register of 20_memory.md R54 and changes nothing but the data read, and a write of any register but `CMD` is
ignored; a word access reaches the register at four times its number and a byte access the byte of `IOB` at `0x400` and up, and nothing else is
reached; the bits of `STATUS` are those of 10_state.md R25. -/
def Obligations.HostReads : Prop :=
  (∀ (s : State) (word : Fin 256) (t : State), t = s.hostAccess (.readReg word) →
    t = { s with rdata := t.rdata }
    ∧ (word.val = 0 → t.rdata = 0) ∧ (word.val = 1 → t.rdata = s.status.word) ∧ (word.val = 2 → t.rdata = s.faultCode)
    ∧ (word.val = 3 → t.rdata = s.faultCmd) ∧ (word.val = 4 → t.rdata.toNat = 0x4D4D0100 + s.W)
    ∧ (5 ≤ word.val → t.rdata = 0))
  ∧ (∀ (s : State) (word : Fin 256) (data : Word), word.val ≠ 0 → s.hostAccess (.writeReg word data) = s)
  ∧ (∀ (s : State) (word : Fin 256) (a : Fin 1024) (data : Word) (v : Byte),
      s.busAccess (4 * word.val) .readWord = some (s.hostAccess (.readReg word))
      ∧ s.busAccess (4 * word.val) (.writeWord data) = some (s.hostAccess (.writeReg word data))
      ∧ s.busAccess (0x400 + a.val) .readByte = some (s.hostAccess (.readIob a))
      ∧ s.busAccess (0x400 + a.val) (.writeByte v) = some (s.hostAccess (.writeIob a v)))
  ∧ (∀ (s : State) (off : Nat) (op : BusOp), (∃ t : State, s.busAccess off op = some t) ↔
      match op with
      | .readWord | .writeWord _ => off < 0x400 ∧ off % 4 = 0
      | .readByte | .writeByte _ => 0x400 ≤ off ∧ off < 0x800)
  ∧ ∀ u : Status,
    u.word.getLsbD 0 = u.busy ∧ u.word.getLsbD 1 = u.done ∧ u.word.getLsbD 2 = u.fault ∧ u.word.getLsbD 3 = false
    ∧ u.word.getLsbD 4 = u.carry ∧ u.word.getLsbD 5 = u.v
    ∧ (u.word.getLsbD 6 = true ↔ u.cmp = .greater) ∧ (u.word.getLsbD 7 = true ↔ u.cmp = .less)
    ∧ ∀ j : Nat, 8 ≤ j → u.word.getLsbD j = false

/-- The host's accesses to `IOB`: a byte written is the byte read and the other bytes keep their values; while `BUSY = 1` a write is
ignored, and a read changes nothing but the data read and the model's counter of free bytes (20_memory.md R56, R65; the counter is log 5). -/
def Obligations.BufferAccess : Prop :=
  ∀ (s : State) (a : Fin 1024) (v : Byte), s.iob.wf = true →
    (s.status.busy = false →
      (s.hostAccess (.readIob a)) = { s with rdata := (s.iob.read a.val).zeroExtend 32 }
      ∧ ∃ t : State, s.hostAccess (.writeIob a v) = t ∧ t = { s with iob := t.iob } ∧ t.iob.read a.val = v
        ∧ ∀ b : Nat, b ≠ a.val → t.iob.read b = s.iob.read b)
    ∧ (s.status.busy = true →
      s.hostAccess (.writeIob a v) = s
      ∧ ∃ t : State, s.hostAccess (.readIob a) = t ∧ t = { s with rdata := t.rdata, freeReads := s.freeReads + 1 }
        ∧ t.rdata.toNat < 256)

/-! ## Digit arrays -/

/-- `LDB`: the big-endian value of the run, normalized (40_digit_array.md R101, 00_scope.md R10, R12). -/
def Obligations.LdbResult : Prop :=
  ∀ (bd : BSel) (off lenm1 : Imm10) (s : State),
    (1024 < off.val + (lenm1.val + 1) → exec (.ldb bd off lenm1) s = .next (s.faulted 0x0D))
    ∧ (off.val + (lenm1.val + 1) ≤ 1024 →
      ∃ n v : Nat, exec (.ldb bd off lenm1) s = .next (s.writeB bd n v).done
        ∧ v = ((List.range (lenm1.val + 1)).map fun j => (s.iob.read (off.val + j)).toNat * 256 ^ (lenm1.val - j)).sum
        ∧ v < 2 ^ (s.W * n) ∧ 1 ≤ n ∧ (n = 1 ∨ 2 ^ (s.W * (n - 1)) ≤ v))

/-- `STB`: exactly the `len` bytes of the value, big-endian, zero-padded on the left; every other byte and every register keeps its value; a
value that does not fit faults (40_digit_array.md R102). -/
def Obligations.StbResult : Prop :=
  ∀ (bs : BSel) (off lenm1 : Imm10) (s : State) (n v : Nat), s.iob.wf = true → s.holds bs n v →
    off.val + (lenm1.val + 1) ≤ 1024 →
    (256 ^ (lenm1.val + 1) ≤ v → exec (.stb bs off lenm1) s = .next (s.faulted 0x0F))
    ∧ (v < 256 ^ (lenm1.val + 1) →
      ∃ t : State, exec (.stb bs off lenm1) s = .next t.done ∧ t = { s with iob := t.iob }
        ∧ (∀ j : Nat, j ≤ lenm1.val → (t.iob.read (off.val + j)).toNat = v / 256 ^ (lenm1.val - j) % 256)
        ∧ ∀ a : Nat, a < off.val ∨ off.val + (lenm1.val + 1) ≤ a → t.iob.read a = s.iob.read a)

/-- `STB` followed by `LDB` of the same run gives the normalized register (40_digit_array.md R113). -/
def Obligations.BufferRoundTrip : Prop :=
  ∀ (bs bd : BSel) (off lenm1 : Imm10) (s : State) (n v : Nat), s.iob.wf = true → s.holds bs n v →
    off.val + (lenm1.val + 1) ≤ 1024 → v < 256 ^ (lenm1.val + 1) →
    ∃ t u : State, exec (.stb bs off lenm1) s = .next t ∧ exec (.ldb bd off lenm1) t = .next u
      ∧ u.holds bd (normlen s.W v) v ∧ ∀ r : BSel, r ≠ bd → u.b[r] = s.b[r]

/-- `MOV`, `CLR`, `NORM` and `CMP` (40_digit_array.md R103 to R106). `CLR` reads nothing. -/
def Obligations.MoveResults : Prop :=
  ∀ (bd ba bb : BSel) (s : State) (la a lb b : Nat),
    exec (.clr bd) s = .next (s.writeB bd 1 0).done
    ∧ (s.holds ba la a →
      exec (.mov bd ba) s = .next (s.writeB bd la a).done
      ∧ ∃ n : Nat, exec (.norm bd ba) s = .next (s.writeB bd n a).done
        ∧ a < 2 ^ (s.W * n) ∧ 1 ≤ n ∧ (n = 1 ∨ 2 ^ (s.W * (n - 1)) ≤ a))
    ∧ (s.holds ba la a → s.holds bb lb b →
      ∃ f : CmpFlag, exec (.cmp ba bb) s = .next { s with status := { s.status with cmp := f } }.done
        ∧ (f = .equal ↔ a = b) ∧ (f = .greater ↔ b < a) ∧ (f = .less ↔ a < b))

/-- `ADD` and `SUB`: the result with the carry or borrow is the exact sum or difference (40_digit_array.md R107, R108). -/
def Obligations.AddSubResults : Prop :=
  ∀ (bd ba bb : BSel) (s : State) (la a lb b : Nat), s.holds ba la a → s.holds bb lb b →
    a < 2 ^ (s.W * la) → b < 2 ^ (s.W * lb) →
    (∃ (r : Nat) (c : Bool),
      exec (.add bd ba bb) s
        = .next { s.writeB bd (max la lb) r with status := { s.status with carry := c } }.done
      ∧ r < 2 ^ (s.W * max la lb) ∧ a + b = r + c.toNat * 2 ^ (s.W * max la lb))
    ∧ ∃ (r : Nat) (c : Bool),
      exec (.sub bd ba bb) s
        = .next { s.writeB bd (max la lb) r with status := { s.status with carry := c } }.done
      ∧ r < 2 ^ (s.W * max la lb) ∧ a + c.toNat * 2 ^ (s.W * max la lb) = r + b

/-- `MUL` writes the whole product at the sum of the lengths, or faults past the capacity; `DIVREM` writes the quotient and the remainder,
both normalized, or faults on zero (40_digit_array.md R109, R110). -/
def Obligations.MulDivResults : Prop :=
  ∀ (bd br ba bb : BSel) (s : State) (la a lb b : Nat), s.holds ba la a → s.holds bb lb b →
    (la + lb ≤ Config.cap s.W → exec (.mul bd ba bb) s = .next (s.writeB bd (la + lb) (a * b)).done)
    ∧ (Config.cap s.W < la + lb → exec (.mul bd ba bb) s = .next (s.faulted 0x03))
    ∧ (bd ≠ br → b = 0 → exec (.divrem bd br ba bb) s = .next (s.faulted 0x06))
    ∧ (bd ≠ br → b ≠ 0 →
      ∃ q r : Nat, a = q * b + r ∧ r < b
        ∧ exec (.divrem bd br ba bb) s = .next ((s.writeB bd (normlen s.W q) q).writeB br (normlen s.W r) r).done)

/-! ## Montgomery engine -/

/-- `CTXNEW` constructs the context of 10_state.md R30 or faults with `E_MODULUS` (41_montgomery.md R121). -/
def Obligations.CtxnewResult : Prop :=
  ∀ (c : CSel) (bs : BSel) (s : State) (n m : Nat), s.holds bs n m → 1 ≤ n → m < 2 ^ (s.W * n) →
    (n ≤ Config.maxS s.W → 2 ^ (s.W * (n - 1)) ≤ m → m ≠ 1 → m % 2 = 1 →
      ∃ k : Ctx, k.Ok s.W ∧ k.s = n ∧ k.m = m ∧ exec (.ctxnew c bs) s = .next (s.writeC c k).done)
    ∧ (Config.maxS s.W < n ∨ m < 2 ^ (s.W * (n - 1)) ∨ m = 1 ∨ m % 2 = 0 →
      exec (.ctxnew c bs) s = .next (s.faulted 0x05))

/-- `MONTMUL`, `TOMONT`, `FROMMONT` under a constructed context: the reduced Montgomery product and the two conversions, or `E_RANGE`
(41_montgomery.md R120, R123, R127, R128). -/
def Obligations.MontResults : Prop :=
  ∀ (bd ba bb : BSel) (c : CSel) (s : State) (k : Ctx) (la a lb b : Nat), s.c[c] = k → k.Ok s.W →
    s.holds ba la a → s.holds bb lb b →
    (a < k.m → b < k.m →
      ∃ r : Nat, r < k.m ∧ r * 2 ^ (s.W * k.s) % k.m = a * b % k.m
        ∧ exec (.montmul bd ba bb c) s = .next (s.writeB bd k.s r).done)
    ∧ (k.m ≤ a ∨ k.m ≤ b → exec (.montmul bd ba bb c) s = .next (s.faulted 0x04))
    ∧ (a < k.m → exec (.tomont bd ba c) s = .next (s.writeB bd k.s (a * 2 ^ (s.W * k.s) % k.m)).done)
    ∧ (a < k.m →
      ∃ r : Nat, r < k.m ∧ r * 2 ^ (s.W * k.s) % k.m = a
        ∧ exec (.frommont bd ba c) s = .next (s.writeB bd k.s r).done)
    ∧ (k.m ≤ a → exec (.tomont bd ba c) s = .next (s.faulted 0x04) ∧ exec (.frommont bd ba c) s = .next (s.faulted 0x04))

/-- The Montgomery correctness property over the four commands that express it (41_montgomery.md R129). -/
def Obligations.MontRoundTrip : Prop :=
  ∀ (ba bb d1 d2 d3 d4 : BSel) (c : CSel) (s : State) (k : Ctx) (la a lb b : Nat), s.c[c] = k → k.Ok s.W →
    s.holds ba la a → s.holds bb lb b → a < k.m → b < k.m → d1 ≠ bb → d1 ≠ d2 →
    (∃ t1 t2 t3 t4 : State, exec (.tomont d1 ba c) s = .next t1 ∧ exec (.tomont d2 bb c) t1 = .next t2
      ∧ exec (.montmul d3 d1 d2 c) t2 = .next t3 ∧ exec (.frommont d4 d3 c) t3 = .next t4
      ∧ t4.holds d4 k.s (a * b % k.m))
    ∧ ∃ t1 t2 : State, exec (.tomont d1 ba c) s = .next t1 ∧ exec (.frommont d4 d1 c) t1 = .next t2 ∧ t2.holds d4 k.s a

/-- `MODEXP` computes the power for any exponent; `MODINVCT` the power `m - 2`, which is the inverse under a prime modulus
(41_montgomery.md R131, 42_inversion_group.md R154). -/
def Obligations.PowerResults : Prop :=
  ∀ (bd ba be : BSel) (c : CSel) (s : State) (k : Ctx) (la a le e : Nat), s.c[c] = k → k.Ok s.W →
    s.holds ba la a → s.holds be le e →
    (a < k.m → exec (.modexp bd ba be c) s = .next (s.writeB bd k.s (a ^ e % k.m)).done)
    ∧ (k.m ≤ a → exec (.modexp bd ba be c) s = .next (s.faulted 0x04) ∧ exec (.modinvct bd ba c) s = .next (s.faulted 0x04))
    ∧ (a < k.m → exec (.modinvct bd ba c) s = .next (s.writeB bd k.s (a ^ (k.m - 2) % k.m)).done)
    ∧ (a < k.m → a ≠ 0 → k.m.Prime → a * (a ^ (k.m - 2) % k.m) % k.m = 1)

/-- `BRED` reduces every value below `2^(2*W*s)` and faults above; `CTXGET` reads out each field at its length, selector 7 as any digit
where the count does not fit one (41_montgomery.md R139, R142; the free digit is log 21). -/
def Obligations.BredCtxgetResults : Prop :=
  ∀ (bd bs : BSel) (c : CSel) (s : State) (k : Ctx) (lx x : Nat), s.c[c] = k → k.valid = true → s.holds bs lx x →
    (x < 2 ^ (2 * s.W * k.s) → exec (.bred bd bs c) s = .next (s.writeB bd k.s (x % k.m)).done)
    ∧ (2 ^ (2 * s.W * k.s) ≤ x → exec (.bred bd bs c) s = .next (s.faulted 0x04))
    ∧ ∀ f : CtxField, ∃ n v : Nat, exec (.ctxget bd c f) s = .next (s.writeB bd n v).done
      ∧ match f with
        | .m => n = k.s ∧ v = k.m
        | .rmod => n = k.s ∧ v = k.rmod
        | .r2mod => n = k.s ∧ v = k.r2mod
        | .r3mod => n = k.s ∧ v = k.r3mod
        | .mu => n = k.s + 1 ∧ v = k.mu
        | .mprime => n = 1 ∧ v = k.mprime
        | .m0 => n = 1 ∧ v = k.m0
        | .s => n = 1 ∧ v < 2 ^ s.W ∧ (k.s < 2 ^ s.W → v = k.s)

/-! ## Inversion and integer group -/

/-- `MODINV` finds the inverse exactly when there is one, for a modulus odd or even and an operand reduced or not, and names the fault
otherwise; `GCD` writes the greatest common divisor, normalized, zero operands included (42_inversion_group.md R151, R152, R155). -/
def Obligations.ModinvGcdResults : Prop :=
  ∀ (bd ba bn : BSel) (s : State) (la a ln n : Nat), s.holds ba la a → s.holds bn ln n →
    (n = 0 → exec (.modinv bd ba bn) s = .next (s.faulted 0x06))
    ∧ (n = 1 → exec (.modinv bd ba bn) s = .next (s.faulted 0x05))
    ∧ (2 ≤ n → Nat.gcd a n ≠ 1 → exec (.modinv bd ba bn) s = .next (s.faulted 0x07))
    ∧ (2 ≤ n → Nat.gcd a n = 1 →
      ∃ v : Nat, 1 ≤ v ∧ v < n ∧ a * v % n = 1 ∧ exec (.modinv bd ba bn) s = .next (s.writeB bd (normlen s.W n) v).done)
    ∧ exec (.gcd bd ba bn) s = .next (s.writeB bd (normlen s.W (Nat.gcd a n)) (Nat.gcd a n)).done

/-- `MODADD`, `MODSUB`, `MODMUL` compute in the integers modulo `m`, operands and results in standard form, and fault on an operand that is
not reduced (42_inversion_group.md R157 to R159). -/
def Obligations.GroupResults : Prop :=
  ∀ (bd ba bb : BSel) (c : CSel) (s : State) (k : Ctx) (la a lb b : Nat), s.c[c] = k → k.Ok s.W →
    s.holds ba la a → s.holds bb lb b →
    (a < k.m → b < k.m →
      exec (.modadd bd ba bb c) s = .next (s.writeB bd k.s ((a + b) % k.m)).done
      ∧ exec (.modsub bd ba bb c) s = .next (s.writeB bd k.s (((a : Int) - b) % k.m).toNat).done
      ∧ exec (.modmul bd ba bb c) s = .next (s.writeB bd k.s (a * b % k.m)).done)
    ∧ (k.m ≤ a ∨ k.m ≤ b →
      exec (.modadd bd ba bb c) s = .next (s.faulted 0x04) ∧ exec (.modsub bd ba bb c) s = .next (s.faulted 0x04)
      ∧ exec (.modmul bd ba bb c) s = .next (s.faulted 0x04))

/-- The properties of the integer group: addition, subtraction undone by addition, the product with the inverse, and the two inverses of a
prime modulus, which agree (42_inversion_group.md R161). Only `MODINV` reads a register that holds the modulus. -/
def Obligations.GroupProperties : Prop :=
  ∀ (d1 d2 ba bb bm : BSel) (c : CSel) (s : State) (k : Ctx) (la a lb b lm : Nat), s.c[c] = k → k.Ok s.W →
    s.holds ba la a → a < k.m →
    (s.holds bb lb b → b < k.m →
      (∃ t : State, exec (.modadd d1 ba bb c) s = .next t ∧ t.holds d1 k.s ((a + b) % k.m))
      ∧ (d1 ≠ bb → ∃ t u : State, exec (.modsub d1 ba bb c) s = .next t ∧ exec (.modadd d2 d1 bb c) t = .next u ∧ u.holds d2 k.s a))
    ∧ (s.holds bm lm k.m → d1 ≠ ba → Nat.gcd a k.m = 1 →
      ∃ t u : State, exec (.modinv d1 ba bm) s = .next t ∧ exec (.modmul d2 ba d1 c) t = .next u ∧ u.holds d2 k.s 1)
    ∧ (s.holds bm lm k.m → k.m.Prime → a ≠ 0 →
      ∃ t u : State, exec (.modinv d1 ba bm) s = .next t ∧ exec (.modinvct d2 ba c) s = .next u ∧ u.b[d2] = t.b[d1]
        ∧ t.status.done = true ∧ u.status.done = true)

/-! ## Curves and point forms -/

/-- `CRVNEW`, its register run valid: the first fault of 43_curve_point_forms.md R171, or the descriptor with its derived fields installed
and every point register invalid (10_state.md R32 to R34). -/
def Obligations.CrvnewResult : Prop :=
  ∀ (first : BSel) (type : Imm8) (s : State) (ln vl : Nat → Nat),
    (2 ≤ type.val → exec (.crvnew first type) s = .next (s.faulted 0x0B))
    ∧ ∀ (ct : CurveType) (cnt : Nat), (type.val = 0 ∧ ct = .weierstrass ∧ cnt = 6) ∨ (type.val = 1 ∧ ct = .twistedEdwards ∧ cnt = 7) →
      first.val + cnt ≤ 16 → (∀ i : Nat, i < cnt → s.holds (Fin.ofNat 16 (first.val + i)) (ln i) (vl i)) →
      1 ≤ ln 0 → vl 0 < 2 ^ (s.W * ln 0) →
      match curveFault s.W ct ⟨ln 0, vl 0, vl 1, vl 2, vl 3, vl 4, vl 5, vl 6⟩ with
      | some n => exec (.crvnew first type) s = .next (s.faulted n)
      | none =>
        ∃ k : Curve, k.Ok s.W ∧ k.type = ct ∧ k.fctx.s = ln 0 ∧ k.p = vl 0 ∧ k.a = vl 1 ∧ k.bd = vl 2 ∧ k.order = vl 3
          ∧ k.gx = vl 4 ∧ k.gy = vl 5 ∧ (ct = .twistedEdwards → k.rbits = vl 6)
          ∧ exec (.crvnew first type) s
              = .next { s with crv := k, p := s.p.map fun (q : PReg) => { q with valid := false } }.done

/-- `CRVLD`: ids 1, 2, 3 install P-256, P-384, P-521 at every digit width, with the constants of 43_curve_point_forms.md R176 and `a = p - 3`, every
derived field as `CRVNEW` would make it, the generator on the curve; every other id faults (R174, R176, R179). -/
def Obligations.CrvldResult : Prop :=
  ∀ (id : Imm8) (s : State),
    (id.val ≠ 1 → id.val ≠ 2 → id.val ≠ 3 → exec (.crvld id) s = .next (s.faulted 0x0C))
    ∧ ∀ p bd order gx gy rb w : Nat,
      (id.val = 1 ∧ rb = 256 ∧ w = 5
        ∧ p = 0xFFFFFFFF00000001000000000000000000000000FFFFFFFFFFFFFFFFFFFFFFFF
        ∧ bd = 0x5AC635D8AA3A93E7B3EBBD55769886BC651D06B0CC53B0F63BCE3C3E27D2604B
        ∧ order = 0xFFFFFFFF00000000FFFFFFFFFFFFFFFFBCE6FAADA7179E84F3B9CAC2FC632551
        ∧ gx = 0x6B17D1F2E12C4247F8BCE6E563A440F277037D812DEB33A0F4A13945D898C296
        ∧ gy = 0x4FE342E2FE1A7F9B8EE7EB4A7C0F9E162BCE33576B315ECECBB6406837BF51F5)
      ∨ (id.val = 2 ∧ rb = 384 ∧ w = 6
        ∧ p = 0xFFFFFFFFFFFFFFFFFFFFFFFFFFFFFFFFFFFFFFFFFFFFFFFFFFFFFFFFFFFFFFFEFFFFFFFF0000000000000000FFFFFFFF
        ∧ bd = 0xB3312FA7E23EE7E4988E056BE3F82D19181D9C6EFE8141120314088F5013875AC656398D8A2ED19D2A85C8EDD3EC2AEF
        ∧ order = 0xFFFFFFFFFFFFFFFFFFFFFFFFFFFFFFFFFFFFFFFFFFFFFFFFC7634D81F4372DDF581A0DB248B0A77AECEC196ACCC52973
        ∧ gx = 0xAA87CA22BE8B05378EB1C71EF320AD746E1D3B628BA79B9859F741E082542A385502F25DBF55296C3A545E3872760AB7
        ∧ gy = 0x3617DE4A96262C6F5D9E98BF9292DC29F8F41DBD289A147CE9DA3113B5F0B8C00A60B1CE1D7E819D7A431D7C90EA0E5F)
      ∨ (id.val = 3 ∧ rb = 521 ∧ w = 6
        ∧ p = 2 ^ 521 - 1
        ∧ bd = 0x0051953EB9618E1C9A1F929A21A0B68540EEA2DA725B99B315F3B8B489918EF109E156193951EC7E937B1652C0BD3BB1BF073573DF883D2C34F1EF451FD46B503F00
        ∧ order = 0x01FFFFFFFFFFFFFFFFFFFFFFFFFFFFFFFFFFFFFFFFFFFFFFFFFFFFFFFFFFFFFFFFFA51868783BF2F966B7FCC0148F709A5D03BB5C9B8899C47AEBB6FB71E91386409
        ∧ gx = 0x00C6858E06B70404E9CD9E3ECB662395B4429C648139053FB521F828AF606B4D3DBAA14B5E77EFE75928FE1DC127A2FFA8DE3348B3C1856A429BF97E7E31C2E5BD66
        ∧ gy = 0x011839296A789A3BC0045C8A5FB42C7D1BD998F54449579B446817AFBD17273E662C97EE72995EF42640C550B9013FAD0761353C7086A272C24088BE94769FD16650) →
      ∃ k : Curve, k.Ok s.W ∧ k.type = .weierstrass ∧ k.spec = .aMinus3 ∧ k.p = p ∧ k.a = p - 3 ∧ k.bd = bd ∧ k.order = order
        ∧ k.gx = gx ∧ k.gy = gy ∧ k.rbits = rb ∧ k.w = w ∧ k.fctx.s = normlen s.W p
        ∧ gy ^ 2 % p = (gx ^ 3 + (p - 3) * gx + bd) % p
        ∧ exec (.crvld id) s = .next { s with crv := k, p := s.p.map fun (q : PReg) => { q with valid := false } }.done

/-- `CRVGET` and `PGET` read out each field at its length; `CRVGET` needs no point; a coordinate that is not present faults (43_curve_point_forms.md R175, R178). -/
def Obligations.ReadoutResults : Prop :=
  ∀ (bd : BSel) (s : State) (k : Curve), s.crv = k → k.valid = true →
    (∀ f : CrvField, ∃ n v : Nat, exec (.crvget bd f) s = .next (s.writeB bd n v).done
      ∧ match f with
        | .p => n = k.fctx.s ∧ v = k.p
        | .a => n = k.fctx.s ∧ v = k.a
        | .bd => n = k.fctx.s ∧ v = k.bd
        | .order => n = normlen s.W k.order ∧ v = k.order
        | .gx => n = k.fctx.s ∧ v = k.gx
        | .gy => n = k.fctx.s ∧ v = k.gy
        | .rbits => n = normlen s.W k.rbits ∧ v = k.rbits
        | .info => n = 1 ∧ v = (if k.type = .twistedEdwards then 1 else 0)
            + 2 * (match k.spec with | .aZero => 0 | .aMinus3 => 1 | .twisted => 2) + 16 * k.w)
    ∧ ∀ (ps : PSel) (q : PReg), s.p[ps] = q → q.valid = true →
      exec (.pget bd ps .x) s = .next (s.writeB bd k.fctx.s q.x).done
      ∧ exec (.pget bd ps .y) s = .next (s.writeB bd k.fctx.s q.y).done
      ∧ exec (.pget bd ps .z) s = .next (if q.hasZ then (s.writeB bd k.fctx.s q.z).done else s.faulted 0x08)
      ∧ exec (.pget bd ps .ta) s = .next (if q.hasT then (s.writeB bd k.fctx.s q.ta).done else s.faulted 0x08)
      ∧ exec (.pget bd ps .tb) s = .next (if q.hasT then (s.writeB bd k.fctx.s q.tb).done else s.faulted 0x08)
      ∧ exec (.pget bd ps .flags) s
          = .next (s.writeB bd 1 (q.hasZ.toNat + 2 * q.hasT.toNat + 4 * q.inf.toNat + 8 * q.mont.toNat + 16 * q.onc.toNat)).done

/-- `PSET`, `PGEN`, `PINF`, `PMOV`, `PCLR` (43_curve_point_forms.md R177, R179 to R182). `PCLR` needs nothing; the others need a curve, `PMOV` a
valid point too, `PSET` its two registers. A register is written as a whole, the fields not present as zero (R170 d). -/
def Obligations.PointMaking : Prop :=
  ∀ (pd ps : PSel) (bx byy : BSel) (s : State) (k : Curve) (q : PReg) (lx x ly y : Nat),
    exec (.pclr pd) s = .next (s.writeP pd ⟨false, 0, 0, 0, 0, 0, false, false, false, false, false⟩).done
    ∧ (s.crv = k → k.valid = true →
      exec (.pgen pd) s = .next (s.writeP pd ⟨true, k.gx, k.gy, 0, 0, 0, false, false, false, false, false⟩).done
      ∧ exec (.pinf pd) s = .next (s.writeP pd
          ⟨true, 0, if k.type = .weierstrass then 0 else 1, 0, 0, 0, false, false, true, false, true⟩).done
      ∧ (s.p[ps] = q → q.valid = true → exec (.pmov pd ps) s = .next (s.writeP pd q).done)
      ∧ (s.holds bx lx x → s.holds byy ly y →
        (x < 2 ^ (s.W * k.fctx.s) → y < 2 ^ (s.W * k.fctx.s) →
          exec (.pset pd bx byy) s = .next (s.writeP pd ⟨true, x, y, 0, 0, 0, false, false, false, false, false⟩).done)
        ∧ (2 ^ (s.W * k.fctx.s) ≤ x ∨ 2 ^ (s.W * k.fctx.s) ≤ y → exec (.pset pd bx byy) s = .next (s.faulted 0x03))))

/-- `PTOMONT` and `PFROMMONT`: every present coordinate is multiplied by `R` or by its inverse, the other fields are copied, and the two
undo each other; the wrong residue form and an unreduced coordinate fault (43_curve_point_forms.md R190, R191). -/
def Obligations.ResidueForms : Prop :=
  ∀ (pd pe ps : PSel) (s : State) (k : Curve) (q : PReg), s.crv = k → k.Ok s.W → s.p[ps] = q → q.valid = true →
    (q.mont = true → exec (.ptomont pd ps) s = .next (s.faulted 0x08))
    ∧ (q.mont = false → exec (.pfrommont pd ps) s = .next (s.faulted 0x08))
    ∧ (q.mont = false → (∃ t ∈ q.present, k.p ≤ t) → exec (.ptomont pd ps) s = .next (s.faulted 0x04))
    ∧ (q.mont = false → (∀ t ∈ q.present, t < k.p) →
      ∃ f : Nat → Nat, (∀ t : Nat, f t = t * 2 ^ (s.W * k.fctx.s) % k.p)
        ∧ exec (.ptomont pd ps) s = .next (s.writeP pd { q with
            x := f q.x, y := f q.y, z := if q.hasZ then f q.z else 0,
            ta := if q.hasT then f q.ta else 0, tb := if q.hasT then f q.tb else 0, mont := true }).done)
    ∧ (q.mont = true →
      ∃ f : Nat → Nat, (∀ t : Nat, f t < k.p ∧ f t * 2 ^ (s.W * k.fctx.s) % k.p = t % k.p)
        ∧ exec (.pfrommont pd ps) s = .next (s.writeP pd { q with
            x := f q.x, y := f q.y, z := if q.hasZ then f q.z else 0,
            ta := if q.hasT then f q.ta else 0, tb := if q.hasT then f q.tb else 0, mont := false }).done)
    ∧ (q.Ok s.W k → q.mont = false → (∀ t ∈ q.present, t < k.p) →
      ∃ t u : State, exec (.ptomont pd ps) s = .next t ∧ exec (.pfrommont pe pd) t = .next u ∧ u.p[pe] = q)

/-- `PTOPROJ` lifts with `Z = 1` in the point's residue form, `PTOAFF` divides by `Z` (by the power `Z^(p-2)`, a true division under a prime
`p`), and `PTOAFF` undoes `PTOPROJ` on Montgomery-form points (43_curve_point_forms.md R192 to R194). -/
def Obligations.CoordinateForms : Prop :=
  ∀ (pd pe ps : PSel) (s : State) (k : Curve) (q : PReg), s.crv = k → k.Ok s.W → s.p[ps] = q → q.valid = true →
    (q.hasZ = true → exec (.ptoproj pd ps) s = .next (s.faulted 0x08))
    ∧ (q.hasZ = false ∨ q.mont = false → exec (.ptoaff pd ps) s = .next (s.faulted 0x08))
    ∧ (q.hasZ = false → ∃ o : Nat, o = (if q.mont then 2 ^ (s.W * k.fctx.s) % k.p else 1)
        ∧ exec (.ptoproj pd ps) s = .next (s.writeP pd (
            if k.type = .twistedEdwards then ⟨true, q.x, q.y, o, q.x, q.y, true, true, false, q.mont, q.onc⟩
            else if q.inf then ⟨true, o, o, 0, 0, 0, true, false, true, q.mont, q.onc⟩
            else ⟨true, q.x, q.y, o, 0, 0, true, false, false, q.mont, q.onc⟩)).done)
    ∧ (q.hasZ = true → q.mont = true → k.type = .weierstrass → q.inf = true →
        exec (.ptoaff pd ps) s = .next (s.writeP pd ⟨true, 0, 0, 0, 0, 0, false, false, true, true, q.onc⟩).done)
    ∧ (q.hasZ = true → q.mont = true → (k.type = .weierstrass → q.inf = false) →
        ∀ X Y Z : Int, k.Reps s.W q.x X → k.Reps s.W q.y Y → k.Reps s.W q.z Z →
        ∃ (x y : Nat) (zi : Int),
          k.Reps s.W x (X * (if k.type = .weierstrass then zi ^ 2 else zi))
          ∧ k.Reps s.W y (Y * (if k.type = .weierstrass then zi ^ 3 else zi))
          ∧ zi = Z ^ (k.p - 2) ∧ (k.p.Prime → ¬(Z ≡ 0 [ZMOD (k.p : Int)]) → zi * Z ≡ 1 [ZMOD (k.p : Int)])
          ∧ exec (.ptoaff pd ps) s = .next (s.writeP pd ⟨true, x, y, 0, 0, 0, false, false,
              decide (k.type = .twistedEdwards ∧ x = 0 ∧ y = k.one), true, q.onc⟩).done)
    ∧ (q.Ok s.W k → q.hasZ = false → q.mont = true →
      ∃ t u : State, exec (.ptoproj pd ps) s = .next t ∧ exec (.ptoaff pe pd) t = .next u
        ∧ u.p[pe] = { q with
            inf := if k.type = .weierstrass then q.inf else decide (q.x = 0 ∧ q.y = k.one) })

/-- `PVAL` answers whether an affine standard-form point is a finite reduced solution of the curve equation, in `V` and in the point's
`onc` bit, and changes nothing else; another form faults (43_curve_point_forms.md R196). -/
def Obligations.PvalResult : Prop :=
  ∀ (ps : PSel) (s : State) (k : Curve) (q : PReg), s.crv = k → k.valid = true → s.p[ps] = q → q.valid = true →
    (q.hasZ = true ∨ q.mont = true → exec (.pval ps) s = .next (s.faulted 0x08))
    ∧ (q.hasZ = false → q.mont = false →
      ∃ ok : Bool, exec (.pval ps) s = .next { s.writeP ps { q with onc := ok } with status := { s.status with v := ok } }.done
        ∧ (ok = true ↔ q.inf = false ∧ q.x < k.p ∧ q.y < k.p
            ∧ (k.type = .weierstrass →
                ((q.y : Int) ^ 2 - ((q.x : Int) ^ 3 + k.a * q.x + k.bd)) % (k.p : Int) = 0)
            ∧ (k.type = .twistedEdwards →
                ((k.a : Int) * (q.x : Int) ^ 2 + (q.y : Int) ^ 2 - (1 + k.bd * (q.x : Int) ^ 2 * (q.y : Int) ^ 2))
                  % (k.p : Int) = 0)))

/-- `PENC` writes the SEC1 uncompressed encoding and no other byte; form, length and fit faults in that order
(43_curve_point_forms.md R198). -/
def Obligations.PencResult : Prop :=
  ∀ (ps : PSel) (off lenm1 : Imm10) (s : State) (k : Curve) (q : PReg) (L : Nat), s.iob.wf = true → s.crv = k → k.valid = true →
    s.p[ps] = q → q.valid = true → off.val + (lenm1.val + 1) ≤ 1024 → L = (bitlen k.p + 7) / 8 →
    (q.hasZ = true ∨ q.mont = true → exec (.penc ps off lenm1) s = .next (s.faulted 0x08))
    ∧ (q.hasZ = false → q.mont = false →
      (lenm1.val ≠ (if q.inf then 0 else 2 * L) → exec (.penc ps off lenm1) s = .next (s.faulted 0x03))
      ∧ (q.inf = false → lenm1.val = 2 * L → 256 ^ L ≤ q.x ∨ 256 ^ L ≤ q.y →
          exec (.penc ps off lenm1) s = .next (s.faulted 0x0F))
      ∧ ((q.inf = true ∧ lenm1.val = 0) ∨ (q.inf = false ∧ lenm1.val = 2 * L ∧ q.x < 256 ^ L ∧ q.y < 256 ^ L) →
        ∃ t : State, exec (.penc ps off lenm1) s = .next t.done ∧ t = { s with iob := t.iob }
          ∧ t.iob.read off.val = (if q.inf then 0x00 else 0x04)
          ∧ (q.inf = false → ∀ j : Nat, j < L →
              (t.iob.read (off.val + 1 + j)).toNat = q.x / 256 ^ (L - 1 - j) % 256
              ∧ (t.iob.read (off.val + 1 + L + j)).toNat = q.y / 256 ^ (L - 1 - j) % 256)
          ∧ ∀ a : Nat, a < off.val ∨ off.val + (lenm1.val + 1) ≤ a → t.iob.read a = s.iob.read a))

/-- `PDEC` accepts exactly the byte `00` and the uncompressed form, gives an unvalidated affine point, and undoes `PENC`
(43_curve_point_forms.md R199). -/
def Obligations.PdecResult : Prop :=
  ∀ (pd ps : PSel) (off lenm1 : Imm10) (s : State) (k : Curve) (L : Nat), s.crv = k → k.valid = true →
    off.val + (lenm1.val + 1) ≤ 1024 → L = (bitlen k.p + 7) / 8 →
    (lenm1.val = 0 → s.iob.read off.val = 0x00 →
      exec (.pdec pd off lenm1) s = .next (s.writeP pd
        ⟨true, 0, if k.type = .weierstrass then 0 else 1, 0, 0, 0, false, false, true, false, false⟩).done)
    ∧ (lenm1.val = 2 * L → s.iob.read off.val = 0x04 →
      exec (.pdec pd off lenm1) s = .next (s.writeP pd
        ⟨true, ((List.range L).map fun j => (s.iob.read (off.val + 1 + j)).toNat * 256 ^ (L - 1 - j)).sum,
          ((List.range L).map fun j => (s.iob.read (off.val + 1 + L + j)).toNat * 256 ^ (L - 1 - j)).sum,
          0, 0, 0, false, false, false, false, false⟩).done)
    ∧ (¬(lenm1.val = 0 ∧ s.iob.read off.val = 0x00) → ¬(lenm1.val = 2 * L ∧ s.iob.read off.val = 0x04) →
      exec (.pdec pd off lenm1) s = .next (s.faulted 0x0A))
    ∧ (k.Ok s.W → s.iob.wf = true → s.p[ps].valid = true → s.p[ps].Ok s.W k → s.p[ps].hasZ = false → s.p[ps].mont = false →
      s.p[ps].x < k.p → s.p[ps].y < k.p → lenm1.val = (if s.p[ps].inf then 0 else 2 * L) →
      ∃ t u : State, exec (.penc ps off lenm1) s = .next t ∧ exec (.pdec pd off lenm1) t = .next u
        ∧ u.p[pd] = { s.p[ps] with onc := false })

/-! ## Point arithmetic -/

/-- `PDBL` on a W-curve: the identity, or the doubling formulas of 44_point_arith.md R212 on the represented values, for either
specialization. -/
def Obligations.PdblWeierstrass : Prop :=
  ∀ (pd ps : PSel) (s : State) (k : Curve) (q : PReg), s.crv = k → k.Ok s.W → k.type = .weierstrass → s.p[ps] = q → q.valid = true →
    (q.hasZ = false ∨ q.mont = false → exec (.pdbl pd ps) s = .next (s.faulted 0x08))
    ∧ (q.hasZ = true → q.mont = true → q.inf = true →
      exec (.pdbl pd ps) s = .next (s.writeP pd ⟨true, k.one, k.one, 0, 0, 0, true, false, true, true, q.onc⟩).done)
    ∧ (q.hasZ = true → q.mont = true → q.inf = false →
      ∀ X Y Z S M : Int, k.Reps s.W q.x X → k.Reps s.W q.y Y → k.Reps s.W q.z Z →
        S = 4 * X * Y ^ 2 → M = 3 * X ^ 2 + k.a * Z ^ 4 →
        (2 * Y * Z ≡ 0 [ZMOD (k.p : Int)] →
          exec (.pdbl pd ps) s = .next (s.writeP pd ⟨true, k.one, k.one, 0, 0, 0, true, false, true, true, q.onc⟩).done)
        ∧ (¬(2 * Y * Z ≡ 0 [ZMOD (k.p : Int)]) →
          ∃ x y z : Nat, k.Reps s.W x (M ^ 2 - 2 * S) ∧ k.Reps s.W y (M * (S - (M ^ 2 - 2 * S)) - 8 * Y ^ 4)
            ∧ k.Reps s.W z (2 * Y * Z)
            ∧ exec (.pdbl pd ps) s = .next (s.writeP pd ⟨true, x, y, z, 0, 0, true, false, false, true, q.onc⟩).done))

/-- `PDBL` on a TED-curve: the formulas of 44_point_arith.md R213 on the represented values, no case tested. -/
def Obligations.PdblTwisted : Prop :=
  ∀ (pd ps : PSel) (s : State) (k : Curve) (q : PReg), s.crv = k → k.Ok s.W → k.type = .twistedEdwards → s.p[ps] = q →
    q.valid = true →
    (q.hasZ = false ∨ q.mont = false ∨ q.hasT = false → exec (.pdbl pd ps) s = .next (s.faulted 0x08))
    ∧ (q.hasZ = true → q.mont = true → q.hasT = true →
      ∀ X Y Z A B C D E F G H : Int, k.Reps s.W q.x X → k.Reps s.W q.y Y → k.Reps s.W q.z Z →
        A = X ^ 2 → B = Y ^ 2 → C = 2 * Z ^ 2 → D = k.a * A → E = (X + Y) ^ 2 - A - B → G = D + B → F = G - C → H = D - B →
        ∃ x y z ta tb : Nat, k.Reps s.W x (E * F) ∧ k.Reps s.W y (G * H) ∧ k.Reps s.W z (F * G)
          ∧ k.Reps s.W ta E ∧ k.Reps s.W tb H
          ∧ exec (.pdbl pd ps) s = .next (s.writeP pd ⟨true, x, y, z, ta, tb, true, true, false, true, q.onc⟩).done)

/-- `PADD` on a W-curve: the six cases of the mixed addition of 44_point_arith.md R215 on the represented values. -/
def Obligations.PaddWeierstrass : Prop :=
  ∀ (pd pa pb : PSel) (s : State) (k : Curve) (q1 q2 : PReg), s.crv = k → k.Ok s.W → k.type = .weierstrass →
    s.p[pa] = q1 → q1.valid = true → s.p[pb] = q2 → q2.valid = true →
    (q1.hasZ = false ∨ q1.mont = false ∨ q2.hasZ = true ∨ q2.mont = false →
      exec (.padd pd pa pb) s = .next (s.faulted 0x08))
    ∧ (q1.hasZ = true → q1.hasT = false → q1.mont = true → q2.hasZ = false → q2.mont = true →
      ∀ (onc : Bool) (ident : PReg), onc = (q1.onc && q2.onc) → ident = ⟨true, k.one, k.one, 0, 0, 0, true, false, true, true, onc⟩ →
        (q1.inf = true → q2.inf = true → exec (.padd pd pa pb) s = .next (s.writeP pd ident).done)
        ∧ (q1.inf = true → q2.inf = false →
          exec (.padd pd pa pb) s = .next (s.writeP pd ⟨true, q2.x, q2.y, k.one, 0, 0, true, false, false, true, onc⟩).done)
        ∧ (q1.inf = false → q2.inf = true → exec (.padd pd pa pb) s = .next (s.writeP pd { q1 with onc := onc }).done)
        ∧ (q1.inf = false → q2.inf = false →
          ∀ X1 Y1 Z1 x2 y2 H r V X3 : Int, k.Reps s.W q1.x X1 → k.Reps s.W q1.y Y1 → k.Reps s.W q1.z Z1 →
            k.Reps s.W q2.x x2 → k.Reps s.W q2.y y2 →
            H = x2 * Z1 ^ 2 - X1 → r = y2 * Z1 * Z1 ^ 2 - Y1 → V = X1 * H ^ 2 → X3 = r ^ 2 - H * H ^ 2 - 2 * V →
            (H ≡ 0 [ZMOD (k.p : Int)] → r ≡ 0 [ZMOD (k.p : Int)] →
              ∃ d : PReg, exec (.pdbl pd pa) s = .next (s.writeP pd d).done
                ∧ exec (.padd pd pa pb) s = .next (s.writeP pd { d with onc := onc }).done)
            ∧ (H ≡ 0 [ZMOD (k.p : Int)] → ¬(r ≡ 0 [ZMOD (k.p : Int)]) →
              exec (.padd pd pa pb) s = .next (s.writeP pd ident).done)
            ∧ (¬(H ≡ 0 [ZMOD (k.p : Int)]) → Z1 * H ≡ 0 [ZMOD (k.p : Int)] →
              exec (.padd pd pa pb) s = .next (s.writeP pd ident).done)
            ∧ (¬(H ≡ 0 [ZMOD (k.p : Int)]) → ¬(Z1 * H ≡ 0 [ZMOD (k.p : Int)]) →
              ∃ x y z : Nat, k.Reps s.W x X3 ∧ k.Reps s.W y (r * (V - X3) - Y1 * (H * H ^ 2)) ∧ k.Reps s.W z (Z1 * H)
                ∧ exec (.padd pd pa pb) s = .next (s.writeP pd ⟨true, x, y, z, 0, 0, true, false, false, true, onc⟩).done)))

/-- `PADD` on a TED-curve: the unified formulas of 44_point_arith.md R216 on the represented values, no case tested. -/
def Obligations.PaddTwisted : Prop :=
  ∀ (pd pa pb : PSel) (s : State) (k : Curve) (q1 q2 : PReg), s.crv = k → k.Ok s.W → k.type = .twistedEdwards →
    s.p[pa] = q1 → q1.valid = true → s.p[pb] = q2 → q2.valid = true →
    (¬(q1.hasZ = true ∧ q1.hasT = true ∧ q1.mont = true ∧ q2.hasZ = true ∧ q2.hasT = true ∧ q2.mont = true) →
      exec (.padd pd pa pb) s = .next (s.faulted 0x08))
    ∧ (q1.hasZ = true → q1.hasT = true → q1.mont = true → q2.hasZ = true → q2.hasT = true → q2.mont = true →
      ∀ X1 Y1 Z1 Ta1 Tb1 X2 Y2 Z2 Ta2 Tb2 A B C D E F G H : Int,
        k.Reps s.W q1.x X1 → k.Reps s.W q1.y Y1 → k.Reps s.W q1.z Z1 → k.Reps s.W q1.ta Ta1 → k.Reps s.W q1.tb Tb1 →
        k.Reps s.W q2.x X2 → k.Reps s.W q2.y Y2 → k.Reps s.W q2.z Z2 → k.Reps s.W q2.ta Ta2 → k.Reps s.W q2.tb Tb2 →
        A = X1 * X2 → B = Y1 * Y2 → C = k.bd * (Ta1 * Tb1) * (Ta2 * Tb2) → D = Z1 * Z2 →
        E = (X1 + Y1) * (X2 + Y2) - A - B → F = D - C → G = D + C → H = B - k.a * A →
        ∃ x y z ta tb : Nat, k.Reps s.W x (E * F) ∧ k.Reps s.W y (G * H) ∧ k.Reps s.W z (F * G)
          ∧ k.Reps s.W ta E ∧ k.Reps s.W tb H
          ∧ exec (.padd pd pa pb) s
              = .next (s.writeP pd ⟨true, x, y, z, ta, tb, true, true, false, true, q1.onc && q2.onc⟩).done)

/-- `PNEG` negates the sign-carrying coordinates and keeps a flagged identity; on a W-curve a point plus its negative is the canonical
identity (44_point_arith.md R218, R219). -/
def Obligations.PnegResult : Prop :=
  ∀ (pd ps : PSel) (s : State) (k : Curve) (q : PReg), s.crv = k → k.Ok s.W → s.p[ps] = q → q.valid = true →
    (q.mont = false → exec (.pneg pd ps) s = .next (s.faulted 0x08))
    ∧ (q.mont = true → q.inf = true → exec (.pneg pd ps) s = .next (s.writeP pd q).done)
    ∧ (q.mont = true → q.inf = false → k.type = .weierstrass →
      exec (.pneg pd ps) s = .next (s.writeP pd { q with y := (k.p - q.y) % k.p }).done)
    ∧ (q.mont = true → q.inf = false → k.type = .twistedEdwards →
      exec (.pneg pd ps) s = .next (s.writeP pd { q with
        x := (k.p - q.x) % k.p, ta := if q.hasT then (k.p - q.ta) % k.p else q.ta }).done)
    ∧ (q.Ok s.W k → k.type = .weierstrass → q.hasZ = false → q.mont = true →
      ∀ pj pn : PSel, pj ≠ ps → pn ≠ pj →
        ∃ t u v : State, exec (.ptoproj pj ps) s = .next t ∧ exec (.pneg pn ps) t = .next u ∧ exec (.padd pd pj pn) u = .next v
          ∧ v.p[pd] = ⟨true, k.one, k.one, 0, 0, 0, true, false, true, true, q.onc⟩)

/-- Doubling and mixed addition keep a point on its curve: the result of `PDBL` on a point of the curve, and of `PADD` in its general case,
represents values that satisfy the curve equation again (44_point_arith.md R212, R213, R215, R217). -/
def Obligations.ArithmeticStaysOnCurve : Prop :=
  ∀ (pd pa pb : PSel) (s : State) (k : Curve) (q1 q2 : PReg) (X Y Z : Int), s.crv = k → k.Ok s.W →
    s.p[pa] = q1 → q1.valid = true → s.p[pb] = q2 → q2.valid = true → q1.hasZ = true → q1.mont = true → q1.inf = false →
    k.Reps s.W q1.x X → k.Reps s.W q1.y Y → k.Reps s.W q1.z Z →
    (k.type = .weierstrass → q1.hasT = false → Y ^ 2 ≡ X ^ 3 + k.a * X * Z ^ 4 + k.bd * Z ^ 6 [ZMOD (k.p : Int)] →
      ¬(2 * Y * Z ≡ 0 [ZMOD (k.p : Int)]) →
      ∃ (d : PReg) (X3 Y3 Z3 : Int), exec (.pdbl pd pa) s = .next (s.writeP pd d).done
        ∧ k.Reps s.W d.x X3 ∧ k.Reps s.W d.y Y3 ∧ k.Reps s.W d.z Z3
        ∧ Y3 ^ 2 ≡ X3 ^ 3 + k.a * X3 * Z3 ^ 4 + k.bd * Z3 ^ 6 [ZMOD (k.p : Int)])
    ∧ (k.type = .weierstrass → q1.hasT = false → Y ^ 2 ≡ X ^ 3 + k.a * X * Z ^ 4 + k.bd * Z ^ 6 [ZMOD (k.p : Int)] →
      q2.hasZ = false → q2.mont = true → q2.inf = false →
      ∀ x2 y2 : Int, k.Reps s.W q2.x x2 → k.Reps s.W q2.y y2 → y2 ^ 2 ≡ x2 ^ 3 + k.a * x2 + k.bd [ZMOD (k.p : Int)] →
        ¬(Z * (x2 * Z ^ 2 - X) ≡ 0 [ZMOD (k.p : Int)]) →
        ∃ (d : PReg) (X3 Y3 Z3 : Int), exec (.padd pd pa pb) s = .next (s.writeP pd d).done
          ∧ k.Reps s.W d.x X3 ∧ k.Reps s.W d.y Y3 ∧ k.Reps s.W d.z Z3
          ∧ Y3 ^ 2 ≡ X3 ^ 3 + k.a * X3 * Z3 ^ 4 + k.bd * Z3 ^ 6 [ZMOD (k.p : Int)])
    ∧ (k.type = .twistedEdwards → q1.hasT = true →
      (k.a * X ^ 2 + Y ^ 2) * Z ^ 2 ≡ Z ^ 4 + k.bd * X ^ 2 * Y ^ 2 [ZMOD (k.p : Int)] →
      ∃ (d : PReg) (X3 Y3 Z3 Ta Tb : Int), exec (.pdbl pd pa) s = .next (s.writeP pd d).done
        ∧ k.Reps s.W d.x X3 ∧ k.Reps s.W d.y Y3 ∧ k.Reps s.W d.z Z3 ∧ k.Reps s.W d.ta Ta ∧ k.Reps s.W d.tb Tb
        ∧ k.a * X3 ^ 2 + Y3 ^ 2 ≡ Z3 ^ 2 + k.bd * (Ta * Tb) ^ 2 [ZMOD (k.p : Int)]
        ∧ X3 * Y3 ≡ Ta * Tb * Z3 [ZMOD (k.p : Int)])

/-! ## Scalar multiplication -/

/-- `SMUL`: the form, validation and range faults in their order, or an affine Montgomery-form point with `onc = 1`, canonical when it is
the identity, the value the algorithm of 45_scalar_mul.md R232 gives (R231, 60_exceptions.md R254). -/
def Obligations.SmulResult : Prop :=
  ∀ (pd ps : PSel) (bk : BSel) (s : State) (k : Curve) (q : PReg) (ln n : Nat), s.crv = k → k.Ok s.W → s.p[ps] = q → q.valid = true →
    s.holds bk ln n →
    (q.hasZ = true ∨ q.mont = false → exec (.smul pd ps bk) s = .next (s.faulted 0x08))
    ∧ (q.hasZ = false → q.mont = true → q.onc = false → exec (.smul pd ps bk) s = .next (s.faulted 0x10))
    ∧ (q.hasZ = false → q.mont = true → q.onc = true → n = 0 ∨ k.order ≤ n → exec (.smul pd ps bk) s = .next (s.faulted 0x09))
    ∧ (q.hasZ = false → q.mont = true → q.onc = true → 1 ≤ n → n < k.order →
      ∃ (x y : Nat) (inf : Bool), exec (.smul pd ps bk) s
          = .next (s.writeP pd ⟨true, x, y, 0, 0, 0, false, false, inf, true, true⟩).done
        ∧ x < k.p ∧ y < k.p ∧ k.smul s.W n q = ⟨true, x, y, 0, 0, 0, false, false, inf, true, true⟩
        ∧ (k.type = .weierstrass → inf = true → x = 0 ∧ y = 0)
        ∧ (k.type = .twistedEdwards → inf = true → x = 0 ∧ y = k.one)
        ∧ (q.inf = true → inf = true))

/-- The steps of `SMUL` compute the element of 45_scalar_mul.md R231 in every commutative group the curve's operations respect: if a
relation between stored points and a group is kept by doubling, addition, negation and the changes of form, the result represents `[n]g` for
odd `n` and `-[order - n]g` for even `n`, which is `[n]g` when `[order]g = 0` (R231, R239). -/
def Obligations.SmulGroup : Prop :=
  ∀ (G : Type) [AddCommGroup G] (W : Nat) (k : Curve) (proj aff : PReg → G → Prop) (q : PReg) (g : G) (n : Nat), k.Ok W →
    (∀ e h, aff e h → proj (k.proj e) h) →
    (∀ a h, proj a h → proj (k.dbl W a) (h + h)) →
    (∀ a e h₁ h₂, proj a h₁ → (match k.type with | .weierstrass => aff e h₂ | .twistedEdwards => proj e h₂) →
      proj (k.padd W a e) (h₁ + h₂)) →
    (∀ a h, proj a h → proj (k.neg a) (-h)) →
    (∀ e h, (match k.type with | .weierstrass => aff e h | .twistedEdwards => proj e h) →
      (match k.type with | .weierstrass => aff (k.negCoords e) (-h) | .twistedEdwards => proj (k.negCoords e) (-h))) →
    (∀ a h, proj a h → aff (k.affine W a) h) →
    (∀ e h, aff e h → aff { e with onc := true } h) →
    aff q g → q.inf = false → 1 ≤ n → n < k.order →
    (n % 2 = 1 → aff (k.smul W n q) (n • g))
    ∧ (n % 2 = 0 → aff (k.smul W n q) (-((k.order - n) • g)))
    ∧ (k.order • g = 0 → aff (k.smul W n q) (n • g))

/-- The recoding: `t + 1` odd digits below `2^(w-1)` in size whose weighted sum is the scalar, the top one 1 (45_scalar_mul.md R234). -/
def Obligations.RecodeDigits : Prop :=
  ∀ w rbits kk t : Nat, 2 ≤ w → kk % 2 = 1 → kk < 2 ^ rbits → t = (rbits + (w - 1) - 1) / (w - 1) →
    (recode w t kk).length = t + 1
    ∧ (recode w t kk).getLast? = some 1
    ∧ (∀ d ∈ recode w t kk, d % 2 = 1 ∧ d.natAbs < 2 ^ (w - 1))
    ∧ (kk : Int) = ((recode w t kk).zipIdx.map fun di => di.1 * (2 : Int) ^ ((w - 1) * di.2)).sum

/-! ## The datapath -/

/-- The CIOS loop with its final subtraction gives the reduced Montgomery product, at every width (41_montgomery.md R124 to R126). -/
def Obligations.CiosValue : Prop :=
  ∀ (d : DigitWidth) (c : Ctx) (a b : Nat), c.Ok d.bits → a < c.m → b < c.m →
    (cios d.bits c a b).value = mont d.bits c a b
    ∧ (cios d.bits c a b).value < c.m
    ∧ (cios d.bits c a b).value * 2 ^ (d.bits * c.s) % c.m = a * b % c.m

/-- The Barrett steps with their two masked subtractions reduce every input below `2^(2*W*s)` (41_montgomery.md R140). -/
def Obligations.BarrettValue : Prop :=
  ∀ (d : DigitWidth) (c : Ctx) (x : Nat), c.Ok d.bits → x < 2 ^ (2 * d.bits * c.s) → barrett d.bits c x = x % c.m

/-- The fixed-window exponentiation returns the power, and its number of multiplier calls is the formula in the public lengths
(41_montgomery.md R132, R135 a and b). -/
def Obligations.ModexpWindows : Prop :=
  ∀ (d : DigitWidth) (c : Ctx) (a e le w : Nat), c.Ok d.bits → a < c.m → e < 2 ^ (d.bits * le) → w = optimalWindow (d.bits * le) →
    (modexpWindows d.bits c a e le).value = a ^ e % c.m
    ∧ (modexpWindows d.bits c a e le).trace.count .mont
        = (2 ^ w - 1) + (d.bits * le + w - 1) / w * (w + 1) + 1

/-- Knuth's Algorithm D gives the quotient and the remainder (40_digit_array.md R112). -/
def Obligations.KnuthValue : Prop :=
  ∀ (d : DigitWidth) (la a b : Nat), a < 2 ^ (d.bits * la) → b ≠ 0 → knuthDivRem d.bits la a b = (a / b, a % b)

/-- The digit loops of `ADD`, `SUB`, `CMP` and `MUL` give the exact sum with carry, difference with borrow, comparison and product, on
operands of digits below `2^W`; every step of multiply-accumulate fits an accumulator of `2*W` bits (40_digit_array.md R106 to R108, R111;
00_scope.md R8). -/
def Obligations.DigitLoops : Prop :=
  ∀ (d : DigitWidth) (n a b : Nat), a < 2 ^ (d.bits * n) → b < 2 ^ (d.bits * n) →
    digitsVal d.bits (digits d.bits a n) = a
    ∧ (∀ r, r = (addLoop d.bits (digits d.bits a n) (digits d.bits b n) 0).value →
        digitsVal d.bits r.1 + 2 ^ (d.bits * n) * r.2 = a + b ∧ r.1.length = n ∧ r.2 ≤ 1)
    ∧ (∀ r, r = (subLoop d.bits (digits d.bits a n) (digits d.bits b n) 0).value →
        digitsVal d.bits r.1 + b = a + 2 ^ (d.bits * n) * r.2 ∧ r.1.length = n ∧ (r.2 = 1 ↔ a < b) ∧ (r.2 = 0 ↔ b ≤ a))
    ∧ (cmpDigits d.bits n a b).value = (if a = b then .equal else if b < a then .greater else .less)
    ∧ ∀ (m e : Nat), e < 2 ^ (d.bits * m) →
        digitsVal d.bits (mulDigits d.bits (digits d.bits a n) (digits d.bits e m)).value = a * e
        ∧ (mulDigits d.bits (digits d.bits a n) (digits d.bits e m)).value.length = n + m
        ∧ ∀ r x y c : Nat, r < 2 ^ d.bits → x < 2 ^ d.bits → y < 2 ^ d.bits → c < 2 ^ d.bits → r + x * y + c < 2 ^ (2 * d.bits)

/-- The two operation sequences for Weierstrass doubling give the stored values of `wdbl` for the curve they are selected on
(44_point_arith.md R212). -/
def Obligations.DoublingSequences : Prop :=
  ∀ (d : DigitWidth) (k : Curve) (q : PReg), k.Ok d.bits → k.type = .weierstrass → q.inf = false →
    q.x < k.p → q.y < k.p → q.z < k.p →
    ∀ r : Nat × Nat × Nat,
      r = (if k.spec = .aZero then k.dblZero d.bits q.x q.y q.z else k.dblMinus3 d.bits q.x q.y q.z) →
      k.wdbl d.bits q = (if r.2.2 = 0 then ⟨true, k.one, k.one, 0, 0, 0, true, false, true, true, q.onc⟩
        else ⟨true, r.1, r.2.1, r.2.2, 0, 0, true, false, false, true, q.onc⟩)

/-- The traced scalar multiplication, its table scanned and masked entry by entry, returns the value of `SMUL`'s definition
(45_scalar_mul.md R232, R235, R237, R238); and the run of every command through its datapath, which the leak trace of 10_state.md R38 is the
trace of, ends as the command does. -/
def Obligations.SmulDatapath : Prop :=
  (∀ (W : Nat) (k : Curve) (n : Nat) (q : PReg),
    (k.smulT W n q).value = k.smul W n q
    ∧ ∀ (table : List PReg) (e : Int), (k.lookupT W table e).value = k.lookup table e
      ∧ (k.lookupT W table e).trace.filter LeakOp.isTableRead = (List.range table.length).map .tableRead)
  ∧ ∀ (i : Instr) (s : State), exec i s = s.finish (commandT i s).value

/-- Constant access patterns. The exponentiation's trace is the same for every base and exponent, and its table reads are
`i - 1` and `1` for each entry `i` it builds and then the indices `0 .. 2^w - 1` once per window; the digit loops, the comparator and the multiplier trace alike on all operands of the same lengths. A length-only
command and `MODEXP` leave the same trace in two states that agree in lengths, contexts, curve and flags, when neither run faults. The algorithm of
`SMUL` traces alike for every scalar on a TED-curve, and reads the whole table once per digit on either family; `SMUL` leaves the same trace for two
scalars of one length on one point when its mixed additions meet no degenerate case, the exception of 45_scalar_mul.md R236
(70_reset_and_hazards.md R292, R293). The granularity of the trace is the model's choice (log 18). -/
def Obligations.TraceIndependence : Prop :=
  (∀ (W : Nat) (c : Ctx) (a a' e e' le : Nat), (modexpWindows W c a e le).trace = (modexpWindows W c a' e' le).trace)
  ∧ (∀ (W : Nat) (c : Ctx) (a e le w : Nat), w = optimalWindow (W * le) →
      (modexpWindows W c a e le).trace.filter LeakOp.isTableRead
        = ((List.range (2 ^ w - 2)).flatMap fun i => [.tableRead (i + 1), .tableRead 1])
          ++ (List.replicate ((W * le + w - 1) / w) ((List.range (2 ^ w)).map .tableRead)).flatten)
  ∧ (∀ (W n a b a' b' : Nat), (cmpDigits W n a b).trace = (cmpDigits W n a' b').trace
      ∧ (addLoop W (digits W a n) (digits W b n) 0).trace = (addLoop W (digits W a' n) (digits W b' n) 0).trace
      ∧ (subLoop W (digits W a n) (digits W b n) 0).trace = (subLoop W (digits W a' n) (digits W b' n) 0).trace)
  ∧ (∀ (W n m a b a' b' : Nat),
      (mulDigits W (digits W a n) (digits W b m)).trace = (mulDigits W (digits W a' n) (digits W b' m)).trace)
  ∧ (∀ (W : Nat) (c : Ctx) (a b a' b' : Nat), (cios W c a b).trace = (cios W c a' b').trace)
  ∧ (∀ (i : Instr) (s s' t t' : State), i.lengthOnly = true → s.SameShape s' →
      (commandT i s).value = .ok t → (commandT i s').value = .ok t' → leakTrace i s = leakTrace i s')
  ∧ (∀ (W : Nat) (k : Curve) (q : PReg) (n n' : Nat), k.type = .twistedEdwards → (k.smulT W n q).trace = (k.smulT W n' q).trace)
  ∧ (∀ (W : Nat) (k : Curve) (table : List PReg) (ds : List Int) (a : PReg),
      (k.mainLoopT W table ds a).trace.filter LeakOp.isTableRead
        = (List.replicate ds.length ((List.range table.length).map .tableRead)).flatten)
  ∧ ∀ (pd ps : PSel) (bk : BSel) (s s' t t' : State), s.SameShape s' → s.p[ps] = s'.p[ps] →
      (commandT (.smul pd ps bk) s).value = .ok t → (commandT (.smul pd ps bk) s').value = .ok t' →
      (s.p[ps].inf = false → s.crv.regular s.W s.b[bk].val s.p[ps] = true ∧ s.crv.regular s.W s'.b[bk].val s.p[ps] = true) →
      leakTrace (.smul pd ps bk) s = leakTrace (.smul pd ps bk) s'

/-! ## The whole machine -/

/-- `C` is written by `ADD` and `SUB` only, `V` by `PVAL` only, `CMP` by `CMP` only; no command reads a flag: with other flags a command has the
same effect on everything else, writes the same values into the flags it writes, and leaves the others as they were given; a fault writes no
flag; the flags are 0 after reset (10_state.md R24). -/
def Obligations.FlagRules : Prop :=
  (∀ (i : Instr) (s t : State), exec i s = .next t →
    ((∀ d a b, i ≠ .add d a b ∧ i ≠ .sub d a b) → t.status.carry = s.status.carry)
    ∧ ((∀ q, i ≠ .pval q) → t.status.v = s.status.v)
    ∧ ((∀ a b, i ≠ .cmp a b) → t.status.cmp = s.status.cmp)
    ∧ (t.status.done = false → t.status.carry = s.status.carry ∧ t.status.v = s.status.v ∧ t.status.cmp = s.status.cmp)
    ∧ ∀ (c v : Bool) (f : CmpFlag), ∃ u : Status,
        exec i { s with status := { s.status with carry := c, v := v, cmp := f } } = .next { t with status := u }
        ∧ u.busy = t.status.busy ∧ u.done = t.status.done ∧ u.fault = t.status.fault
        ∧ (t.status.done = true → (∃ d a b, i = .add d a b ∨ i = .sub d a b) → u.carry = t.status.carry)
        ∧ (t.status.done = false ∨ (∀ d a b, i ≠ .add d a b ∧ i ≠ .sub d a b) → u.carry = c)
        ∧ (t.status.done = true → (∃ q, i = .pval q) → u.v = t.status.v)
        ∧ (t.status.done = false ∨ (∀ q, i ≠ .pval q) → u.v = v)
        ∧ (t.status.done = true → (∃ a b, i = .cmp a b) → u.cmp = t.status.cmp)
        ∧ (t.status.done = false ∨ (∀ a b, i ≠ .cmp a b) → u.cmp = f))
  ∧ State.reset.status.carry = false ∧ State.reset.status.v = false ∧ State.reset.status.cmp = .equal

/-- A context slot is written by `CTXNEW` on that slot only; the curve slot, field context included, by `CRVNEW` and `CRVLD` only, which on
completion leave every point register invalid (10_state.md R31, R34). -/
def Obligations.ImmutableSlots : Prop :=
  ∀ (i : Instr) (s t : State), exec i s = .next t →
    (∀ c : CSel, (∀ b, i ≠ .ctxnew c b) → t.c[c] = s.c[c])
    ∧ ((∀ f y, i ≠ .crvnew f y) → (∀ d, i ≠ .crvld d) → t.crv = s.crv)
    ∧ ((∃ f y, i = .crvnew f y) ∨ (∃ d, i = .crvld d) → t.status.done = true → ∀ j : PSel, t.p[j].valid = false)

/-- The frame of every command, completed or faulted: the big-number and point registers it does not name as destinations, every byte it does
not store to, the host's side and the parameter `W` keep their values; a curve installation touches nothing of a point register but its
valid bit (10_state.md R20, R34, R35; 60_exceptions.md R261). -/
def Obligations.CommandFrame : Prop :=
  ∀ (i : Instr) (s t : State), exec i s = .next t →
    (∀ r : BSel, r ∉ i.writesB → t.b[r] = s.b[r])
    ∧ (∀ r : PSel, r ∉ i.writesP → i.installs = false → t.p[r] = s.p[r])
    ∧ (∀ r : PSel, i.installs = true → t.p[r] = s.p[r] ∨ t.p[r] = { s.p[r] with valid := false })
    ∧ (∀ a : Nat, ¬ i.storesTo a → t.iob.read a = s.iob.read a)
    ∧ t.width = s.width ∧ t.host = s.host ∧ t.rdata = s.rdata ∧ t.freeReads = s.freeReads

/-- The only ways to a valid point with `onc = 1`: it was there before, `PVAL` answered true, `PINF`, or a command whose every point source
is a valid point with `onc = 1` (43_curve_point_forms.md R197). -/
def Obligations.OnCurveRule : Prop :=
  ∀ (i : Instr) (s t : State) (j : PSel), exec i s = .next t → t.p[j].valid = true → t.p[j].onc = true →
    t.p[j] = s.p[j]
    ∨ (i = .pval j ∧ t.status.v = true)
    ∨ i = .pinf j
    ∨ (j ∈ i.writesP ∧ i.readsP ≠ [] ∧ ∀ r ∈ i.readsP, s.p[r].valid = true ∧ s.p[r].onc = true)

/-- The invariant holds after reset, at every digit width. -/
def Obligations.InvReset : Prop :=
  State.reset.Inv ∧ ∀ d : DigitWidth, (State.resetOf d).Inv

/-- Every step keeps the canonical form of the buffer and the status rules of 10_state.md R25 and R26. -/
def Obligations.BufferAndStatusKept : Prop :=
  ∀ s t : State, step s = .next t →
    (s.iob.wf = true → t.iob.wf = true) ∧ (s.StatusOk → t.StatusOk)

/-- Every step keeps the whole invariant: registers in their ranges, contexts and curve constructed, the point form invariants of
10_state.md R29, the buffer canonical, the status legal. -/
def Obligations.InvKept : Prop :=
  ∀ s t : State, s.Inv → step s = .next t → t.Inv

end
end

