-- ==== Sys2Proof/Laws/Memory.lean ====
section
/-! SUPPORT. The I/O buffer: a byte written is the byte read, other bytes keep their values, and every operation keeps the canonical
form. -/

namespace Sys2Proof.Machine

theorem Memory.wfFrom_cons {lo k : Nat} {v : Byte} {rest : Memory} :
    Memory.wfFrom lo ((k, v) :: rest) = true
      ↔ lo ≤ k ∧ k < Config.iobBytes ∧ v ≠ 0 ∧ Memory.wfFrom (k + 1) rest = true := by
  simp [Memory.wfFrom, and_assoc]

theorem Memory.wfFrom_mono {lo lo' : Nat} (h : lo' ≤ lo) : ∀ {m : Memory}, Memory.wfFrom lo m = true → Memory.wfFrom lo' m = true
  | [], _ => rfl
  | (k, v) :: rest, hm => by
    rw [Memory.wfFrom_cons] at hm ⊢
    exact ⟨by omega, hm.2⟩

/-- Below its lower bound a canonical buffer lists nothing. -/
theorem Memory.read_below {a : Nat} : ∀ {m : Memory} {lo : Nat}, Memory.wfFrom lo m = true → a < lo → m.read a = 0
  | [], _, _, _ => rfl
  | (k, v) :: rest, lo, hm, ha => by
    rw [Memory.wfFrom_cons] at hm
    rw [Memory.read, if_neg (by omega)]
    exact Memory.read_below hm.2.2.2 (by omega)

/-- A write leaves every other byte alone, canonical or not. -/
theorem Memory.read_write_other {a x : Nat} (b : Byte) (h : x ≠ a) : ∀ m : Memory, (m.write a b).read x = m.read x
  | [] => by
    by_cases hb : b = 0#8
    · simp [Memory.write, hb]
    · simp [Memory.write, hb, Memory.read, Ne.symm h]
  | (k, v) :: rest => by
    have ih := Memory.read_write_other b h rest
    rw [Memory.write]
    by_cases h1 : a < k
    · by_cases hb : b = 0#8
      · simp [h1, hb]
      · simp [h1, hb, Memory.read, Ne.symm h]
    · by_cases h2 : a = k
      · subst h2
        by_cases hb : b = 0#8
        · simp [hb, Memory.read, Ne.symm h]
        · simp [hb, Memory.read, Ne.symm h]
      · simp [h1, h2, Memory.read, ih]

/-- A byte written is the byte read. -/
theorem Memory.read_write_same {a : Nat} (b : Byte) :
    ∀ {m : Memory} {lo : Nat}, Memory.wfFrom lo m = true → (m.write a b).read a = b
  | [], _, _ => by
    by_cases hb : b = 0#8
    · simp [Memory.write, hb, Memory.read]
    · simp [Memory.write, hb, Memory.read]
  | (k, v) :: rest, lo, hm => by
    rw [Memory.wfFrom_cons] at hm
    have ih := Memory.read_write_same (a := a) b hm.2.2.2
    rw [Memory.write]
    by_cases h1 : a < k
    · by_cases hb : b = 0#8
      · have hr := Memory.read_below hm.2.2.2 (show a < k + 1 by omega)
        simp [h1, hb, Memory.read, hr, show k ≠ a by omega]
      · simp [h1, hb, Memory.read]
    · by_cases h2 : a = k
      · subst h2
        by_cases hb : b = 0#8
        · have hr := Memory.read_below hm.2.2.2 (show a < a + 1 by omega)
          simp [hb, hr]
        · simp [hb, Memory.read]
      · simp [h1, h2, Memory.read, ih, Ne.symm h2]

/-- A write inside the buffer keeps the canonical form. -/
theorem Memory.wfFrom_write {a : Nat} (b : Byte) (ha : a < Config.iobBytes) :
    ∀ {m : Memory} {lo : Nat}, Memory.wfFrom lo m = true → lo ≤ a → Memory.wfFrom lo (m.write a b) = true
  | [], lo, _, hlo => by
    by_cases hb : b = 0
    · simp [Memory.write, hb, Memory.wfFrom]
    · rw [Memory.write, if_neg hb, Memory.wfFrom_cons]
      exact ⟨hlo, ha, hb, rfl⟩
  | (k, v) :: rest, lo, hm, hlo => by
    have hm' := Memory.wfFrom_cons.1 hm
    rw [Memory.write]
    by_cases h1 : a < k
    · by_cases hb : b = 0
      · simpa [h1, hb] using hm
      · rw [if_pos h1, if_neg hb, Memory.wfFrom_cons, Memory.wfFrom_cons]
        exact ⟨hlo, ha, hb, by omega, hm'.2⟩
    · by_cases h2 : a = k
      · rw [if_neg h1, if_pos h2]
        by_cases hb : b = 0
        · rw [if_pos hb]
          exact Memory.wfFrom_mono (by omega) hm'.2.2.2
        · rw [if_neg hb, Memory.wfFrom_cons]
          exact ⟨hm'.1, hm'.2.1, hb, hm'.2.2.2⟩
      · rw [if_neg h1, if_neg h2, Memory.wfFrom_cons]
        exact ⟨hm'.1, hm'.2.1, hm'.2.2.1, Memory.wfFrom_write b ha hm'.2.2.2 (by omega)⟩

/-- One byte: the canonical form is kept, the byte written is read back, the other bytes are as before. -/
theorem Memory.write_spec {m : Memory} {a : Nat} (b : Byte) (hm : m.wf = true) (ha : a < Config.iobBytes) :
    (m.write a b).wf = true ∧ (m.write a b).read a = b ∧ ∀ x, x ≠ a → (m.write a b).read x = m.read x :=
  ⟨Memory.wfFrom_write b ha hm (Nat.zero_le a), Memory.read_write_same b hm, fun _ h => Memory.read_write_other b h m⟩

theorem Memory.read_writeBytes_below {x : Nat} :
    ∀ (bs : List Byte) (m : Memory) (a : Nat), x < a → (m.writeBytes a bs).read x = m.read x
  | [], _, _, _ => rfl
  | b :: bs, m, a, h => by
    rw [Memory.writeBytes, Memory.read_writeBytes_below bs _ (a + 1) (by omega), Memory.read_write_other b (by omega)]

/-- A run leaves every byte outside it alone. -/
theorem Memory.read_writeBytes_outside {x : Nat} :
    ∀ (bs : List Byte) (m : Memory) (a : Nat), x < a ∨ a + bs.length ≤ x → (m.writeBytes a bs).read x = m.read x
  | [], _, _, _ => rfl
  | b :: bs, m, a, h => by
    rw [Memory.writeBytes, Memory.read_writeBytes_outside bs _ (a + 1) (by simp at h; omega),
      Memory.read_write_other b (by simp at h; omega)]

theorem Memory.wf_writeBytes :
    ∀ (bs : List Byte) (m : Memory) (a : Nat), m.wf = true → a + bs.length ≤ Config.iobBytes → (m.writeBytes a bs).wf = true
  | [], _, _, hm, _ => hm
  | b :: bs, m, a, hm, h => by
    simp at h
    exact Memory.wf_writeBytes bs _ _ (Memory.write_spec b hm (by omega)).1 (by omega)

/-- Inside a run the bytes written are the bytes read. -/
theorem Memory.read_writeBytes_inside :
    ∀ (bs : List Byte) (m : Memory) (a j : Nat) (h : j < bs.length), m.wf = true → a + bs.length ≤ Config.iobBytes →
      (m.writeBytes a bs).read (a + j) = bs[j]
  | b :: bs, m, a, 0, _, hm, hl => by
    simp at hl
    rw [Memory.writeBytes, Memory.read_writeBytes_below bs _ (a + 1) (by omega)]
    exact (Memory.write_spec b hm (by omega)).2.1
  | b :: bs, m, a, j + 1, h, hm, hl => by
    simp at hl h
    have ih := Memory.read_writeBytes_inside bs (m.write a b) (a + 1) j h (Memory.write_spec b hm (by omega)).1 (by omega)
    rw [Memory.writeBytes, show a + (j + 1) = a + 1 + j by omega, ih]
    rfl

@[simp] theorem Memory.readBytes_length (m : Memory) (a n : Nat) : (m.readBytes a n).length = n := by
  simp [Memory.readBytes]

theorem Memory.readBytes_getElem (m : Memory) (a n j : Nat) (h : j < (m.readBytes a n).length) :
    (m.readBytes a n)[j] = m.read (a + j) := by
  simp [Memory.readBytes]

/-- A run written and read back. -/
theorem Memory.readBytes_writeBytes (bs : List Byte) (m : Memory) (a : Nat) (hm : m.wf = true)
    (h : a + bs.length ≤ Config.iobBytes) : (m.writeBytes a bs).readBytes a bs.length = bs := by
  apply List.ext_getElem
  · simp
  · intro j h1 h2
    rw [Memory.readBytes_getElem, Memory.read_writeBytes_inside bs m a j h2 hm h]

/-- The buffer after reset is canonical, at every digit width. -/
theorem State.resetOf_iob_wf (w : DigitWidth) : (State.resetOf w).iob.wf = true := rfl

theorem State.reset_iob_wf : State.reset.iob.wf = true := rfl

end Sys2Proof.Machine
end

