-- ==== Sys2Proof/Laws/Operands.lean ====
section
/-! SUPPORT. The notation of 00_scope.md on numbers: what each function returns, said once. -/

namespace Sys2Proof.Machine

theorem lt_two_pow_bitlen (v : Nat) : v < 2 ^ bitlen v := by
  unfold bitlen
  split
  · next h => simp [h]
  · exact Nat.lt_log2_self

theorem two_pow_bitlen_le {v : Nat} (h : v ≠ 0) : 2 ^ (bitlen v - 1) ≤ v := by
  simp only [bitlen, h, if_false, Nat.add_sub_cancel]
  exact Nat.log2_self_le h

theorem bitlen_le_iff {v n : Nat} : bitlen v ≤ n ↔ v < 2 ^ n := by
  constructor
  · exact fun h => (lt_two_pow_bitlen v).trans_le (Nat.pow_le_pow_right (by decide) h)
  · intro h
    by_contra hn
    have hv : v ≠ 0 := by rintro rfl; simp [bitlen] at hn
    have h1 := two_pow_bitlen_le hv
    have h2 : 2 ^ n ≤ 2 ^ (bitlen v - 1) := Nat.pow_le_pow_right (by decide) (by omega)
    omega

theorem le_ceilDiv_iff {a b n : Nat} (hb : 0 < b) : ceilDiv a b ≤ n ↔ a ≤ b * n := by
  unfold ceilDiv
  rw [Nat.div_le_iff_le_mul_add_pred hb]
  omega

theorem normlen_pos (W v : Nat) : 1 ≤ normlen W v := le_max_left _ _

/-- `normlen` is the least positive number of digits that hold the value. -/
theorem normlen_le_iff {W v n : Nat} (hW : 0 < W) (hn : 1 ≤ n) : normlen W v ≤ n ↔ v < 2 ^ (W * n) := by
  unfold normlen
  rw [Nat.max_le, le_ceilDiv_iff hW, bitlen_le_iff]
  exact ⟨fun h => h.2, fun h => ⟨hn, h⟩⟩

theorem lt_pow_normlen {W : Nat} (hW : 0 < W) (v : Nat) : v < 2 ^ (W * normlen W v) :=
  (normlen_le_iff hW (normlen_pos W v)).1 le_rfl

/-- A normalized value longer than one digit has a non-zero top digit. -/
theorem normlen_top {W v : Nat} (hW : 0 < W) : normlen W v = 1 ∨ 2 ^ (W * (normlen W v - 1)) ≤ v := by
  by_cases h : normlen W v = 1
  · exact .inl h
  · right
    by_contra hc
    have h1 := normlen_pos W v
    have := (normlen_le_iff hW (show 1 ≤ normlen W v - 1 by omega)).2 (Nat.lt_of_not_le hc)
    omega

theorem DigitWidth.bits_pos (d : DigitWidth) : 0 < d.bits := by cases d <;> decide

theorem powModAux_eq (m : Nat) : ∀ fuel a e : Nat, e < 2 ^ fuel → powModAux m fuel a e = a ^ e % m
  | 0, a, e, h => by
    obtain rfl : e = 0 := by simpa using h
    simp [powModAux]
  | fuel + 1, a, e, h => by
    have he : e / 2 < 2 ^ fuel := by rw [pow_succ] at h; omega
    have ih := powModAux_eq m fuel (a * a % m) (e / 2) he
    rw [powModAux, ih]
    have hp : (a * a % m) ^ (e / 2) % m = a ^ (2 * (e / 2)) % m := by
      rw [← Nat.pow_mod, ← pow_two, ← pow_mul]
    split
    · next h1 =>
      rw [Nat.mul_mod, Nat.mod_mod, hp, ← Nat.mul_mod, ← pow_succ', show 2 * (e / 2) + 1 = e by omega]
    · next h1 => rw [hp, show 2 * (e / 2) = e by omega]

/-- `powMod` is the power reduced (41_montgomery.md R131; log 12). -/
theorem powMod_eq (a e m : Nat) : powMod a e m = a ^ e % m := powModAux_eq m _ a e (lt_two_pow_bitlen e)

/-- `rinv` inverts `R = 2^(W*s)` modulo an odd modulus above 1 (00_scope.md R13; log 11). -/
theorem rinv_spec (W : Nat) (c : Ctx) (h1 : 1 < c.m) (h2 : c.m % 2 = 1) : 2 ^ (W * c.s) * rinv W c % c.m = 1 := by
  have hh : (c.m + 1) / 2 * 2 = c.m + 1 := by omega
  rw [rinv, powMod_eq, Nat.mul_mod_mod, ← mul_pow, mul_comm 2, hh, Nat.pow_mod, Nat.add_mod_left, Nat.mod_eq_of_lt h1, one_pow,
    Nat.mod_eq_of_lt h1]

/-- `mont` is the reduced number whose product with `R` is the product of the operands (00_scope.md R13). -/
theorem mont_spec (W : Nat) (c : Ctx) (a b : Nat) (h1 : 1 < c.m) (h2 : c.m % 2 = 1) :
    mont W c a b < c.m ∧ mont W c a b * 2 ^ (W * c.s) % c.m = a * b % c.m := by
  refine ⟨Nat.mod_lt _ (by omega), ?_⟩
  rw [mont, Nat.mod_mul_mod, mul_assoc, mul_comm (rinv W c), Nat.mul_mod, rinv_spec W c h1 h2, mul_one, Nat.mod_mod]

/-- Two reduced numbers with the same product by `R` are equal. -/
theorem mont_unique (W : Nat) (c : Ctx) {x y : Nat} (h1 : 1 < c.m) (h2 : c.m % 2 = 1) (hx : x < c.m) (hy : y < c.m)
    (h : x * 2 ^ (W * c.s) % c.m = y * 2 ^ (W * c.s) % c.m) : x = y := by
  have hR := rinv_spec W c h1 h2
  have e : ∀ z, z < c.m → z * 2 ^ (W * c.s) * rinv W c % c.m = z := fun z hz => by
    rw [mul_assoc, Nat.mul_mod, hR, mul_one, Nat.mod_mod, Nat.mod_eq_of_lt hz]
  rw [← e x hx, ← e y hy, Nat.mul_mod, h, ← Nat.mul_mod]

theorem be_foldl (bs : List Byte) : ∀ acc : Nat,
    bs.foldl (fun acc b => acc * 256 + b.toNat) acc = acc * 256 ^ bs.length + be bs := by
  induction bs with
  | nil => intro acc; simp [be]
  | cons b bs ih =>
    intro acc
    rw [be, List.foldl_cons, List.foldl_cons, ih, ih (0 * 256 + b.toNat), List.length_cons, pow_succ]
    ring

theorem be_cons (b : Byte) (bs : List Byte) : be (b :: bs) = b.toNat * 256 ^ bs.length + be bs := by
  rw [be, List.foldl_cons, be_foldl]
  simp

theorem be_lt (bs : List Byte) : be bs < 256 ^ bs.length := by
  induction bs with
  | nil => simp [be]
  | cons b bs ih =>
    rw [be_cons, List.length_cons, pow_succ]
    have := b.isLt
    nlinarith

@[simp] theorem bytesBE_length (v n : Nat) : (bytesBE v n).length = n := by simp [bytesBE]

theorem bytesBE_getElem (v n j : Nat) (h : j < (bytesBE v n).length) :
    (bytesBE v n)[j].toNat = v / 256 ^ (n - 1 - j) % 256 := by
  simp [bytesBE]

theorem bytesBE_succ (v n : Nat) : bytesBE v (n + 1) = BitVec.ofNat 8 (v / 256 ^ n) :: bytesBE v n := by
  simp only [bytesBE, List.range_succ_eq_map, List.map_cons, List.map_map, Nat.add_sub_cancel, Nat.sub_zero]
  congr 1
  apply List.map_congr_left
  intro i _
  simp [Nat.sub_sub, Nat.add_comm]

theorem be_bytesBE_mod (v : Nat) : ∀ n : Nat, be (bytesBE v n) = v % 256 ^ n
  | 0 => by simp [bytesBE, be, Nat.mod_one]
  | n + 1 => by
    rw [bytesBE_succ, be_cons, be_bytesBE_mod v n, bytesBE_length, BitVec.toNat_ofNat, pow_succ 256 n,
      Nat.mod_mul (x := v) (a := 256 ^ n) (b := 256), mul_comm, add_comm]

/-- The bytes of a value that fits read back as the value (00_scope.md R12). -/
theorem be_bytesBE {v n : Nat} (h : v < 256 ^ n) : be (bytesBE v n) = v := by
  rw [be_bytesBE_mod, Nat.mod_eq_of_lt h]

/-- `wrapSub` below the width: the difference, one modulus added when it borrows (40_digit_array.md R108). -/
theorem wrapSub_eq {a b n : Nat} (ha : a < 2 ^ n) (hb : b < 2 ^ n) :
    wrapSub a b n = if a < b then a + 2 ^ n - b else a - b := by
  unfold wrapSub
  split
  · rw [show (a : Int) - b = ((a + 2 ^ n - b : Nat) : Int) - ((2 ^ n : Nat) : Int) by omega, Int.sub_emod_right,
      ← Int.natCast_mod, Int.toNat_natCast, Nat.mod_eq_of_lt (by omega)]
  · rw [show (a : Int) - b = ((a - b : Nat) : Int) by omega, ← Int.natCast_mod, Int.toNat_natCast, Nat.mod_eq_of_lt (by omega)]

theorem compareFlag_spec (a b : Nat) :
    (compareFlag a b = .equal ↔ a = b) ∧ (compareFlag a b = .greater ↔ b < a) ∧ (compareFlag a b = .less ↔ a < b) := by
  unfold compareFlag
  split
  · next h => simp [h]
  · next h =>
    split
    · next h' => simp; omega
    · next h' => simp; omega

/-- The masked addition of reduced operands is the sum modulo `m` (42_inversion_group.md R157). -/
theorem modAdd_eq {m a b : Nat} (ha : a < m) (hb : b < m) : modAdd m a b = (a + b) % m := by
  unfold modAdd sel
  by_cases h : m ≤ a + b
  · rw [if_pos (by simpa using h), Nat.mod_eq_sub_mod h, Nat.mod_eq_of_lt (by omega)]
  · rw [if_neg (by simpa using h), Nat.mod_eq_of_lt (by omega)]

/-- The masked subtraction of reduced operands (42_inversion_group.md R158). -/
theorem modSub_eq {m a b : Nat} (ha : a < m) (hb : b < m) : modSub m a b = (a + (m - b)) % m := by
  unfold modSub sel
  by_cases h : a < b
  · rw [if_pos (by simpa using h), Nat.mod_eq_of_lt (by omega)]
    omega
  · rw [if_neg (by simpa using h), show a + (m - b) = a - b + m by omega, Nat.add_mod_right, Nat.mod_eq_of_lt (by omega)]

/-- The loop of `euclid` with enough turns ends in the greatest common divisor (42_inversion_group.md R152). -/
theorem euclidLoop_fst : ∀ fuel r0 r1 t0 t1 k : Nat, r1 ≤ fuel → (euclidLoop fuel r0 r1 t0 t1 k).1 = Nat.gcd r0 r1
  | 0, r0, r1, t0, t1, k, h => by
    obtain rfl : r1 = 0 := by omega
    simp [euclidLoop]
  | fuel + 1, r0, r1, t0, t1, k, h => by
    unfold euclidLoop
    split
    · next h0 => simp [h0]
    · next h0 =>
      have hr : r0 - r0 / r1 * r1 = r0 % r1 := by
        have := Nat.div_add_mod' r0 r1
        omega
      have hlt := Nat.mod_lt r0 (Nat.pos_of_ne_zero h0)
      rw [hr, euclidLoop_fst fuel _ _ _ _ _ (by omega), Nat.gcd_comm r1, ← Nat.gcd_rec, Nat.gcd_comm]

/-- `euclid` ends in the greatest common divisor (42_inversion_group.md R152; log 23). -/
theorem euclid_fst (r0 r1 : Nat) : (euclid r0 r1).1 = Nat.gcd r0 r1 := euclidLoop_fst r1 r0 r1 0 1 0 le_rfl

end Sys2Proof.Machine
end

