-- ==== Sys2Proof/Laws/State.lean ====
section
/-! SUPPORT. What each update of the state leaves in each field, one lemma per field per update, all by `rfl`: a proof about a meaning
rewrites with them and unfolds no record update. -/

namespace Sys2Proof.Machine

variable (s : State)

/-! ## `State.writeB` -/

@[simp] theorem State.writeB_width (i : BSel) (n v : Nat) : (s.writeB i n v).width = s.width := rfl
@[simp] theorem State.writeB_b (i : BSel) (n v : Nat) : (s.writeB i n v).b = s.b.set i ⟨true, n, v⟩ := rfl
@[simp] theorem State.writeB_p (i : BSel) (n v : Nat) : (s.writeB i n v).p = s.p := rfl
@[simp] theorem State.writeB_c (i : BSel) (n v : Nat) : (s.writeB i n v).c = s.c := rfl
@[simp] theorem State.writeB_crv (i : BSel) (n v : Nat) : (s.writeB i n v).crv = s.crv := rfl
@[simp] theorem State.writeB_iob (i : BSel) (n v : Nat) : (s.writeB i n v).iob = s.iob := rfl
@[simp] theorem State.writeB_status (i : BSel) (n v : Nat) : (s.writeB i n v).status = s.status := rfl
@[simp] theorem State.writeB_faultCode (i : BSel) (n v : Nat) : (s.writeB i n v).faultCode = s.faultCode := rfl
@[simp] theorem State.writeB_faultCmd (i : BSel) (n v : Nat) : (s.writeB i n v).faultCmd = s.faultCmd := rfl
@[simp] theorem State.writeB_cmd (i : BSel) (n v : Nat) : (s.writeB i n v).cmd = s.cmd := rfl
@[simp] theorem State.writeB_ci (i : BSel) (n v : Nat) : (s.writeB i n v).ci = s.ci := rfl
@[simp] theorem State.writeB_host (i : BSel) (n v : Nat) : (s.writeB i n v).host = s.host := rfl
@[simp] theorem State.writeB_rdata (i : BSel) (n v : Nat) : (s.writeB i n v).rdata = s.rdata := rfl
@[simp] theorem State.writeB_freeReads (i : BSel) (n v : Nat) : (s.writeB i n v).freeReads = s.freeReads := rfl
@[simp] theorem State.writeB_W (i : BSel) (n v : Nat) : (s.writeB i n v).W = s.W := rfl

/-! ## `State.writeC` -/

@[simp] theorem State.writeC_width (i : CSel) (k : Ctx) : (s.writeC i k).width = s.width := rfl
@[simp] theorem State.writeC_b (i : CSel) (k : Ctx) : (s.writeC i k).b = s.b := rfl
@[simp] theorem State.writeC_p (i : CSel) (k : Ctx) : (s.writeC i k).p = s.p := rfl
@[simp] theorem State.writeC_c (i : CSel) (k : Ctx) : (s.writeC i k).c = s.c.set i k := rfl
@[simp] theorem State.writeC_crv (i : CSel) (k : Ctx) : (s.writeC i k).crv = s.crv := rfl
@[simp] theorem State.writeC_iob (i : CSel) (k : Ctx) : (s.writeC i k).iob = s.iob := rfl
@[simp] theorem State.writeC_status (i : CSel) (k : Ctx) : (s.writeC i k).status = s.status := rfl
@[simp] theorem State.writeC_faultCode (i : CSel) (k : Ctx) : (s.writeC i k).faultCode = s.faultCode := rfl
@[simp] theorem State.writeC_faultCmd (i : CSel) (k : Ctx) : (s.writeC i k).faultCmd = s.faultCmd := rfl
@[simp] theorem State.writeC_cmd (i : CSel) (k : Ctx) : (s.writeC i k).cmd = s.cmd := rfl
@[simp] theorem State.writeC_ci (i : CSel) (k : Ctx) : (s.writeC i k).ci = s.ci := rfl
@[simp] theorem State.writeC_host (i : CSel) (k : Ctx) : (s.writeC i k).host = s.host := rfl
@[simp] theorem State.writeC_rdata (i : CSel) (k : Ctx) : (s.writeC i k).rdata = s.rdata := rfl
@[simp] theorem State.writeC_freeReads (i : CSel) (k : Ctx) : (s.writeC i k).freeReads = s.freeReads := rfl
@[simp] theorem State.writeC_W (i : CSel) (k : Ctx) : (s.writeC i k).W = s.W := rfl

/-! ## `State.writeP` -/

@[simp] theorem State.writeP_width (i : PSel) (q : PReg) : (s.writeP i q).width = s.width := rfl
@[simp] theorem State.writeP_b (i : PSel) (q : PReg) : (s.writeP i q).b = s.b := rfl
@[simp] theorem State.writeP_p (i : PSel) (q : PReg) : (s.writeP i q).p = s.p.set i q := rfl
@[simp] theorem State.writeP_c (i : PSel) (q : PReg) : (s.writeP i q).c = s.c := rfl
@[simp] theorem State.writeP_crv (i : PSel) (q : PReg) : (s.writeP i q).crv = s.crv := rfl
@[simp] theorem State.writeP_iob (i : PSel) (q : PReg) : (s.writeP i q).iob = s.iob := rfl
@[simp] theorem State.writeP_status (i : PSel) (q : PReg) : (s.writeP i q).status = s.status := rfl
@[simp] theorem State.writeP_faultCode (i : PSel) (q : PReg) : (s.writeP i q).faultCode = s.faultCode := rfl
@[simp] theorem State.writeP_faultCmd (i : PSel) (q : PReg) : (s.writeP i q).faultCmd = s.faultCmd := rfl
@[simp] theorem State.writeP_cmd (i : PSel) (q : PReg) : (s.writeP i q).cmd = s.cmd := rfl
@[simp] theorem State.writeP_ci (i : PSel) (q : PReg) : (s.writeP i q).ci = s.ci := rfl
@[simp] theorem State.writeP_host (i : PSel) (q : PReg) : (s.writeP i q).host = s.host := rfl
@[simp] theorem State.writeP_rdata (i : PSel) (q : PReg) : (s.writeP i q).rdata = s.rdata := rfl
@[simp] theorem State.writeP_freeReads (i : PSel) (q : PReg) : (s.writeP i q).freeReads = s.freeReads := rfl
@[simp] theorem State.writeP_W (i : PSel) (q : PReg) : (s.writeP i q).W = s.W := rfl

/-! ## `State.installCurve` -/

@[simp] theorem State.installCurve_width (k : Curve) : (s.installCurve k).width = s.width := rfl
@[simp] theorem State.installCurve_b (k : Curve) : (s.installCurve k).b = s.b := rfl
@[simp] theorem State.installCurve_p (k : Curve) : (s.installCurve k).p = s.p.map fun q => { q with valid := false } := rfl
@[simp] theorem State.installCurve_c (k : Curve) : (s.installCurve k).c = s.c := rfl
@[simp] theorem State.installCurve_crv (k : Curve) : (s.installCurve k).crv = k := rfl
@[simp] theorem State.installCurve_iob (k : Curve) : (s.installCurve k).iob = s.iob := rfl
@[simp] theorem State.installCurve_status (k : Curve) : (s.installCurve k).status = s.status := rfl
@[simp] theorem State.installCurve_faultCode (k : Curve) : (s.installCurve k).faultCode = s.faultCode := rfl
@[simp] theorem State.installCurve_faultCmd (k : Curve) : (s.installCurve k).faultCmd = s.faultCmd := rfl
@[simp] theorem State.installCurve_cmd (k : Curve) : (s.installCurve k).cmd = s.cmd := rfl
@[simp] theorem State.installCurve_ci (k : Curve) : (s.installCurve k).ci = s.ci := rfl
@[simp] theorem State.installCurve_host (k : Curve) : (s.installCurve k).host = s.host := rfl
@[simp] theorem State.installCurve_rdata (k : Curve) : (s.installCurve k).rdata = s.rdata := rfl
@[simp] theorem State.installCurve_freeReads (k : Curve) : (s.installCurve k).freeReads = s.freeReads := rfl
@[simp] theorem State.installCurve_W (k : Curve) : (s.installCurve k).W = s.W := rfl

/-! ## `State.writeIob` -/

@[simp] theorem State.writeIob_width (a : Nat) (bytes : List Byte) : (s.writeIob a bytes).width = s.width := rfl
@[simp] theorem State.writeIob_b (a : Nat) (bytes : List Byte) : (s.writeIob a bytes).b = s.b := rfl
@[simp] theorem State.writeIob_p (a : Nat) (bytes : List Byte) : (s.writeIob a bytes).p = s.p := rfl
@[simp] theorem State.writeIob_c (a : Nat) (bytes : List Byte) : (s.writeIob a bytes).c = s.c := rfl
@[simp] theorem State.writeIob_crv (a : Nat) (bytes : List Byte) : (s.writeIob a bytes).crv = s.crv := rfl
@[simp] theorem State.writeIob_iob (a : Nat) (bytes : List Byte) : (s.writeIob a bytes).iob = s.iob.writeBytes a bytes := rfl
@[simp] theorem State.writeIob_status (a : Nat) (bytes : List Byte) : (s.writeIob a bytes).status = s.status := rfl
@[simp] theorem State.writeIob_faultCode (a : Nat) (bytes : List Byte) : (s.writeIob a bytes).faultCode = s.faultCode := rfl
@[simp] theorem State.writeIob_faultCmd (a : Nat) (bytes : List Byte) : (s.writeIob a bytes).faultCmd = s.faultCmd := rfl
@[simp] theorem State.writeIob_cmd (a : Nat) (bytes : List Byte) : (s.writeIob a bytes).cmd = s.cmd := rfl
@[simp] theorem State.writeIob_ci (a : Nat) (bytes : List Byte) : (s.writeIob a bytes).ci = s.ci := rfl
@[simp] theorem State.writeIob_host (a : Nat) (bytes : List Byte) : (s.writeIob a bytes).host = s.host := rfl
@[simp] theorem State.writeIob_rdata (a : Nat) (bytes : List Byte) : (s.writeIob a bytes).rdata = s.rdata := rfl
@[simp] theorem State.writeIob_freeReads (a : Nat) (bytes : List Byte) : (s.writeIob a bytes).freeReads = s.freeReads := rfl
@[simp] theorem State.writeIob_W (a : Nat) (bytes : List Byte) : (s.writeIob a bytes).W = s.W := rfl

/-! ## `State.setCarry` -/

@[simp] theorem State.setCarry_width (f : Bool) : (s.setCarry f).width = s.width := rfl
@[simp] theorem State.setCarry_b (f : Bool) : (s.setCarry f).b = s.b := rfl
@[simp] theorem State.setCarry_p (f : Bool) : (s.setCarry f).p = s.p := rfl
@[simp] theorem State.setCarry_c (f : Bool) : (s.setCarry f).c = s.c := rfl
@[simp] theorem State.setCarry_crv (f : Bool) : (s.setCarry f).crv = s.crv := rfl
@[simp] theorem State.setCarry_iob (f : Bool) : (s.setCarry f).iob = s.iob := rfl
@[simp] theorem State.setCarry_status (f : Bool) : (s.setCarry f).status = { s.status with carry := f } := rfl
@[simp] theorem State.setCarry_faultCode (f : Bool) : (s.setCarry f).faultCode = s.faultCode := rfl
@[simp] theorem State.setCarry_faultCmd (f : Bool) : (s.setCarry f).faultCmd = s.faultCmd := rfl
@[simp] theorem State.setCarry_cmd (f : Bool) : (s.setCarry f).cmd = s.cmd := rfl
@[simp] theorem State.setCarry_ci (f : Bool) : (s.setCarry f).ci = s.ci := rfl
@[simp] theorem State.setCarry_host (f : Bool) : (s.setCarry f).host = s.host := rfl
@[simp] theorem State.setCarry_rdata (f : Bool) : (s.setCarry f).rdata = s.rdata := rfl
@[simp] theorem State.setCarry_freeReads (f : Bool) : (s.setCarry f).freeReads = s.freeReads := rfl
@[simp] theorem State.setCarry_W (f : Bool) : (s.setCarry f).W = s.W := rfl

/-! ## `State.setV` -/

@[simp] theorem State.setV_width (f : Bool) : (s.setV f).width = s.width := rfl
@[simp] theorem State.setV_b (f : Bool) : (s.setV f).b = s.b := rfl
@[simp] theorem State.setV_p (f : Bool) : (s.setV f).p = s.p := rfl
@[simp] theorem State.setV_c (f : Bool) : (s.setV f).c = s.c := rfl
@[simp] theorem State.setV_crv (f : Bool) : (s.setV f).crv = s.crv := rfl
@[simp] theorem State.setV_iob (f : Bool) : (s.setV f).iob = s.iob := rfl
@[simp] theorem State.setV_status (f : Bool) : (s.setV f).status = { s.status with v := f } := rfl
@[simp] theorem State.setV_faultCode (f : Bool) : (s.setV f).faultCode = s.faultCode := rfl
@[simp] theorem State.setV_faultCmd (f : Bool) : (s.setV f).faultCmd = s.faultCmd := rfl
@[simp] theorem State.setV_cmd (f : Bool) : (s.setV f).cmd = s.cmd := rfl
@[simp] theorem State.setV_ci (f : Bool) : (s.setV f).ci = s.ci := rfl
@[simp] theorem State.setV_host (f : Bool) : (s.setV f).host = s.host := rfl
@[simp] theorem State.setV_rdata (f : Bool) : (s.setV f).rdata = s.rdata := rfl
@[simp] theorem State.setV_freeReads (f : Bool) : (s.setV f).freeReads = s.freeReads := rfl
@[simp] theorem State.setV_W (f : Bool) : (s.setV f).W = s.W := rfl

/-! ## `State.setCmp` -/

@[simp] theorem State.setCmp_width (f : CmpFlag) : (s.setCmp f).width = s.width := rfl
@[simp] theorem State.setCmp_b (f : CmpFlag) : (s.setCmp f).b = s.b := rfl
@[simp] theorem State.setCmp_p (f : CmpFlag) : (s.setCmp f).p = s.p := rfl
@[simp] theorem State.setCmp_c (f : CmpFlag) : (s.setCmp f).c = s.c := rfl
@[simp] theorem State.setCmp_crv (f : CmpFlag) : (s.setCmp f).crv = s.crv := rfl
@[simp] theorem State.setCmp_iob (f : CmpFlag) : (s.setCmp f).iob = s.iob := rfl
@[simp] theorem State.setCmp_status (f : CmpFlag) : (s.setCmp f).status = { s.status with cmp := f } := rfl
@[simp] theorem State.setCmp_faultCode (f : CmpFlag) : (s.setCmp f).faultCode = s.faultCode := rfl
@[simp] theorem State.setCmp_faultCmd (f : CmpFlag) : (s.setCmp f).faultCmd = s.faultCmd := rfl
@[simp] theorem State.setCmp_cmd (f : CmpFlag) : (s.setCmp f).cmd = s.cmd := rfl
@[simp] theorem State.setCmp_ci (f : CmpFlag) : (s.setCmp f).ci = s.ci := rfl
@[simp] theorem State.setCmp_host (f : CmpFlag) : (s.setCmp f).host = s.host := rfl
@[simp] theorem State.setCmp_rdata (f : CmpFlag) : (s.setCmp f).rdata = s.rdata := rfl
@[simp] theorem State.setCmp_freeReads (f : CmpFlag) : (s.setCmp f).freeReads = s.freeReads := rfl
@[simp] theorem State.setCmp_W (f : CmpFlag) : (s.setCmp f).W = s.W := rfl

/-! ## `State.complete` -/

@[simp] theorem State.complete_width : s.complete.width = s.width := rfl
@[simp] theorem State.complete_b : s.complete.b = s.b := rfl
@[simp] theorem State.complete_p : s.complete.p = s.p := rfl
@[simp] theorem State.complete_c : s.complete.c = s.c := rfl
@[simp] theorem State.complete_crv : s.complete.crv = s.crv := rfl
@[simp] theorem State.complete_iob : s.complete.iob = s.iob := rfl
@[simp] theorem State.complete_status : s.complete.status = { s.status with busy := false, done := true } := rfl
@[simp] theorem State.complete_faultCode : s.complete.faultCode = s.faultCode := rfl
@[simp] theorem State.complete_faultCmd : s.complete.faultCmd = s.faultCmd := rfl
@[simp] theorem State.complete_cmd : s.complete.cmd = 0 := rfl
@[simp] theorem State.complete_ci : s.complete.ci = s.ci + 1 := rfl
@[simp] theorem State.complete_host : s.complete.host = s.host := rfl
@[simp] theorem State.complete_rdata : s.complete.rdata = s.rdata := rfl
@[simp] theorem State.complete_freeReads : s.complete.freeReads = s.freeReads := rfl
@[simp] theorem State.complete_W : s.complete.W = s.W := rfl

/-! ## `State.takeFault` -/

@[simp] theorem State.takeFault_width (e : ErrCode) : (s.takeFault e).width = s.width := rfl
@[simp] theorem State.takeFault_b (e : ErrCode) : (s.takeFault e).b = s.b := rfl
@[simp] theorem State.takeFault_p (e : ErrCode) : (s.takeFault e).p = s.p := rfl
@[simp] theorem State.takeFault_c (e : ErrCode) : (s.takeFault e).c = s.c := rfl
@[simp] theorem State.takeFault_crv (e : ErrCode) : (s.takeFault e).crv = s.crv := rfl
@[simp] theorem State.takeFault_iob (e : ErrCode) : (s.takeFault e).iob = s.iob := rfl
@[simp] theorem State.takeFault_status (e : ErrCode) : (s.takeFault e).status = { s.status with busy := false, done := false, fault := true } := rfl
@[simp] theorem State.takeFault_faultCode (e : ErrCode) : (s.takeFault e).faultCode = BitVec.ofNat 32 e.code := rfl
@[simp] theorem State.takeFault_faultCmd (e : ErrCode) : (s.takeFault e).faultCmd = s.cmd := rfl
@[simp] theorem State.takeFault_cmd (e : ErrCode) : (s.takeFault e).cmd = 0 := rfl
@[simp] theorem State.takeFault_ci (e : ErrCode) : (s.takeFault e).ci = s.ci := rfl
@[simp] theorem State.takeFault_host (e : ErrCode) : (s.takeFault e).host = s.host := rfl
@[simp] theorem State.takeFault_rdata (e : ErrCode) : (s.takeFault e).rdata = s.rdata := rfl
@[simp] theorem State.takeFault_freeReads (e : ErrCode) : (s.takeFault e).freeReads = s.freeReads := rfl
@[simp] theorem State.takeFault_W (e : ErrCode) : (s.takeFault e).W = s.W := rfl

/-! ## `State.accept` -/

@[simp] theorem State.accept_width (w : Word) : (s.accept w).width = s.width := rfl
@[simp] theorem State.accept_b (w : Word) : (s.accept w).b = s.b := rfl
@[simp] theorem State.accept_p (w : Word) : (s.accept w).p = s.p := rfl
@[simp] theorem State.accept_c (w : Word) : (s.accept w).c = s.c := rfl
@[simp] theorem State.accept_crv (w : Word) : (s.accept w).crv = s.crv := rfl
@[simp] theorem State.accept_iob (w : Word) : (s.accept w).iob = s.iob := rfl
@[simp] theorem State.accept_status (w : Word) : (s.accept w).status = { s.status with busy := true, done := false } := rfl
@[simp] theorem State.accept_faultCode (w : Word) : (s.accept w).faultCode = s.faultCode := rfl
@[simp] theorem State.accept_faultCmd (w : Word) : (s.accept w).faultCmd = s.faultCmd := rfl
@[simp] theorem State.accept_cmd (w : Word) : (s.accept w).cmd = w := rfl
@[simp] theorem State.accept_ci (w : Word) : (s.accept w).ci = s.ci := rfl
@[simp] theorem State.accept_host (w : Word) : (s.accept w).host = s.host := rfl
@[simp] theorem State.accept_rdata (w : Word) : (s.accept w).rdata = s.rdata := rfl
@[simp] theorem State.accept_freeReads (w : Word) : (s.accept w).freeReads = s.freeReads := rfl
@[simp] theorem State.accept_W (w : Word) : (s.accept w).W = s.W := rfl

/-! ## `State.resetCore` -/

@[simp] theorem State.resetCore_width : s.resetCore.width = s.width := rfl
@[simp] theorem State.resetCore_b : s.resetCore.b = Vector.replicate 16 BReg.empty := rfl
@[simp] theorem State.resetCore_p : s.resetCore.p = Vector.replicate 8 PReg.empty := rfl
@[simp] theorem State.resetCore_c : s.resetCore.c = Vector.replicate 4 Ctx.empty := rfl
@[simp] theorem State.resetCore_crv : s.resetCore.crv = Curve.empty := rfl
@[simp] theorem State.resetCore_iob : s.resetCore.iob = [] := rfl
@[simp] theorem State.resetCore_status : s.resetCore.status = ⟨false, false, false, false, false, .equal⟩ := rfl
@[simp] theorem State.resetCore_faultCode : s.resetCore.faultCode = 0 := rfl
@[simp] theorem State.resetCore_faultCmd : s.resetCore.faultCmd = 0 := rfl
@[simp] theorem State.resetCore_cmd : s.resetCore.cmd = 0 := rfl
@[simp] theorem State.resetCore_ci : s.resetCore.ci = 0 := rfl
@[simp] theorem State.resetCore_host : s.resetCore.host = s.host := rfl
@[simp] theorem State.resetCore_rdata : s.resetCore.rdata = s.rdata := rfl
@[simp] theorem State.resetCore_freeReads : s.resetCore.freeReads = s.freeReads := rfl
@[simp] theorem State.resetCore_W : s.resetCore.W = s.W := rfl

/-! ## `State.accepted` -/

@[simp] theorem State.accepted_width (w : Word) : (s.accepted w).width = s.width := rfl
@[simp] theorem State.accepted_b (w : Word) : (s.accepted w).b = s.b := rfl
@[simp] theorem State.accepted_p (w : Word) : (s.accepted w).p = s.p := rfl
@[simp] theorem State.accepted_c (w : Word) : (s.accepted w).c = s.c := rfl
@[simp] theorem State.accepted_crv (w : Word) : (s.accepted w).crv = s.crv := rfl
@[simp] theorem State.accepted_iob (w : Word) : (s.accepted w).iob = s.iob := rfl
@[simp] theorem State.accepted_status (w : Word) : (s.accepted w).status = { s.status with busy := true, done := false, fault := false } := rfl
@[simp] theorem State.accepted_faultCode (w : Word) : (s.accepted w).faultCode = 0 := rfl
@[simp] theorem State.accepted_faultCmd (w : Word) : (s.accepted w).faultCmd = 0 := rfl
@[simp] theorem State.accepted_cmd (w : Word) : (s.accepted w).cmd = w := rfl
@[simp] theorem State.accepted_ci (w : Word) : (s.accepted w).ci = s.ci := rfl
@[simp] theorem State.accepted_host (w : Word) : (s.accepted w).host = lateHead s.host := rfl
@[simp] theorem State.accepted_rdata (w : Word) : (s.accepted w).rdata = s.rdata := rfl
@[simp] theorem State.accepted_freeReads (w : Word) : (s.accepted w).freeReads = s.freeReads := rfl
@[simp] theorem State.accepted_W (w : Word) : (s.accepted w).W = s.W := rfl

/-! ## `State.done` -/

@[simp] theorem State.done_width : s.done.width = s.width := rfl
@[simp] theorem State.done_b : s.done.b = s.b := rfl
@[simp] theorem State.done_p : s.done.p = s.p := rfl
@[simp] theorem State.done_c : s.done.c = s.c := rfl
@[simp] theorem State.done_crv : s.done.crv = s.crv := rfl
@[simp] theorem State.done_iob : s.done.iob = s.iob := rfl
@[simp] theorem State.done_status : s.done.status = { s.status with busy := false, done := true } := rfl
@[simp] theorem State.done_faultCode : s.done.faultCode = s.faultCode := rfl
@[simp] theorem State.done_faultCmd : s.done.faultCmd = s.faultCmd := rfl
@[simp] theorem State.done_cmd : s.done.cmd = 0 := rfl
@[simp] theorem State.done_ci : s.done.ci = s.ci + 1 := rfl
@[simp] theorem State.done_host : s.done.host = s.host := rfl
@[simp] theorem State.done_rdata : s.done.rdata = s.rdata := rfl
@[simp] theorem State.done_freeReads : s.done.freeReads = s.freeReads := rfl
@[simp] theorem State.done_W : s.done.W = s.W := rfl

/-! ## `State.faulted` -/

@[simp] theorem State.faulted_width (n : Nat) : (s.faulted n).width = s.width := rfl
@[simp] theorem State.faulted_b (n : Nat) : (s.faulted n).b = s.b := rfl
@[simp] theorem State.faulted_p (n : Nat) : (s.faulted n).p = s.p := rfl
@[simp] theorem State.faulted_c (n : Nat) : (s.faulted n).c = s.c := rfl
@[simp] theorem State.faulted_crv (n : Nat) : (s.faulted n).crv = s.crv := rfl
@[simp] theorem State.faulted_iob (n : Nat) : (s.faulted n).iob = s.iob := rfl
@[simp] theorem State.faulted_status (n : Nat) : (s.faulted n).status = { s.status with busy := false, done := false, fault := true } := rfl
@[simp] theorem State.faulted_faultCode (n : Nat) : (s.faulted n).faultCode = BitVec.ofNat 32 n := rfl
@[simp] theorem State.faulted_faultCmd (n : Nat) : (s.faulted n).faultCmd = s.cmd := rfl
@[simp] theorem State.faulted_cmd (n : Nat) : (s.faulted n).cmd = 0 := rfl
@[simp] theorem State.faulted_ci (n : Nat) : (s.faulted n).ci = s.ci := rfl
@[simp] theorem State.faulted_host (n : Nat) : (s.faulted n).host = s.host := rfl
@[simp] theorem State.faulted_rdata (n : Nat) : (s.faulted n).rdata = s.rdata := rfl
@[simp] theorem State.faulted_freeReads (n : Nat) : (s.faulted n).freeReads = s.freeReads := rfl
@[simp] theorem State.faulted_W (n : Nat) : (s.faulted n).W = s.W := rfl

end Sys2Proof.Machine
end

