-- ==== Sys2Proof/Laws/Ops.lean ====
section
/-! SUPPORT. One lemma per shared operation that says what it can answer: when it succeeds and with what, or which fault it raises. -/

namespace Sys2Proof.Machine

/-! ## Raising and ending -/

@[simp] theorem raiseIf_true (e : ErrCode) : raiseIf true e = .error e := rfl
@[simp] theorem raiseIf_false (e : ErrCode) : raiseIf false e = .ok () := rfl

/-- An effect that has faulted does nothing more (60_exceptions.md R261). -/
@[simp] theorem Effect.bind_error {α β : Type} (e : ErrCode) (f : α → Effect β) : ((.error e : Effect α) >>= f) = .error e := rfl
@[simp] theorem Effect.bind_ok {α β : Type} (a : α) (f : α → Effect β) : ((.ok a : Effect α) >>= f) = f a := rfl
@[simp] theorem Effect.map_error {α β : Type} (e : ErrCode) (f : α → β) : (f <$> (.error e : Effect α)) = .error e := rfl
@[simp] theorem Effect.map_ok {α β : Type} (a : α) (f : α → β) : (f <$> (.ok a : Effect α)) = .ok (f a) := rfl

/-- A check stands before everything after it (60_exceptions.md R254). -/
theorem raiseIf_bind {β : Type} (c : Bool) (e : ErrCode) (f : Unit → Effect β) :
    (raiseIf c e >>= f) = if c then .error e else f () := by
  cases c <;> rfl

theorem raiseIf_cases (c : Bool) (e : ErrCode) : (c = true ∧ raiseIf c e = .error e) ∨ (c = false ∧ raiseIf c e = .ok ()) := by
  cases c <;> simp

@[simp] theorem State.finish_ok (s t : State) : s.finish (.ok t) = .next t.done := rfl
@[simp] theorem State.finish_error (s : State) (e : ErrCode) : s.finish (.error e) = .next (s.faulted e.code) := rfl

/-- A command ends in a completed state of its effect or in its fault, never in a stop (60_exceptions.md R260, R261;
70_reset_and_hazards.md R289). -/
theorem State.finish_cases (s : State) (r : Effect State) :
    (∃ t, r = .ok t ∧ s.finish r = .next t.done) ∨ ∃ e, r = .error e ∧ s.finish r = .next (s.faulted e.code) := by
  cases r with
  | ok t => exact .inl ⟨t, rfl, rfl⟩
  | error e => exact .inr ⟨e, rfl, rfl⟩

theorem State.complete_eq_done (s : State) : s.complete = s.done := rfl
theorem State.takeFault_eq_faulted (s : State) (e : ErrCode) : s.takeFault e = s.faulted e.code := rfl

/-- The sixteen codes are `1` to `16` (60_exceptions.md R251). -/
theorem ErrCode.code_range (e : ErrCode) : 1 ≤ e.code ∧ e.code ≤ 16 := by cases e <;> decide

theorem ErrCode.code_injective {e e' : ErrCode} (h : e.code = e'.code) : e = e' := by
  cases e <;> cases e' <;> first | rfl | (revert h; decide)

/-! ## Register files -/

theorem State.readB_ok_iff (s : State) (i : BSel) (r : BReg) : s.readB i = .ok r ↔ s.b[i].valid = true ∧ s.b[i] = r := by
  unfold State.readB
  split <;> simp_all

theorem State.readB_error_iff (s : State) (i : BSel) (e : ErrCode) :
    s.readB i = .error e ↔ s.b[i].valid = false ∧ e = .uninit := by
  unfold State.readB
  split <;> simp_all
  exact eq_comm

/-- A held register is read (00_scope.md R11). -/
theorem State.readB_holds {s : State} {i : BSel} {n v : Nat} (h : s.holds i n v) : s.readB i = .ok ⟨true, n, v⟩ := by
  rw [State.readB_ok_iff, h]
  exact ⟨rfl, rfl⟩

theorem State.readC_ok_iff (s : State) (i : CSel) (k : Ctx) : s.readC i = .ok k ↔ s.c[i].valid = true ∧ s.c[i] = k := by
  unfold State.readC
  split <;> simp_all

theorem State.readC_error_iff (s : State) (i : CSel) (e : ErrCode) :
    s.readC i = .error e ↔ s.c[i].valid = false ∧ e = .uninit := by
  unfold State.readC
  split <;> simp_all
  exact eq_comm

theorem State.readCrv_ok_iff (s : State) (k : Curve) : s.readCrv = .ok k ↔ s.crv.valid = true ∧ s.crv = k := by
  unfold State.readCrv
  split <;> simp_all

theorem State.readCrv_error_iff (s : State) (e : ErrCode) : s.readCrv = .error e ↔ s.crv.valid = false ∧ e = .uninit := by
  unfold State.readCrv
  split <;> simp_all
  exact eq_comm

theorem State.readP_ok_iff (s : State) (i : PSel) (q : PReg) : s.readP i = .ok q ↔ s.p[i].valid = true ∧ s.p[i] = q := by
  unfold State.readP
  split <;> simp_all

theorem State.readP_error_iff (s : State) (i : PSel) (e : ErrCode) :
    s.readP i = .error e ↔ s.p[i].valid = false ∧ e = .uninit := by
  unfold State.readP
  split <;> simp_all
  exact eq_comm

/-- A written register holds what was written; every other register is as before (00_scope.md R11). -/
theorem State.writeB_get (s : State) (i j : BSel) (n v : Nat) :
    (s.writeB i n v).b[j] = if i = j then ⟨true, n, v⟩ else s.b[j] := by
  simp [Fin.getElem_fin, Vector.getElem_set, Fin.ext_iff]

theorem State.writeC_get (s : State) (i j : CSel) (k : Ctx) : (s.writeC i k).c[j] = if i = j then k else s.c[j] := by
  simp [Fin.getElem_fin, Vector.getElem_set, Fin.ext_iff]

theorem State.writeP_get (s : State) (i j : PSel) (q : PReg) : (s.writeP i q).p[j] = if i = j then q else s.p[j] := by
  simp [Fin.getElem_fin, Vector.getElem_set, Fin.ext_iff]

/-- A curve installation clears every valid bit and nothing else of a point register (10_state.md R34). -/
theorem State.installCurve_get (s : State) (k : Curve) (j : PSel) :
    (s.installCurve k).p[j] = { s.p[j] with valid := false } := by
  simp [Fin.getElem_fin]

end Sys2Proof.Machine
end

