-- ==== Sys2Proof/Laws/Montgomery.lean ====
section
/-! SUPPORT. The shared operations of the Montgomery engine: the residue check and the construction of a context. -/

namespace Sys2Proof.Machine

/-- A residue operand is the register's value when it is reduced, `E_RANGE` otherwise (41_montgomery.md R120 b). -/
theorem residue_cases (c : Ctx) (r : BReg) :
    (r.val < c.m ∧ residue c r = .ok r.val) ∨ (c.m ≤ r.val ∧ residue c r = .error .range) := by
  unfold residue
  by_cases h : c.m ≤ r.val
  · right
    exact ⟨h, by simp [raiseIf, h]⟩
  · left
    exact ⟨by omega, by simp [raiseIf, h]⟩

/-- Newton's iteration on the inverse of an odd number doubles the number of correct bits (41_montgomery.md R122). -/
theorem newtonInv_spec (W m0 : Nat) (h : m0 % 2 = 1) : ∀ k : Nat,
    ((m0 : Int) * (newtonInv W m0 k : Int)) ≡ 1 [ZMOD ((2 ^ min W (2 ^ k) : Nat) : Int)]
  | 0 => by
    have hd : ((2 ^ min W (2 ^ 0) : Nat) : Int) ∣ 2 := by
      have : 2 ^ min W (2 ^ 0) ∣ 2 ^ 1 := pow_dvd_pow 2 (by simp)
      exact_mod_cast this
    refine Int.ModEq.of_dvd hd ?_
    show ((m0 : Int) * ((1 : Nat) : Int)) % 2 = 1 % 2
    omega
  | k + 1 => by
    have ih := newtonInv_spec W m0 h k
    rw [newtonInv]
    set y := newtonInv W m0 k with hy
    have hdW : ((2 ^ min W (2 ^ (k + 1)) : Nat) : Int) ∣ ((2 ^ W : Nat) : Int) := by
      exact_mod_cast pow_dvd_pow 2 (min_le_left W (2 ^ (k + 1)))
    have hlt : m0 * y % 2 ^ W < 2 ^ W := Nat.mod_lt _ (by positivity)
    have e1 : ((y * (2 ^ W + 2 - m0 * y % 2 ^ W) % 2 ^ W : Nat) : Int) ≡ (y : Int) * (2 - m0 * y)
        [ZMOD ((2 ^ W : Nat) : Int)] := by
      rw [Int.natCast_mod]
      refine (Int.mod_modEq _ _).trans ?_
      rw [Nat.cast_mul]
      refine Int.ModEq.mul_left _ ?_
      rw [Nat.cast_sub (by omega), Int.natCast_mod, Nat.cast_add, Nat.cast_mul]
      have h2 : ((m0 : Int) * y) % ((2 ^ W : Nat) : Int) ≡ (m0 : Int) * y [ZMOD ((2 ^ W : Nat) : Int)] := Int.mod_modEq _ _
      have h3 : ((2 ^ W : Nat) : Int) + ((2 : Nat) : Int) ≡ 2 [ZMOD ((2 ^ W : Nat) : Int)] := by
        simp
      exact h3.sub h2
    have e2 := (e1.of_dvd hdW).mul_left (m0 : Int)
    refine e2.trans ?_
    -- m0*y*(2 - m0*y) = 1 - (1 - m0*y)^2
    have hsq : ((2 ^ min W (2 ^ (k + 1)) : Nat) : Int) ∣ ((2 ^ min W (2 ^ k) : Nat) : Int) ^ 2 := by
      have : 2 ^ min W (2 ^ (k + 1)) ∣ (2 ^ min W (2 ^ k)) ^ 2 := by
        rw [← pow_mul]
        refine pow_dvd_pow 2 ?_
        rw [pow_succ]
        omega
      exact_mod_cast this
    have hd : ((2 ^ min W (2 ^ k) : Nat) : Int) ∣ 1 - (m0 : Int) * y := (Int.modEq_iff_dvd).1 ih
    rw [Int.modEq_iff_dvd]
    have : (1 : Int) - (m0 : Int) * ((y : Int) * (2 - m0 * y)) = (1 - (m0 : Int) * y) ^ 2 := by ring
    rw [this]
    exact hsq.trans (pow_dvd_pow_of_dvd hd 2)

/-- Newton's result is below the digit size. -/
theorem newtonInv_lt (W m0 : Nat) (hW : 0 < W) (k : Nat) : newtonInv W m0 k < 2 ^ W := by
  cases k with
  | zero => exact Nat.one_lt_two_pow (by omega)
  | succ k => exact Nat.mod_lt _ (by positivity)

/-- `m' = -(m0^-1) mod 2^W` (10_state.md R30, 41_montgomery.md R122). -/
theorem mPrime_spec (W m0 : Nat) (hW : 0 < W) (h : m0 % 2 = 1) :
    mPrime W m0 < 2 ^ W ∧ m0 * mPrime W m0 % 2 ^ W = 2 ^ W - 1 := by
  refine ⟨Nat.mod_lt _ (by positivity), ?_⟩
  set y := newtonInv W m0 (bitlen (W - 1)) with hy
  have hlt : y < 2 ^ W := newtonInv_lt W m0 hW _
  have hs : ((m0 : Int) * (y : Int)) ≡ 1 [ZMOD ((2 ^ W : Nat) : Int)] := by
    have := newtonInv_spec W m0 h (bitlen (W - 1))
    rwa [min_eq_left (by have := lt_two_pow_bitlen (W - 1); omega)] at this
  have h1 : m0 * y % 2 ^ W = 1 := by
    have := hs
    unfold Int.ModEq at this
    rw [Int.emod_eq_of_lt (a := 1) (by decide) (by exact_mod_cast Nat.one_lt_two_pow (by omega : W ≠ 0))] at this
    exact_mod_cast this
  unfold mPrime
  rw [← hy, Nat.mul_mod_mod]
  have h2 : (m0 * (2 ^ W - y) + m0 * y) % 2 ^ W = 0 := by
    rw [← Nat.mul_add, Nat.sub_add_cancel hlt.le]
    exact Nat.mul_mod_left _ _
  rw [Nat.add_mod, h1] at h2
  have h3 : m0 * (2 ^ W - y) % 2 ^ W < 2 ^ W := Nat.mod_lt _ (by positivity)
  have h4 : 2 ^ W ∣ m0 * (2 ^ W - y) % 2 ^ W + 1 := Nat.dvd_of_mod_eq_zero h2
  have := Nat.le_of_dvd (by omega) h4
  omega

/-- Building a context: `E_MODULUS`, or the context of the given modulus with every field of 10_state.md R30's table
(41_montgomery.md R121). -/
theorem makeCtx_cases (W n m : Nat) (hW : 0 < W) (hn : 1 ≤ n) (hm : m < 2 ^ (W * n)) :
    (n ≤ Config.maxS W ∧ 2 ^ (W * (n - 1)) ≤ m ∧ m ≠ 1 ∧ m % 2 = 1 ∧ ∃ c, makeCtx W n m = .ok c ∧ c.Ok W ∧ c.s = n ∧ c.m = m)
    ∨ ((Config.maxS W < n ∨ m < 2 ^ (W * (n - 1)) ∨ m = 1 ∨ m % 2 = 0) ∧ makeCtx W n m = .error .modulus) := by
  have top : m / 2 ^ (W * (n - 1)) = 0 ↔ m < 2 ^ (W * (n - 1)) := by
    rw [Nat.div_eq_zero_iff]
    simp
  unfold makeCtx
  by_cases h1 : Config.maxS W < n
  · exact .inr ⟨.inl h1, by simp [h1]⟩
  by_cases h2 : m < 2 ^ (W * (n - 1))
  · exact .inr ⟨.inr (.inl h2), by simp [h1, top.2 h2]⟩
  by_cases h3 : m = 1 ∨ m % 2 = 0
  · exact .inr ⟨.inr (.inr h3), by simp [h1, mt top.1 h2, h3]⟩
  · left
    have ho : m % 2 = 1 := by omega
    have h0 : m % 2 ^ W % 2 = 1 := by
      rw [Nat.mod_mod_of_dvd _ (dvd_pow_self 2 (by omega))]
      exact ho
    obtain ⟨p1, p2⟩ := mPrime_spec W (m % 2 ^ W) hW h0
    rw [Nat.mod_mul_mod] at p2
    refine ⟨by omega, by omega, by omega, ho, _, by simp [h1, mt top.1 h2, h3]; rfl, ?_, rfl, rfl⟩
    exact ⟨rfl, ⟨hn, Nat.le_of_not_lt h1⟩, ho, (show 1 < m by omega), Nat.le_of_not_lt h2, hm, rfl, p1, p2, rfl, rfl, rfl, rfl⟩
end Sys2Proof.Machine
end

