-- ==== Sys2Proof/Laws/Curves.lean ====
section
/-! SUPPORT. The shared operations of the curve commands: building a descriptor, the named-curve table, reading a register run. -/

namespace Sys2Proof.Machine

/-- Building a curve: the first fault in the order of 43_curve_point_forms.md R171, or a descriptor with the given parameters and every derived
field of 10_state.md R33. -/
theorem buildCurve_cases (W : Nat) (type : CurveType) (q : CurveParams) (hW : 0 < W) (hn : 1 ≤ q.np) (hp : q.p < 2 ^ (W * q.np)) :
    (∃ e, buildCurve W type q = .error e ∧ curveFault W type q = some e.code)
    ∨ (curveFault W type q = none ∧ ∃ k, buildCurve W type q = .ok k ∧ k.Ok W ∧ k.type = type ∧ k.fctx.s = q.np ∧ k.p = q.p ∧ k.a = q.a
      ∧ k.bd = q.bd ∧ k.order = q.order ∧ k.gx = q.gx ∧ k.gy = q.gy ∧ (type = .twistedEdwards → k.rbits = q.rbits)) := by
  rcases makeCtx_cases W q.np q.p hW hn hp with ⟨h1, h2, h3, h4, c, hc, hok, hs, hm⟩ | ⟨h, hc⟩
  swap
  · exact .inl ⟨.modulus, by simp [buildCurve, hc], by simp [curveFault, h, ErrCode.code]⟩
  have hgood : ¬(Config.maxS W < q.np ∨ q.p < 2 ^ (W * (q.np - 1)) ∨ q.p = 1 ∨ q.p % 2 = 0) := by omega
  unfold buildCurve curveFault
  simp only [hc, Effect.bind_ok, if_neg hgood, raiseIf_bind]
  by_cases ha : q.p ≤ q.a
  · exact .inl ⟨.range, by simp [ha], by simp [ha, ErrCode.code]⟩
  by_cases hb : q.p ≤ q.bd
  · exact .inl ⟨.range, by simp [ha, hb], by simp [hb, ErrCode.code]⟩
  by_cases hx : q.p ≤ q.gx
  · exact .inl ⟨.range, by simp [ha, hb, hx], by simp [hx, ErrCode.code]⟩
  by_cases hy : q.p ≤ q.gy
  · exact .inl ⟨.range, by simp [ha, hb, hx, hy], by simp [hy, ErrCode.code]⟩
  simp only [ge_iff_le, ha, hb, hx, hy, decide_false, Bool.false_eq_true, if_false]
  by_cases ho : q.order < 3 ∨ q.order % 2 = 0 ∨ Config.maxS W < normlen W q.order
  · cases type with
    | weierstrass =>
      by_cases a0 : q.a = 0
      · exact .inl ⟨.curveParam, by simp [weierstrassSpec, a0, ho], by simp [a0, ho, ErrCode.code]⟩
      by_cases a3 : q.a = q.p - 3
      · have a3' : q.p - 3 ≠ 0 := a3 ▸ a0
        exact .inl ⟨.curveParam, by simp [weierstrassSpec, a3, a3', ho], by simp [a3, ho, ErrCode.code]⟩
      · exact .inl ⟨.curveUnsupported, by simp [weierstrassSpec, a0, a3], by simp [a0, a3, ErrCode.code]⟩
    | twistedEdwards => exact .inl ⟨.curveParam, by simp [ho], by simp [ho, ErrCode.code]⟩
  have hord : 3 ≤ q.order ∧ q.order % 2 = 1 ∧ normlen W q.order ≤ Config.maxS W := by omega
  cases type with
  | weierstrass =>
    by_cases a0 : q.a = 0
    · refine .inr ⟨by simp [a0, ho], _, by simp [weierstrassSpec, a0, ho]; rfl, ?_, rfl, hs, rfl, a0.symm, rfl, rfl, rfl, rfl, by simp⟩
      exact ⟨rfl, hok, hm, by show 0 < q.p; omega, Nat.lt_of_not_le hb, Nat.lt_of_not_le hx, Nat.lt_of_not_le hy, hord, rfl,
        .inl ⟨rfl, rfl⟩, rfl, rfl, by simp, rfl⟩
    by_cases a3 : q.a = q.p - 3
    · have a3' : q.p - 3 ≠ 0 := a3 ▸ a0
      refine .inr ⟨by simp [a3, ho], _, by simp [weierstrassSpec, a3, a3', ho]; rfl, ?_, rfl, hs, rfl, a3.symm, rfl, rfl, rfl, rfl, by simp⟩
      exact ⟨rfl, hok, hm, by show q.p - 3 < q.p; omega, Nat.lt_of_not_le hb, Nat.lt_of_not_le hx, Nat.lt_of_not_le hy, hord, rfl,
        .inr ⟨a3', rfl, rfl⟩, rfl, rfl, rfl, rfl⟩
    · exact .inl ⟨.curveUnsupported, by simp [weierstrassSpec, a0, a3], by simp [a0, a3, ErrCode.code]⟩
  | twistedEdwards =>
    by_cases hrb : q.rbits < bitlen q.order ∨ W * Config.maxS W < q.rbits
    · exact .inl ⟨.curveParam, by simp [ho, hrb], by simp [ho, hrb, ErrCode.code]⟩
    · refine .inr ⟨by simp [ho, hrb], _, by simp [ho, hrb]; rfl, ?_, rfl, hs, rfl, rfl, rfl, rfl, rfl, rfl, fun _ => rfl⟩
      exact ⟨rfl, hok, hm, Nat.lt_of_not_le ha, Nat.lt_of_not_le hb, Nat.lt_of_not_le hx, Nat.lt_of_not_le hy, hord,
        by show bitlen q.order ≤ q.rbits ∧ q.rbits ≤ W * Config.maxS W; omega, rfl, rfl, rfl, rfl, rfl⟩

/-- The named-curve table holds three ids (43_curve_point_forms.md R174). -/
theorem romCurve_cases (W id : Nat) :
    (id = 1 ∧ romCurve W id = .ok (romP256 W)) ∨ (id = 2 ∧ romCurve W id = .ok (romP384 W))
    ∨ (id = 3 ∧ romCurve W id = .ok (romP521 W))
    ∨ (id ≠ 1 ∧ id ≠ 2 ∧ id ≠ 3 ∧ romCurve W id = .error .unknownCurve) := by
  unfold romCurve
  split <;> simp_all

/-- `CRVNEW`'s types (43_curve_point_forms.md R171). -/
theorem curveType_cases (t : Nat) :
    (t = 0 ∧ curveType t = .ok .weierstrass) ∨ (t = 1 ∧ curveType t = .ok .twistedEdwards)
    ∨ (2 ≤ t ∧ curveType t = .error .curveUnsupported) := by
  match t with
  | 0 => exact .inl ⟨rfl, rfl⟩
  | 1 => exact .inr (.inl ⟨rfl, rfl⟩)
  | t + 2 => exact .inr (.inr ⟨by omega, rfl⟩)

/-- A register of a run: the register of that number, or `E_ILLEGAL_CMD` past `B15` (43_curve_point_forms.md R171). -/
theorem State.readRun_cases (s : State) (n : Nat) :
    (n < 16 ∧ s.readRun n = s.readB (Fin.ofNat 16 n)) ∨ (16 ≤ n ∧ s.readRun n = .error .illegalCmd) := by
  unfold State.readRun
  by_cases h : n < 16
  · refine .inl ⟨h, ?_⟩
    rw [dif_pos h]
    congr 1
    exact Fin.ext (Nat.mod_eq_of_lt h).symm
  · exact .inr ⟨by omega, dif_neg h⟩

/-- A decoded point is affine, in standard form and not validated; a string of another shape is malformed (43_curve_point_forms.md R199). -/
theorem Curve.decodePoint_cases (k : Curve) (buf : List Byte) :
    (∃ x y i, k.decodePoint buf = .ok ⟨true, x, y, 0, 0, 0, false, false, i, false, false⟩)
    ∨ k.decodePoint buf = .error .malformedPoint := by
  unfold Curve.decodePoint
  split
  · exact .inr rfl
  · split
    · exact .inl ⟨_, _, _, rfl⟩
    · split
      · exact .inl ⟨_, _, _, rfl⟩
      · exact .inr rfl

/-- A point field is read out, or is not present (43_curve_point_forms.md R178). -/
theorem ptFieldValue_cases (n : Nat) (q : PReg) (f : PtField) :
    (∃ v, ptFieldValue n q f = .ok v) ∨ ptFieldValue n q f = .error .pointForm := by
  cases f <;> simp only [ptFieldValue] <;> first | exact .inl ⟨_, rfl⟩ | (split <;> simp)

end Sys2Proof.Machine
end

