-- ==== Sys2Proof/Laws/Leak.lean ====
section
/-! SUPPORT. Values and traces of traced computations: what each combinator and each loop leaves. -/

namespace Sys2Proof.Machine

/-! ## Combinators -/

variable {α β : Type}

@[simp] theorem Traced.value_pure (a : α) : Traced.value (pure a) = a := rfl
@[simp] theorem Traced.trace_pure (a : α) : Traced.trace (pure a) = [] := rfl
@[simp] theorem Traced.value_bind (x : Traced α) (f : α → Traced β) : (x >>= f).value = (f x.value).value := rfl
@[simp] theorem Traced.trace_bind (x : Traced α) (f : α → Traced β) : (x >>= f).trace = x.trace ++ (f x.value).trace := rfl
@[simp] theorem observe_value (op : LeakOp) : (observe op).value = () := rfl
@[simp] theorem observe_trace (op : LeakOp) : (observe op).trace = [op] := rfl

@[simp] theorem Run.value_pure (a : α) : Run.value (pure a) = .ok a := rfl
@[simp] theorem Run.trace_pure (a : α) : Run.trace (pure a) = [] := rfl
@[simp] theorem perform_value (x : Traced α) : (perform x).value = .ok x.value := rfl
@[simp] theorem perform_trace (x : Traced α) : (perform x).trace = x.trace := List.append_nil _
@[simp] theorem require_value (r : Effect α) : (require r).value = r := rfl
@[simp] theorem require_trace (r : Effect α) : (require r).trace = [] := rfl

@[simp] theorem Run.value_bind (x : Run α) (f : α → Run β) : (x >>= f).value = (x.value >>= fun a => (f a).value) := by
  show Traced.value ((x.run >>= ExceptT.bindCont f : Traced _)) = _
  rw [Traced.value_bind]
  show _ = Except.bind (Traced.value x.run) _
  cases Traced.value x.run <;> rfl

/-- A run that ends well performs the operations of both parts. -/
theorem Run.trace_bind_ok {x : Run α} {f : α → Run β} {a : α} (h : x.value = .ok a) : (x >>= f).trace = x.trace ++ (f a).trace := by
  show Traced.trace ((x.run >>= ExceptT.bindCont f : Traced _)) = _
  rw [Traced.trace_bind, show Traced.value x.run = .ok a from h]
  rfl

/-- A run that faults performs nothing more. -/
theorem Run.trace_bind_error {x : Run α} {f : α → Run β} {e : ErrCode} (h : x.value = .error e) : (x >>= f).trace = x.trace := by
  show Traced.trace ((x.run >>= ExceptT.bindCont f : Traced _)) = _
  rw [Traced.trace_bind, show Traced.value x.run = .error e from h]
  exact List.append_nil _

theorem Run.pure_bind (a : α) (f : α → Run β) : (pure a >>= f) = f a := rfl

theorem Traced.bind_assoc {γ : Type} (x : Traced α) (f : α → Traced β) (g : β → Traced γ) :
    (x >>= f) >>= g = x >>= fun a => f a >>= g := Prod.ext rfl (List.append_assoc _ _ _)

theorem Run.bind_assoc {γ : Type} (x : Run α) (f : α → Run β) (g : β → Run γ) :
    (x >>= f) >>= g = x >>= fun a => f a >>= g := by
  show ((x.run >>= ExceptT.bindCont f) >>= ExceptT.bindCont g : Traced _) = (x.run >>= ExceptT.bindCont fun a => f a >>= g : Traced _)
  rw [Traced.bind_assoc]
  congr 1
  funext a
  cases a <;> rfl

/-- What a bind that ends well is made of. -/
theorem Run.bind_ok {x : Run α} {f : α → Run β} {b : β} (h : (x >>= f).value = .ok b) :
    ∃ a, x.value = .ok a ∧ (f a).value = .ok b ∧ (x >>= f).trace = x.trace ++ (f a).trace := by
  rw [Run.value_bind] at h
  cases hx : x.value with
  | error e => rw [hx] at h; exact absurd h nofun
  | ok a => rw [hx] at h; exact ⟨a, rfl, h, Run.trace_bind_ok hx⟩

/-! ## Values of the shared operations -/

@[simp] theorem montT_value (W : Nat) (c : Ctx) (a b : Nat) : (montT W c a b).value = mont W c a b := rfl
@[simp] theorem normlenT_value (W n v : Nat) : (normlenT W n v).value = normlen W v := rfl
@[simp] theorem modAddT_value (W : Nat) (c : Ctx) (a b : Nat) : (modAddT W c a b).value = modAdd c.m a b := rfl
@[simp] theorem modSubT_value (W : Nat) (c : Ctx) (a b : Nat) : (modSubT W c a b).value = modSub c.m a b := rfl
@[simp] theorem barrettT_value (W : Nat) (c : Ctx) (x : Nat) : (barrettT W c x).value = x % c.m := rfl
@[simp] theorem euclidT_value (W a b : Nat) : (euclidT W a b).value = euclid a b := rfl

@[simp] theorem divRemT_value (W la lb a b : Nat) : (divRemT W la lb a b).value = (a / b, a % b) := by
  simp only [divRemT, Traced.value_bind]
  split
  · next h => simp [Nat.div_eq_of_lt h, Nat.mod_eq_of_lt h]
  · split <;> rfl

@[simp] theorem mulT_value (k : Curve) (W x y : Nat) : (k.mulT W x y).value = k.fmul W x y := rfl
@[simp] theorem addT_value (k : Curve) (W x y : Nat) : (k.addT W x y).value = k.fadd x y := rfl
@[simp] theorem subT_value (k : Curve) (W x y : Nat) : (k.subT W x y).value = k.fsub x y := rfl
@[simp] theorem negT_value (k : Curve) (W x : Nat) : (k.negT W x).value = k.fneg x := rfl
@[simp] theorem timesT_value (k : Curve) (W n x : Nat) : (k.timesT W n x).value = k.ftimes n x := rfl
@[simp] theorem finvT_value (k : Curve) (W z : Nat) : (k.finvT W z).value = k.finv W z := rfl

/-- The values of the doubling sequence for `a = -3` (44_point_arith.md R212). -/
theorem dblMinus3_eq (k : Curve) (W x y z delta gamma beta alpha x3 yz : Nat)
    (hd : delta = k.fmul W z z) (hg : gamma = k.fmul W y y) (hb : beta = k.fmul W x gamma)
    (ha : alpha = k.ftimes 3 (k.fmul W (k.fsub x delta) (k.fadd x delta)))
    (hx : x3 = k.fsub (k.fmul W alpha alpha) (k.ftimes 8 beta)) (hy : yz = k.fadd y z) :
    k.dblMinus3 W x y z = (x3, k.fsub (k.fmul W alpha (k.fsub (k.ftimes 4 beta) x3)) (k.ftimes 8 (k.fmul W gamma gamma)),
      k.fsub (k.fsub (k.fmul W yz yz) gamma) delta) := by
  subst hd hg hb ha hx hy
  rfl

/-- The values of the doubling sequence for `a = 0` (44_point_arith.md R212). -/
theorem dblZero_eq (k : Curve) (W x y z a b c xb d e f x3 : Nat)
    (ha : a = k.fmul W x x) (hb : b = k.fmul W y y) (hc : c = k.fmul W b b) (hxb : xb = k.fadd x b)
    (hd : d = k.ftimes 2 (k.fsub (k.fsub (k.fmul W xb xb) a) c)) (he : e = k.ftimes 3 a) (hf : f = k.fmul W e e)
    (hx : x3 = k.fsub f (k.ftimes 2 d)) :
    k.dblZero W x y z = (x3, k.fsub (k.fmul W e (k.fsub d x3)) (k.ftimes 8 c), k.ftimes 2 (k.fmul W y z)) := by
  subst ha hb hc hxb hd he hf hx
  rfl

@[simp] theorem wdblT_value (k : Curve) (W : Nat) (q : PReg) : (k.wdblT W q).value = k.wdbl W q := by
  unfold Curve.wdblT
  split
  · rfl
  · split <;> rfl

@[simp] theorem dblT_value (k : Curve) (W : Nat) (q : PReg) : (k.dblT W q).value = k.dbl W q := by
  cases h : k.type <;> simp only [Curve.dblT, Curve.dbl, h]
  · exact wdblT_value k W q
  · rfl

@[simp] theorem wmaddT_value (k : Curve) (W : Nat) (q1 q2 : PReg) : (k.wmaddT W q1 q2).value = k.wmadd W q1 q2 := by
  unfold Curve.wmaddT
  split <;> rfl

@[simp] theorem paddT_value (k : Curve) (W : Nat) (q1 q2 : PReg) : (k.paddT W q1 q2).value = k.padd W q1 q2 := by
  cases h : k.type <;> simp only [Curve.paddT, Curve.padd, h]
  · exact wmaddT_value k W q1 q2
  · rfl

@[simp] theorem negCoordsT_value (k : Curve) (W : Nat) (withT : Bool) (q : PReg) : (k.negCoordsT W withT q).value = k.negCoords q := by
  cases h : k.type <;> simp only [Curve.negCoordsT, h]
  · rfl
  · cases withT <;> rfl

@[simp] theorem affineT_value (k : Curve) (W : Nat) (q : PReg) : (k.affineT W q).value = k.affine W q := by
  cases h : k.type <;> simp only [Curve.affineT, h]
  · split <;> rfl
  · rfl

@[simp] theorem validateT_value (k : Curve) (W : Nat) (q : PReg) : (k.validateT W q).value = k.validate q := by
  simp only [Curve.validateT, Traced.value_bind]
  split <;> rfl

/-! ## Traces of the digit loops and of the operations on them -/

@[simp] theorem digits_length (W v n : Nat) : (digits W v n).length = n := by simp [digits]

@[simp] theorem turns_trace (n : Nat) : (turns n).trace = List.replicate n .iter := by
  induction n with
  | zero => rfl
  | succ n ih => simp [turns, ih, List.replicate_succ]

theorem addLoop_trace (W : Nat) (as bs : List Nat) (c : Nat) :
    (addLoop W as bs c).trace = List.replicate (min as.length bs.length) .iter := by
  induction as generalizing bs c with
  | nil => simp [addLoop]
  | cons a as ih =>
    cases bs with
    | nil => simp [addLoop]
    | cons b bs => simp [addLoop, ih, ← List.replicate_succ, Nat.succ_min_succ]

theorem subLoop_trace (W : Nat) (as bs : List Nat) (c : Nat) :
    (subLoop W as bs c).trace = List.replicate (min as.length bs.length) .iter := by
  induction as generalizing bs c with
  | nil => simp [subLoop]
  | cons a as ih =>
    cases bs with
    | nil => simp [subLoop]
    | cons b bs => simp [subLoop, ih, ← List.replicate_succ, Nat.succ_min_succ]

theorem cmpLoop_trace (l : List (Nat × Nat)) (gt lt : Bool) : (cmpLoop l gt lt).trace = List.replicate l.length .iter := by
  induction l generalizing gt lt with
  | nil => rfl
  | cons p l ih => simp [cmpLoop, ih, ← List.replicate_succ]

@[simp] theorem cmpDigits_trace (W n a b : Nat) : (cmpDigits W n a b).trace = List.replicate n .iter := by
  simp [cmpDigits, cmpLoop_trace]

theorem mulRow_trace (W b : Nat) (as rs : List Nat) (c : Nat) :
    (mulRow W b as rs c).trace = List.replicate (min as.length rs.length) .iter := by
  induction as generalizing rs c with
  | nil => simp [mulRow]
  | cons a as ih =>
    cases rs with
    | nil => simp [mulRow]
    | cons r rs => simp [mulRow, ih, ← List.replicate_succ, Nat.succ_min_succ]

theorem mulRow_length (W b : Nat) (as rs : List Nat) (c : Nat) :
    (mulRow W b as rs c).value.length = min as.length rs.length + 1 := by
  induction as generalizing rs c with
  | nil => simp [mulRow]
  | cons a as ih =>
    cases rs with
    | nil => simp [mulRow]
    | cons r rs => simp [mulRow, ih, Nat.succ_min_succ]

theorem mulLoop_trace (W : Nat) (as bs r : List Nat) (h : r.length = as.length) :
    (mulLoop W as bs r).trace = List.replicate (bs.length * (as.length + 1)) .iter := by
  induction bs generalizing r with
  | nil => simp [mulLoop]
  | cons b bs ih =>
    have hr : (mulRow W b as r 0).value.tail.length = as.length := by simp [mulRow_length, h]
    simp only [mulLoop, Traced.trace_bind, observe_trace, mulRow_trace, ih _ hr, Traced.trace_pure, h, Nat.min_self, List.append_nil,
      List.length_cons, ← List.replicate_add, ← List.replicate_one (a := LeakOp.iter)]
    congr 1
    ring

@[simp] theorem mulDigits_trace (W : Nat) (as bs : List Nat) :
    (mulDigits W as bs).trace = List.replicate (bs.length * (as.length + 1)) .iter :=
  mulLoop_trace W as bs _ (List.length_replicate ..)

/-- A row of CIOS on `s ≥ 1` digits makes `2s - 1` turns and keeps the accumulator's length. -/
theorem ciosRow_spec (W mprime b : Nat) (as ms t : List Nat) (hs : 1 ≤ ms.length) (ha : as.length = ms.length) (ht : t.length = ms.length + 2) :
    (ciosRow W mprime as ms b t).trace = List.replicate (2 * ms.length - 1) .iter
    ∧ (ciosRow W mprime as ms b t).value.length = ms.length + 2 := by
  constructor
  · simp only [ciosRow, Traced.trace_bind, mulRow_trace, Traced.trace_pure, List.append_nil, ← List.replicate_add]
    congr 1
    simp [mulRow_length, ha, ht]
    omega
  · simp [ciosRow, mulRow_length, ha, ht]
    omega

theorem ciosLoop_trace (W mprime : Nat) (as ms bs t : List Nat) (hs : 1 ≤ ms.length) (ha : as.length = ms.length)
    (ht : t.length = ms.length + 2) : (ciosLoop W mprime as ms bs t).trace = List.replicate (bs.length * (2 * ms.length)) .iter
      ∧ (ciosLoop W mprime as ms bs t).value.length = ms.length + 2 := by
  induction bs generalizing t with
  | nil => simp [ciosLoop, ht]
  | cons b bs ih =>
    have hr := ciosRow_spec W mprime b as ms t hs ha ht
    have hi := ih _ hr.2
    refine ⟨?_, hi.2⟩
    simp only [ciosLoop, Traced.trace_bind, observe_trace, hr.1, hi.1, List.length_cons, ← List.replicate_add,
      ← List.replicate_one (a := LeakOp.iter)]
    congr 1
    rw [Nat.add_mul, Nat.one_mul]
    omega

/-- The multiplier makes the same number of turns for all operands: `2s` in each of `s` rows and `s + 1` in the final subtraction. -/
@[simp] theorem cios_trace (W : Nat) (c : Ctx) (a b : Nat) :
    (cios W c a b).trace = List.replicate (2 * c.s * c.s + c.s + 1) .iter := by
  simp only [cios, Traced.trace_bind, subLoop_trace, Traced.trace_pure, List.append_nil, digits_length]
  rcases Nat.eq_zero_or_pos c.s with h | h
  · simp [h, digits, ciosLoop]
  · have hl := ciosLoop_trace W c.mprime (digits W a c.s) (digits W c.m c.s) (digits W b c.s) (List.replicate (c.s + 2) 0)
      (by rw [digits_length]; exact h) (by simp) (by simp)
    rw [hl.1, ← List.replicate_add]
    congr 1
    rw [List.length_take, hl.2]
    simp
    ring

/-- A call of the multiplier is seen as such, and by the turns of its loops. -/
@[simp] theorem montT_trace (W : Nat) (c : Ctx) (a b : Nat) :
    (montT W c a b).trace = .mont :: List.replicate (2 * c.s * c.s + c.s + 1) .iter := by simp [montT]

@[simp] theorem modAddT_trace (W : Nat) (c : Ctx) (a b : Nat) : (modAddT W c a b).trace = List.replicate (2 * c.s + 1) .iter := by
  simp only [modAddT, Traced.trace_bind, addLoop_trace, subLoop_trace, Traced.trace_pure, digits_length, List.append_nil, Nat.min_self,
    ← List.replicate_add]
  congr 1
  ring

@[simp] theorem modSubT_trace (W : Nat) (c : Ctx) (a b : Nat) : (modSubT W c a b).trace = List.replicate (2 * c.s) .iter := by
  simp only [modSubT, Traced.trace_bind, addLoop_trace, subLoop_trace, Traced.trace_pure, digits_length, List.append_nil, Nat.min_self,
    ← List.replicate_add]
  congr 1
  ring

/-! ## Traces of the field operations -/

@[simp] theorem mulT_trace (k : Curve) (W x y : Nat) :
    (k.mulT W x y).trace = .mont :: List.replicate (2 * k.fctx.s * k.fctx.s + k.fctx.s + 1) .iter := montT_trace W k.fctx x y
@[simp] theorem addT_trace (k : Curve) (W x y : Nat) : (k.addT W x y).trace = List.replicate (2 * k.fctx.s + 1) .iter := by simp [Curve.addT]
@[simp] theorem subT_trace (k : Curve) (W x y : Nat) : (k.subT W x y).trace = List.replicate (2 * k.fctx.s) .iter := by simp [Curve.subT]
@[simp] theorem negT_trace (k : Curve) (W x : Nat) : (k.negT W x).trace = List.replicate (2 * k.fctx.s) .iter := by simp [Curve.negT]

theorem addTimes_trace (k : Curve) (W x n acc : Nat) :
    (k.addTimes W x n acc).trace = List.replicate (n * (2 * k.fctx.s + 1)) .iter := by
  induction n generalizing acc with
  | zero => simp [Curve.addTimes]
  | succ n ih =>
    simp only [Curve.addTimes, Traced.trace_bind, addT_trace, ih, ← List.replicate_add]
    congr 1
    ring

@[simp] theorem timesT_trace (k : Curve) (W n x : Nat) :
    (k.timesT W n x).trace = List.replicate ((n - 1) * (2 * k.fctx.s + 1)) .iter := by simp [Curve.timesT, addTimes_trace]

/-! ## Values of the shared parts of a run -/

@[simp] theorem Effect.ok_bind (a : α) (f : α → Effect β) : ((.ok a : Effect α) >>= f) = f a := rfl
@[simp] theorem Effect.error_bind (e : ErrCode) (f : α → Effect β) : ((.error e : Effect α) >>= f) = .error e := rfl
theorem Effect.bind_ok_self (x : Effect α) : (x >>= fun a => .ok a) = x := by cases x <;> rfl

@[simp] theorem readBT_value (s : State) (i : BSel) : (s.readBT i).value = s.readB i := by
  simp [State.readBT]
@[simp] theorem readCT_value (s : State) (i : CSel) : (s.readCT i).value = s.readC i := by
  simp [State.readCT]
@[simp] theorem readPT_value (s : State) (i : PSel) : (s.readPT i).value = s.readP i := by
  simp [State.readPT]
@[simp] theorem readCrvT_value (s : State) : s.readCrvT.value = s.readCrv := by
  simp [State.readCrvT]
@[simp] theorem writeBT_value (s : State) (i : BSel) (n v : Nat) : (s.writeBT i n v).value = .ok (s.writeB i n v) := rfl
@[simp] theorem writePT_value (s : State) (i : PSel) (q : PReg) : (s.writePT i q).value = .ok (s.writeP i q) := rfl

@[simp] theorem belowT_value (W n v bound : Nat) (e : ErrCode) : (belowT W n v bound e).value = raiseIf (v ≥ bound) e := by
  simp [belowT]

@[simp] theorem residueT_value (W : Nat) (c : Ctx) (r : BReg) : (residueT W c r).value = residue c r := by
  simp only [residueT, residue, Run.value_bind, belowT_value]
  rfl

@[simp] theorem copyT_value (k : Curve) (q : PReg) : (k.copyT q).value = .ok () := rfl

@[simp] theorem readRunT_value (s : State) (n : Nat) : (s.readRunT n).value = s.readRun n := by
  unfold State.readRunT State.readRun
  split <;> simp

@[simp] theorem installCurveT_value (s : State) (k : Curve) : (s.installCurveT k).value = .ok (s.installCurve k) := rfl

/-- The range checks, one value at a time, fault when some value is not reduced. -/
@[simp] theorem rangesT_value (W p : Nat) (l : List (Nat × Nat)) :
    (rangesT W p l).value = raiseIf (l.any fun t => decide (t.2 ≥ p)) .range := by
  induction l with
  | nil => rfl
  | cons t ts ih =>
    simp only [rangesT, Run.value_bind, perform_value, Effect.ok_bind, belowT_value, ih, List.any_cons]
    by_cases h : t.2 ≥ p
    · simp [raiseIf, h]
    · rw [decide_eq_false h, Bool.false_or]
      simp [raiseIf]

/-- The range checks, one coordinate at a time, fault when some coordinate is not reduced. -/
@[simp] theorem coordsT_value (k : Curve) (W : Nat) (l : List Nat) :
    (k.coordsT W l).value = raiseIf (l.any fun t => decide (t ≥ k.p)) .range := by
  simp [Curve.coordsT, List.any_map, Function.comp_def]

@[simp] theorem makeCtxT_value (W n m : Nat) : (makeCtxT W n m).value = makeCtx W n m := by
  simp only [makeCtxT, Run.value_bind, require_value, perform_value, Run.value_pure, Effect.ok_bind]
  simp only [makeCtx, raiseIf]
  split
  · rfl
  · exact Effect.bind_ok_self _

@[simp] theorem doublingSpecT_value (W : Nat) (t : CurveType) (c : Ctx) (n : Nat) (q : CurveParams) :
    (doublingSpecT W t c n q).value = (match t with
      | .weierstrass => weierstrassSpec q.p q.a
      | .twistedEdwards => .ok .twisted) := by
  cases t with
  | twistedEdwards => rfl
  | weierstrass => by_cases h : q.a = 0 <;> simp [doublingSpecT, weierstrassSpec, h]

@[simp] theorem buildCurveT_value (W : Nat) (t : CurveType) (q : CurveParams) (lens : List Nat) :
    (buildCurveT W t q lens).value = buildCurve W t q := by
  simp only [buildCurveT, buildCurve, Run.value_bind, makeCtxT_value, rangesT_value, doublingSpecT_value, perform_value, require_value, Run.value_pure,
    Effect.ok_bind]
  cases makeCtx W q.np q.p with
  | error e => rfl
  | ok c =>
    simp only [Effect.ok_bind, raiseIf]
    by_cases h1 : q.p ≤ q.a <;> simp [h1]
    by_cases h2 : q.p ≤ q.bd <;> simp [h2]
    by_cases h3 : q.p ≤ q.gx <;> simp [h3]
    by_cases h4 : q.p ≤ q.gy <;> simp [h4]
    cases t with
    | twistedEdwards => exact Effect.bind_ok_self _
    | weierstrass =>
      simp only
      cases weierstrassSpec q.p q.a with
      | error e => rfl
      | ok d => exact Effect.bind_ok_self _

end Sys2Proof.Machine
end

