-- ==== Sys2Proof/Laws/PerInstr.lean ====
section
/-! SUPPORT. The family `Encoding`, one lemma per constructor: the word of a command lies in its row of spec/opcode_table.json, whatever its
operands are (30_encoding.md R71, R72, R75). -/

namespace Sys2Proof.Laws.Encoding

/-- The `mask` column of the command's row of spec/opcode_table.json. -/
def rowMask : Instr → Word
  | .ldb .. => 0xFF000000
  | .stb .. => 0xFF000000
  | .mov .. => 0xFF00FFFF
  | .clr .. => 0xFF0FFFFF
  | .norm .. => 0xFF00FFFF
  | .cmp .. => 0xFFF00FFF
  | .add .. => 0xFF000FFF
  | .sub .. => 0xFF000FFF
  | .mul .. => 0xFF000FFF
  | .divrem .. => 0xFF0000FF
  | .ctxnew .. => 0xFFF0FCFF
  | .montmul .. => 0xFF000CFF
  | .tomont .. => 0xFF00FCFF
  | .frommont .. => 0xFF00FCFF
  | .modexp .. => 0xFF000CFF
  | .bred .. => 0xFF00FCFF
  | .ctxget .. => 0xFF0FFCF8
  | .modinv .. => 0xFF000FFF
  | .modinvct .. => 0xFF00FCFF
  | .gcd .. => 0xFF000FFF
  | .modadd .. => 0xFF000CFF
  | .modsub .. => 0xFF000CFF
  | .modmul .. => 0xFF000CFF
  | .crvnew .. => 0xFFF0FF00
  | .crvld .. => 0xFFFFFF00
  | .pset .. => 0xFF800FFF
  | .pget .. => 0xFF08FFF8
  | .pgen .. => 0xFF8FFFFF
  | .pinf .. => 0xFF8FFFFF
  | .pmov .. => 0xFF88FFFF
  | .pclr .. => 0xFF8FFFFF
  | .ptomont .. => 0xFF88FFFF
  | .pfrommont .. => 0xFF88FFFF
  | .ptoproj .. => 0xFF88FFFF
  | .ptoaff .. => 0xFF88FFFF
  | .pval .. => 0xFFF8FFFF
  | .penc .. => 0xFF800000
  | .pdec .. => 0xFF800000
  | .crvget .. => 0xFF0FFFF8
  | .pdbl .. => 0xFF88FFFF
  | .padd .. => 0xFF888FFF
  | .pneg .. => 0xFF88FFFF
  | .smul .. => 0xFF880FFF

/-- The `match` column of the command's row of spec/opcode_table.json. -/
def rowMatch : Instr → Word
  | .ldb .. => 0x10000000
  | .stb .. => 0x11000000
  | .mov .. => 0x12000000
  | .clr .. => 0x13000000
  | .norm .. => 0x14000000
  | .cmp .. => 0x15000000
  | .add .. => 0x16000000
  | .sub .. => 0x17000000
  | .mul .. => 0x18000000
  | .divrem .. => 0x19000000
  | .ctxnew .. => 0x20000000
  | .montmul .. => 0x21000000
  | .tomont .. => 0x22000000
  | .frommont .. => 0x23000000
  | .modexp .. => 0x24000000
  | .bred .. => 0x25000000
  | .ctxget .. => 0x26000000
  | .modinv .. => 0x30000000
  | .modinvct .. => 0x31000000
  | .gcd .. => 0x32000000
  | .modadd .. => 0x33000000
  | .modsub .. => 0x34000000
  | .modmul .. => 0x35000000
  | .crvnew .. => 0x40000000
  | .crvld .. => 0x41000000
  | .pset .. => 0x42000000
  | .pget .. => 0x43000000
  | .pgen .. => 0x44000000
  | .pinf .. => 0x45000000
  | .pmov .. => 0x46000000
  | .pclr .. => 0x47000000
  | .ptomont .. => 0x48000000
  | .pfrommont .. => 0x49000000
  | .ptoproj .. => 0x4A000000
  | .ptoaff .. => 0x4B000000
  | .pval .. => 0x4C000000
  | .penc .. => 0x4D000000
  | .pdec .. => 0x4E000000
  | .crvget .. => 0x4F000000
  | .pdbl .. => 0x50000000
  | .padd .. => 0x51000000
  | .pneg .. => 0x52000000
  | .smul .. => 0x58000000

/-- The encoded word has the fixed bits of the command's own row. -/
def Statement (i : Instr) : Prop := encode i &&& rowMask i = rowMatch i

/-! ## Fields -/

/-- A field of `n` values at bit `k` touches none of the bits of `m`. -/
abbrev Clear (m : Word) (k n : Nat) : Prop := ∀ d : Fin n, BitVec.ofNat 32 (2 ^ k * d.val) &&& m = 0

/-- A number below `2^k` touches no bit from `k` upward. -/
theorem and_shiftLeft_of_lt (k x : Nat) (h : x < 2 ^ k) (m : Word) : BitVec.ofNat 32 x &&& m <<< k = 0 := by
  refine BitVec.eq_of_getLsbD_eq fun j _ => ?_
  rcases Nat.lt_or_ge j k with hj | hj
  · simp [hj]
  · have : x.testBit j = false := Nat.testBit_lt_two_pow (lt_of_lt_of_le h (Nat.pow_le_pow_right (by omega) hj))
    simp only [BitVec.getLsbD_and, BitVec.getLsbD_ofNat, this, Bool.and_false, Bool.false_and]
    simp

/-- A format R word is the union of its fields (30_encoding.md R71). -/
theorem packR_or (op rd ra rb rc im : Nat) (h1 : rd < 16) (h2 : ra < 16) (h3 : rb < 16) (h4 : rc < 16) (h5 : im < 256) :
    packR op rd ra rb rc im = BitVec.ofNat 32 (2 ^ 24 * op) ||| (BitVec.ofNat 32 (2 ^ 20 * rd) ||| (BitVec.ofNat 32 (2 ^ 16 * ra)
      ||| (BitVec.ofNat 32 (2 ^ 12 * rb) ||| (BitVec.ofNat 32 (2 ^ 8 * rc) ||| BitVec.ofNat 32 im)))) := by
  unfold packR
  rw [← BitVec.ofNat_or, ← Nat.two_pow_add_eq_or_of_lt (by omega), ← BitVec.ofNat_or, ← Nat.two_pow_add_eq_or_of_lt (by omega),
    ← BitVec.ofNat_or, ← Nat.two_pow_add_eq_or_of_lt (by omega), ← BitVec.ofNat_or, ← Nat.two_pow_add_eq_or_of_lt (by omega),
    ← BitVec.ofNat_or, ← Nat.two_pow_add_eq_or_of_lt (by omega)]
  congr 1
  omega

/-- A format M word is its top byte, its register and a number below `2^20` (30_encoding.md R72). -/
theorem packM_or (op r off len : Nat) (h1 : r < 16) (h2 : off < 1024) (h3 : len < 1024) :
    packM op r off len
      = BitVec.ofNat 32 (2 ^ 24 * op) ||| (BitVec.ofNat 32 (2 ^ 20 * r) ||| BitVec.ofNat 32 (2 ^ 10 * len + off)) := by
  unfold packM
  rw [← BitVec.ofNat_or, ← Nat.two_pow_add_eq_or_of_lt (by omega), ← BitVec.ofNat_or, ← Nat.two_pow_add_eq_or_of_lt (by omega)]
  congr 1
  omega

/-- The fixed bits of a format R word, field by field. -/
theorem packR_row (m r : Word) (op rd ra rb rc im : Nat) (h1 : rd < 16) (h2 : ra < 16) (h3 : rb < 16) (h4 : rc < 16) (h5 : im < 256)
    (e0 : BitVec.ofNat 32 (2 ^ 24 * op) &&& m = r) (e1 : BitVec.ofNat 32 (2 ^ 20 * rd) &&& m = 0)
    (e2 : BitVec.ofNat 32 (2 ^ 16 * ra) &&& m = 0) (e3 : BitVec.ofNat 32 (2 ^ 12 * rb) &&& m = 0)
    (e4 : BitVec.ofNat 32 (2 ^ 8 * rc) &&& m = 0) (e5 : BitVec.ofNat 32 im &&& m = 0) : packR op rd ra rb rc im &&& m = r := by
  rw [packR_or op rd ra rb rc im h1 h2 h3 h4 h5]
  simp only [BitVec.and_or_distrib_right, e0, e1, e2, e3, e4, e5]
  exact BitVec.or_zero

/-- The fixed bits of a format M word. -/
theorem packM_row (m : BitVec 32) (r : Word) (op q off len : Nat) (h1 : q < 16) (h2 : off < 1024) (h3 : len < 1024)
    (e0 : BitVec.ofNat 32 (2 ^ 24 * op) &&& m <<< 20 = r) (e1 : BitVec.ofNat 32 (2 ^ 20 * q) &&& m <<< 20 = 0) :
    packM op q off len &&& m <<< 20 = r := by
  rw [packM_or op q off len h1 h2 h3]
  simp only [BitVec.and_or_distrib_right, e0, e1, and_shiftLeft_of_lt 20 (2 ^ 10 * len + off) (by omega) m]
  exact BitVec.or_zero

/-- An 8-bit immediate touches no bit from 8 upward. -/
theorem imm8_clear (m : Word) (d : Imm8) : BitVec.ofNat 32 d.val &&& m <<< 8 = 0 := and_shiftLeft_of_lt 8 d.val d.isLt m

/-! ## One lemma per command -/

theorem ldb (d : BSel) (off : Imm10) (len : Imm10) : Statement (.ldb d off len) :=
  packM_row 0xFF0#32 _ _ _ _ _ (by omega) off.isLt len.isLt rfl ((by decide : Clear 0xFF000000#32 20 16) d)

theorem stb (a : BSel) (off : Imm10) (len : Imm10) : Statement (.stb a off len) :=
  packM_row 0xFF0#32 _ _ _ _ _ (by omega) off.isLt len.isLt rfl ((by decide : Clear 0xFF000000#32 20 16) a)

theorem mov (d : BSel) (a : BSel) : Statement (.mov d a) :=
  packR_row 0xFF00FFFF#32 0x12000000#32 _ _ _ _ _ _ (by omega) (by omega) (by decide) (by decide) (by decide) (by decide)
    ((by decide : Clear 0xFF00FFFF#32 20 16) d) ((by decide : Clear 0xFF00FFFF#32 16 16) a) (by decide) (by decide) (by decide)

theorem clr (d : BSel) : Statement (.clr d) :=
  packR_row 0xFF0FFFFF#32 0x13000000#32 _ _ _ _ _ _ (by omega) (by decide) (by decide) (by decide) (by decide) (by decide)
    ((by decide : Clear 0xFF0FFFFF#32 20 16) d) (by decide) (by decide) (by decide) (by decide)

theorem norm (d : BSel) (a : BSel) : Statement (.norm d a) :=
  packR_row 0xFF00FFFF#32 0x14000000#32 _ _ _ _ _ _ (by omega) (by omega) (by decide) (by decide) (by decide) (by decide)
    ((by decide : Clear 0xFF00FFFF#32 20 16) d) ((by decide : Clear 0xFF00FFFF#32 16 16) a) (by decide) (by decide) (by decide)

theorem cmp (a : BSel) (b : BSel) : Statement (.cmp a b) :=
  packR_row 0xFFF00FFF#32 0x15000000#32 _ _ _ _ _ _ (by decide) (by omega) (by omega) (by decide) (by decide) (by decide)
    (by decide) ((by decide : Clear 0xFFF00FFF#32 16 16) a) ((by decide : Clear 0xFFF00FFF#32 12 16) b) (by decide) (by decide)

theorem add (d : BSel) (a : BSel) (b : BSel) : Statement (.add d a b) :=
  packR_row 0xFF000FFF#32 0x16000000#32 _ _ _ _ _ _ (by omega) (by omega) (by omega) (by decide) (by decide) (by decide)
    ((by decide : Clear 0xFF000FFF#32 20 16) d) ((by decide : Clear 0xFF000FFF#32 16 16) a) ((by decide : Clear 0xFF000FFF#32 12 16) b)
    (by decide) (by decide)

theorem sub (d : BSel) (a : BSel) (b : BSel) : Statement (.sub d a b) :=
  packR_row 0xFF000FFF#32 0x17000000#32 _ _ _ _ _ _ (by omega) (by omega) (by omega) (by decide) (by decide) (by decide)
    ((by decide : Clear 0xFF000FFF#32 20 16) d) ((by decide : Clear 0xFF000FFF#32 16 16) a) ((by decide : Clear 0xFF000FFF#32 12 16) b)
    (by decide) (by decide)

theorem mul (d : BSel) (a : BSel) (b : BSel) : Statement (.mul d a b) :=
  packR_row 0xFF000FFF#32 0x18000000#32 _ _ _ _ _ _ (by omega) (by omega) (by omega) (by decide) (by decide) (by decide)
    ((by decide : Clear 0xFF000FFF#32 20 16) d) ((by decide : Clear 0xFF000FFF#32 16 16) a) ((by decide : Clear 0xFF000FFF#32 12 16) b)
    (by decide) (by decide)

theorem divrem (q : BSel) (r : BSel) (a : BSel) (b : BSel) : Statement (.divrem q r a b) :=
  packR_row 0xFF0000FF#32 0x19000000#32 _ _ _ _ _ _ (by omega) (by omega) (by omega) (by omega) (by decide) (by decide)
    ((by decide : Clear 0xFF0000FF#32 20 16) q) ((by decide : Clear 0xFF0000FF#32 16 16) a) ((by decide : Clear 0xFF0000FF#32 12 16) b)
    ((by decide : Clear 0xFF0000FF#32 8 16) r) (by decide)

theorem ctxnew (c : CSel) (a : BSel) : Statement (.ctxnew c a) :=
  packR_row 0xFFF0FCFF#32 0x20000000#32 _ _ _ _ _ _ (by decide) (by omega) (by decide) (by omega) (by decide) (by decide)
    (by decide) ((by decide : Clear 0xFFF0FCFF#32 16 16) a) (by decide) ((by decide : Clear 0xFFF0FCFF#32 8 4) c) (by decide)

theorem montmul (d : BSel) (a : BSel) (b : BSel) (c : CSel) : Statement (.montmul d a b c) :=
  packR_row 0xFF000CFF#32 0x21000000#32 _ _ _ _ _ _ (by omega) (by omega) (by omega) (by omega) (by decide) (by decide)
    ((by decide : Clear 0xFF000CFF#32 20 16) d) ((by decide : Clear 0xFF000CFF#32 16 16) a) ((by decide : Clear 0xFF000CFF#32 12 16) b)
    ((by decide : Clear 0xFF000CFF#32 8 4) c) (by decide)

theorem tomont (d : BSel) (a : BSel) (c : CSel) : Statement (.tomont d a c) :=
  packR_row 0xFF00FCFF#32 0x22000000#32 _ _ _ _ _ _ (by omega) (by omega) (by decide) (by omega) (by decide) (by decide)
    ((by decide : Clear 0xFF00FCFF#32 20 16) d) ((by decide : Clear 0xFF00FCFF#32 16 16) a) (by decide)
    ((by decide : Clear 0xFF00FCFF#32 8 4) c) (by decide)

theorem frommont (d : BSel) (a : BSel) (c : CSel) : Statement (.frommont d a c) :=
  packR_row 0xFF00FCFF#32 0x23000000#32 _ _ _ _ _ _ (by omega) (by omega) (by decide) (by omega) (by decide) (by decide)
    ((by decide : Clear 0xFF00FCFF#32 20 16) d) ((by decide : Clear 0xFF00FCFF#32 16 16) a) (by decide)
    ((by decide : Clear 0xFF00FCFF#32 8 4) c) (by decide)

theorem modexp (d : BSel) (a : BSel) (b : BSel) (c : CSel) : Statement (.modexp d a b c) :=
  packR_row 0xFF000CFF#32 0x24000000#32 _ _ _ _ _ _ (by omega) (by omega) (by omega) (by omega) (by decide) (by decide)
    ((by decide : Clear 0xFF000CFF#32 20 16) d) ((by decide : Clear 0xFF000CFF#32 16 16) a) ((by decide : Clear 0xFF000CFF#32 12 16) b)
    ((by decide : Clear 0xFF000CFF#32 8 4) c) (by decide)

theorem bred (d : BSel) (a : BSel) (c : CSel) : Statement (.bred d a c) :=
  packR_row 0xFF00FCFF#32 0x25000000#32 _ _ _ _ _ _ (by omega) (by omega) (by decide) (by omega) (by decide) (by decide)
    ((by decide : Clear 0xFF00FCFF#32 20 16) d) ((by decide : Clear 0xFF00FCFF#32 16 16) a) (by decide)
    ((by decide : Clear 0xFF00FCFF#32 8 4) c) (by decide)

theorem ctxget (d : BSel) (c : CSel) (sel : CtxField) : Statement (.ctxget d c sel) :=
  packR_row 0xFF0FFCF8#32 0x26000000#32 _ _ _ _ _ _ (by omega) (by decide) (by decide) (by omega) (by cases sel <;> decide) (by decide)
    ((by decide : Clear 0xFF0FFCF8#32 20 16) d) (by decide) (by decide) ((by decide : Clear 0xFF0FFCF8#32 8 4) c)
    (by cases sel <;> decide)

theorem modinv (d : BSel) (a : BSel) (b : BSel) : Statement (.modinv d a b) :=
  packR_row 0xFF000FFF#32 0x30000000#32 _ _ _ _ _ _ (by omega) (by omega) (by omega) (by decide) (by decide) (by decide)
    ((by decide : Clear 0xFF000FFF#32 20 16) d) ((by decide : Clear 0xFF000FFF#32 16 16) a) ((by decide : Clear 0xFF000FFF#32 12 16) b)
    (by decide) (by decide)

theorem modinvct (d : BSel) (a : BSel) (c : CSel) : Statement (.modinvct d a c) :=
  packR_row 0xFF00FCFF#32 0x31000000#32 _ _ _ _ _ _ (by omega) (by omega) (by decide) (by omega) (by decide) (by decide)
    ((by decide : Clear 0xFF00FCFF#32 20 16) d) ((by decide : Clear 0xFF00FCFF#32 16 16) a) (by decide)
    ((by decide : Clear 0xFF00FCFF#32 8 4) c) (by decide)

theorem gcd (d : BSel) (a : BSel) (b : BSel) : Statement (.gcd d a b) :=
  packR_row 0xFF000FFF#32 0x32000000#32 _ _ _ _ _ _ (by omega) (by omega) (by omega) (by decide) (by decide) (by decide)
    ((by decide : Clear 0xFF000FFF#32 20 16) d) ((by decide : Clear 0xFF000FFF#32 16 16) a) ((by decide : Clear 0xFF000FFF#32 12 16) b)
    (by decide) (by decide)

theorem modadd (d : BSel) (a : BSel) (b : BSel) (c : CSel) : Statement (.modadd d a b c) :=
  packR_row 0xFF000CFF#32 0x33000000#32 _ _ _ _ _ _ (by omega) (by omega) (by omega) (by omega) (by decide) (by decide)
    ((by decide : Clear 0xFF000CFF#32 20 16) d) ((by decide : Clear 0xFF000CFF#32 16 16) a) ((by decide : Clear 0xFF000CFF#32 12 16) b)
    ((by decide : Clear 0xFF000CFF#32 8 4) c) (by decide)

theorem modsub (d : BSel) (a : BSel) (b : BSel) (c : CSel) : Statement (.modsub d a b c) :=
  packR_row 0xFF000CFF#32 0x34000000#32 _ _ _ _ _ _ (by omega) (by omega) (by omega) (by omega) (by decide) (by decide)
    ((by decide : Clear 0xFF000CFF#32 20 16) d) ((by decide : Clear 0xFF000CFF#32 16 16) a) ((by decide : Clear 0xFF000CFF#32 12 16) b)
    ((by decide : Clear 0xFF000CFF#32 8 4) c) (by decide)

theorem modmul (d : BSel) (a : BSel) (b : BSel) (c : CSel) : Statement (.modmul d a b c) :=
  packR_row 0xFF000CFF#32 0x35000000#32 _ _ _ _ _ _ (by omega) (by omega) (by omega) (by omega) (by decide) (by decide)
    ((by decide : Clear 0xFF000CFF#32 20 16) d) ((by decide : Clear 0xFF000CFF#32 16 16) a) ((by decide : Clear 0xFF000CFF#32 12 16) b)
    ((by decide : Clear 0xFF000CFF#32 8 4) c) (by decide)

theorem crvnew (a : BSel) (type : Imm8) : Statement (.crvnew a type) :=
  packR_row 0xFFF0FF00#32 0x40000000#32 _ _ _ _ _ _ (by decide) (by omega) (by decide) (by decide) type.isLt (by decide)
    (by decide) ((by decide : Clear 0xFFF0FF00#32 16 16) a) (by decide) (by decide) (imm8_clear 0xFFF0FF#32 type)

theorem crvld (id : Imm8) : Statement (.crvld id) :=
  packR_row 0xFFFFFF00#32 0x41000000#32 _ _ _ _ _ _ (by decide) (by decide) (by decide) (by decide) id.isLt (by decide)
    (by decide) (by decide) (by decide) (by decide) (imm8_clear 0xFFFFFF#32 id)

theorem pset (d : PSel) (a : BSel) (b : BSel) : Statement (.pset d a b) :=
  packR_row 0xFF800FFF#32 0x42000000#32 _ _ _ _ _ _ (by omega) (by omega) (by omega) (by decide) (by decide) (by decide)
    ((by decide : Clear 0xFF800FFF#32 20 8) d) ((by decide : Clear 0xFF800FFF#32 16 16) a) ((by decide : Clear 0xFF800FFF#32 12 16) b)
    (by decide) (by decide)

theorem pget (d : BSel) (a : PSel) (sel : PtField) : Statement (.pget d a sel) :=
  packR_row 0xFF08FFF8#32 0x43000000#32 _ _ _ _ _ _ (by omega) (by omega) (by decide) (by decide) (by cases sel <;> decide) (by decide)
    ((by decide : Clear 0xFF08FFF8#32 20 16) d) ((by decide : Clear 0xFF08FFF8#32 16 8) a) (by decide) (by decide)
    (by cases sel <;> decide)

theorem pgen (d : PSel) : Statement (.pgen d) :=
  packR_row 0xFF8FFFFF#32 0x44000000#32 _ _ _ _ _ _ (by omega) (by decide) (by decide) (by decide) (by decide) (by decide)
    ((by decide : Clear 0xFF8FFFFF#32 20 8) d) (by decide) (by decide) (by decide) (by decide)

theorem pinf (d : PSel) : Statement (.pinf d) :=
  packR_row 0xFF8FFFFF#32 0x45000000#32 _ _ _ _ _ _ (by omega) (by decide) (by decide) (by decide) (by decide) (by decide)
    ((by decide : Clear 0xFF8FFFFF#32 20 8) d) (by decide) (by decide) (by decide) (by decide)

theorem pmov (d : PSel) (a : PSel) : Statement (.pmov d a) :=
  packR_row 0xFF88FFFF#32 0x46000000#32 _ _ _ _ _ _ (by omega) (by omega) (by decide) (by decide) (by decide) (by decide)
    ((by decide : Clear 0xFF88FFFF#32 20 8) d) ((by decide : Clear 0xFF88FFFF#32 16 8) a) (by decide) (by decide) (by decide)

theorem pclr (d : PSel) : Statement (.pclr d) :=
  packR_row 0xFF8FFFFF#32 0x47000000#32 _ _ _ _ _ _ (by omega) (by decide) (by decide) (by decide) (by decide) (by decide)
    ((by decide : Clear 0xFF8FFFFF#32 20 8) d) (by decide) (by decide) (by decide) (by decide)

theorem ptomont (d : PSel) (a : PSel) : Statement (.ptomont d a) :=
  packR_row 0xFF88FFFF#32 0x48000000#32 _ _ _ _ _ _ (by omega) (by omega) (by decide) (by decide) (by decide) (by decide)
    ((by decide : Clear 0xFF88FFFF#32 20 8) d) ((by decide : Clear 0xFF88FFFF#32 16 8) a) (by decide) (by decide) (by decide)

theorem pfrommont (d : PSel) (a : PSel) : Statement (.pfrommont d a) :=
  packR_row 0xFF88FFFF#32 0x49000000#32 _ _ _ _ _ _ (by omega) (by omega) (by decide) (by decide) (by decide) (by decide)
    ((by decide : Clear 0xFF88FFFF#32 20 8) d) ((by decide : Clear 0xFF88FFFF#32 16 8) a) (by decide) (by decide) (by decide)

theorem ptoproj (d : PSel) (a : PSel) : Statement (.ptoproj d a) :=
  packR_row 0xFF88FFFF#32 0x4A000000#32 _ _ _ _ _ _ (by omega) (by omega) (by decide) (by decide) (by decide) (by decide)
    ((by decide : Clear 0xFF88FFFF#32 20 8) d) ((by decide : Clear 0xFF88FFFF#32 16 8) a) (by decide) (by decide) (by decide)

theorem ptoaff (d : PSel) (a : PSel) : Statement (.ptoaff d a) :=
  packR_row 0xFF88FFFF#32 0x4B000000#32 _ _ _ _ _ _ (by omega) (by omega) (by decide) (by decide) (by decide) (by decide)
    ((by decide : Clear 0xFF88FFFF#32 20 8) d) ((by decide : Clear 0xFF88FFFF#32 16 8) a) (by decide) (by decide) (by decide)

theorem pval (a : PSel) : Statement (.pval a) :=
  packR_row 0xFFF8FFFF#32 0x4C000000#32 _ _ _ _ _ _ (by decide) (by omega) (by decide) (by decide) (by decide) (by decide)
    (by decide) ((by decide : Clear 0xFFF8FFFF#32 16 8) a) (by decide) (by decide) (by decide)

theorem penc (a : PSel) (off : Imm10) (len : Imm10) : Statement (.penc a off len) :=
  packM_row 0xFF8#32 _ _ _ _ _ (by omega) off.isLt len.isLt rfl ((by decide : Clear 0xFF800000#32 20 8) a)

theorem pdec (d : PSel) (off : Imm10) (len : Imm10) : Statement (.pdec d off len) :=
  packM_row 0xFF8#32 _ _ _ _ _ (by omega) off.isLt len.isLt rfl ((by decide : Clear 0xFF800000#32 20 8) d)

theorem crvget (d : BSel) (sel : CrvField) : Statement (.crvget d sel) :=
  packR_row 0xFF0FFFF8#32 0x4F000000#32 _ _ _ _ _ _ (by omega) (by decide) (by decide) (by decide) (by cases sel <;> decide) (by decide)
    ((by decide : Clear 0xFF0FFFF8#32 20 16) d) (by decide) (by decide) (by decide) (by cases sel <;> decide)

theorem pdbl (d : PSel) (a : PSel) : Statement (.pdbl d a) :=
  packR_row 0xFF88FFFF#32 0x50000000#32 _ _ _ _ _ _ (by omega) (by omega) (by decide) (by decide) (by decide) (by decide)
    ((by decide : Clear 0xFF88FFFF#32 20 8) d) ((by decide : Clear 0xFF88FFFF#32 16 8) a) (by decide) (by decide) (by decide)

theorem padd (d : PSel) (a : PSel) (b : PSel) : Statement (.padd d a b) :=
  packR_row 0xFF888FFF#32 0x51000000#32 _ _ _ _ _ _ (by omega) (by omega) (by omega) (by decide) (by decide) (by decide)
    ((by decide : Clear 0xFF888FFF#32 20 8) d) ((by decide : Clear 0xFF888FFF#32 16 8) a) ((by decide : Clear 0xFF888FFF#32 12 8) b)
    (by decide) (by decide)

theorem pneg (d : PSel) (a : PSel) : Statement (.pneg d a) :=
  packR_row 0xFF88FFFF#32 0x52000000#32 _ _ _ _ _ _ (by omega) (by omega) (by decide) (by decide) (by decide) (by decide)
    ((by decide : Clear 0xFF88FFFF#32 20 8) d) ((by decide : Clear 0xFF88FFFF#32 16 8) a) (by decide) (by decide) (by decide)

theorem smul (d : PSel) (a : PSel) (b : BSel) : Statement (.smul d a b) :=
  packR_row 0xFF880FFF#32 0x58000000#32 _ _ _ _ _ _ (by omega) (by omega) (by omega) (by decide) (by decide) (by decide)
    ((by decide : Clear 0xFF880FFF#32 20 8) d) ((by decide : Clear 0xFF880FFF#32 16 8) a) ((by decide : Clear 0xFF880FFF#32 12 16) b)
    (by decide) (by decide)

end Sys2Proof.Laws.Encoding
end

