-- ==== Sys2Proof/Tests/Slice0.lean ====
section
/-! SUPPORT. The model's own tests. Expected words and values are those printed in 30_encoding.md, 95_test_vectors.md and
96_test_vectors_curves.md; the theorems named `test_witness_…` show a concrete state and operands that meet all the hypotheses of the
obligation they name, clause by clause, boundary values among them. -/

namespace Sys2Proof.Tests
open Sys2Proof.Machine

/-! ## Well-formedness (30_encoding.md R76 d, f) -/

theorem test_wf_divrem_same : (Instr.divrem 3 3 1 2).wf = false := by decide
theorem test_wf_crvnew_run : (Instr.crvnew 11 0).wf = false ∧ (Instr.crvnew 10 1).wf = false := by decide
theorem test_wf_crvnew_edge : (Instr.crvnew 10 0).WellFormed ∧ (Instr.crvnew 9 1).WellFormed ∧ (Instr.crvnew 15 2).WellFormed := by
  decide

/-! ## Decoding, one word of the spec for every command -/

theorem test_decode_digit :
    decode 0x105FFC00 = .ok (.ldb 5 0 1023) ∧ decode 0x11301C40 = .ok (.stb 3 0x40 7) ∧ decode 0x12210000 = .ok (.mov 2 1)
    ∧ decode 0x13100000 = .ok (.clr 1) ∧ decode 0x14310000 = .ok (.norm 3 1) ∧ decode 0x15012000 = .ok (.cmp 1 2)
    ∧ decode 0x16712000 = .ok (.add 7 1 2) ∧ decode 0x17721000 = .ok (.sub 7 2 1) ∧ decode 0x187A1000 = .ok (.mul 7 10 1)
    ∧ decode 0x19B71C00 = .ok (.divrem 11 12 7 1) := ⟨rfl, rfl, rfl, rfl, rfl, rfl, rfl, rfl, rfl, rfl⟩

theorem test_decode_montgomery :
    decode 0x20000000 = .ok (.ctxnew 0 0) ∧ decode 0x21534000 = .ok (.montmul 5 3 4 0) ∧ decode 0x22310000 = .ok (.tomont 3 1 0)
    ∧ decode 0x23650000 = .ok (.frommont 6 5 0) ∧ decode 0x24412000 = .ok (.modexp 4 1 2 0) ∧ decode 0x25BD0000 = .ok (.bred 11 13 0)
    ∧ decode 0x26E00001 = .ok (.ctxget 14 0 .rmod) := ⟨rfl, rfl, rfl, rfl, rfl, rfl, rfl⟩

theorem test_decode_group :
    decode 0x30650000 = .ok (.modinv 6 5 0) ∧ decode 0x31540100 = .ok (.modinvct 5 4 1) ∧ decode 0x32978000 = .ok (.gcd 9 7 8)
    ∧ decode 0x33312000 = .ok (.modadd 3 1 2 0) ∧ decode 0x34321000 = .ok (.modsub 3 2 1 0)
    ∧ decode 0x35412100 = .ok (.modmul 4 1 2 1) := ⟨rfl, rfl, rfl, rfl, rfl, rfl⟩

theorem test_decode_curves :
    decode 0x40000001 = .ok (.crvnew 0 1) ∧ decode 0x41000001 = .ok (.crvld 1) ∧ decode 0x42589000 = .ok (.pset 5 8 9)
    ∧ decode 0x43A30005 = .ok (.pget 10 3 .flags) ∧ decode 0x44000000 = .ok (.pgen 0) ∧ decode 0x45600000 = .ok (.pinf 6)
    ∧ decode 0x46530000 = .ok (.pmov 5 3) ∧ decode 0x47500000 = .ok (.pclr 5) ∧ decode 0x48100000 = .ok (.ptomont 1 0)
    ∧ decode 0x49320000 = .ok (.pfrommont 3 2) := ⟨rfl, rfl, rfl, rfl, rfl, rfl, rfl, rfl, rfl, rfl⟩

theorem test_decode_points :
    decode 0x4A210000 = .ok (.ptoproj 2 1) ∧ decode 0x4B430000 = .ok (.ptoaff 4 3) ∧ decode 0x4C030000 = .ok (.pval 3)
    ∧ decode 0x4D600080 = .ok (.penc 6 0x80 0) ∧ decode 0x4E500810 = .ok (.pdec 5 16 2) ∧ decode 0x4F800007 = .ok (.crvget 8 .info)
    ∧ decode 0x50320000 = .ok (.pdbl 3 2) ∧ decode 0x51531000 = .ok (.padd 5 3 1) ∧ decode 0x52710000 = .ok (.pneg 7 1)
    ∧ decode 0x58108000 = .ok (.smul 1 0 8) := ⟨rfl, rfl, rfl, rfl, rfl, rfl, rfl, rfl, rfl, rfl⟩

/-- Illegal words of 96_test_vectors_curves.md section 8 and their reasons (30_encoding.md R76). -/
theorem test_decode_illegal :
    decode 0x1A000000 = .error .unknownOpcode ∧ decode 0x13210000 = .error .nonZeroField ∧ decode 0x44800000 = .error .pointSelector
    ∧ decode 0x20000400 = .error .contextSelector ∧ decode 0x19311300 = .error .sameDestination
    ∧ decode 0x26100008 = .error .fieldSelector ∧ decode 0x43100006 = .error .fieldSelector
    ∧ decode 0x400B0000 = .error .registerRun := ⟨rfl, rfl, rfl, rfl, rfl, rfl, rfl, rfl⟩

/-! ## Small states -/

/-- Write some big-number registers. -/
def withB (s : State) (l : List (BSel × Nat × Nat)) : State := l.foldl (fun s r => s.writeB r.1 r.2.1 r.2.2) s

/-- Write some point registers. -/
def withP (s : State) (l : List (PSel × PReg)) : State := l.foldl (fun s r => s.writeP r.1 r.2) s

/-- The state a command leaves. -/
def after (i : Instr) (s : State) : State :=
  match exec i s with
  | .next t => t
  | .fault _ => s
  | .refused _ => s

/-- Registers at boundary lengths and values. -/
def sNum : State :=
  withB State.reset [(1, 2, 0x1FFFFFFFF), (2, 1, 1), (3, 1, 0), (4, 128, 5), (5, 129, 7), (6, 1, 0xFFFFFFFF), (7, 1, 7), (8, 1, 14)]

/-- The context of 95_test_vectors.md for the modulus 3233. -/
def ctx3233 : Ctx := ⟨true, 1, 3233, 3233, 0x669F289F, 1155, 2029, 2803, 0x14455D5B74F433⟩

/-- The context of the prime modulus 97 (96_test_vectors_curves.md section 5.1). -/
def ctx97 : Ctx := ⟨true, 1, 97, 97, 0xA0FD5C5F, 0x23, 0x3D, 1, 0x2A3A0FD5C5F02A3⟩

/-- The context of the prime modulus 1009 (96_test_vectors_curves.md section 6.3). -/
def ctx1009 : Ctx := ⟨true, 1, 1009, 1009, 0x60EB72EF, 0x17F, 0x180, 0x2FF, 0x40F391612C6680⟩

/-- Two contexts, and operands at the ends of their ranges. -/
def sCtx : State :=
  withB ((State.reset.writeC 0 ctx3233).writeC 1 ctx97)
    [(1, 1, 65), (2, 1, 17), (3, 1, 3232), (4, 1, 3233), (5, 2, 2 ^ 64 - 1), (6, 3, 2 ^ 64), (7, 1, 0), (8, 1, 2753), (9, 1, 96), (10, 1, 97)]

/-- The toy W-curve of 96_test_vectors_curves.md section 5.1. -/
def toyW : Curve := ⟨true, .weierstrass, 97, 94, 6, 107, 1, 2, 7, ctx97, .aMinus3, 5, 0x23, 0x59, 0x10⟩

/-- The toy W-curve with `a = 0` of 96_test_vectors_curves.md section 6.2. -/
def toyZ : Curve := ⟨true, .weierstrass, 97, 0, 5, 79, 1, 43, 7, ctx97, .aZero, 5, 0x23, 0, 0x4E⟩

/-- The toy TED-curve of 96_test_vectors_curves.md section 6.3. -/
def toyT : Curve := ⟨true, .twistedEdwards, 1009, 1008, 26, 127, 519, 642, 7, ctx1009, .twisted, 5, 0x17F, 0x272, 0x36D⟩

/-- Points of the toy W-curve: the generator in its forms, the identities, the generator's negative, and a Jacobian point with `Y = 0`. -/
def sW : State :=
  withP { withB State.reset [(8, 1, 2), (9, 1, 106), (10, 1, 0), (11, 1, 107), (12, 2, 2 ^ 32), (13, 1, 1)] with crv := toyW }
    [(0, affinePoint 1 2 false false), (1, affinePoint 0x23 0x46 true true), (2, jacobianPoint 0x23 0x46 0x23 true true),
     (3, toyW.affineIdentity false true), (4, toyW.affineIdentity true true), (5, toyW.jacobianIdentity true true),
     (6, affinePoint 0x23 0x1B true true), (7, jacobianPoint 0x23 0 0x23 true false)]

/-- Points of the toy TED-curve: the generator in its forms, the identities. -/
def sT : State :=
  withP { withB State.reset [(8, 1, 2), (12, 1, 3)] with crv := toyT }
    [(0, affinePoint 519 642 false false), (1, affinePoint 4 0x2BB true true), (2, extendedPoint 4 0x2BB 0x17F 4 0x2BB true true),
     (3, toyT.affineIdentity true true), (4, extendedPoint 0 0x17F 0x17F 0 0x17F true true)]

/-- A buffer with the encoding of the toy generator at 16. -/
def sBuf : State := { sW with iob := [(16, 4), (17, 1), (18, 2)] }

theorem ctx3233_ok : ctx3233.Ok 32 :=
  ⟨rfl, by decide, by decide, by decide, by decide, by decide, by decide, by decide, by decide, by decide, by decide, by decide, by decide⟩
theorem ctx97_ok : ctx97.Ok 32 :=
  ⟨rfl, by decide, by decide, by decide, by decide, by decide, by decide, by decide, by decide, by decide, by decide, by decide, by decide⟩
theorem ctx1009_ok : ctx1009.Ok 32 :=
  ⟨rfl, by decide, by decide, by decide, by decide, by decide, by decide, by decide, by decide, by decide, by decide, by decide, by decide⟩

theorem toyW_ok : toyW.Ok 32 :=
  ⟨rfl, ctx97_ok, rfl, by decide, by decide, by decide, by decide, by decide, (by decide : (7 : Nat) = bitlen 107),
    .inr ⟨by decide, by decide, rfl⟩, by decide, by decide, by decide, by decide⟩
theorem toyZ_ok : toyZ.Ok 32 :=
  ⟨rfl, ctx97_ok, rfl, by decide, by decide, by decide, by decide, by decide, (by decide : (7 : Nat) = bitlen 79),
    .inl ⟨rfl, rfl⟩, by decide, by decide, by decide, by decide⟩
theorem toyT_ok : toyT.Ok 32 :=
  ⟨rfl, ctx1009_ok, rfl, by decide, by decide, by decide, by decide, by decide, (by decide : bitlen 127 ≤ 7 ∧ 7 ≤ 32 * Config.maxS 32),
    rfl, by decide, by decide, by decide, by decide⟩

/-- The forms of the toy W-curve's points meet the invariant of 10_state.md R29. -/
theorem pointsW_ok : ∀ i : PSel, (sW.p[i]).Ok 32 toyW := fun i =>
  have H : ∀ i : PSel, (∀ t ∈ [sW.p[i].x, sW.p[i].y, sW.p[i].z, sW.p[i].ta, sW.p[i].tb], t < 2 ^ (32 * toyW.fctx.s))
      ∧ (sW.p[i].hasZ = false → sW.p[i].z = 0) ∧ sW.p[i].hasT = false ∧ (sW.p[i].ta = 0 ∧ sW.p[i].tb = 0)
      ∧ (∀ t ∈ sW.p[i].present, t < toyW.p)
      ∧ (sW.p[i].hasZ = true → (sW.p[i].inf = true ↔ sW.p[i].z = 0)
          ∧ (sW.p[i].inf = true → sW.p[i].x = toyW.unit sW.p[i].mont ∧ sW.p[i].y = toyW.unit sW.p[i].mont))
      ∧ (sW.p[i].hasZ = false → sW.p[i].inf = true → sW.p[i].x = 0 ∧ sW.p[i].y = 0) := by decide
  ⟨(H i).1, (H i).2.1, fun _ => (H i).2.2.2.1, fun t => absurd ((H i).2.2.1.symm.trans t) (by decide), fun _ => (H i).2.2.2.2.1,
    fun _ => (H i).2.2.2.2.2.1, fun _ => (H i).2.2.2.2.2.2, fun t => absurd t (by decide)⟩

/-! ## One step, values of the vector files -/

theorem test_ldb_big_endian : (after (.ldb 1 16 2) sBuf).b[1] = ⟨true, 1, 0x040102⟩ := by decide
theorem test_ldb_edge : (after (.ldb 1 1023 0) sBuf).b[1] = ⟨true, 1, 0⟩ ∧ (after (.ldb 1 1023 1) sBuf).faultCode = 0x0D := by decide
theorem test_stb_pads : (after (.stb 1 0x40 7) sNum).iob = [(0x43, 1), (0x44, 255), (0x45, 255), (0x46, 255), (0x47, 255)] := by decide
theorem test_stb_fit : (after (.stb 12 0x40 3) sW).faultCode = 0x0F := by decide
theorem test_mov_keeps_length : (after (.mov 2 4) sNum).b[2] = ⟨true, 128, 5⟩ := by decide
theorem test_clr : (after (.clr 1) sNum).b[1] = ⟨true, 1, 0⟩ := by decide
theorem test_norm : (after (.norm 3 4) sNum).b[3] = ⟨true, 1, 5⟩ := by decide
theorem test_cmp : (after (.cmp 1 2) sNum).status.word = 0x42 := by decide
theorem test_add_wraps : (after (.add 7 6 2) sNum).b[7] = ⟨true, 1, 0⟩ ∧ (after (.add 7 6 2) sNum).status.word = 0x12 := by decide
theorem test_sub_borrows :
    (after (.sub 7 2 1) sNum).b[7] = ⟨true, 2, 0xFFFFFFFE00000002⟩ ∧ (after (.sub 7 2 1) sNum).status.word = 0x12 := by decide
theorem test_mul_whole : (after (.mul 7 6 6) sNum).b[7] = ⟨true, 2, 0xFFFFFFFE00000001⟩ := by decide
theorem test_mul_zero_length : (after (.mul 7 3 1) sNum).b[7] = ⟨true, 3, 0⟩ := by decide
theorem test_divrem_smaller :
    (after (.divrem 11 12 2 1) sNum).b[11] = ⟨true, 1, 0⟩ ∧ (after (.divrem 11 12 2 1) sNum).b[12] = ⟨true, 1, 1⟩ := by decide
theorem test_divrem_zero : (after (.divrem 11 12 1 3) sNum).faultCode = 0x06 := by decide

theorem test_ctxnew : (after (.ctxnew 2 4) sCtx).c[2] = ctx3233 := by decide
theorem test_tomont : (after (.tomont 3 1 0) sCtx).b[3] = ⟨true, 1, 716⟩ := by decide
theorem test_montmul : (after (.montmul 5 3 4 0) (withB sCtx [(3, 1, 716), (4, 1, 237)])).b[5] = ⟨true, 1, 2473⟩ := by decide
theorem test_frommont : (after (.frommont 6 5 0) (withB sCtx [(5, 1, 2473)])).b[6] = ⟨true, 1, 1105⟩ := by decide
theorem test_modexp : (after (.modexp 7 1 2 0) sCtx).b[7] = ⟨true, 1, 2790⟩ := by decide
theorem test_modexp_zero : (after (.modexp 9 7 7 0) sCtx).b[9] = ⟨true, 1, 1⟩ := by decide
theorem test_bred : (after (.bred 11 5 0) sCtx).b[11] = ⟨true, 1, 2028⟩ ∧ (after (.bred 11 6 0) sCtx).faultCode = 0x04 := by decide
theorem test_ctxget_mu : (after (.ctxget 14 0 .mu) sCtx).b[14] = ⟨true, 2, 0x14455D5B74F433⟩ := by decide
theorem test_modinv : (after (.modinv 3 2 1) (withB sCtx [(1, 1, 3120)])).b[3] = ⟨true, 1, 2753⟩ := by decide
theorem test_modinv_none : (after (.modinv 3 8 7) sNum).faultCode = 0x07 := by decide
theorem test_modinvct : (after (.modinvct 5 2 0) sCtx).b[5] = ⟨true, 1, 0x77A⟩ := by decide
theorem test_gcd : (after (.gcd 9 7 8) (withB sNum [(7, 1, 48), (8, 1, 180)])).b[9] = ⟨true, 1, 12⟩ := by decide
theorem test_modadd : (after (.modadd 3 1 2 0) (withB sCtx [(1, 1, 3000), (2, 1, 500)])).b[3] = ⟨true, 1, 267⟩ := by decide
theorem test_modsub : (after (.modsub 3 2 1 0) (withB sCtx [(1, 1, 3000), (2, 1, 500)])).b[3] = ⟨true, 1, 733⟩ := by decide
theorem test_modmul : (after (.modmul 3 1 2 0) (withB sCtx [(1, 1, 3000), (2, 1, 500)])).b[3] = ⟨true, 1, 3121⟩ := by decide

theorem test_crvnew :
    (after (.crvnew 10 0) (withB State.reset [(10, 1, 97), (11, 1, 94), (12, 1, 6), (13, 1, 107), (14, 1, 1), (15, 1, 2)])).crv
      = toyW := by decide
theorem test_crvnew_twisted :
    (after (.crvnew 9 1)
      (withB State.reset [(9, 1, 1009), (10, 1, 1008), (11, 1, 26), (12, 1, 127), (13, 1, 519), (14, 1, 642), (15, 1, 7)])).crv
      = toyT := by decide
theorem test_crvld_generator :
    (after (.pval 0) (after (.pgen 0) (after (.crvld 3) State.reset))).status.word = 0x22
      ∧ (after (.crvld 3) State.reset).crv.fctx.s = 17 := by decide +kernel
theorem test_crvld_unknown : (after (.crvld 4) State.reset).faultCode = 0x0C := by decide
theorem test_crvget_info : (after (.crvget 8 .info) sW).b[8] = ⟨true, 1, 0x52⟩ := by decide
theorem test_pset : (after (.pset 5 13 8) sW).p[5] = affinePoint 1 2 false false := by decide
theorem test_pget_flags : (after (.pget 10 2 .flags) sW).b[10] = ⟨true, 1, 0x19⟩ := by decide
theorem test_pgen : (after (.pgen 5) sW).p[5] = affinePoint 1 2 false false := by decide
theorem test_pinf : (after (.pinf 6) sT).p[6] = ⟨true, 0, 1, 0, 0, 0, false, false, true, false, true⟩ := by decide
theorem test_pmov_pclr : (after (.pmov 5 2) sW).p[5] = sW.p[2] ∧ (after (.pclr 5) sW).p[5] = PReg.empty := by decide
theorem test_ptomont : (after (.ptomont 5 0) sW).p[5] = affinePoint 0x23 0x46 true false := by decide
theorem test_pfrommont : (after (.pfrommont 5 1) sW).p[5] = affinePoint 1 2 false true := by decide
theorem test_ptoproj : (after (.ptoproj 5 1) sT).p[5] = sT.p[2] := by decide
theorem test_ptoaff : (after (.ptoaff 4 3) (withP sW [(3, jacobianPoint 0x2C 0x4F 0x2B true true)])).p[4] = affinePoint 0x1B 0x1B true true := by
  decide
theorem test_pval : (after (.pval 0) sW).status.word = 0x22 ∧ (after (.pval 3) sW).status.word = 0x02 := by decide
theorem test_penc : (after (.penc 0 0 2) sW).iob = [(0, 4), (1, 1), (2, 2)] ∧ (after (.penc 3 0x80 0) sW).iob = [] := by decide
theorem test_pdec : (after (.pdec 5 16 2) sBuf).p[5] = affinePoint 1 2 false false := by decide
theorem test_pdbl : (after (.pdbl 3 2) sW).p[3] = jacobianPoint 0x2C 0x4F 0x2B true true := by decide
theorem test_pdbl_twisted : (after (.pdbl 3 2) sT).p[3] = extendedPoint 0x3DD 0x1A 0xBD 0x5B 0xBD true true := by decide
theorem test_padd :
    (after (.padd 5 3 1) (withP sW [(3, jacobianPoint 0x2C 0x4F 0x2B true true)])).p[5] = jacobianPoint 0x2C 0x0D 0x1B true true := by
  decide
theorem test_padd_opposite : (after (.padd 5 2 6) sW).p[5] = toyW.jacobianIdentity true true := by decide
theorem test_pneg : (after (.pneg 7 1) sW).p[7] = affinePoint 0x23 0x1B true true := by decide
theorem test_smul : (after (.smul 2 1 8) sW).p[2] = affinePoint 0x1B 0x1B true true := by decide
theorem test_smul_range : (after (.smul 2 1 11) sW).faultCode = 0x09 := by decide

/-- The offsets of 20_memory.md R54 at the ends of the two ranges, and transfers that are no access of the core. -/
theorem test_bus_offsets :
    decodeBus 0x3FC .readWord = some (.readReg 255) ∧ decodeBus 0x400 .readByte = some (.readIob 0)
    ∧ decodeBus 0x7FF (.writeByte 9) = some (.writeIob 1023 9) ∧ decodeBus 0x400 .readWord = none ∧ decodeBus 2 .readWord = none
    ∧ decodeBus 4 .readByte = none ∧ decodeBus 0x800 .readByte = none := by decide

/-! ## Leak traces (10_state.md R38, 70_reset_and_hazards.md R292 to R294) -/

theorem test_trace_mov : leakTrace (.mov 2 1) sNum = [.regRead (.b 1), .iter, .iter, .regWrite (.b 2)] := by decide
/-- A fault stops the trace: the first source is not valid. -/
theorem test_trace_fault : leakTrace (.add 3 1 2) State.reset = [.regRead (.b 1)] := by decide
/-- `NORM` stops its scan at the first digit that is not zero, so its trace depends on the value; `CMP`'s does not. -/
theorem test_trace_values :
    leakTrace (.norm 3 1) sNum ≠ leakTrace (.norm 3 1) (withB sNum [(1, 2, 1)])
    ∧ leakTrace (.cmp 1 2) sNum = leakTrace (.cmp 1 2) (withB sNum [(1, 2, 1), (2, 1, 9)]) := by decide
/-- The table reads of `SMUL` on the toy W-curve: nine inversions, each building six entries and scanning eleven windows over an
eight-entry table, then seven entries built and three digits over the table of eight points (41_montgomery.md R132, R133, 43_curve_point_forms.md R194, 45_scalar_mul.md R235, R237). -/
theorem test_trace_smul :
    ((leakTrace (.smul 2 1 8) sW).filter LeakOp.isTableRead).length = 9 * (6 * 2 + 11 * 8) + 7 + 3 * 8 := by decide +kernel

/-- The command word placed by `withFetchWord` is the next step's command. -/
theorem test_step_runs : step (State.reset.withFetchWord 32 0x13100000) = exec (.clr 1) (State.reset.withFetchWord 32 0x13100000) := rfl
theorem test_id : State.reset.idWord = 0x4D4D0120 := by decide

/-! ## Witnesses: encoding, the step, the host -/

theorem test_witness_DecodeEncode :
    (Instr.divrem 0 15 15 15).WellFormed ∧ (Instr.crvnew 10 0).WellFormed ∧ (Instr.crvnew 9 1).WellFormed
    ∧ (Instr.ldb 15 1023 1023).WellFormed := by decide
theorem test_witness_EncodeDecode : decode 0x191FF000 = .ok (.divrem 1 0 15 15) := rfl

/-- An idle core whose host is about to write `CMD`, a busy core with a legal word, a busy core with an illegal word. -/
def sIdle : State := { State.reset with host := [⟨.writeReg 0 0x13100000, true⟩, ⟨.readReg 1, false⟩] }

theorem test_witness_StepRunsCommand :
    ((sW.withFetchWord 32 0x58210000).status.busy = true ∧ (sW.withFetchWord 32 0x58210000).hostFirst = false
      ∧ decode (sW.withFetchWord 32 0x58210000).cmd = .ok (.smul 2 1 0))
    ∧ ((sW.withFetchWord 32 0xFF000000).status.busy = true ∧ (sW.withFetchWord 32 0xFF000000).hostFirst = false
      ∧ decode (sW.withFetchWord 32 0xFF000000).cmd = .error .unknownOpcode)
    ∧ sIdle.status.busy = false ∧ sIdle.status.fault = false
    ∧ sIdle.host = ⟨.writeReg 0 0x13100000, true⟩ :: [⟨.readReg 1, false⟩] := by decide

theorem test_witness_FaultTable :
    (Instr.mov 2 1).WellFormed ∧ exec (.mov 2 1) State.reset = .next (State.reset.faulted ErrCode.uninit.code) := ⟨rfl, rfl⟩

theorem test_witness_RangeThenUninit :
    (Instr.ldb 1 1023 1).outOfBuffer = true ∧ (Instr.penc 0 1023 1).outOfBuffer = true ∧ (Instr.ldb 1 1023 0).outOfBuffer = false
    ∧ ((Instr.stb 0 0 1023).outOfBuffer = false ∧ ∃ r ∈ (Instr.stb 0 0 1023).sources, State.reset.sourceValid r = false)
    ∧ ((Instr.add 7 6 2).outOfBuffer = false ∧ ∀ r ∈ (Instr.add 7 6 2).sources, sNum.sourceValid r = true)
    ∧ (Instr.ldb 1 1023 1).WellFormed ∧ (Instr.stb 0 0 1023).WellFormed ∧ (Instr.add 7 6 2).WellFormed := by decide

theorem test_witness_CmdWrite :
    (State.reset.status.busy = false ∧ State.reset.status.fault = false) ∧ (State.reset.withFetchWord 32 0).status.busy = true
    ∧ (State.reset.faulted 2).status.fault = true := by decide

theorem test_witness_FaultSticky :
    ({ State.reset.faulted 2 with host := sIdle.host } : State).status.fault = true
    ∧ ({ State.reset.faulted 2 with host := sIdle.host } : State).status.busy = false
    ∧ ∀ op ∈ ({ State.reset.faulted 2 with host := sIdle.host } : State).host, op.access ≠ .reset := by decide

theorem test_witness_ResetValues :
    (sW.hostAccess .reset = sW.hostAccess .reset ∨ (sW = State.reset ∧ sW.hostAccess .reset = State.reset))
    ∧ (State.reset = sW.hostAccess .reset ∨ (State.reset = State.reset ∧ State.reset = State.reset)) :=
  ⟨.inl rfl, .inr ⟨rfl, rfl⟩⟩

theorem test_witness_HostReads :
    (sW.hostAccess (.readReg 4)).rdata = 0x4D4D0120 ∧ (sW.hostAccess (.readReg 5)).rdata = 0
    ∧ (sW.hostAccess (.readReg 255)).rdata = 0 ∧ ((State.reset.faulted 2).hostAccess (.readReg 2)).rdata = 2
    ∧ ((1 : Fin 256).val ≠ 0 ∧ (255 : Fin 256).val ≠ 0) := by decide

theorem test_witness_BufferAccess :
    sBuf.iob.wf = true ∧ sBuf.status.busy = false ∧ (sBuf.withFetchWord 32 0).iob.wf = true
    ∧ (sBuf.withFetchWord 32 0).status.busy = true := by decide

/-! ## Witnesses: digit arrays -/

theorem test_witness_LdbResult : 1024 < 1023 + (1 + 1) ∧ 1023 + (0 + 1) ≤ 1024 ∧ 0 + (1023 + 1) ≤ 1024 := by decide

theorem test_witness_StbResult :
    sW.iob.wf = true ∧ sW.holds 12 2 (2 ^ 32) ∧ 1020 + (3 + 1) ≤ 1024 ∧ 256 ^ (3 + 1) ≤ 2 ^ 32
    ∧ sNum.iob.wf = true ∧ sNum.holds 6 1 0xFFFFFFFF ∧ 0xFFFFFFFF < 256 ^ (3 + 1) := by decide

theorem test_witness_BufferRoundTrip :
    sBuf.iob.wf = true ∧ sBuf.holds 12 2 (2 ^ 32) ∧ 1019 + (4 + 1) ≤ 1024 ∧ 2 ^ 32 < 256 ^ (4 + 1) ∧ (3 : BSel) ≠ 12 := by decide

theorem test_witness_MoveResults :
    exec (.clr 1) State.reset = .next (State.reset.writeB 1 1 0).done ∧ sNum.holds 1 2 0x1FFFFFFFF ∧ sNum.holds 4 128 5 :=
  ⟨rfl, by decide⟩

theorem test_witness_AddSubResults :
    sNum.holds 6 1 0xFFFFFFFF ∧ sNum.holds 3 1 0 ∧ 0xFFFFFFFF < 2 ^ (sNum.W * 1) ∧ 0 < 2 ^ (sNum.W * 1) := by decide

theorem test_witness_MulDivResults :
    (sNum.holds 4 128 5 ∧ 128 + 128 ≤ Config.cap sNum.W) ∧ (sNum.holds 5 129 7 ∧ Config.cap sNum.W < 128 + 129)
    ∧ (sNum.holds 3 1 0 ∧ (11 : BSel) ≠ 12 ∧ (0 : Nat) = 0) ∧ (sNum.holds 2 1 1 ∧ (11 : BSel) ≠ 12 ∧ (1 : Nat) ≠ 0) := by decide

/-! ## Witnesses: Montgomery engine, inversion, group -/

/-- Moduli at the ends of the ranges of 41_montgomery.md R121. -/
def sMod : State := withB State.reset
  [(0, 128, 2 ^ 4096 - 1), (1, 129, 2 ^ 4127 + 1), (2, 2, 3233), (3, 1, 1), (4, 1, 3232), (5, 1, 0)]

theorem test_witness_CtxnewResult :
    (sMod.holds 0 128 (2 ^ 4096 - 1) ∧ 2 ^ 4096 - 1 < 2 ^ (sMod.W * 128) ∧ 128 ≤ Config.maxS sMod.W
      ∧ 2 ^ (sMod.W * (128 - 1)) ≤ 2 ^ 4096 - 1 ∧ 2 ^ 4096 - 1 ≠ 1 ∧ (2 ^ 4096 - 1) % 2 = 1)
    ∧ (sMod.holds 1 129 (2 ^ 4127 + 1) ∧ 2 ^ 4127 + 1 < 2 ^ (sMod.W * 129) ∧ Config.maxS sMod.W < 129)
    ∧ (sMod.holds 2 2 3233 ∧ 3233 < 2 ^ (sMod.W * (2 - 1)))
    ∧ (sMod.holds 3 1 1 ∧ 1 < 2 ^ (sMod.W * 1)) ∧ sMod.holds 4 1 3232 ∧ 3232 % 2 = 0 := by decide +kernel

theorem test_witness_MontResults :
    sCtx.c[(0 : CSel)] = ctx3233 ∧ ctx3233.Ok sCtx.W
    ∧ (sCtx.holds 3 1 3232 ∧ 3232 < ctx3233.m) ∧ (sCtx.holds 7 1 0 ∧ 0 < ctx3233.m) ∧ (sCtx.holds 4 1 3233 ∧ ctx3233.m ≤ 3233) :=
  ⟨by decide, ctx3233_ok, by decide⟩

theorem test_witness_MontRoundTrip :
    sCtx.c[(0 : CSel)] = ctx3233 ∧ ctx3233.Ok sCtx.W ∧ sCtx.holds 3 1 3232 ∧ sCtx.holds 1 1 65 ∧ 3232 < ctx3233.m ∧ 65 < ctx3233.m
    ∧ (3 : BSel) ≠ 1 ∧ (3 : BSel) ≠ 4 := ⟨by decide, ctx3233_ok, by decide⟩

theorem test_witness_PowerResults :
    sCtx.c[(1 : CSel)] = ctx97 ∧ ctx97.Ok sCtx.W ∧ sCtx.holds 9 1 96 ∧ sCtx.holds 6 3 (2 ^ 64) ∧ 96 < ctx97.m ∧ 96 ≠ 0
    ∧ ctx97.m.Prime ∧ sCtx.holds 4 1 3233 ∧ ctx97.m ≤ 3233 :=
  ⟨by decide, ctx97_ok, by decide, by decide, by decide, by decide, by show Nat.Prime 97; norm_num, by decide, by decide⟩

theorem test_witness_BredCtxgetResults :
    sCtx.c[(0 : CSel)] = ctx3233 ∧ ctx3233.valid = true ∧ (sCtx.holds 5 2 (2 ^ 64 - 1) ∧ 2 ^ 64 - 1 < 2 ^ (2 * sCtx.W * ctx3233.s))
    ∧ (sCtx.holds 6 3 (2 ^ 64) ∧ 2 ^ (2 * sCtx.W * ctx3233.s) ≤ 2 ^ 64) ∧ ctx3233.s < 2 ^ sCtx.W := by decide

theorem test_witness_ModinvGcdResults :
    sNum.holds 8 1 14 ∧ (sNum.holds 3 1 0 ∧ (0 : Nat) = 0) ∧ (sNum.holds 2 1 1 ∧ (1 : Nat) = 1)
    ∧ (sNum.holds 7 1 7 ∧ 2 ≤ 7 ∧ Nat.gcd 14 7 ≠ 1) ∧ (sNum.holds 4 128 5 ∧ 2 ≤ 5 ∧ Nat.gcd 14 5 = 1) := by decide

theorem test_witness_GroupResults :
    sCtx.c[(0 : CSel)] = ctx3233 ∧ ctx3233.Ok sCtx.W ∧ (sCtx.holds 3 1 3232 ∧ 3232 < ctx3233.m) ∧ (sCtx.holds 7 1 0 ∧ 0 < ctx3233.m)
    ∧ (sCtx.holds 4 1 3233 ∧ ctx3233.m ≤ 3233) := ⟨by decide, ctx3233_ok, by decide⟩

theorem test_witness_GroupProperties :
    sCtx.c[(1 : CSel)] = ctx97 ∧ ctx97.Ok sCtx.W ∧ sCtx.holds 9 1 96 ∧ 96 < ctx97.m ∧ (sCtx.holds 7 1 0 ∧ 0 < ctx97.m ∧ (3 : BSel) ≠ 7)
    ∧ (sCtx.holds 10 1 ctx97.m ∧ (3 : BSel) ≠ 9 ∧ Nat.gcd 96 ctx97.m = 1 ∧ ctx97.m.Prime ∧ 96 ≠ 0) :=
  ⟨by decide, ctx97_ok, by decide, by decide, by decide, by decide, by decide, by decide, (by norm_num : Nat.Prime 97), by decide⟩

/-! ## Witnesses: curves and point forms -/

/-- The register run of `CRVNEW` at the end of the register file: a W-curve from `B10`, a TED-curve from `B9`. -/
def sRunW : State := withB State.reset [(10, 1, 97), (11, 1, 94), (12, 1, 6), (13, 1, 107), (14, 1, 1), (15, 1, 2)]
def sRunT : State :=
  withB State.reset [(9, 1, 1009), (10, 1, 1008), (11, 1, 26), (12, 1, 127), (13, 1, 519), (14, 1, 642), (15, 1, 7)]

theorem test_witness_CrvnewResult :
    2 ≤ (2 : Imm8).val
    ∧ (((0 : Imm8).val = 0 ∧ CurveType.weierstrass = .weierstrass ∧ 6 = 6) ∧ (10 : BSel).val + 6 ≤ 16
      ∧ (∀ i : Nat, i < 6 → sRunW.holds (Fin.ofNat 16 ((10 : BSel).val + i)) 1 ([97, 94, 6, 107, 1, 2].getD i 0))
      ∧ 97 < 2 ^ (sRunW.W * 1) ∧ curveFault sRunW.W .weierstrass ⟨1, 97, 94, 6, 107, 1, 2, 0⟩ = none)
    ∧ (((1 : Imm8).val = 1 ∧ CurveType.twistedEdwards = .twistedEdwards ∧ 7 = 7) ∧ (9 : BSel).val + 7 ≤ 16
      ∧ (∀ i : Nat, i < 7 → sRunT.holds (Fin.ofNat 16 ((9 : BSel).val + i)) 1 ([1009, 1008, 26, 127, 519, 642, 7].getD i 0))
      ∧ 1009 < 2 ^ (sRunT.W * 1) ∧ curveFault sRunT.W .twistedEdwards ⟨1, 1009, 1008, 26, 127, 519, 642, 7⟩ = none)
    ∧ curveFault 32 .weierstrass ⟨1, 97, 2, 6, 107, 1, 2, 0⟩ = some 0x0B := by decide

theorem test_witness_CrvldResult :
    ((0 : Imm8).val ≠ 1 ∧ (0 : Imm8).val ≠ 2 ∧ (0 : Imm8).val ≠ 3) ∧ ((4 : Imm8).val ≠ 1 ∧ (4 : Imm8).val ≠ 2 ∧ (4 : Imm8).val ≠ 3)
    ∧ ∀ id : Imm8, id.val = 1 ∨ id.val = 2 ∨ id.val = 3 → ∃ q : CurveParams, romCurve 32 id.val = .ok q
      ∧ ∃ p bd order gx gy : Nat, p = q.p ∧ bd = q.bd ∧ order = q.order ∧ gx = q.gx ∧ gy = q.gy := by
  refine ⟨by decide, by decide, fun id h => ?_⟩
  rcases h with h | h | h <;> rw [h] <;> exact ⟨_, rfl, _, _, _, _, _, rfl, rfl, rfl, rfl, rfl⟩

theorem test_witness_ReadoutResults :
    sW.crv = toyW ∧ toyW.valid = true ∧ sW.p[(2 : PSel)] = jacobianPoint 0x23 0x46 0x23 true true ∧ sW.p[(2 : PSel)].valid = true
    ∧ sT.crv = toyT ∧ sT.p[(2 : PSel)].hasT = true ∧ sT.p[(2 : PSel)].valid = true
    ∧ (after (.crvld 1) State.reset).crv.valid = true ∧ (∀ i : PSel, (after (.crvld 1) State.reset).p[i].valid = false) := by
  decide +kernel

theorem test_witness_PointMaking :
    (sW.crv = toyW ∧ toyW.valid = true ∧ sW.p[(1 : PSel)].valid = true)
    ∧ (sW.holds 8 1 2 ∧ 2 < 2 ^ (sW.W * toyW.fctx.s)) ∧ (sW.holds 12 2 (2 ^ 32) ∧ 2 ^ (sW.W * toyW.fctx.s) ≤ 2 ^ 32)
    ∧ (after (.crvld 1) State.reset).crv.valid = true ∧ State.reset.crv.valid = false := by decide +kernel

/-- A point with a coordinate equal to the modulus. -/
def sUnreduced : State := withP sW [(0, affinePoint 97 2 false false)]

theorem test_witness_ResidueForms :
    sW.crv = toyW ∧ toyW.Ok sW.W ∧ (sW.p[(1 : PSel)].valid = true ∧ sW.p[(1 : PSel)].mont = true)
    ∧ (sW.p[(0 : PSel)].valid = true ∧ sW.p[(0 : PSel)].mont = false ∧ (∀ t ∈ sW.p[(0 : PSel)].present, t < toyW.p)
      ∧ (sW.p[(0 : PSel)]).Ok sW.W toyW)
    ∧ sUnreduced.p[(0 : PSel)].valid = true ∧ sUnreduced.p[(0 : PSel)].mont = false
    ∧ ∃ t ∈ sUnreduced.p[(0 : PSel)].present, toyW.p ≤ t :=
  ⟨rfl, toyW_ok, by decide, ⟨by decide, by decide, by decide, pointsW_ok 0⟩, by decide, by decide, 97, by decide⟩

theorem repsW_one : toyW.Reps 32 0x23 1 := And.intro (by decide) (by decide)
theorem repsW_two : toyW.Reps 32 0x46 2 := And.intro (by decide) (by decide)
theorem repsW_zero : toyW.Reps 32 0 0 := And.intro (by decide) (by decide)
theorem repsW_negTwo : toyW.Reps 32 0x1B (-2) := And.intro (by decide) (by decide)
theorem repsT_gx : toyT.Reps 32 4 519 := And.intro (by decide) (by decide)
theorem repsT_gy : toyT.Reps 32 0x2BB 642 := And.intro (by decide) (by decide)
theorem repsT_one : toyT.Reps 32 0x17F 1 := And.intro (by decide) (by decide)

theorem test_witness_CoordinateForms :
    sW.crv = toyW ∧ toyW.Ok sW.W ∧ (∀ i : PSel, sW.p[i].valid = true)
    ∧ (sW.p[(0 : PSel)].hasZ = false ∧ sW.p[(0 : PSel)].mont = false)
    ∧ (sW.p[(1 : PSel)].hasZ = false ∧ sW.p[(1 : PSel)].mont = true ∧ (sW.p[(1 : PSel)]).Ok sW.W toyW)
    ∧ (sW.p[(4 : PSel)].hasZ = false ∧ sW.p[(4 : PSel)].mont = true ∧ (sW.p[(4 : PSel)]).Ok sW.W toyW)
    ∧ (sW.p[(5 : PSel)].hasZ = true ∧ sW.p[(5 : PSel)].mont = true ∧ toyW.type = .weierstrass ∧ sW.p[(5 : PSel)].inf = true)
    ∧ (sW.p[(2 : PSel)].hasZ = true ∧ sW.p[(2 : PSel)].mont = true ∧ (toyW.type = .weierstrass → sW.p[(2 : PSel)].inf = false)
      ∧ toyW.Reps sW.W sW.p[(2 : PSel)].x 1 ∧ toyW.Reps sW.W sW.p[(2 : PSel)].y 2 ∧ toyW.Reps sW.W sW.p[(2 : PSel)].z 1
      ∧ toyW.p.Prime ∧ ¬((1 : Int) ≡ 0 [ZMOD (toyW.p : Int)])) :=
  ⟨rfl, toyW_ok, by decide, by decide, ⟨by decide, by decide, pointsW_ok 1⟩, ⟨by decide, by decide, pointsW_ok 4⟩, by decide,
    by decide, by decide, by decide, repsW_one, repsW_two, repsW_one, by show Nat.Prime 97; norm_num, by decide⟩

theorem test_witness_CoordinateForms_twisted :
    sT.crv = toyT ∧ toyT.Ok sT.W ∧ sT.p[(2 : PSel)].valid = true ∧ sT.p[(2 : PSel)].hasZ = true ∧ sT.p[(2 : PSel)].mont = true
    ∧ (toyT.type = .weierstrass → sT.p[(2 : PSel)].inf = false)
    ∧ toyT.Reps sT.W sT.p[(2 : PSel)].x 519 ∧ toyT.Reps sT.W sT.p[(2 : PSel)].y 642 ∧ toyT.Reps sT.W sT.p[(2 : PSel)].z 1 :=
  ⟨rfl, toyT_ok, by decide, by decide, by decide, by decide, repsT_gx, repsT_gy, repsT_one⟩

theorem test_witness_PvalResult :
    sW.crv = toyW ∧ toyW.valid = true ∧ (sW.p[(1 : PSel)].valid = true ∧ sW.p[(1 : PSel)].mont = true)
    ∧ sW.p[(0 : PSel)].valid = true ∧ sW.p[(0 : PSel)].hasZ = false ∧ sW.p[(0 : PSel)].mont = false := by decide

/-- A point whose `x` needs more bytes than the field prime. -/
def sWide : State := withP sW [(0, affinePoint 256 2 false false)]

theorem test_witness_PencResult :
    sW.iob.wf = true ∧ sW.crv = toyW ∧ toyW.valid = true ∧ 1 = (bitlen toyW.p + 7) / 8
    ∧ (sW.p[(1 : PSel)].valid = true ∧ sW.p[(1 : PSel)].mont = true ∧ 1023 + (0 + 1) ≤ 1024)
    ∧ (sW.p[(0 : PSel)].valid = true ∧ sW.p[(0 : PSel)].hasZ = false ∧ sW.p[(0 : PSel)].mont = false ∧ 1021 + (2 + 1) ≤ 1024)
    ∧ (1 : Nat) ≠ (if sW.p[(0 : PSel)].inf then 0 else 2 * 1)
    ∧ (sW.p[(0 : PSel)].inf = false ∧ 2 = 2 * 1 ∧ sW.p[(0 : PSel)].x < 256 ^ 1 ∧ sW.p[(0 : PSel)].y < 256 ^ 1)
    ∧ (sW.p[(3 : PSel)].valid = true ∧ sW.p[(3 : PSel)].hasZ = false ∧ sW.p[(3 : PSel)].mont = false ∧ sW.p[(3 : PSel)].inf = true)
    ∧ (sWide.p[(0 : PSel)].valid = true ∧ sWide.p[(0 : PSel)].hasZ = false ∧ sWide.p[(0 : PSel)].mont = false
      ∧ sWide.p[(0 : PSel)].inf = false ∧ 256 ^ 1 ≤ sWide.p[(0 : PSel)].x) := by decide

theorem test_witness_PdecResult :
    sBuf.crv = toyW ∧ toyW.valid = true ∧ 1 = (bitlen toyW.p + 7) / 8
    ∧ (1023 + (0 + 1) ≤ 1024 ∧ sBuf.iob.read 1023 = 0x00) ∧ (16 + (2 + 1) ≤ 1024 ∧ sBuf.iob.read 16 = 0x04)
    ∧ (¬((1 : Nat) = 0 ∧ sBuf.iob.read 16 = 0x00) ∧ ¬((1 : Nat) = 2 * 1 ∧ sBuf.iob.read 16 = 0x04))
    ∧ toyW.Ok sBuf.W ∧ sBuf.iob.wf = true ∧ (sBuf.p[(0 : PSel)]).Ok sBuf.W toyW
    ∧ (sBuf.p[(0 : PSel)].valid = true ∧ sBuf.p[(0 : PSel)].hasZ = false ∧ sBuf.p[(0 : PSel)].mont = false
      ∧ sBuf.p[(0 : PSel)].x < toyW.p ∧ sBuf.p[(0 : PSel)].y < toyW.p ∧ 2 = (if sBuf.p[(0 : PSel)].inf then 0 else 2 * 1)) :=
  ⟨rfl, rfl, by decide, by decide, by decide, by decide, toyW_ok, by decide, pointsW_ok 0, by decide⟩

/-! ## Witnesses: point arithmetic and scalar multiplication -/

theorem test_witness_PdblWeierstrass :
    sW.crv = toyW ∧ toyW.Ok sW.W ∧ toyW.type = .weierstrass ∧ (∀ i : PSel, sW.p[i].valid = true) ∧ sW.p[(1 : PSel)].hasZ = false
    ∧ (sW.p[(5 : PSel)].hasZ = true ∧ sW.p[(5 : PSel)].mont = true ∧ sW.p[(5 : PSel)].inf = true)
    ∧ (sW.p[(2 : PSel)].hasZ = true ∧ sW.p[(2 : PSel)].mont = true ∧ sW.p[(2 : PSel)].inf = false
      ∧ toyW.Reps sW.W sW.p[(2 : PSel)].x 1 ∧ toyW.Reps sW.W sW.p[(2 : PSel)].y 2 ∧ toyW.Reps sW.W sW.p[(2 : PSel)].z 1
      ∧ ¬((2 * 2 * 1 : Int) ≡ 0 [ZMOD (toyW.p : Int)]))
    ∧ (sW.p[(7 : PSel)].hasZ = true ∧ sW.p[(7 : PSel)].mont = true ∧ sW.p[(7 : PSel)].inf = false
      ∧ toyW.Reps sW.W sW.p[(7 : PSel)].x 1 ∧ toyW.Reps sW.W sW.p[(7 : PSel)].y 0 ∧ toyW.Reps sW.W sW.p[(7 : PSel)].z 1
      ∧ (2 * 0 * 1 : Int) ≡ 0 [ZMOD (toyW.p : Int)]) :=
  ⟨rfl, toyW_ok, rfl, by decide, by decide, by decide,
    ⟨by decide, by decide, by decide, repsW_one, repsW_two, repsW_one, by decide⟩,
    by decide, by decide, by decide, repsW_one, repsW_zero, repsW_one, by decide⟩

theorem test_witness_PdblTwisted :
    sT.crv = toyT ∧ toyT.Ok sT.W ∧ toyT.type = .twistedEdwards
    ∧ (sT.p[(1 : PSel)].valid = true ∧ sT.p[(1 : PSel)].hasZ = false)
    ∧ (sT.p[(2 : PSel)].valid = true ∧ sT.p[(2 : PSel)].hasZ = true ∧ sT.p[(2 : PSel)].mont = true ∧ sT.p[(2 : PSel)].hasT = true)
    ∧ toyT.Reps sT.W sT.p[(2 : PSel)].x 519 ∧ toyT.Reps sT.W sT.p[(2 : PSel)].y 642 ∧ toyT.Reps sT.W sT.p[(2 : PSel)].z 1 :=
  ⟨rfl, toyT_ok, rfl, by decide, by decide, repsT_gx, repsT_gy, repsT_one⟩

/-- The mixed addition's cases: both identities; the first only; the second only; the same point; opposite points; different points; and a first
point with `Z = 0` that is not flagged. -/
def sZero : State := withP sW [(7, jacobianPoint 0x23 0x46 0 true false)]

theorem test_witness_PaddWeierstrass :
    sW.crv = toyW ∧ toyW.Ok sW.W ∧ toyW.type = .weierstrass ∧ (∀ i : PSel, sW.p[i].valid = true) ∧ sW.p[(1 : PSel)].hasZ = false
    ∧ (∀ i ∈ [(2 : PSel), 5, 7], sW.p[i].hasZ = true ∧ sW.p[i].hasT = false ∧ sW.p[i].mont = true)
    ∧ (∀ i ∈ [(1 : PSel), 4, 6], sW.p[i].hasZ = false ∧ sW.p[i].mont = true)
    ∧ (sW.p[(5 : PSel)].inf = true ∧ sW.p[(4 : PSel)].inf = true ∧ sW.p[(1 : PSel)].inf = false ∧ sW.p[(2 : PSel)].inf = false)
    ∧ toyW.Reps sW.W sW.p[(2 : PSel)].x 1 ∧ toyW.Reps sW.W sW.p[(2 : PSel)].y 2 ∧ toyW.Reps sW.W sW.p[(2 : PSel)].z 1
    ∧ toyW.Reps sW.W sW.p[(1 : PSel)].x 1 ∧ toyW.Reps sW.W sW.p[(1 : PSel)].y 2 ∧ toyW.Reps sW.W sW.p[(6 : PSel)].y (-2)
    ∧ ((1 * 1 ^ 2 - 1 : Int) ≡ 0 [ZMOD (toyW.p : Int)] ∧ (2 * 1 * 1 ^ 2 - 2 : Int) ≡ 0 [ZMOD (toyW.p : Int)])
    ∧ ¬((-2 * 1 * 1 ^ 2 - 2 : Int) ≡ 0 [ZMOD (toyW.p : Int)]) :=
  ⟨rfl, toyW_ok, rfl, by decide, by decide, by decide, by decide, by decide, repsW_one, repsW_two, repsW_one, repsW_one, repsW_two,
    repsW_negTwo, by decide, by decide⟩

/-- The last two cases: `Z1 = 0` and an `x2` that makes `H ≠ 0`; and two points of different `x`. -/
theorem test_witness_PaddWeierstrass_general :
    sZero.crv = toyW ∧ sZero.p[(7 : PSel)].valid = true ∧ sZero.p[(7 : PSel)].hasZ = true ∧ sZero.p[(7 : PSel)].hasT = false
    ∧ sZero.p[(7 : PSel)].mont = true ∧ sZero.p[(7 : PSel)].inf = false ∧ sZero.p[(1 : PSel)].inf = false
    ∧ toyW.Reps sZero.W sZero.p[(7 : PSel)].x 1 ∧ toyW.Reps sZero.W sZero.p[(7 : PSel)].y 2 ∧ toyW.Reps sZero.W sZero.p[(7 : PSel)].z 0
    ∧ toyW.Reps sZero.W sZero.p[(1 : PSel)].x 1 ∧ toyW.Reps sZero.W sZero.p[(1 : PSel)].y 2
    ∧ ¬((1 * 0 ^ 2 - 1 : Int) ≡ 0 [ZMOD (toyW.p : Int)]) ∧ (0 * (1 * 0 ^ 2 - 1) : Int) ≡ 0 [ZMOD (toyW.p : Int)]
    ∧ toyW.Reps 32 0x46 2 ∧ ¬((2 * 1 ^ 2 - 1 : Int) ≡ 0 [ZMOD (toyW.p : Int)])
    ∧ ¬((1 * (2 * 1 ^ 2 - 1) : Int) ≡ 0 [ZMOD (toyW.p : Int)]) :=
  ⟨rfl, by decide, by decide, by decide, by decide, by decide, by decide, repsW_one, repsW_two, repsW_zero, repsW_one, repsW_two,
    by decide, by decide, repsW_two, by decide, by decide⟩

theorem test_witness_PaddTwisted :
    sT.crv = toyT ∧ toyT.Ok sT.W ∧ toyT.type = .twistedEdwards ∧ sT.p[(1 : PSel)].valid = true ∧ sT.p[(2 : PSel)].valid = true
    ∧ ¬(sT.p[(1 : PSel)].hasZ = true) ∧ (sT.p[(2 : PSel)].hasZ = true ∧ sT.p[(2 : PSel)].hasT = true ∧ sT.p[(2 : PSel)].mont = true)
    ∧ toyT.Reps sT.W sT.p[(2 : PSel)].x 519 ∧ toyT.Reps sT.W sT.p[(2 : PSel)].y 642 ∧ toyT.Reps sT.W sT.p[(2 : PSel)].z 1
    ∧ toyT.Reps sT.W sT.p[(2 : PSel)].ta 519 ∧ toyT.Reps sT.W sT.p[(2 : PSel)].tb 642 :=
  ⟨rfl, toyT_ok, rfl, by decide, by decide, by decide, by decide, repsT_gx, repsT_gy, repsT_one, repsT_gx, repsT_gy⟩

theorem test_witness_PnegResult :
    sW.crv = toyW ∧ toyW.Ok sW.W ∧ (∀ i : PSel, sW.p[i].valid = true) ∧ sW.p[(0 : PSel)].mont = false
    ∧ (sW.p[(4 : PSel)].mont = true ∧ sW.p[(4 : PSel)].inf = true)
    ∧ (sW.p[(1 : PSel)].mont = true ∧ sW.p[(1 : PSel)].inf = false ∧ toyW.type = .weierstrass ∧ sW.p[(1 : PSel)].hasZ = false
      ∧ (sW.p[(1 : PSel)]).Ok sW.W toyW ∧ (5 : PSel) ≠ 1 ∧ (6 : PSel) ≠ 5)
    ∧ sT.crv = toyT ∧ toyT.Ok sT.W ∧ sT.p[(2 : PSel)].mont = true ∧ sT.p[(2 : PSel)].inf = false ∧ toyT.type = .twistedEdwards :=
  ⟨rfl, toyW_ok, by decide, by decide, by decide, ⟨by decide, by decide, rfl, by decide, pointsW_ok 1, by decide, by decide⟩, rfl,
    toyT_ok, by decide, by decide, rfl⟩

/-- The toy state with `2G = (95, 95)`, affine, in `P6`. -/
def sW2 : State := withP sW [(6, affinePoint 0x1B 0x1B true true)]

/-- The toy state whose affine point is not validated. -/
def sUnval : State := withP sW [(1, affinePoint 0x23 0x46 true false)]

theorem test_witness_ArithmeticStaysOnCurve :
    sW.crv = toyW ∧ toyW.Ok sW.W ∧ sW.p[(2 : PSel)].valid = true ∧ sW.p[(2 : PSel)].hasZ = true ∧ sW.p[(2 : PSel)].mont = true
    ∧ sW.p[(2 : PSel)].inf = false ∧ sW.p[(2 : PSel)].hasT = false
    ∧ toyW.Reps sW.W sW.p[(2 : PSel)].x 1 ∧ toyW.Reps sW.W sW.p[(2 : PSel)].y 2 ∧ toyW.Reps sW.W sW.p[(2 : PSel)].z 1
    ∧ (2 : Int) ^ 2 ≡ 1 ^ 3 + toyW.a * 1 * 1 ^ 4 + toyW.bd * 1 ^ 6 [ZMOD (toyW.p : Int)]
    ∧ ¬((2 * 2 * 1 : Int) ≡ 0 [ZMOD (toyW.p : Int)])
    ∧ sW2.p[(6 : PSel)].valid = true ∧ sW2.p[(6 : PSel)].hasZ = false ∧ sW2.p[(6 : PSel)].mont = true ∧ sW2.p[(6 : PSel)].inf = false
    ∧ toyW.Reps sW.W sW2.p[(6 : PSel)].x 95 ∧ toyW.Reps sW.W sW2.p[(6 : PSel)].y 95
    ∧ (95 : Int) ^ 2 ≡ 95 ^ 3 + toyW.a * 95 + toyW.bd [ZMOD (toyW.p : Int)]
    ∧ ¬((1 * (95 * 1 ^ 2 - 1) : Int) ≡ 0 [ZMOD (toyW.p : Int)]) :=
  ⟨rfl, toyW_ok, by decide, by decide, by decide, by decide, by decide, repsW_one, repsW_two, repsW_one, by decide, by decide,
    by decide, by decide, by decide, by decide, And.intro (by decide) (by decide), And.intro (by decide) (by decide), by decide,
    by decide⟩

theorem test_witness_ArithmeticStaysOnCurve_twisted :
    sT.crv = toyT ∧ toyT.Ok sT.W ∧ sT.p[(2 : PSel)].valid = true ∧ sT.p[(2 : PSel)].hasZ = true ∧ sT.p[(2 : PSel)].mont = true
    ∧ sT.p[(2 : PSel)].inf = false ∧ sT.p[(2 : PSel)].hasT = true
    ∧ toyT.Reps sT.W sT.p[(2 : PSel)].x 519 ∧ toyT.Reps sT.W sT.p[(2 : PSel)].y 642 ∧ toyT.Reps sT.W sT.p[(2 : PSel)].z 1
    ∧ (toyT.a * 519 ^ 2 + 642 ^ 2) * 1 ^ 2 ≡ 1 ^ 4 + toyT.bd * 519 ^ 2 * 642 ^ 2 [ZMOD (toyT.p : Int)] :=
  ⟨rfl, toyT_ok, by decide, by decide, by decide, by decide, by decide, repsT_gx, repsT_gy, repsT_one, by decide⟩

theorem test_witness_SmulResult :
    sW.crv = toyW ∧ toyW.Ok sW.W ∧ (∀ i : PSel, sW.p[i].valid = true)
    ∧ (sW.holds 8 1 2 ∧ sW.holds 9 1 106 ∧ sW.holds 10 1 0 ∧ sW.holds 11 1 107 ∧ sW.holds 13 1 1)
    ∧ sW.p[(2 : PSel)].hasZ = true ∧ sW.p[(0 : PSel)].mont = false
    ∧ (sUnval.crv = toyW ∧ sUnval.p[(1 : PSel)].valid = true ∧ sUnval.p[(1 : PSel)].hasZ = false ∧ sUnval.p[(1 : PSel)].mont = true
      ∧ sUnval.p[(1 : PSel)].onc = false ∧ sUnval.holds 8 1 2)
    ∧ (sW.p[(1 : PSel)].hasZ = false ∧ sW.p[(1 : PSel)].mont = true ∧ sW.p[(1 : PSel)].onc = true)
    ∧ ((0 : Nat) = 0 ∧ toyW.order ≤ 107) ∧ (1 ≤ 1 ∧ 1 < toyW.order) ∧ (1 ≤ 106 ∧ 106 < toyW.order)
    ∧ (sW.p[(4 : PSel)].hasZ = false ∧ sW.p[(4 : PSel)].mont = true ∧ sW.p[(4 : PSel)].onc = true ∧ sW.p[(4 : PSel)].inf = true) :=
  ⟨rfl, toyW_ok, by decide⟩

/-- The least relation between the toy curve's stored points (`true`: projective, `false`: affine) and the group of order 107 that takes the generator to
1 and is kept by the operations of `SMUL`. -/
inductive Multiple : Bool → PReg → ZMod 107 → Prop where
  | generator : Multiple false sW.p[(1 : PSel)] 1
  | proj {e h} : Multiple false e h → Multiple true (toyW.proj e) h
  | dbl {a h} : Multiple true a h → Multiple true (toyW.dbl 32 a) (h + h)
  | padd {a e h₁ h₂} : Multiple true a h₁ → Multiple false e h₂ → Multiple true (toyW.padd 32 a e) (h₁ + h₂)
  | neg {a h} : Multiple true a h → Multiple true (toyW.neg a) (-h)
  | negCoords {e h} : Multiple false e h → Multiple false (toyW.negCoords e) (-h)
  | affine {a h} : Multiple true a h → Multiple false (toyW.affine 32 a) h
  | onc {e h} : Multiple false e h → Multiple false { e with onc := true } h

/-- The hypotheses of the group statement met together, in the group of order 107. -/
theorem test_witness_SmulGroup :
    toyW.Ok 32 ∧ (∃ proj aff : PReg → ZMod 107 → Prop,
      (∀ e h, aff e h → proj (toyW.proj e) h) ∧ (∀ a h, proj a h → proj (toyW.dbl 32 a) (h + h))
      ∧ (∀ a e h₁ h₂, proj a h₁ → (match toyW.type with | .weierstrass => aff e h₂ | .twistedEdwards => proj e h₂) →
        proj (toyW.padd 32 a e) (h₁ + h₂))
      ∧ (∀ a h, proj a h → proj (toyW.neg a) (-h))
      ∧ (∀ e h, (match toyW.type with | .weierstrass => aff e h | .twistedEdwards => proj e h) →
        (match toyW.type with | .weierstrass => aff (toyW.negCoords e) (-h) | .twistedEdwards => proj (toyW.negCoords e) (-h)))
      ∧ (∀ a h, proj a h → aff (toyW.affine 32 a) h) ∧ (∀ e h, aff e h → aff { e with onc := true } h)
      ∧ aff sW.p[(1 : PSel)] 1)
    ∧ sW.p[(1 : PSel)].inf = false ∧ (1 ≤ 1 ∧ 1 < toyW.order ∧ 1 % 2 = 1) ∧ (1 ≤ 106 ∧ 106 < toyW.order ∧ 106 % 2 = 0)
    ∧ toyW.order • (1 : ZMod 107) = 0 :=
  ⟨toyW_ok, ⟨Multiple true, Multiple false, fun _ _ => .proj, fun _ _ => .dbl, fun _ _ _ _ => .padd, fun _ _ => .neg,
    fun _ _ => .negCoords, fun _ _ => .affine, fun _ _ => .onc, .generator⟩,
    by decide, by decide, by decide, (nsmul_one 107).trans (ZMod.natCast_self 107)⟩

theorem test_witness_RecodeDigits :
    (2 ≤ 2 ∧ 1 % 2 = 1 ∧ 1 < 2 ^ 1 ∧ 1 = (1 + (2 - 1) - 1) / (2 - 1))
    ∧ (2 ≤ 5 ∧ 105 % 2 = 1 ∧ 105 < 2 ^ 7 ∧ 2 = (7 + (5 - 1) - 1) / (5 - 1)) := by decide

/-! ## Witnesses: datapath and the whole machine -/

/-- The context of 95_test_vectors.md for `W = 8`. -/
def ctx8 : Ctx := ⟨true, 2, 0xC5F1, 0xF1, 0xEF, 0x3A0F, 0x624A, 0x3EC2, 0x14B16⟩

theorem ctx8_ok : ctx8.Ok 8 :=
  ⟨rfl, by decide, by decide, by decide, by decide, by decide, by decide, by decide, by decide, by decide, by decide, by decide, by decide⟩

theorem test_witness_CiosValue :
    (ctx8.Ok DigitWidth.w8.bits ∧ 0xC5F0 < ctx8.m ∧ 0x1234 < ctx8.m)
    ∧ (ctx3233.Ok DigitWidth.w32.bits ∧ 3232 < ctx3233.m ∧ 0 < ctx3233.m) := ⟨⟨ctx8_ok, by decide⟩, ctx3233_ok, by decide⟩

theorem test_witness_BarrettValue : ctx8.Ok DigitWidth.w8.bits ∧ 0xFFFFFFFF < 2 ^ (2 * DigitWidth.w8.bits * ctx8.s) :=
  ⟨ctx8_ok, by decide⟩

theorem test_witness_ModexpWindows :
    ctx8.Ok DigitWidth.w8.bits ∧ 0xC5F0 < ctx8.m ∧ 255 < 2 ^ (DigitWidth.w8.bits * 1) ∧ 2 = optimalWindow (DigitWidth.w8.bits * 1) :=
  ⟨ctx8_ok, by decide⟩

theorem test_witness_KnuthValue : 0xFFFFFF < 2 ^ (DigitWidth.w8.bits * 3) ∧ 0x8001 ≠ 0 := by decide

theorem test_witness_DigitLoops :
    0xFFFF < 2 ^ (DigitWidth.w8.bits * 2) ∧ 1 < 2 ^ (DigitWidth.w8.bits * 2) ∧ 0xFFFFFF < 2 ^ (DigitWidth.w8.bits * 3)
    ∧ digitsVal 8 (digits 8 0xFFFF 2) = 0xFFFF := by decide

theorem test_witness_DoublingSequences :
    (toyW.Ok DigitWidth.w32.bits ∧ toyW.type = .weierstrass ∧ toyW.spec ≠ .aZero)
    ∧ (toyZ.Ok DigitWidth.w32.bits ∧ toyZ.type = .weierstrass ∧ toyZ.spec = .aZero)
    ∧ sW.p[(2 : PSel)].inf = false ∧ sW.p[(2 : PSel)].x < 97 ∧ sW.p[(2 : PSel)].y < 97 ∧ sW.p[(2 : PSel)].z < 97 :=
  ⟨⟨toyW_ok, rfl, by decide⟩, ⟨toyZ_ok, rfl, rfl⟩, by decide⟩

/-- A state with other values in the registers and coordinates of `sW`, and the same lengths and flags. -/
def sW' : State := withP (withB sW [(8, 1, 3), (9, 1, 5)]) [(0, affinePoint 7 8 false false), (2, jacobianPoint 1 2 3 true true)]

theorem sameShapeW : sW.SameShape sW' := ⟨rfl, by decide, rfl, rfl, by decide⟩

/-- The run does not fault. -/
def endsWell (x : Run State) : Bool :=
  match x.value with
  | .ok _ => true
  | .error _ => false

theorem of_endsWell {x : Run State} (h : endsWell x = true) : ∃ t, x.value = .ok t := by
  unfold endsWell at h
  split at h
  · exact ⟨_, ‹_›⟩
  · exact absurd h nofun

theorem test_witness_TraceIndependence :
    (1 = optimalWindow 1 ∧ toyT.type = .twistedEdwards)
    ∧ (Instr.pdbl 3 2).lengthOnly = true ∧ sW.SameShape sW'
    ∧ (∃ t, (commandT (.pdbl 3 2) sW).value = .ok t) ∧ (∃ t, (commandT (.pdbl 3 2) sW').value = .ok t)
    ∧ sW.p[(1 : PSel)] = sW'.p[(1 : PSel)] ∧ sW.p[(1 : PSel)].inf = false
    ∧ (∃ t, (commandT (.smul 2 1 8) sW).value = .ok t) ∧ (∃ t, (commandT (.smul 2 1 8) sW').value = .ok t)
    ∧ toyW.regular 32 sW.b[(8 : BSel)].val sW.p[(1 : PSel)] = true ∧ toyW.regular 32 sW'.b[(8 : BSel)].val sW.p[(1 : PSel)] = true :=
  ⟨by decide, rfl, sameShapeW, ⟨_, rfl⟩, ⟨_, rfl⟩, by decide, by decide,
    of_endsWell (by decide +kernel), of_endsWell (by decide +kernel), by decide +kernel, by decide +kernel⟩

theorem test_witness_FlagRules :
    exec (.clr 1) State.reset = .next (State.reset.writeB 1 1 0).done
    ∧ (∀ d a b, Instr.clr 1 ≠ .add d a b ∧ Instr.clr 1 ≠ .sub d a b) ∧ (∀ q, Instr.clr 1 ≠ .pval q) ∧ (∀ a b, Instr.clr 1 ≠ .cmp a b)
    ∧ exec (.mov 2 1) State.reset = .next (State.reset.faulted 2) ∧ (State.reset.faulted 2).status.done = false
    ∧ (exec (.add 7 6 2) sNum = .next (after (.add 7 6 2) sNum) ∧ (after (.add 7 6 2) sNum).status.done = true
      ∧ ∃ d a b, Instr.add 7 6 2 = .add d a b ∨ Instr.add 7 6 2 = .sub d a b)
    ∧ (exec (.pval 0) sW = .next (after (.pval 0) sW) ∧ (after (.pval 0) sW).status.done = true ∧ ∃ q, Instr.pval 0 = .pval q)
    ∧ (exec (.cmp 1 2) sNum = .next (after (.cmp 1 2) sNum) ∧ (after (.cmp 1 2) sNum).status.done = true
      ∧ ∃ a b, Instr.cmp 1 2 = .cmp a b) :=
  ⟨rfl, fun _ _ _ => ⟨nofun, nofun⟩, nofun, nofun, rfl, rfl, ⟨rfl, by decide, 7, 6, 2, .inl rfl⟩, ⟨rfl, by decide, 0, rfl⟩,
    ⟨rfl, by decide, 1, 2, rfl⟩⟩

theorem test_witness_ImmutableSlots :
    exec (.crvld 1) sW = .next (after (.crvld 1) sW) ∧ (after (.crvld 1) sW).status.done = true
    ∧ (∀ b, Instr.crvld 1 ≠ .ctxnew 0 b) ∧ (∃ d, Instr.crvld 1 = .crvld d)
    ∧ exec (.clr 1) sW = .next (after (.clr 1) sW) ∧ (∀ f y, Instr.clr 1 ≠ .crvnew f y) ∧ (∀ d, Instr.clr 1 ≠ .crvld d) :=
  ⟨rfl, by decide, nofun, ⟨1, rfl⟩, rfl, nofun, nofun⟩

theorem test_witness_CommandFrame :
    exec (.stb 13 1023 0) sW = .next (after (.stb 13 1023 0) sW) ∧ (1 : BSel) ∉ (Instr.stb 13 1023 0).writesB
    ∧ (1 : PSel) ∉ (Instr.stb 13 1023 0).writesP ∧ (Instr.stb 13 1023 0).installs = false ∧ ¬(Instr.stb 13 1023 0).storesTo 1022
    ∧ ¬(Instr.stb 13 1023 0).storesTo 1024 ∧ exec (.crvld 1) sW = .next (after (.crvld 1) sW) ∧ (Instr.crvld 1).installs = true :=
  ⟨rfl, by decide, by decide, rfl, fun h => absurd h.1 (by decide), fun h => absurd h.2 (by decide), rfl, rfl⟩

theorem test_witness_OnCurveRule :
    exec (.pval 0) sW = .next (after (.pval 0) sW) ∧ (after (.pval 0) sW).p[(0 : PSel)].valid = true
    ∧ (after (.pval 0) sW).p[(0 : PSel)].onc = true ∧ (after (.pinf 6) sW).p[(6 : PSel)].onc = true
    ∧ (after (.pdbl 3 2) sW).p[(3 : PSel)].onc = true ∧ sW.p[(0 : PSel)].onc = false := ⟨rfl, by decide⟩

/-- A busy core with a curve installed, one valid point, one valid register and one context. -/
def sInv : State :=
  ((withP { withB (State.reset.writeC 2 ctx3233) [(8, 1, 2)] with crv := toyW } [(1, affinePoint 0x23 0x46 true true)])).withFetchWord 32
    0x58218000

theorem test_witness_InvKept : sInv.Inv ∧ step sInv = .next (after (.smul 2 1 8) sInv) :=
  ⟨{ b := fun i =>
      have H : ∀ i : BSel, (sInv.b[i].valid = true → 1 ≤ sInv.b[i].len ∧ sInv.b[i].len ≤ Config.cap sInv.W
          ∧ sInv.b[i].val < 2 ^ (sInv.W * sInv.b[i].len)) ∧ (sInv.b[i].valid = false → sInv.b[i] = BReg.empty) := by decide
      ⟨(H i).1, (H i).2⟩
     c := fun i =>
      have H : ∀ i : CSel, sInv.c[i] = Ctx.empty ∨ sInv.c[i] = ctx3233 := by decide
      (H i).imp id fun h => by rw [h]; exact ctx3233_ok
     crv := .inr toyW_ok
     p := fun i hi =>
      have H : ∀ i : PSel, sInv.p[i].valid = true → sInv.p[i] = sW.p[(1 : PSel)] := by decide
      ⟨toyW_ok, by rw [H i hi]; exact pointsW_ok 1⟩
     iob := rfl
     status := ⟨by decide, by decide, by decide, by decide, fun h => absurd h (by decide)⟩ }, rfl⟩

theorem test_witness_BufferAndStatusKept :
    step sInv = .next (after (.smul 2 1 8) sInv) ∧ sInv.iob.wf = true ∧ sInv.StatusOk :=
  ⟨rfl, rfl, ⟨by decide, by decide, by decide, by decide, fun h => absurd h (by decide)⟩⟩

end Sys2Proof.Tests
end

section
/-! Ranges: which `(len, val)` pairs a big-number register may hold (10_state.md R21), and the results of the shared number
operations that are such pairs. -/

namespace Sys2Proof.Machine

/-- The pair `(n, v)` is one a valid big-number register may hold (10_state.md R21). -/
def Fits (W n v : Nat) : Prop := 1 ≤ n ∧ n ≤ Config.cap W ∧ v < 2 ^ (W * n)

theorem Fits.mono {W n u v : Nat} (h : Fits W n u) (hv : v ≤ u) : Fits W n v :=
  ⟨h.1, h.2.1, hv.trans_lt h.2.2⟩

/-- What fits `n` digits fits its normalized length. -/
theorem Fits.normlen {W n u v : Nat} (hW : 0 < W) (h : Fits W n u) (hv : v ≤ u) : Fits W (normlen W v) v :=
  ⟨normlen_pos W v, ((normlen_le_iff hW h.1).2 (h.mono hv).2.2).trans h.2.1, lt_pow_normlen hW v⟩

/-- The registers hold every bit of the buffer (00_scope.md R7). -/
theorem buffer_le_cap {W : Nat} (hW : 0 < W) : 8 * Config.iobBytes ≤ W * Config.cap W :=
  (le_ceilDiv_iff hW).1 le_rfl

theorem one_le_cap {W : Nat} (hW : 0 < W) : 1 ≤ Config.cap W :=
  Nat.pos_of_mul_pos_left (lt_of_lt_of_le (by decide) (buffer_le_cap hW))

theorem maxS_le_cap (W : Nat) : Config.maxS W ≤ Config.cap W := Nat.div_le_self _ _

theorem two_mul_maxS_le_cap (W : Nat) : 2 * Config.maxS W ≤ Config.cap W := Nat.mul_div_le _ _

theorem Fits.single {W v : Nat} (hW : 0 < W) (h : v < 2 ^ W) : Fits W 1 v :=
  ⟨le_rfl, one_le_cap hW, by rwa [mul_one]⟩

theorem DigitWidth.eight_dvd_bits (d : DigitWidth) : 8 ∣ d.bits := by cases d <;> decide

theorem State.W_pos (s : State) : 0 < s.W := DigitWidth.bits_pos _

theorem State.eight_dvd_W (s : State) : 8 ∣ s.W := DigitWidth.eight_dvd_bits _

/-- Every digit holds a byte (00_scope.md R7). -/
theorem State.byte_le_digit (s : State) : 256 ≤ 2 ^ s.W :=
  calc 256 = 2 ^ 8 := rfl
    _ ≤ 2 ^ s.W := Nat.pow_le_pow_right (by decide) (Nat.le_of_dvd s.W_pos s.eight_dvd_W)

theorem pow_256_eq_two_pow (n : Nat) : 256 ^ n = 2 ^ (8 * n) := (pow_mul 2 8 n).symm

/-- A value loaded from the buffer fits a register (40_digit_array.md R101). -/
theorem Fits.of_bytes {W : Nat} (hW : 0 < W) {bs : List Byte} (h : bs.length ≤ Config.iobBytes) :
    Fits W (Machine.normlen W (be bs)) (be bs) := by
  refine Fits.normlen hW ⟨one_le_cap hW, le_rfl, ?_⟩ le_rfl
  calc be bs < 256 ^ bs.length := be_lt bs
    _ = 2 ^ (8 * bs.length) := pow_256_eq_two_pow _
    _ ≤ 2 ^ (W * Config.cap W) := Nat.pow_le_pow_right (by decide) (by have := buffer_le_cap hW; omega)

/-- The sum wrapped to the longer operand's length (40_digit_array.md R107). -/
theorem Fits.max_mod {W n n' u u' : Nat} (h : Fits W n u) (h' : Fits W n' u') (t : Nat) :
    Fits W (max n n') (t % 2 ^ (W * max n n')) :=
  ⟨h.1.trans (le_max_left _ _), max_le h.2.1 h'.2.1, Nat.mod_lt _ (by positivity)⟩

theorem wrapSub_lt (a b n : Nat) : wrapSub a b n < 2 ^ n := by
  have hpos : (0 : Int) < ((2 ^ n : Nat) : Int) := by positivity
  have h0 := Int.emod_nonneg ((a : Int) - b) hpos.ne'
  have h1 := Int.emod_lt_of_pos ((a : Int) - b) hpos
  unfold wrapSub
  omega

theorem Fits.max_wrapSub {W n n' u u' : Nat} (h : Fits W n u) (h' : Fits W n' u') (a b : Nat) :
    Fits W (max n n') (wrapSub a b (W * max n n')) :=
  ⟨h.1.trans (le_max_left _ _), max_le h.2.1 h'.2.1, wrapSub_lt _ _ _⟩

/-- The whole product (40_digit_array.md R109). -/
theorem Fits.mul {W n n' u u' : Nat} (h : Fits W n u) (h' : Fits W n' u') (hcap : n + n' ≤ Config.cap W) :
    Fits W (n + n') (u * u') := by
  refine ⟨by have := h.1; omega, hcap, ?_⟩
  rw [mul_add, pow_add]
  exact Nat.mul_lt_mul'' h.2.2 h'.2.2

theorem Fits.gcd {W n n' u u' : Nat} (hW : 0 < W) (h : Fits W n u) (h' : Fits W n' u') :
    Fits W (Machine.normlen W (Nat.gcd u u')) (Nat.gcd u u') := by
  rcases Nat.eq_zero_or_pos u with rfl | hu
  · rw [Nat.gcd_zero_left]
    exact h'.normlen hW le_rfl
  · exact h.normlen hW (Nat.gcd_le_left u' hu)

/-- The cofactor that `euclid` returns is at most the number it starts from: `t0 * r1 + t1 * r0` keeps its value
(42_inversion_group.md R152). -/
theorem euclidLoop_cofactor_le (n : Nat) : ∀ fuel r0 r1 t0 t1 k : Nat, 1 ≤ r0 → t0 ≤ n → t0 * r1 + t1 * r0 = n →
    (euclidLoop fuel r0 r1 t0 t1 k).2.1 ≤ n
  | 0, _, _, _, _, _, _, ht, _ => ht
  | fuel + 1, r0, r1, t0, t1, k, hr, ht, hn => by
    unfold euclidLoop
    split
    · exact ht
    · next h0 =>
      have ht1 : t1 ≤ n := (Nat.le_mul_of_pos_right t1 hr).trans (by omega)
      refine euclidLoop_cofactor_le n fuel _ _ _ _ _ (Nat.pos_of_ne_zero h0) ht1 ?_
      have hdiv : r0 - r0 / r1 * r1 + r0 / r1 * r1 = r0 := Nat.sub_add_cancel (Nat.div_mul_le_self r0 r1)
      calc t1 * (r0 - r0 / r1 * r1) + (t0 + r0 / r1 * t1) * r1
          = t0 * r1 + t1 * (r0 - r0 / r1 * r1 + r0 / r1 * r1) := by ring
        _ = n := by rw [hdiv, hn]

theorem euclid_cofactor_le (n a : Nat) (hn : 1 ≤ n) : (euclid n a).2.1 ≤ n :=
  euclidLoop_cofactor_le n _ _ _ _ _ _ hn (Nat.zero_le n) (by omega)

/-! ## Residues under a context -/

section
variable {W : Nat} {c : Ctx} (hc : c.Ok W)
include hc

theorem Ctx.Ok.mont_lt (a b : Nat) : mont W c a b < c.m := (mont_spec W c a b hc.gtOne hc.odd).1

/-- A value below the modulus fits the modulus's digits. -/
theorem Ctx.Ok.fits_of_lt {v : Nat} (hv : v < c.m) : Fits W c.s v :=
  ⟨hc.count.1, hc.count.2.trans (maxS_le_cap W), hv.trans hc.fits⟩

theorem Ctx.Ok.mod_lt (v : Nat) : v % c.m < c.m := Nat.mod_lt _ (by have := hc.gtOne; omega)

theorem Ctx.Ok.powMod_lt (a e : Nat) : powMod a e c.m < c.m := powMod_eq a e c.m ▸ hc.mod_lt _

/-- `mu` has one digit more than the modulus: an odd modulus above 1 is not a power of two (10_state.md R30). -/
theorem Ctx.Ok.fits_mu : Fits W (c.s + 1) c.mu := by
  obtain ⟨hs, hmax⟩ := hc.count
  have hcap := two_mul_maxS_le_cap W
  refine ⟨by omega, by omega, ?_⟩
  have hne : c.m ≠ 2 ^ (W * (c.s - 1)) := fun he => by
    have hodd := hc.odd
    have hone := hc.gtOne
    rcases Nat.eq_zero_or_pos (W * (c.s - 1)) with h0 | hpos
    · rw [he, h0] at hone
      exact absurd hone (by decide)
    · rw [he, Nat.pow_mod, Nat.mod_self, zero_pow hpos.ne'] at hodd
      exact absurd hodd (by decide)
  have hlt : 2 ^ (W * (c.s - 1)) < c.m := lt_of_le_of_ne hc.topDigit hne.symm
  rw [hc.mu, Nat.div_lt_iff_lt_mul (Nat.zero_lt_of_lt hlt)]
  calc 2 ^ (2 * W * c.s) = 2 ^ (W * (c.s + 1)) * 2 ^ (W * (c.s - 1)) := by
        rw [← pow_add, ← mul_add, show c.s + 1 + (c.s - 1) = 2 * c.s by omega]
        congr 1
        ring
    _ < 2 ^ (W * (c.s + 1)) * c.m := Nat.mul_lt_mul_of_pos_left hlt (by positivity)

/-- An odd modulus has no factor in common with a power of two. -/
theorem Ctx.Ok.coprime_two_pow (n : Nat) : Nat.Coprime c.m (2 ^ n) :=
  Nat.Coprime.pow_right n (Nat.coprime_two_right.2 (Nat.odd_iff.2 hc.odd))

theorem Ctx.Ok.rmod_pos : 0 < c.rmod := by
  rw [hc.rmod]
  refine Nat.pos_of_ne_zero fun h => ?_
  have := (hc.coprime_two_pow _).eq_one_of_dvd (Nat.dvd_of_mod_eq_zero h)
  have := hc.gtOne
  omega

/-- A Montgomery product with a unit is zero for zero alone. -/
theorem Ctx.Ok.mont_eq_zero_iff {t r : Nat} (hr : Nat.Coprime c.m r) (ht : t < c.m) : mont W c t r = 0 ↔ t = 0 := by
  constructor
  · intro h
    have hspec := (mont_spec W c t r hc.gtOne hc.odd).2
    rw [h, zero_mul, Nat.zero_mod] at hspec
    exact Nat.eq_zero_of_dvd_of_lt (hr.dvd_of_dvd_mul_right (Nat.dvd_of_mod_eq_zero hspec.symm)) ht
  · rintro rfl
    simp [mont]

theorem Ctx.Ok.coprime_r2mod : Nat.Coprime c.m c.r2mod := by
  rw [hc.r2mod, Nat.coprime_comm]
  exact (ZMod.coprime_mod_iff_coprime _ _).2 (hc.coprime_two_pow _).symm

/-- `1` into Montgomery form is `R mod m` (41_montgomery.md R127). -/
theorem Ctx.Ok.mont_one_r2mod : mont W c 1 c.r2mod = c.rmod := by
  obtain ⟨hlt, hspec⟩ := mont_spec W c 1 c.r2mod hc.gtOne hc.odd
  refine mont_unique W c hc.gtOne hc.odd hlt (hc.rmod ▸ hc.mod_lt _) ?_
  rw [hspec, one_mul, hc.r2mod, hc.rmod, Nat.mod_mod, Nat.mod_mul_mod, ← pow_add]
  ring_nf

/-- `R mod m` out of Montgomery form is `1` (41_montgomery.md R128). -/
theorem Ctx.Ok.mont_rmod_one : mont W c c.rmod 1 = 1 := by
  obtain ⟨hlt, hspec⟩ := mont_spec W c c.rmod 1 hc.gtOne hc.odd
  refine mont_unique W c hc.gtOne hc.odd hlt hc.gtOne ?_
  rw [hspec, mul_one, one_mul, hc.rmod, Nat.mod_mod]

end

/-- A residue operand is a value below the modulus (41_montgomery.md R120 b). -/
theorem residue_ok {c : Ctx} {r : BReg} {a : Nat} (h : residue c r = .ok a) : a < c.m := by
  rcases residue_cases c r with ⟨hlt, he⟩ | ⟨_, he⟩
  · rw [he] at h
    cases h
    exact hlt
  · rw [he] at h
    cases h

end Sys2Proof.Machine
end

section
/-! Point forms: under an installed curve, every operation on points gives a point in a legal form (10_state.md R28, R29). -/

namespace Sys2Proof.Machine

/-- A coordinate that 10_state.md R28 and R29 (b) allow under the curve `k`: it fits the digits of `p`, and in Montgomery form it is
below `p`. -/
def Curve.Coord (k : Curve) (W : Nat) (isMont : Bool) (t : Nat) : Prop :=
  t < 2 ^ (W * k.fctx.s) ∧ (isMont = true → t < k.p)

section
variable {W : Nat} {k : Curve} (hk : k.Ok W)
include hk

/-! ## The field -/

theorem Curve.Ok.p_gtOne : 1 < k.p := hk.modulus ▸ hk.fctx.gtOne

theorem Curve.Ok.p_pos : 0 < k.p := Nat.zero_lt_of_lt hk.p_gtOne

theorem Curve.Ok.p_lt : k.p < 2 ^ (W * k.fctx.s) := hk.modulus ▸ hk.fctx.fits

theorem Curve.Ok.mont_lt (x y : Nat) : mont W k.fctx x y < k.p := hk.modulus ▸ hk.fctx.mont_lt x y

theorem Curve.Ok.fmul_lt (x y : Nat) : k.fmul W x y < k.p := hk.mont_lt x y

theorem Curve.Ok.fadd_lt (x y : Nat) : k.fadd x y < k.p := Nat.mod_lt _ hk.p_pos

theorem Curve.Ok.fsub_lt (x y : Nat) : k.fsub x y < k.p := Nat.mod_lt _ hk.p_pos

theorem Curve.Ok.ftimes_lt (n x : Nat) : k.ftimes n x < k.p := Nat.mod_lt _ hk.p_pos

theorem Curve.Ok.fneg_lt (x : Nat) : k.fneg x < k.p := Nat.mod_lt _ hk.p_pos

theorem Curve.Ok.one_lt : k.one < k.p := by
  rw [hk.one, hk.fctx.rmod, hk.modulus]
  exact Nat.mod_lt _ hk.p_pos

theorem Curve.Ok.unit_lt (m : Bool) : k.unit m < k.p := by
  cases m
  · exact hk.p_gtOne
  · exact hk.one_lt

theorem Curve.Ok.one_ne_zero : k.one ≠ 0 := hk.one ▸ hk.fctx.rmod_pos.ne'

theorem Curve.Ok.unit_ne_zero (m : Bool) : k.unit m ≠ 0 := by
  cases m
  · exact Nat.one_ne_zero
  · exact hk.one_ne_zero

/-! ## Coordinates -/

/-- A reduced value is legal in either residue form. -/
theorem Curve.Ok.coord {t : Nat} (m : Bool) (h : t < k.p) : k.Coord W m t := ⟨h.trans hk.p_lt, fun _ => h⟩

theorem Curve.Ok.coord_zero (m : Bool) : k.Coord W m 0 := hk.coord m hk.p_pos

theorem Curve.Ok.coord_unit (m : Bool) : k.Coord W m (k.unit m) := hk.coord m (hk.unit_lt m)

end

theorem Curve.coord_std {k : Curve} {W t : Nat} (h : t < 2 ^ (W * k.fctx.s)) : k.Coord W false t := ⟨h, nofun⟩

theorem Curve.ne_weierstrass {k : Curve} (h : k.type = .twistedEdwards) : k.type ≠ .weierstrass := h ▸ nofun

theorem Curve.ne_twistedEdwards {k : Curve} (h : k.type = .weierstrass) : k.type ≠ .twistedEdwards := h ▸ nofun

theorem PReg.mem_present {q : PReg} {t : Nat} :
    t ∈ q.present ↔ t = q.x ∨ t = q.y ∨ (q.hasZ = true ∧ t = q.z) ∨ (q.hasT = true ∧ (t = q.ta ∨ t = q.tb)) := by
  unfold PReg.present
  cases q.hasZ <;> cases q.hasT <;> simp

theorem PReg.Ok.coord_x {W : Nat} {k : Curve} {q : PReg} (hq : q.Ok W k) : k.Coord W q.mont q.x :=
  ⟨hq.fits _ (by simp), fun hm => hq.reduced hm _ (PReg.mem_present.2 (.inl rfl))⟩

theorem PReg.Ok.coord_y {W : Nat} {k : Curve} {q : PReg} (hq : q.Ok W k) : k.Coord W q.mont q.y :=
  ⟨hq.fits _ (by simp), fun hm => hq.reduced hm _ (PReg.mem_present.2 (.inr (.inl rfl)))⟩

/-- The width and the reduction of a point, asked of its five coordinates. -/
theorem PReg.fits_reduced_of_coord {W : Nat} {k : Curve} {q : PReg} {m : Bool} (hm : q.mont = m)
    (hx : k.Coord W m q.x) (hy : k.Coord W m q.y) (hz : k.Coord W m q.z) (hta : k.Coord W m q.ta) (htb : k.Coord W m q.tb) :
    (∀ t ∈ [q.x, q.y, q.z, q.ta, q.tb], t < 2 ^ (W * k.fctx.s)) ∧ (q.mont = true → ∀ t ∈ q.present, t < k.p) := by
  subst hm
  refine ⟨by simp [hx.1, hy.1, hz.1, hta.1, htb.1], fun h t ht => ?_⟩
  rcases PReg.mem_present.1 ht with rfl | rfl | ⟨-, rfl⟩ | ⟨-, rfl | rfl⟩
  · exact hx.2 h
  · exact hy.2 h
  · exact hz.2 h
  · exact hta.2 h
  · exact htb.2 h

/-- The form of a point does not depend on its `valid` and `onc` bits. -/
theorem PReg.Ok.with_valid_onc {W : Nat} {k : Curve} {q : PReg} (hq : q.Ok W k) (v o : Bool) :
    ({ q with valid := v, onc := o } : PReg).Ok W k :=
  ⟨hq.fits, hq.absentZ, hq.absentT, hq.aux, hq.reduced, hq.jacobian, hq.affineInf, hq.twistedInf⟩

theorem PReg.Ok.with_onc {W : Nat} {k : Curve} {q : PReg} (hq : q.Ok W k) (o : Bool) : ({ q with onc := o } : PReg).Ok W k :=
  hq.with_valid_onc q.valid o

section
variable {W : Nat} {k : Curve} (hk : k.Ok W)
include hk

/-! ## The forms a command builds -/

theorem Curve.Ok.affineIdentity_ok (m o : Bool) : (k.affineIdentity m o).Ok W k := by
  have hy : k.Coord W m (k.affineIdentity m o).y := by
    unfold Curve.affineIdentity
    cases k.type
    · exact hk.coord_zero m
    · exact hk.coord_unit m
  obtain ⟨hfits, hreduced⟩ := PReg.fits_reduced_of_coord (q := k.affineIdentity m o) rfl (hk.coord_zero m) hy (hk.coord_zero m)
    (hk.coord_zero m) (hk.coord_zero m)
  exact ⟨hfits, fun _ => rfl, fun _ => ⟨rfl, rfl⟩, nofun, hreduced, nofun,
    fun ht _ _ => ⟨rfl, by simp [Curve.affineIdentity, ht]⟩, fun ht _ => ⟨rfl, rfl, by simp [Curve.affineIdentity, ht]⟩⟩

theorem Curve.Ok.jacobianIdentity_ok (ht : k.type = .weierstrass) (m o : Bool) : (k.jacobianIdentity m o).Ok W k := by
  obtain ⟨hfits, hreduced⟩ := PReg.fits_reduced_of_coord (q := k.jacobianIdentity m o) rfl (hk.coord_unit m) (hk.coord_unit m)
    (hk.coord_zero m) (hk.coord_zero m) (hk.coord_zero m)
  exact ⟨hfits, nofun, fun _ => ⟨rfl, rfl⟩, nofun, hreduced, fun _ _ => ⟨⟨fun _ => rfl, fun _ => rfl⟩, fun _ => ⟨rfl, rfl⟩⟩, nofun,
    fun h => absurd h (Curve.ne_twistedEdwards ht)⟩

theorem Curve.Ok.affinePoint_ok {x y : Nat} {m : Bool} (hx : k.Coord W m x) (hy : k.Coord W m y) (o : Bool) :
    (affinePoint x y m o).Ok W k := by
  obtain ⟨hfits, hreduced⟩ := PReg.fits_reduced_of_coord (q := affinePoint x y m o) rfl hx hy (hk.coord_zero m)
    (hk.coord_zero m) (hk.coord_zero m)
  exact ⟨hfits, fun _ => rfl, fun _ => ⟨rfl, rfl⟩, nofun, hreduced, nofun, nofun, nofun⟩

theorem Curve.Ok.jacobianPoint_ok {x y z : Nat} {m : Bool} (hx : k.Coord W m x) (hy : k.Coord W m y)
    (hz : k.Coord W m z) (h0 : z ≠ 0) (o : Bool) : (jacobianPoint x y z m o).Ok W k := by
  obtain ⟨hfits, hreduced⟩ := PReg.fits_reduced_of_coord (q := jacobianPoint x y z m o) rfl hx hy hz (hk.coord_zero m)
    (hk.coord_zero m)
  exact ⟨hfits, nofun, fun _ => ⟨rfl, rfl⟩, nofun, hreduced, fun _ _ => ⟨⟨nofun, fun h => absurd h h0⟩, nofun⟩, nofun, nofun⟩

omit hk in
theorem Curve.extendedPoint_ok {x y z ta tb : Nat} {m : Bool} (ht : k.type = .twistedEdwards) (hx : k.Coord W m x)
    (hy : k.Coord W m y) (hz : k.Coord W m z) (hta : k.Coord W m ta) (htb : k.Coord W m tb) (o : Bool) :
    (extendedPoint x y z ta tb m o).Ok W k := by
  obtain ⟨hfits, hreduced⟩ := PReg.fits_reduced_of_coord (q := extendedPoint x y z ta tb m o) rfl hx hy hz hta htb
  exact ⟨hfits, nofun, nofun, fun _ => ⟨rfl, ht⟩, hreduced, fun h => absurd h (Curve.ne_weierstrass ht), nofun, nofun⟩

/-! ## Changes of form -/

/-- A map of the present coordinates that sends residues to residues, zero and nothing else to zero, and the unit of the old form to
the unit of the new one, keeps the form. -/
theorem Curve.Ok.mapCoords_ok {q : PReg} (hq : q.Ok W k) (hp : ∀ t ∈ q.present, t < k.p) {f : Nat → Nat} {m : Bool}
    (hf : ∀ t, f t < k.p) (hzero : ∀ t, t < k.p → (f t = 0 ↔ t = 0)) (hunit : f (k.unit q.mont) = k.unit m) :
    (q.mapCoords f m).Ok W k := by
  have hpresent : ∀ b : Bool, ∀ t, (if b then f t else 0) < k.p := fun b t => by
    cases b
    · exact hk.p_pos
    · exact hf t
  obtain ⟨hfits, hreduced⟩ := PReg.fits_reduced_of_coord (q := q.mapCoords f m) rfl (hk.coord m (hf _)) (hk.coord m (hf _))
    (hk.coord m (hpresent q.hasZ _)) (hk.coord m (hpresent q.hasT _)) (hk.coord m (hpresent q.hasT _))
  have f0 : f 0 = 0 := (hzero 0 hk.p_pos).2 rfl
  refine ⟨hfits, fun h => if_neg (Bool.eq_false_iff.1 h), fun h => ⟨if_neg (Bool.eq_false_iff.1 h), if_neg (Bool.eq_false_iff.1 h)⟩,
    hq.aux, hreduced, fun ht hz => ?_, fun ht hz hi => ?_, fun ht hi => ?_⟩
  · obtain ⟨hiff, hxy⟩ := hq.jacobian ht hz
    have hz0 : (q.mapCoords f m).z = 0 ↔ q.z = 0 := by
      rw [← hzero q.z (hp _ (PReg.mem_present.2 (.inr (.inr (.inl ⟨hz, rfl⟩)))))]
      exact Eq.congr (if_pos hz) rfl
    refine ⟨hiff.trans hz0.symm, fun hi => ?_⟩
    obtain ⟨hx, hy⟩ := hxy hi
    exact ⟨(congrArg f hx).trans hunit, (congrArg f hy).trans hunit⟩
  · obtain ⟨hx, hy⟩ := hq.affineInf ht hz hi
    exact ⟨(congrArg f hx).trans f0, (congrArg f hy).trans f0⟩
  · obtain ⟨hz, hx, hy⟩ := hq.twistedInf ht hi
    exact ⟨hz, (congrArg f hx).trans f0, (congrArg f hy).trans hunit⟩

/-- `PTOMONT`'s map on a point whose present coordinates are reduced (43_curve_point_forms.md R190). -/
theorem Curve.Ok.toMont_ok {q : PReg} (hq : q.Ok W k) (hm : q.mont = false) (hp : ∀ t ∈ q.present, t < k.p) :
    (q.mapCoords (fun t => mont W k.fctx t k.fctx.r2mod) true).Ok W k := by
  refine hk.mapCoords_ok hq hp (fun t => hk.mont_lt t _)
    (fun t ht => hk.fctx.mont_eq_zero_iff hk.fctx.coprime_r2mod (hk.modulus ▸ ht)) ?_
  rw [hm]
  exact hk.fctx.mont_one_r2mod.trans hk.one.symm

/-- `PFROMMONT`'s map (43_curve_point_forms.md R191). -/
theorem Curve.Ok.fromMont_ok {q : PReg} (hq : q.Ok W k) (hm : q.mont = true) :
    (q.mapCoords (fun t => mont W k.fctx t 1) false).Ok W k := by
  refine hk.mapCoords_ok hq (hq.reduced hm) (fun t => hk.mont_lt t _)
    (fun t ht => hk.fctx.mont_eq_zero_iff (Nat.coprime_one_right _) (hk.modulus ▸ ht)) ?_
  rw [hm]
  exact (congrArg (mont W k.fctx · 1) hk.one).trans hk.fctx.mont_rmod_one

theorem Curve.Ok.proj_ok {q : PReg} (hq : q.Ok W k) : (k.proj q).Ok W k := by
  unfold Curve.proj
  split
  · next ht =>
    split
    · exact hk.jacobianIdentity_ok ht _ _
    · exact hk.jacobianPoint_ok hq.coord_x hq.coord_y (hk.coord_unit _) (hk.unit_ne_zero _) _
  · next ht => exact Curve.extendedPoint_ok ht hq.coord_x hq.coord_y (hk.coord_unit _) hq.coord_x hq.coord_y _

/-- The affine result of `PTOAFF` is in a legal form whatever the projective point was (43_curve_point_forms.md R193). -/
theorem Curve.Ok.affine_ok (q : PReg) : (k.affine W q).Ok W k := by
  unfold Curve.affine
  split
  · split
    · exact hk.affineIdentity_ok _ _
    · exact hk.affinePoint_ok (hk.coord _ (hk.fmul_lt _ _)) (hk.coord _ (hk.fmul_lt _ _)) _
  · next ht =>
    have hpt := hk.affinePoint_ok (hk.coord true (hk.fmul_lt q.x (k.finv W q.z))) (hk.coord true (hk.fmul_lt q.y (k.finv W q.z))) q.onc
    exact ⟨hpt.fits, hpt.absentZ, hpt.absentT, hpt.aux, hpt.reduced, nofun, fun h => absurd h (Curve.ne_weierstrass ht),
      fun _ hi => ⟨rfl, of_decide_eq_true hi⟩⟩

/-! ## Arithmetic -/

theorem Curve.Ok.wdbl_ok (ht : k.type = .weierstrass) (q : PReg) : (k.wdbl W q).Ok W k := by
  unfold Curve.wdbl
  split
  · exact hk.jacobianIdentity_ok ht _ _
  · dsimp only
    split
    · exact hk.jacobianIdentity_ok ht _ _
    · next hz0 =>
      exact hk.jacobianPoint_ok (hk.coord _ (hk.fsub_lt _ _)) (hk.coord _ (hk.fsub_lt _ _)) (hk.coord _ (hk.ftimes_lt _ _)) hz0 _

theorem Curve.Ok.tdbl_ok (ht : k.type = .twistedEdwards) (q : PReg) : (k.tdbl W q).Ok W k :=
  Curve.extendedPoint_ok ht (hk.coord _ (hk.fmul_lt _ _)) (hk.coord _ (hk.fmul_lt _ _)) (hk.coord _ (hk.fmul_lt _ _))
    (hk.coord _ (hk.fsub_lt _ _)) (hk.coord _ (hk.fsub_lt _ _)) _

theorem Curve.Ok.dbl_ok (q : PReg) : (k.dbl W q).Ok W k := by
  unfold Curve.dbl
  split
  · next ht => exact hk.wdbl_ok ht q
  · next ht => exact hk.tdbl_ok ht q

/-- Mixed addition (44_point_arith.md R215): of the operands' forms it needs only what it copies, the first point of a sum with the
identity and the coordinates of the second. -/
theorem Curve.Ok.wmadd_ok (ht : k.type = .weierstrass) {q1 q2 : PReg} (h1 : q1.Ok W k) (h2 : q2.Ok W k) (hm1 : q1.mont = true)
    (hm2 : q2.mont = true) : (k.wmadd W q1 q2).Ok W k := by
  have hid := fun o => hk.jacobianIdentity_ok ht true o
  unfold Curve.wmadd
  dsimp only
  split
  · exact hid _
  split
  · exact hk.jacobianPoint_ok (hm2 ▸ h2.coord_x) (hm2 ▸ h2.coord_y) (hk.coord_unit true) hk.one_ne_zero _
  split
  · have hT : q1.hasT = false := Bool.eq_false_iff.2 fun h => Curve.ne_twistedEdwards ht (h1.aux h).2
    have hcopy : ({ q1 with valid := true, hasT := false, mont := true, onc := q1.onc && q2.onc } : PReg)
        = { q1 with valid := true, onc := q1.onc && q2.onc } := by simp [hT, hm1]
    exact hcopy ▸ h1.with_valid_onc true _
  split
  · exact (hk.wdbl_ok ht q1).with_onc _
  split
  · exact hid _
  split
  · exact hid _
  · next hz0 =>
    exact hk.jacobianPoint_ok (hk.coord _ (hk.fsub_lt _ _)) (hk.coord _ (hk.fsub_lt _ _)) (hk.coord _ (hk.fmul_lt _ _)) hz0 _

theorem Curve.Ok.tadd_ok (ht : k.type = .twistedEdwards) (q1 q2 : PReg) : (k.tadd W q1 q2).Ok W k :=
  Curve.extendedPoint_ok ht (hk.coord _ (hk.fmul_lt _ _)) (hk.coord _ (hk.fmul_lt _ _)) (hk.coord _ (hk.fmul_lt _ _))
    (hk.coord _ (hk.fsub_lt _ _)) (hk.coord _ (hk.fsub_lt _ _)) _

theorem Curve.Ok.padd_ok {q1 q2 : PReg} (h1 : q1.Ok W k) (h2 : q2.Ok W k) (hm1 : q1.mont = true) (hm2 : q2.mont = true) :
    (k.padd W q1 q2).Ok W k := by
  unfold Curve.padd
  split
  · next ht => exact hk.wmadd_ok ht h1 h2 hm1 hm2
  · next ht => exact hk.tadd_ok ht q1 q2

omit hk in
theorem Curve.isProjMont_mont {q : PReg} (h : k.isProjMont q = true) : q.mont = true := by
  simp only [Curve.isProjMont, Bool.and_eq_true] at h
  exact h.1.2

omit hk in
theorem Curve.isSecondMont_mont {q : PReg} (h : k.isSecondMont q = true) : q.mont = true := by
  unfold Curve.isSecondMont at h
  split at h <;> exact (Bool.and_eq_true_iff.1 h).2

/-- Negation changes one coordinate, and `ta` with `x`; the point is not the flagged identity (44_point_arith.md R218). -/
theorem Curve.Ok.negCoords_ok {q : PReg} (hq : q.Ok W k) (hinf : ¬q.inf = true) : (k.negCoords q).Ok W k := by
  have hneg : ∀ x, k.fneg x < k.p := hk.fneg_lt
  have hfit : ∀ x, k.fneg x < 2 ^ (W * k.fctx.s) := fun x => (hneg x).trans hk.p_lt
  obtain ⟨fx, fy, fz, fta, ftb⟩ : q.x < 2 ^ (W * k.fctx.s) ∧ q.y < 2 ^ (W * k.fctx.s) ∧ q.z < 2 ^ (W * k.fctx.s)
      ∧ q.ta < 2 ^ (W * k.fctx.s) ∧ q.tb < 2 ^ (W * k.fctx.s) := by simpa using hq.fits
  have hred := fun hm t ht => hq.reduced hm t (PReg.mem_present.2 ht)
  unfold Curve.negCoords
  split
  · next ht =>
    refine ⟨by simp [fx, hfit, fz, fta, ftb], hq.absentZ, hq.absentT, hq.aux, fun hm t hmem => ?_,
      fun h hz => ⟨(hq.jacobian h hz).1, fun hi => absurd hi hinf⟩, fun _ _ hi => absurd hi hinf,
      fun h => absurd h (Curve.ne_twistedEdwards ht)⟩
    rcases PReg.mem_present.1 hmem with rfl | rfl | hzt
    · exact hred hm _ (.inl rfl)
    · exact hneg _
    · exact hred hm _ (.inr (.inr hzt))
  · next ht =>
    refine ⟨?_, hq.absentZ, fun h => ⟨?_, (hq.absentT h).2⟩, hq.aux, fun hm t hmem => ?_,
      fun h => absurd h (Curve.ne_weierstrass ht), fun h => absurd h (Curve.ne_weierstrass ht), fun _ hi => absurd hi hinf⟩
    · by_cases hT : q.hasT = true
      · simp [hT, hfit, fy, fz, ftb]
      · simp [hT, hfit, fy, fz, fta, ftb]
    · exact (if_neg (Bool.eq_false_iff.1 h)).trans (hq.absentT h).1
    · rcases PReg.mem_present.1 hmem with rfl | rfl | hz | ⟨hT, rfl | rfl⟩
      · exact hneg _
      · exact hred hm _ (.inr (.inl rfl))
      · exact hred hm _ (.inr (.inr (.inl hz)))
      · exact (if_pos hT).trans_lt (hneg _)
      · exact hred hm _ (.inr (.inr (.inr ⟨hT, .inr rfl⟩)))

theorem Curve.Ok.neg_ok {q : PReg} (hq : q.Ok W k) : (k.neg q).Ok W k := by
  unfold Curve.neg
  split
  · exact hq
  · next h => exact hk.negCoords_ok hq h

/-- The product of a scalar and a point ends in an affine form, whatever its table and its accumulator hold (45_scalar_mul.md R238). -/
theorem Curve.Ok.smul_ok (n : Nat) (q : PReg) : (k.smul W n q).Ok W k := by
  unfold Curve.smul
  split
  · exact hk.affineIdentity_ok _ _
  · dsimp only
    split
    · exact hk.affineIdentity_ok _ _
    · exact (hk.affine_ok _).with_onc true

/-! ## Points from the host's values -/

/-- The bytes of a coordinate fit the digits of `p`: `W` is a multiple of 8 (43_curve_point_forms.md R198, R199). -/
theorem Curve.Ok.byteLen_le (h8 : 8 ∣ W) : 8 * k.byteLen ≤ W * k.fctx.s := by
  obtain ⟨w, rfl⟩ := h8
  have hbits : bitlen k.p ≤ 8 * (w * k.fctx.s) := by
    rw [← mul_assoc]
    exact bitlen_le_iff.2 hk.p_lt
  have hbytes : k.byteLen ≤ w * k.fctx.s := (le_ceilDiv_iff (by decide)).2 hbits
  rw [mul_assoc]
  omega

theorem Curve.Ok.be_coord (h8 : 8 ∣ W) {bs : List Byte} (h : bs.length ≤ k.byteLen) : k.Coord W false (be bs) := by
  have hlen := hk.byteLen_le h8
  refine Curve.coord_std ?_
  calc be bs < 256 ^ bs.length := be_lt bs
    _ = 2 ^ (8 * bs.length) := pow_256_eq_two_pow _
    _ ≤ 2 ^ (W * k.fctx.s) := Nat.pow_le_pow_right (by decide) (by omega)

theorem Curve.Ok.decodePoint_ok (h8 : 8 ∣ W) {buf : List Byte} {q : PReg} (h : k.decodePoint buf = .ok q) : q.Ok W k := by
  unfold Curve.decodePoint at h
  split at h
  · cases h
  split at h
  · cases h
    exact hk.affineIdentity_ok _ _
  split at h
  · next hlen =>
    cases h
    refine hk.affinePoint_ok (hk.be_coord h8 ?_) (hk.be_coord h8 ?_) _
    · exact List.length_take_le _ _
    · rw [List.length_drop]
      omega
  · cases h

/-! ## Values read out of a point or a curve -/

theorem Curve.Ok.one_le_maxS : 1 ≤ Config.maxS W := hk.fctx.count.1.trans hk.fctx.count.2

theorem Curve.Ok.fits_of_lt {v : Nat} (h : v < 2 ^ (W * k.fctx.s)) : Fits W k.fctx.s v :=
  ⟨hk.fctx.count.1, hk.fctx.count.2.trans (maxS_le_cap W), h⟩

theorem Curve.Ok.fits_lt_p {v : Nat} (h : v < k.p) : Fits W k.fctx.s v := hk.fits_of_lt (h.trans hk.p_lt)

theorem Curve.Ok.order_fits (hW : 0 < W) : Fits W (Machine.normlen W k.order) k.order :=
  ⟨normlen_pos _ _, hk.order.2.2.trans (maxS_le_cap W), lt_pow_normlen hW _⟩

/-- `rbits` is at most the bits of the longest modulus, on either family (43_curve_point_forms.md R171). -/
theorem Curve.Ok.rbits_le (hW : 0 < W) : k.rbits ≤ W * Config.maxS W := by
  have hrbits := hk.rbits
  split at hrbits
  · rw [hrbits, bitlen_le_iff]
    exact (normlen_le_iff hW hk.one_le_maxS).1 hk.order.2.2
  · exact hrbits.2

theorem Curve.Ok.rbits_fits (hW : 0 < W) : Fits W (Machine.normlen W k.rbits) k.rbits :=
  Fits.normlen hW ⟨hk.one_le_maxS, maxS_le_cap W, Nat.lt_two_pow_self⟩ (hk.rbits_le hW)

theorem Curve.Ok.info_lt : k.type.code + 2 * k.spec.code + 16 * k.w < 256 := by
  have ht : k.type.code ≤ 1 := by cases k.type <;> decide
  have hs : k.spec.code ≤ 2 := by cases k.spec <;> decide
  have hw : k.w ≤ 6 := by
    rw [hk.w]
    split <;> decide
  omega

/-- What `CRVGET` writes is a register's pair (43_curve_point_forms.md R175). -/
theorem Curve.Ok.crvFieldValue_fits (hW : 0 < W) (h8 : 256 ≤ 2 ^ W) (f : CrvField) :
    Fits W (crvFieldValue W k f).1 (crvFieldValue W k f).2 := by
  cases f with
  | p => exact hk.fits_of_lt hk.p_lt
  | a => exact hk.fits_lt_p hk.a
  | bd => exact hk.fits_lt_p hk.bd
  | order => exact hk.order_fits hW
  | gx => exact hk.fits_lt_p hk.gx
  | gy => exact hk.fits_lt_p hk.gy
  | rbits => exact hk.rbits_fits hW
  | info => exact Fits.single hW (hk.info_lt.trans_le h8)

omit hk in
theorem PReg.flags_lt (q : PReg) : q.flags < 256 := by
  have hbit : ∀ (b : Bool) (i : Nat), flagBit b i ≤ 2 ^ i := fun b i => by cases b <;> simp [flagBit]
  have h0 := hbit q.hasZ 0
  have h1 := hbit q.hasT 1
  have h2 := hbit q.inf 2
  have h3 := hbit q.mont 3
  have h4 := hbit q.onc 4
  unfold PReg.flags
  omega

omit hk in
/-- A value that is read out only when it is present. -/
theorem eq_of_ite_ok {α : Type} {b : Bool} {a r : α} {e : ErrCode} (h : (if b then .ok a else .error e : Effect α) = .ok r) : a = r := by
  split at h
  · exact Except.ok.inj h
  · cases h

/-- What `PGET` writes is a register's pair (43_curve_point_forms.md R178). -/
theorem Curve.Ok.ptFieldValue_fits (hW : 0 < W) (h8 : 256 ≤ 2 ^ W) {q : PReg} (hq : q.Ok W k) {f : PtField} {r : Nat × Nat}
    (h : ptFieldValue k.fctx.s q f = .ok r) : Fits W r.1 r.2 := by
  have hcoord : ∀ t ∈ [q.x, q.y, q.z, q.ta, q.tb], Fits W k.fctx.s t := fun t ht => hk.fits_of_lt (hq.fits t ht)
  cases f with
  | x => cases h; exact hcoord _ (by simp)
  | y => cases h; exact hcoord _ (by simp)
  | z => exact eq_of_ite_ok h ▸ hcoord _ (by simp)
  | ta => exact eq_of_ite_ok h ▸ hcoord _ (by simp)
  | tb => exact eq_of_ite_ok h ▸ hcoord _ (by simp)
  | flags => cases h; exact Fits.single hW (q.flags_lt.trans_le h8)

end

/-- What `CTXGET` writes is a register's pair (41_montgomery.md R142). -/
theorem Ctx.Ok.ctxFieldValue_fits {W : Nat} {c : Ctx} (hc : c.Ok W) (hW : 0 < W) (f : CtxField) :
    Fits W (ctxFieldValue W c f).1 (ctxFieldValue W c f).2 := by
  cases f with
  | m => exact ⟨hc.count.1, hc.count.2.trans (maxS_le_cap W), hc.fits⟩
  | rmod => exact hc.fits_of_lt (hc.rmod.trans_lt (hc.mod_lt _))
  | r2mod => exact hc.fits_of_lt (hc.r2mod.trans_lt (hc.mod_lt _))
  | r3mod => exact hc.fits_of_lt (hc.r3mod.trans_lt (hc.mod_lt _))
  | mu => exact hc.fits_mu
  | mprime => exact Fits.single hW hc.mprimeFits
  | m0 => exact Fits.single hW (hc.m0.trans_lt (Nat.mod_lt _ (by positivity)))
  | s =>
    refine Fits.single hW ?_
    show countDigit W c.s < 2 ^ W
    unfold countDigit
    split
    · assumption
    · exact Nat.mod_lt _ (by positivity)

end Sys2Proof.Machine
end

section
/-! What a command does, said once: it faults, or it makes one of nine changes of the state, at the place its encoding names, with values
that the invariant allows. The reads of a command do not see the flags, so the same holds, with the same change, on a state that
differs in the flags. -/

namespace Sys2Proof.Machine

/-! ## Changes -/

/-- The writes of a completed command, before the end of the command itself. -/
inductive Change where
  | reg (d : BSel) (n v : Nat)
  | sum (d : BSel) (n v : Nat) (f : Bool)
  | pair (q : BSel) (nq vq : Nat) (r : BSel) (nr vr : Nat)
  | order (f : CmpFlag)
  | ctx (c : CSel) (x : Ctx)
  | curve (x : Curve)
  | point (d : PSel) (x : PReg)
  | verdict (d : PSel) (x : PReg) (f : Bool)
  | bytes (off : Nat) (bs : List Byte)

/-- The state with the writes made. -/
def Change.apply (s : State) : Change → State
  | .reg d n v => s.writeB d n v
  | .sum d n v f => (s.writeB d n v).setCarry f
  | .pair q nq vq r nr vr => (s.writeB q nq vq).writeB r nr vr
  | .order f => s.setCmp f
  | .ctx c x => s.writeC c x
  | .curve x => s.installCurve x
  | .point d x => s.writeP d x
  | .verdict d x f => (s.writeP d x).setV f
  | .bytes off bs => s.writeIob off bs

/-- A change without its values. -/
inductive Place where
  | reg (d : BSel)
  | sum (d : BSel)
  | pair (q r : BSel)
  | order
  | ctx (c : CSel)
  | curve
  | point (d : PSel)
  | verdict (d : PSel)
  | bytes (off len : Nat)

/-- Where a change lies. -/
def Change.place : Change → Place
  | .reg d .. => .reg d
  | .sum d .. => .sum d
  | .pair q _ _ r .. => .pair q r
  | .order _ => .order
  | .ctx c _ => .ctx c
  | .curve _ => .curve
  | .point d _ => .point d
  | .verdict d .. => .verdict d
  | .bytes off bs => .bytes off bs.length

/-- The big-number registers of a place. -/
def Place.regs : Place → List BSel
  | .reg d | .sum d => [d]
  | .pair q r => [q, r]
  | .order | .ctx _ | .curve | .point _ | .verdict _ | .bytes .. => []

/-- The point registers of a place. -/
def Place.points : Place → List PSel
  | .point d | .verdict d => [d]
  | .reg _ | .sum _ | .pair .. | .order | .ctx _ | .curve | .bytes .. => []

end Sys2Proof.Machine

namespace Sys2Proof
open Machine

/-- Where a completed command writes, flags included (10_state.md R24, R31, R34). -/
def Instr.place : Instr → Place
  | .ldb d .. | .mov d _ | .clr d | .norm d _ | .mul d .. | .montmul d .. | .tomont d .. | .frommont d .. | .modexp d .. | .bred d ..
  | .ctxget d .. | .modinv d .. | .modinvct d .. | .gcd d .. | .modadd d .. | .modsub d .. | .modmul d .. | .pget d ..
  | .crvget d _ => .reg d
  | .add d .. | .sub d .. => .sum d
  | .divrem q r .. => .pair q r
  | .cmp .. => .order
  | .ctxnew c _ => .ctx c
  | .crvnew .. | .crvld _ => .curve
  | .pset d .. | .pgen d | .pinf d | .pmov d _ | .pclr d | .ptomont d _ | .pfrommont d _ | .ptoproj d _ | .ptoaff d _ | .pdec d ..
  | .pdbl d _ | .padd d .. | .pneg d _ | .smul d .. => .point d
  | .pval d => .verdict d
  | .stb _ off lenm1 | .penc _ off lenm1 => .bytes off.val (lenm1.val + 1)

/-! ### The place of a command agrees with the lists of what it names -/

theorem Instr.writesB_eq (i : Instr) : i.writesB = i.place.regs := by cases i <;> rfl

theorem Instr.writesP_eq (i : Instr) : i.writesP = i.place.points := by cases i <;> rfl

theorem Instr.stores_of_place {i : Instr} {off len : Nat} (h : i.place = .bytes off len) : i.stores = some (off, len) := by
  cases i <;> cases h <;> rfl

theorem Instr.place_eq_sum_iff (i : Instr) : (∃ d, i.place = .sum d) ↔ ∃ d a b, i = .add d a b ∨ i = .sub d a b := by
  constructor
  · rintro ⟨d, h⟩
    cases i <;> cases h
    · exact ⟨_, _, _, .inl rfl⟩
    · exact ⟨_, _, _, .inr rfl⟩
  · rintro ⟨d, a, b, rfl | rfl⟩
    · exact ⟨d, rfl⟩
    · exact ⟨d, rfl⟩

theorem Instr.place_eq_verdict_iff (i : Instr) : (∃ d, i.place = .verdict d) ↔ ∃ q, i = .pval q := by
  constructor
  · rintro ⟨d, h⟩
    cases i <;> cases h
    exact ⟨d, rfl⟩
  · rintro ⟨q, rfl⟩
    exact ⟨q, rfl⟩

theorem Instr.place_eq_order_iff (i : Instr) : i.place = .order ↔ ∃ a b, i = .cmp a b := by
  constructor
  · intro h
    cases i <;> cases h
    exact ⟨_, _, rfl⟩
  · rintro ⟨a, b, rfl⟩
    rfl

theorem Instr.place_eq_ctx_iff (i : Instr) (c : CSel) : i.place = .ctx c ↔ ∃ b, i = .ctxnew c b := by
  constructor
  · intro h
    cases i <;> cases h
    exact ⟨_, rfl⟩
  · rintro ⟨b, rfl⟩
    rfl

theorem Instr.place_eq_curve_iff (i : Instr) : i.place = .curve ↔ (∃ f y, i = .crvnew f y) ∨ ∃ d, i = .crvld d := by
  constructor
  · intro h
    cases i <;> cases h
    · exact .inl ⟨_, _, rfl⟩
    · exact .inr ⟨_, rfl⟩
  · rintro (⟨f, y, rfl⟩ | ⟨d, rfl⟩)
    · rfl
    · rfl

theorem Instr.installs_iff (i : Instr) : i.installs = true ↔ i.place = .curve := by
  constructor
  · intro h
    cases i <;> cases h <;> rfl
  · intro h
    cases i <;> cases h <;> rfl

end Sys2Proof

namespace Sys2Proof.Machine

/-! ## Which changes a command may make -/

/-- The values of a change are those the invariant allows in the state `s` (10_state.md R21, R28 to R30, R33). -/
def Change.Sound (s : State) : Change → Prop
  | .reg _ n v | .sum _ n v _ => Fits s.W n v
  | .pair _ nq vq _ nr vr => Fits s.W nq vq ∧ Fits s.W nr vr
  | .ctx _ x => x.Ok s.W
  | .curve x => x.Ok s.W
  | .point _ x | .verdict _ x _ => x.valid = true → s.crv.Ok s.W ∧ x.Ok s.W s.crv
  | .order _ | .bytes .. => True

/-- A run of bytes lies in the buffer (20_memory.md R55). -/
def Change.InBuffer : Change → Prop
  | .bytes off bs => off + bs.length ≤ Config.iobBytes
  | .reg .. | .sum .. | .pair .. | .order _ | .ctx .. | .curve _ | .point .. | .verdict .. => True

/-- A change the command `i` may make in the state `s`. -/
structure Change.Legal (i : Instr) (s : State) (x : Change) : Prop where
  place : x.place = i.place
  inBuffer : x.InBuffer
  sound : s.Inv → x.Sound s

/-- The state with its three flags taken from `u` (10_state.md R24). -/
def State.withFlags (s : State) (u : Status) : State :=
  { s with status := { s.status with carry := u.carry, v := u.v, cmp := u.cmp } }

/-- Two effects, begun in `s` and in `s'`, raise the same fault or make the same change, for which `P` holds. -/
def Effect.Makes (P : Change → Prop) (s s' : State) (e e' : Effect State) : Prop :=
  (∃ c, e = .error c ∧ e' = .error c) ∨ ∃ x, P x ∧ e = .ok (x.apply s) ∧ e' = .ok (x.apply s')

theorem Effect.Makes.ok {P : Change → Prop} {s s' : State} (x : Change) (h : P x) :
    Effect.Makes P s s' (.ok (x.apply s)) (.ok (x.apply s')) := .inr ⟨x, h, rfl, rfl⟩

theorem Effect.Makes.error {P : Change → Prop} {s s' : State} (c : ErrCode) : Effect.Makes P s s' (.error c) (.error c) :=
  .inl ⟨c, rfl, rfl⟩

/-- Effects that begin with the same read or check. -/
theorem Effect.Makes.bind {α : Type} {P : Change → Prop} {s s' : State} {r : Effect α} {f f' : α → Effect State}
    (h : ∀ a, r = .ok a → Effect.Makes P s s' (f a) (f' a)) : Effect.Makes P s s' (r >>= f) (r >>= f') := by
  cases r with
  | error c => exact .error c
  | ok a => exact h a rfl

theorem raiseIf_ok {c : Bool} {e : ErrCode} {u : Unit} (h : raiseIf c e = .ok u) : c = false := by
  rcases raiseIf_cases c e with ⟨-, he⟩ | ⟨hc, -⟩
  · rw [he] at h
    cases h
  · exact hc

/-- Effects that begin with the same check of a condition, which fails after it. -/
theorem Effect.Makes.check {c : Prop} [Decidable c] {e : ErrCode} {P : Change → Prop} {s s' : State} {f f' : Unit → Effect State}
    (h : ¬c → Effect.Makes P s s' (f ()) (f' ())) :
    Effect.Makes P s s' (raiseIf (decide c) e >>= f) (raiseIf (decide c) e >>= f') :=
  .bind fun _ hr => h (of_decide_eq_false (raiseIf_ok hr))

/-- The command faults, or makes one legal change; with other flags it takes the same fault or makes the same change. -/
def Runs (i : Instr) (s : State) (u : Status) : Prop :=
  ∃ e e', exec i s = s.finish e ∧ exec i (s.withFlags u) = (s.withFlags u).finish e'
    ∧ Effect.Makes (Change.Legal i s) s (s.withFlags u) e e'

/-! ## What the invariant says of the values read -/

theorem BReg.Ok.fits {W : Nat} {r : BReg} (h : r.Ok W) (hv : r.valid = true) : Fits W r.len r.val := h.written hv

section
variable {s : State} (hs : s.Inv)
include hs

theorem State.Inv.readB_fits {i : BSel} {r : BReg} (h : s.readB i = .ok r) : Fits s.W r.len r.val := by
  obtain ⟨hv, rfl⟩ := (s.readB_ok_iff i r).1 h
  exact (hs.b i).fits hv

theorem State.Inv.readC_ok {i : CSel} {c : Ctx} (h : s.readC i = .ok c) : c.Ok s.W := by
  obtain ⟨hv, rfl⟩ := (s.readC_ok_iff i c).1 h
  rcases hs.c i with he | hok
  · rw [he] at hv
    cases hv
  · exact hok

theorem State.Inv.readCrv_ok {k : Curve} (h : s.readCrv = .ok k) : k.Ok s.W := by
  obtain ⟨hv, rfl⟩ := (s.readCrv_ok_iff k).1 h
  rcases hs.crv with he | hok
  · rw [he] at hv
    cases hv
  · exact hok

theorem State.Inv.readP_ok {k : Curve} {i : PSel} {q : PReg} (hk : s.readCrv = .ok k) (h : s.readP i = .ok q) : q.Ok s.W k := by
  obtain ⟨-, rfl⟩ := (s.readCrv_ok_iff k).1 hk
  obtain ⟨hv, rfl⟩ := (s.readP_ok_iff i q).1 h
  exact (hs.p i hv).2

/-- A point in a legal form under the curve read may be written. -/
theorem State.Inv.point_sound {k : Curve} (hk : s.readCrv = .ok k) {q : PReg} (hq : q.Ok s.W k) :
    q.valid = true → s.crv.Ok s.W ∧ q.Ok s.W s.crv := by
  have hok := hs.readCrv_ok hk
  obtain ⟨-, rfl⟩ := (s.readCrv_ok_iff k).1 hk
  exact fun _ => ⟨hok, hq⟩

theorem State.Inv.readRun_fits {n : Nat} {r : BReg} (h : s.readRun n = .ok r) : Fits s.W r.len r.val := by
  rcases s.readRun_cases n with ⟨-, he⟩ | ⟨-, he⟩
  · exact hs.readB_fits (he ▸ h)
  · rw [he] at h
    cases h

end

/-- A context is constructed from a register's pair (41_montgomery.md R121). -/
theorem Fits.makeCtx_ok {W n m : Nat} {c : Ctx} (hW : 0 < W) (h : Fits W n m) (hc : makeCtx W n m = .ok c) : c.Ok W := by
  rcases makeCtx_cases W n m hW h.1 h.2.2 with ⟨-, -, -, -, c', hc', hok, -⟩ | ⟨-, he⟩
  · rw [hc'] at hc
    cases hc
    exact hok
  · rw [he] at hc
    cases hc

/-- A curve is built from parameters whose prime fits its digits (43_curve_point_forms.md R171). -/
theorem buildCurve_ok {W : Nat} {t : CurveType} {q : CurveParams} {k : Curve} (hW : 0 < W) (hn : 1 ≤ q.np) (hp : q.p < 2 ^ (W * q.np))
    (h : buildCurve W t q = .ok k) : k.Ok W := by
  rcases buildCurve_cases W t q hW hn hp with ⟨e, he, -⟩ | ⟨-, k', hk', hok, -⟩
  · rw [he] at h
    cases h
  · rw [hk'] at h
    cases h
    exact hok

/-- The named curves give `p` with its normalized length (43_curve_point_forms.md R174; log 16). -/
theorem romCurve_ok {W id : Nat} {q : CurveParams} (h : romCurve W id = .ok q) : q.np = normlen W q.p := by
  rcases romCurve_cases W id with ⟨-, he⟩ | ⟨-, he⟩ | ⟨-, he⟩ | ⟨-, -, -, he⟩ <;> rw [he] at h <;> cases h <;> rfl

end Sys2Proof.Machine
end

section
/-! Every command runs: one lemma per command, a chain of its reads and checks that ends in its one change. -/

namespace Sys2Proof.Machine

variable (s : State) (u : Status)

/-! ## Digit arrays -/

theorem ldb_runs (d : BSel) (off len : Imm10) : Runs (.ldb d off len) s u :=
  ⟨_, _, rfl, rfl, .check fun hrun => .ok (.reg d _ _) ⟨rfl, trivial, fun _ =>
    Fits.of_bytes s.W_pos (by rw [Memory.readBytes_length]; omega)⟩⟩

theorem stb_runs (b : BSel) (off len : Imm10) : Runs (.stb b off len) s u :=
  ⟨_, _, rfl, rfl, .check fun hrun => .bind fun a _ => .check fun _ =>
    .ok (.bytes off.val (bytesBE a.val (len.val + 1))) ⟨by simp [Change.place, Instr.place],
      by simp only [Change.InBuffer, bytesBE_length]; omega, fun _ => trivial⟩⟩

theorem mov_runs (d a : BSel) : Runs (.mov d a) s u :=
  ⟨_, _, rfl, rfl, .bind fun _ ha => .ok (.reg d _ _) ⟨rfl, trivial, fun hs => hs.readB_fits ha⟩⟩

theorem clr_runs (d : BSel) : Runs (.clr d) s u :=
  ⟨_, _, rfl, rfl, .ok (.reg d 1 0) ⟨rfl, trivial, fun _ => Fits.single s.W_pos (by positivity)⟩⟩

theorem norm_runs (d a : BSel) : Runs (.norm d a) s u :=
  ⟨_, _, rfl, rfl, .bind fun _ ha => .ok (.reg d _ _) ⟨rfl, trivial, fun hs => (hs.readB_fits ha).normlen s.W_pos le_rfl⟩⟩

theorem cmp_runs (a b : BSel) : Runs (.cmp a b) s u :=
  ⟨_, _, rfl, rfl, .bind fun _ _ => .bind fun _ _ => .ok (.order _) ⟨rfl, trivial, fun _ => trivial⟩⟩

theorem add_runs (d a b : BSel) : Runs (.add d a b) s u :=
  ⟨_, _, rfl, rfl, .bind fun _ ha => .bind fun _ hb => .ok (.sum d _ _ _) ⟨rfl, trivial, fun hs =>
    (hs.readB_fits ha).max_mod (hs.readB_fits hb) _⟩⟩

theorem sub_runs (d a b : BSel) : Runs (.sub d a b) s u :=
  ⟨_, _, rfl, rfl, .bind fun _ ha => .bind fun _ hb => .ok (.sum d _ _ _) ⟨rfl, trivial, fun hs =>
    (hs.readB_fits ha).max_wrapSub (hs.readB_fits hb) _ _⟩⟩

theorem mul_runs (d a b : BSel) : Runs (.mul d a b) s u :=
  ⟨_, _, rfl, rfl, .bind fun _ ha => .bind fun _ hb => .check fun hcap => .ok (.reg d _ _) ⟨rfl, trivial, fun hs =>
    (hs.readB_fits ha).mul (hs.readB_fits hb) (Nat.le_of_not_lt hcap)⟩⟩

theorem divrem_runs (q r a b : BSel) : Runs (.divrem q r a b) s u :=
  ⟨_, _, rfl, rfl, .check fun _ => .bind fun _ ha => .bind fun _ _ => .check fun _ => .ok (.pair q _ _ r _ _) ⟨rfl, trivial, fun hs =>
    ⟨(hs.readB_fits ha).normlen s.W_pos (Nat.div_le_self _ _), (hs.readB_fits ha).normlen s.W_pos (Nat.mod_le _ _)⟩⟩⟩

/-! ## Montgomery engine -/

theorem ctxnew_runs (c : CSel) (a : BSel) : Runs (.ctxnew c a) s u :=
  ⟨_, _, rfl, rfl, .bind fun _ ha => .bind fun _ hc => .ok (.ctx c _) ⟨rfl, trivial, fun hs =>
    (hs.readB_fits ha).makeCtx_ok s.W_pos hc⟩⟩

theorem montmul_runs (d a b : BSel) (c : CSel) : Runs (.montmul d a b c) s u :=
  ⟨_, _, rfl, rfl, .bind fun _ hc => .bind fun _ _ => .bind fun _ _ => .bind fun _ _ => .bind fun _ _ => .ok (.reg d _ _)
    ⟨rfl, trivial, fun hs => (hs.readC_ok hc).fits_of_lt ((hs.readC_ok hc).mont_lt _ _)⟩⟩

theorem tomont_runs (d a : BSel) (c : CSel) : Runs (.tomont d a c) s u :=
  ⟨_, _, rfl, rfl, .bind fun _ hc => .bind fun _ _ => .bind fun _ _ => .ok (.reg d _ _)
    ⟨rfl, trivial, fun hs => (hs.readC_ok hc).fits_of_lt ((hs.readC_ok hc).mont_lt _ _)⟩⟩

theorem frommont_runs (d a : BSel) (c : CSel) : Runs (.frommont d a c) s u :=
  ⟨_, _, rfl, rfl, .bind fun _ hc => .bind fun _ _ => .bind fun _ _ => .ok (.reg d _ _)
    ⟨rfl, trivial, fun hs => (hs.readC_ok hc).fits_of_lt ((hs.readC_ok hc).mont_lt _ _)⟩⟩

theorem modexp_runs (d a e : BSel) (c : CSel) : Runs (.modexp d a e c) s u :=
  ⟨_, _, rfl, rfl, .bind fun _ hc => .bind fun _ _ => .bind fun _ _ => .bind fun _ _ => .ok (.reg d _ _)
    ⟨rfl, trivial, fun hs => (hs.readC_ok hc).fits_of_lt ((hs.readC_ok hc).powMod_lt _ _)⟩⟩

theorem bred_runs (d a : BSel) (c : CSel) : Runs (.bred d a c) s u :=
  ⟨_, _, rfl, rfl, .bind fun _ hc => .bind fun _ _ => .check fun _ => .ok (.reg d _ _)
    ⟨rfl, trivial, fun hs => (hs.readC_ok hc).fits_of_lt ((hs.readC_ok hc).mod_lt _)⟩⟩

theorem ctxget_runs (d : BSel) (c : CSel) (f : CtxField) : Runs (.ctxget d c f) s u :=
  ⟨_, _, rfl, rfl, .bind fun _ hc => .ok (.reg d _ _) ⟨rfl, trivial, fun hs => (hs.readC_ok hc).ctxFieldValue_fits s.W_pos f⟩⟩

/-! ## Inversion and the integer group -/

/-- The inverse, on either parity of the number of turns, is at most the modulus (42_inversion_group.md R151). -/
theorem modinv_runs (d a n : BSel) : Runs (.modinv d a n) s u :=
  ⟨_, _, rfl, rfl, .bind fun ra _ => .bind fun rn hn => .check fun h0 => .check fun _ => .check fun _ => .ok (.reg d _ _)
    ⟨rfl, trivial, fun hs => by
      have hle := euclid_cofactor_le rn.val (ra.val % rn.val) (Nat.pos_of_ne_zero h0)
      refine ((hs.readB_fits hn).normlen s.W_pos le_rfl).mono ?_
      split
      · exact hle
      · exact Nat.sub_le _ _⟩⟩

theorem modinvct_runs (d a : BSel) (c : CSel) : Runs (.modinvct d a c) s u :=
  ⟨_, _, rfl, rfl, .bind fun _ hc => .bind fun _ _ => .bind fun _ _ => .ok (.reg d _ _)
    ⟨rfl, trivial, fun hs => (hs.readC_ok hc).fits_of_lt ((hs.readC_ok hc).powMod_lt _ _)⟩⟩

theorem gcd_runs (d a b : BSel) : Runs (.gcd d a b) s u :=
  ⟨_, _, rfl, rfl, .bind fun _ ha => .bind fun _ hb => .ok (.reg d _ _) ⟨rfl, trivial, fun hs => by
    show Fits _ (normlen _ (euclid _ _).1) (euclid _ _).1
    rw [euclid_fst]
    exact (hs.readB_fits ha).gcd s.W_pos (hs.readB_fits hb)⟩⟩

theorem modadd_runs (d a b : BSel) (c : CSel) : Runs (.modadd d a b c) s u :=
  ⟨_, _, rfl, rfl, .bind fun _ hc => .bind fun _ _ => .bind fun _ _ => .bind fun _ ha => .bind fun _ hb => .ok (.reg d _ _)
    ⟨rfl, trivial, fun hs => (hs.readC_ok hc).fits_of_lt (modAdd_eq (residue_ok ha) (residue_ok hb) ▸ (hs.readC_ok hc).mod_lt _)⟩⟩

theorem modsub_runs (d a b : BSel) (c : CSel) : Runs (.modsub d a b c) s u :=
  ⟨_, _, rfl, rfl, .bind fun _ hc => .bind fun _ _ => .bind fun _ _ => .bind fun _ ha => .bind fun _ hb => .ok (.reg d _ _)
    ⟨rfl, trivial, fun hs => (hs.readC_ok hc).fits_of_lt (modSub_eq (residue_ok ha) (residue_ok hb) ▸ (hs.readC_ok hc).mod_lt _)⟩⟩

theorem modmul_runs (d a b : BSel) (c : CSel) : Runs (.modmul d a b c) s u :=
  ⟨_, _, rfl, rfl, .bind fun _ hc => .bind fun _ _ => .bind fun _ _ => .bind fun _ _ => .bind fun _ _ => .ok (.reg d _ _)
    ⟨rfl, trivial, fun hs => (hs.readC_ok hc).fits_of_lt ((hs.readC_ok hc).mont_lt _ _)⟩⟩

/-! ## Curves and point forms -/

theorem crvnew_runs (first : BSel) (type : Imm8) : Runs (.crvnew first type) s u :=
  ⟨_, _, rfl, rfl, .bind fun t _ => .check fun _ => .bind fun p hp => .bind fun _ _ => .bind fun _ _ => .bind fun _ _ =>
    .bind fun _ _ => .bind fun _ _ => by
    have hlegal : ∀ (q : CurveParams) (k : Curve), q.np = p.len → q.p = p.val → buildCurve s.W t q = .ok k →
        Change.Legal (.crvnew first type) s (.curve k) := fun q k hn hv hk =>
      ⟨rfl, trivial, fun hs => buildCurve_ok s.W_pos (hn ▸ (hs.readRun_fits hp).1) (hn ▸ hv ▸ (hs.readRun_fits hp).2.2) hk⟩
    cases t with
    | weierstrass => exact .bind fun _ _ => .bind fun k hk => .ok (.curve k) (hlegal _ k rfl rfl hk)
    | twistedEdwards => exact .bind fun _ _ => .bind fun k hk => .ok (.curve k) (hlegal _ k rfl rfl hk)⟩

theorem crvld_runs (id : Imm8) : Runs (.crvld id) s u :=
  ⟨_, _, rfl, rfl, .bind fun _ hq => .bind fun _ hk => .ok (.curve _) ⟨rfl, trivial, fun _ =>
    buildCurve_ok s.W_pos (romCurve_ok hq ▸ normlen_pos _ _) (romCurve_ok hq ▸ lt_pow_normlen s.W_pos _) hk⟩⟩

theorem crvget_runs (d : BSel) (f : CrvField) : Runs (.crvget d f) s u :=
  ⟨_, _, rfl, rfl, .bind fun _ hk => .ok (.reg d _ _) ⟨rfl, trivial, fun hs =>
    (hs.readCrv_ok hk).crvFieldValue_fits s.W_pos s.byte_le_digit f⟩⟩

theorem pset_runs (d : PSel) (a b : BSel) : Runs (.pset d a b) s u :=
  ⟨_, _, rfl, rfl, .bind fun _ hk => .bind fun _ _ => .bind fun _ _ => .check fun hlen => .ok (.point d _) ⟨rfl, trivial, fun hs =>
    hs.point_sound hk ((hs.readCrv_ok hk).affinePoint_ok (Curve.coord_std (by omega)) (Curve.coord_std (by omega)) _)⟩⟩

theorem pget_runs (d : BSel) (p : PSel) (f : PtField) : Runs (.pget d p f) s u :=
  ⟨_, _, rfl, rfl, .bind fun _ hk => .bind fun _ hq => .bind fun _ hf => .ok (.reg d _ _) ⟨rfl, trivial, fun hs =>
    (hs.readCrv_ok hk).ptFieldValue_fits s.W_pos s.byte_le_digit (hs.readP_ok hk hq) hf⟩⟩

theorem pgen_runs (d : PSel) : Runs (.pgen d) s u :=
  ⟨_, _, rfl, rfl, .bind fun _ hk => .ok (.point d _) ⟨rfl, trivial, fun hs =>
    have hok := hs.readCrv_ok hk
    hs.point_sound hk (hok.affinePoint_ok (hok.coord _ hok.gx) (hok.coord _ hok.gy) _)⟩⟩

theorem pinf_runs (d : PSel) : Runs (.pinf d) s u :=
  ⟨_, _, rfl, rfl, .bind fun _ hk => .ok (.point d _) ⟨rfl, trivial, fun hs =>
    hs.point_sound hk ((hs.readCrv_ok hk).affineIdentity_ok _ _)⟩⟩

theorem pmov_runs (d p : PSel) : Runs (.pmov d p) s u :=
  ⟨_, _, rfl, rfl, .bind fun _ hk => .bind fun _ hq => .ok (.point d _) ⟨rfl, trivial, fun hs =>
    hs.point_sound hk (hs.readP_ok hk hq)⟩⟩

/-- A cleared register is not valid, and nothing is asked of it (43_curve_point_forms.md R182). -/
theorem pclr_runs (d : PSel) : Runs (.pclr d) s u :=
  ⟨_, _, rfl, rfl, .ok (.point d PReg.empty) ⟨rfl, trivial, fun _ => nofun⟩⟩

theorem ptomont_runs (d p : PSel) : Runs (.ptomont d p) s u :=
  ⟨_, _, rfl, rfl, .bind fun _ hk => .bind fun _ hq => .bind fun _ hm => .bind fun _ hp => .ok (.point d _) ⟨rfl, trivial, fun hs =>
    hs.point_sound hk ((hs.readCrv_ok hk).toMont_ok (hs.readP_ok hk hq) (raiseIf_ok hm) (by simpa using raiseIf_ok hp))⟩⟩

theorem pfrommont_runs (d p : PSel) : Runs (.pfrommont d p) s u :=
  ⟨_, _, rfl, rfl, .bind fun _ hk => .bind fun _ hq => .bind fun _ hm => .ok (.point d _) ⟨rfl, trivial, fun hs =>
    hs.point_sound hk ((hs.readCrv_ok hk).fromMont_ok (hs.readP_ok hk hq) (by simpa using raiseIf_ok hm))⟩⟩

theorem ptoproj_runs (d p : PSel) : Runs (.ptoproj d p) s u :=
  ⟨_, _, rfl, rfl, .bind fun _ hk => .bind fun _ hq => .bind fun _ _ => .ok (.point d _) ⟨rfl, trivial, fun hs =>
    hs.point_sound hk ((hs.readCrv_ok hk).proj_ok (hs.readP_ok hk hq))⟩⟩

theorem ptoaff_runs (d p : PSel) : Runs (.ptoaff d p) s u :=
  ⟨_, _, rfl, rfl, .bind fun _ hk => .bind fun _ _ => .bind fun _ _ => .ok (.point d _) ⟨rfl, trivial, fun hs =>
    hs.point_sound hk ((hs.readCrv_ok hk).affine_ok _)⟩⟩

theorem pval_runs (p : PSel) : Runs (.pval p) s u :=
  ⟨_, _, rfl, rfl, .bind fun _ hk => .bind fun _ hq => .bind fun _ _ => .ok (.verdict p _ _) ⟨rfl, trivial, fun hs =>
    hs.point_sound hk ((hs.readP_ok hk hq).with_onc _)⟩⟩

/-- The bytes stored fill the run named: one for the identity, `1 + 2*L` for any other point (43_curve_point_forms.md R198). -/
theorem penc_runs (p : PSel) (off len : Imm10) : Runs (.penc p off len) s u :=
  ⟨_, _, rfl, rfl, .check fun hrun => .bind fun k _ => .bind fun q _ => .bind fun _ _ => .check fun hlen => by
    have hfill : ∀ bs : List Byte, bs.length = len.val + 1 → Change.Legal (.penc p off len) s (.bytes off.val bs) := fun bs hbs =>
      ⟨by simp only [Change.place, Instr.place, hbs], by simp only [Change.InBuffer, hbs]; omega, fun _ => trivial⟩
    by_cases hinf : q.inf = true
    · simp only [hinf, if_true] at hlen ⊢
      exact .ok (.bytes off.val [0x00]) (hfill _ (Decidable.not_not.1 hlen).symm)
    · simp only [hinf] at hlen ⊢
      refine .check fun _ => .ok (.bytes off.val (0x04 :: (bytesBE q.x k.byteLen ++ bytesBE q.y k.byteLen))) (hfill _ ?_)
      simp only [Bool.false_eq_true, if_false] at hlen
      rw [List.length_cons, List.length_append, bytesBE_length, bytesBE_length]
      omega⟩

theorem pdec_runs (d : PSel) (off len : Imm10) : Runs (.pdec d off len) s u :=
  ⟨_, _, rfl, rfl, .check fun _ => .bind fun _ hk => .bind fun _ hq => .ok (.point d _) ⟨rfl, trivial, fun hs =>
    hs.point_sound hk ((hs.readCrv_ok hk).decodePoint_ok s.eight_dvd_W hq)⟩⟩

/-! ## Point arithmetic -/

theorem pdbl_runs (d p : PSel) : Runs (.pdbl d p) s u :=
  ⟨_, _, rfl, rfl, .bind fun _ hk => .bind fun _ _ => .bind fun _ _ => .ok (.point d _) ⟨rfl, trivial, fun hs =>
    hs.point_sound hk ((hs.readCrv_ok hk).dbl_ok _)⟩⟩

theorem padd_runs (d p q : PSel) : Runs (.padd d p q) s u :=
  ⟨_, _, rfl, rfl, .bind fun k hk => .bind fun q1 h1 => .bind fun q2 h2 => .bind fun _ hform => .ok (.point d _) ⟨rfl, trivial, fun hs => by
    obtain ⟨hf1, hf2⟩ : k.isProjMont q1 = true ∧ k.isSecondMont q2 = true := by simpa using raiseIf_ok hform
    exact hs.point_sound hk ((hs.readCrv_ok hk).padd_ok (hs.readP_ok hk h1) (hs.readP_ok hk h2) (Curve.isProjMont_mont hf1)
      (Curve.isSecondMont_mont hf2))⟩⟩

theorem pneg_runs (d p : PSel) : Runs (.pneg d p) s u :=
  ⟨_, _, rfl, rfl, .bind fun _ hk => .bind fun _ hq => .bind fun _ _ => .ok (.point d _) ⟨rfl, trivial, fun hs =>
    hs.point_sound hk ((hs.readCrv_ok hk).neg_ok (hs.readP_ok hk hq))⟩⟩

theorem smul_runs (d p : PSel) (b : BSel) : Runs (.smul d p b) s u :=
  ⟨_, _, rfl, rfl, .bind fun _ hk => .bind fun _ _ => .bind fun _ _ => .bind fun _ _ => .bind fun _ _ => .check fun _ => .ok (.point d _)
    ⟨rfl, trivial, fun hs => hs.point_sound hk ((hs.readCrv_ok hk).smul_ok _ _)⟩⟩

end Sys2Proof.Machine
end

section
/-! What a command does, from the chains of the single commands; and what each change leaves as it was. -/

namespace Sys2Proof.Machine

/-- Every command faults, or makes one legal change, whatever the flags are. -/
theorem command_runs (s : State) (u : Status) : ∀ i : Instr, Runs i s u
  | .ldb d off len => ldb_runs s u d off len
  | .stb b off len => stb_runs s u b off len
  | .mov d a => mov_runs s u d a
  | .clr d => clr_runs s u d
  | .norm d a => norm_runs s u d a
  | .cmp a b => cmp_runs s u a b
  | .add d a b => add_runs s u d a b
  | .sub d a b => sub_runs s u d a b
  | .mul d a b => mul_runs s u d a b
  | .divrem q r a b => divrem_runs s u q r a b
  | .ctxnew c a => ctxnew_runs s u c a
  | .montmul d a b c => montmul_runs s u d a b c
  | .tomont d a c => tomont_runs s u d a c
  | .frommont d a c => frommont_runs s u d a c
  | .modexp d a e c => modexp_runs s u d a e c
  | .bred d a c => bred_runs s u d a c
  | .ctxget d c f => ctxget_runs s u d c f
  | .modinv d a n => modinv_runs s u d a n
  | .modinvct d a c => modinvct_runs s u d a c
  | .gcd d a b => gcd_runs s u d a b
  | .modadd d a b c => modadd_runs s u d a b c
  | .modsub d a b c => modsub_runs s u d a b c
  | .modmul d a b c => modmul_runs s u d a b c
  | .crvnew first type => crvnew_runs s u first type
  | .crvld id => crvld_runs s u id
  | .crvget d f => crvget_runs s u d f
  | .pset d a b => pset_runs s u d a b
  | .pget d p f => pget_runs s u d p f
  | .pgen d => pgen_runs s u d
  | .pinf d => pinf_runs s u d
  | .pmov d p => pmov_runs s u d p
  | .pclr d => pclr_runs s u d
  | .ptomont d p => ptomont_runs s u d p
  | .pfrommont d p => pfrommont_runs s u d p
  | .ptoproj d p => ptoproj_runs s u d p
  | .ptoaff d p => ptoaff_runs s u d p
  | .pval p => pval_runs s u p
  | .penc p off len => penc_runs s u p off len
  | .pdec d off len => pdec_runs s u d off len
  | .pdbl d p => pdbl_runs s u d p
  | .padd d p q => padd_runs s u d p q
  | .pneg d p => pneg_runs s u d p
  | .smul d p b => smul_runs s u d p b

/-- The two ends of a command: its fault, or its change, the same with other flags (60_exceptions.md R260, R261; 10_state.md R24). -/
theorem exec_withFlags {i : Instr} {s t : State} (h : exec i s = .next t) (u : Status) :
    (∃ c : ErrCode, t = s.faulted c.code ∧ exec i (s.withFlags u) = .next ((s.withFlags u).faulted c.code))
    ∨ ∃ x : Change, x.Legal i s ∧ t = (x.apply s).done ∧ exec i (s.withFlags u) = .next (x.apply (s.withFlags u)).done := by
  obtain ⟨e, e', hexec, hexec', ⟨c, rfl, rfl⟩ | ⟨x, hx, rfl, rfl⟩⟩ := command_runs s u i
  · rw [hexec] at h
    cases h
    exact .inl ⟨c, rfl, hexec'⟩
  · rw [hexec] at h
    cases h
    exact .inr ⟨x, hx, rfl, hexec'⟩

/-- The state after a command. -/
theorem exec_next {i : Instr} {s t : State} (h : exec i s = .next t) :
    (∃ c : ErrCode, t = s.faulted c.code) ∨ ∃ x : Change, x.Legal i s ∧ t = (x.apply s).done :=
  (exec_withFlags h s.status).imp (fun ⟨c, hc, _⟩ => ⟨c, hc⟩) fun ⟨x, hx, ht, _⟩ => ⟨x, hx, ht⟩

/-! ## What a change leaves as it was -/

section
variable (s : State) {x : Change}

theorem Change.apply_width : (x.apply s).width = s.width := by cases x <;> rfl
theorem Change.apply_host : (x.apply s).host = s.host := by cases x <;> rfl
theorem Change.apply_rdata : (x.apply s).rdata = s.rdata := by cases x <;> rfl
theorem Change.apply_freeReads : (x.apply s).freeReads = s.freeReads := by cases x <;> rfl
theorem Change.apply_faultCode : (x.apply s).faultCode = s.faultCode := by cases x <;> rfl
theorem Change.apply_faultCmd : (x.apply s).faultCmd = s.faultCmd := by cases x <;> rfl

theorem Change.apply_b {r : BSel} (h : r ∉ x.place.regs) : (x.apply s).b[r] = s.b[r] := by
  cases x with
  | reg d n v =>
    rw [Change.apply, State.writeB_get, if_neg]
    rintro rfl
    exact h (List.mem_singleton_self _)
  | sum d n v f =>
    rw [Change.apply, State.setCarry_b, State.writeB_get, if_neg]
    rintro rfl
    exact h (List.mem_singleton_self _)
  | pair q nq vq r' nr vr =>
    obtain ⟨hq, hr⟩ : r ≠ q ∧ r ≠ r' := by simpa [Change.place, Place.regs] using h
    rw [Change.apply, State.writeB_get, if_neg hr.symm, State.writeB_get, if_neg hq.symm]
  | order f => rfl
  | ctx c k => rfl
  | curve k => rfl
  | point d q => rfl
  | verdict d q f => rfl
  | bytes off bs => rfl

theorem Change.apply_p {r : PSel} (h : r ∉ x.place.points) (hc : x.place ≠ .curve) : (x.apply s).p[r] = s.p[r] := by
  cases x with
  | point d q =>
    rw [Change.apply, State.writeP_get, if_neg]
    rintro rfl
    exact h (List.mem_singleton_self _)
  | verdict d q f =>
    rw [Change.apply, State.setV_p, State.writeP_get, if_neg]
    rintro rfl
    exact h (List.mem_singleton_self _)
  | curve k => exact absurd rfl hc
  | reg d n v => rfl
  | sum d n v f => rfl
  | pair q nq vq r' nr vr => rfl
  | order f => rfl
  | ctx c k => rfl
  | bytes off bs => rfl

/-- A curve installation clears the valid bits of the points and leaves the rest of them (10_state.md R34). -/
theorem Change.apply_p_of_curve (h : x.place = .curve) (r : PSel) : (x.apply s).p[r] = { s.p[r] with valid := false } := by
  cases x with
  | curve k => exact State.installCurve_get s k r
  | reg | sum | pair | order | ctx | point | verdict | bytes => cases h

theorem Change.apply_c {c : CSel} (h : x.place ≠ .ctx c) : (x.apply s).c[c] = s.c[c] := by
  cases x with
  | ctx c' k =>
    rw [Change.apply, State.writeC_get, if_neg]
    rintro rfl
    exact h rfl
  | reg | sum | pair | order | curve | point | verdict | bytes => rfl

theorem Change.apply_crv (h : x.place ≠ .curve) : (x.apply s).crv = s.crv := by
  cases x with
  | curve k => exact absurd rfl h
  | reg | sum | pair | order | ctx | point | verdict | bytes => rfl

theorem Change.apply_iob_read {a : Nat} (h : ∀ off len, x.place = .bytes off len → ¬(off ≤ a ∧ a < off + len)) :
    (x.apply s).iob.read a = s.iob.read a := by
  cases x with
  | bytes off bs =>
    have := h off bs.length rfl
    exact Memory.read_writeBytes_outside bs s.iob off (by omega)
  | reg | sum | pair | order | ctx | curve | point | verdict => rfl

theorem Change.apply_iob_wf (hb : x.InBuffer) (h : s.iob.wf = true) : (x.apply s).iob.wf = true := by
  cases x with
  | bytes off bs => exact Memory.wf_writeBytes bs s.iob off h hb
  | reg | sum | pair | order | ctx | curve | point | verdict => exact h

end

/-! ## Flags -/

/-- The status with the flag of the change written (10_state.md R24). -/
def Change.flags (u : Status) : Change → Status
  | .sum _ _ _ f => { u with carry := f }
  | .verdict _ _ f => { u with v := f }
  | .order f => { u with cmp := f }
  | .reg .. | .pair .. | .ctx .. | .curve _ | .point .. | .bytes .. => u

section
variable {x : Change}

theorem Change.apply_status (s : State) : (x.apply s).status = x.flags s.status := by cases x <;> rfl

/-- A change writes the same on a state with other flags, the flags apart. -/
theorem Change.apply_withFlags (s : State) (u : Status) :
    x.apply (s.withFlags u) = { x.apply s with status := x.flags (s.withFlags u).status } := by
  cases x <;> rfl

theorem Change.flags_busy (u : Status) : (x.flags u).busy = u.busy := by cases x <;> rfl
theorem Change.flags_done (u : Status) : (x.flags u).done = u.done := by cases x <;> rfl
theorem Change.flags_fault (u : Status) : (x.flags u).fault = u.fault := by cases x <;> rfl

theorem Change.flags_carry_of_ne (h : ¬∃ d, x.place = .sum d) (u : Status) : (x.flags u).carry = u.carry := by
  cases x with
  | sum d n v f => exact absurd ⟨d, rfl⟩ h
  | reg | pair | order | ctx | curve | point | verdict | bytes => rfl

theorem Change.flags_v_of_ne (h : ¬∃ d, x.place = .verdict d) (u : Status) : (x.flags u).v = u.v := by
  cases x with
  | verdict d q f => exact absurd ⟨d, rfl⟩ h
  | reg | sum | pair | order | ctx | curve | point | bytes => rfl

theorem Change.flags_cmp_of_ne (h : x.place ≠ .order) (u : Status) : (x.flags u).cmp = u.cmp := by
  cases x with
  | order f => exact absurd rfl h
  | reg | sum | pair | ctx | curve | point | verdict | bytes => rfl

theorem Change.flags_carry_of_eq (h : ∃ d, x.place = .sum d) (u u' : Status) : (x.flags u).carry = (x.flags u').carry := by
  obtain ⟨d, hd⟩ := h
  cases x <;> cases hd
  rfl

theorem Change.flags_v_of_eq (h : ∃ d, x.place = .verdict d) (u u' : Status) : (x.flags u).v = (x.flags u').v := by
  obtain ⟨d, hd⟩ := h
  cases x <;> cases hd
  rfl

theorem Change.flags_cmp_of_eq (h : x.place = .order) (u u' : Status) : (x.flags u).cmp = (x.flags u').cmp := by
  cases x <;> cases h
  rfl

end
end Sys2Proof.Machine

/-! ## The obligations on commands -/

namespace Sys2Proof.Machine

/-- The flag of `ADD` and `SUB` is written by no other command. -/
theorem not_place_sum {i : Instr} (h : ∀ d a b, i ≠ .add d a b ∧ i ≠ .sub d a b) : ¬∃ d, i.place = .sum d := fun hd => by
  obtain ⟨d, a, b, he⟩ := i.place_eq_sum_iff.1 hd
  exact he.elim (h d a b).1 (h d a b).2

theorem not_place_verdict {i : Instr} (h : ∀ q, i ≠ .pval q) : ¬∃ d, i.place = .verdict d := fun hd => by
  obtain ⟨q, he⟩ := i.place_eq_verdict_iff.1 hd
  exact h q he

theorem not_place_order {i : Instr} (h : ∀ a b, i ≠ .cmp a b) : i.place ≠ .order := fun hd => by
  obtain ⟨a, b, he⟩ := i.place_eq_order_iff.1 hd
  exact h a b he

/-- Settles O54: the change of a command and its place are the same whatever the flags, and a change writes the flag of its place. -/
theorem flagRules : Obligations.FlagRules := by
  refine ⟨fun i s t h => ⟨fun hne => ?_, fun hne => ?_, fun hne => ?_, fun hdone => ?_, fun c v f => ?_⟩, rfl, rfl, rfl⟩
  · rcases exec_next h with ⟨c, rfl⟩ | ⟨x, hx, rfl⟩
    · rfl
    · exact (congrArg Status.carry (x.apply_status s)).trans (x.flags_carry_of_ne (hx.place ▸ not_place_sum hne) _)
  · rcases exec_next h with ⟨c, rfl⟩ | ⟨x, hx, rfl⟩
    · rfl
    · exact (congrArg Status.v (x.apply_status s)).trans (x.flags_v_of_ne (hx.place ▸ not_place_verdict hne) _)
  · rcases exec_next h with ⟨c, rfl⟩ | ⟨x, hx, rfl⟩
    · rfl
    · exact (congrArg Status.cmp (x.apply_status s)).trans (x.flags_cmp_of_ne (hx.place ▸ not_place_order hne) _)
  · rcases exec_next h with ⟨c, rfl⟩ | ⟨x, hx, rfl⟩
    · exact ⟨rfl, rfl, rfl⟩
    · cases hdone
  · rcases exec_withFlags h ⟨false, false, false, c, v, f⟩ with ⟨e, rfl, hexec⟩ | ⟨x, hx, rfl, hexec⟩
    · exact ⟨_, hexec, rfl, rfl, rfl, nofun, fun _ => rfl, nofun, fun _ => rfl, nofun, fun _ => rfl⟩
    · rw [x.apply_withFlags] at hexec
      have hst := x.apply_status s
      refine ⟨_, hexec, rfl, rfl, ?_, fun _ hw => ?_, fun hn => ?_, fun _ hw => ?_, fun hn => ?_, fun _ hw => ?_, fun hn => ?_⟩
      · exact (x.flags_fault _).trans ((congrArg Status.fault hst).trans (x.flags_fault _)).symm
      · exact (x.flags_carry_of_eq (hx.place ▸ i.place_eq_sum_iff.2 hw) _ _).trans (congrArg Status.carry hst).symm
      · exact x.flags_carry_of_ne (hx.place ▸ not_place_sum (hn.resolve_left nofun)) _
      · exact (x.flags_v_of_eq (hx.place ▸ i.place_eq_verdict_iff.2 hw) _ _).trans (congrArg Status.v hst).symm
      · exact x.flags_v_of_ne (hx.place ▸ not_place_verdict (hn.resolve_left nofun)) _
      · exact (x.flags_cmp_of_eq (hx.place.trans (i.place_eq_order_iff.2 hw)) _ _).trans (congrArg Status.cmp hst).symm
      · exact x.flags_cmp_of_ne (hx.place ▸ not_place_order (hn.resolve_left nofun)) _

/-- Settles O55: only a change whose place is the slot writes it, and `CRVNEW` and `CRVLD` alone have the curve as their place. -/
theorem immutableSlots : Obligations.ImmutableSlots := by
  intro i s t h
  rcases exec_next h with ⟨c, rfl⟩ | ⟨x, hx, rfl⟩
  · exact ⟨fun _ _ => rfl, fun _ _ => rfl, fun _ => nofun⟩
  · refine ⟨fun c hne => x.apply_c s ?_, fun hnew hld => x.apply_crv s ?_, fun hi _ j => ?_⟩
    · rw [hx.place, ne_eq, i.place_eq_ctx_iff]
      exact fun ⟨b, he⟩ => hne b he
    · rw [hx.place, ne_eq, i.place_eq_curve_iff]
      rintro (⟨f, y, he⟩ | ⟨d, he⟩)
      · exact hnew f y he
      · exact hld d he
    · have hp := x.apply_p_of_curve s (hx.place.trans (i.place_eq_curve_iff.2 hi)) j
      exact congrArg PReg.valid hp

/-- Settles O56: a change writes at its place, and the place of a command is among what the command names. -/
theorem commandFrame : Obligations.CommandFrame := by
  intro i s t h
  rcases exec_next h with ⟨c, rfl⟩ | ⟨x, hx, rfl⟩
  · exact ⟨fun _ _ => rfl, fun _ _ _ => rfl, fun _ _ => .inl rfl, fun _ _ => rfl, rfl, rfl, rfl, rfl⟩
  · refine ⟨fun r hr => x.apply_b s ?_, fun r hr hi => x.apply_p s ?_ ?_, fun r hi => .inr (x.apply_p_of_curve s ?_ r),
      fun a ha => x.apply_iob_read s fun off len hp => ?_, x.apply_width s, x.apply_host s, x.apply_rdata s, x.apply_freeReads s⟩
    · rwa [hx.place, ← i.writesB_eq]
    · rwa [hx.place, ← i.writesP_eq]
    · rw [hx.place, ne_eq, ← i.installs_iff, hi]
      exact Bool.false_ne_true
    · rwa [hx.place, ← i.installs_iff]
    · rwa [Instr.storesTo, Instr.stores_of_place (hx.place ▸ hp)] at ha

end Sys2Proof.Machine
end

section
/-! Every step keeps the invariant: its register files, its buffer and its status, each by the ways a step can go. -/

namespace Sys2Proof.Machine

/-! ## Steps -/

/-- What one host access does: a command is accepted, data for the host is latched, one byte is stored, or the core is reset
(20_memory.md R54, 70_reset_and_hazards.md R281, R288). -/
theorem State.hostAccess_cases (s : State) (a : HostAccess) :
    (∃ w, s.status.busy = false ∧ s.status.fault = false ∧ s.hostAccess a = s.accept w)
    ∨ (∃ d n, s.hostAccess a = { s with rdata := d, freeReads := n })
    ∨ (∃ (k : Fin 1024) (b : Byte), s.hostAccess a = s.writeIob k.val [b])
    ∨ s.hostAccess a = s.resetCore := by
  cases a with
  | writeReg word data =>
    by_cases h : word.val = 0 ∧ s.status.busy = false ∧ s.status.fault = false
    · exact .inl ⟨data, h.2.1, h.2.2, if_pos h⟩
    · exact .inr (.inl ⟨s.rdata, s.freeReads, if_neg h⟩)
  | readReg word => exact .inr (.inl ⟨_, s.freeReads, rfl⟩)
  | writeIob k data =>
    by_cases h : s.status.busy = true
    · exact .inr (.inl ⟨s.rdata, s.freeReads, if_pos h⟩)
    · exact .inr (.inr (.inl ⟨k, data, if_neg h⟩))
  | readIob k =>
    by_cases h : s.status.busy = true
    · exact .inr (.inl ⟨_, _, if_pos h⟩)
    · exact .inr (.inl ⟨_, s.freeReads, if_neg h⟩)
  | reset => exact .inr (.inr (.inr rfl))

/-- One step: the running command faults or makes its change, or the host moves (70_reset_and_hazards.md R283; log 3). -/
theorem step_cases {s t : State} (h : step s = .next t) :
    (∃ c : ErrCode, t = s.faulted c.code)
    ∨ (∃ (i : Instr) (x : Change), s.status.busy = true ∧ x.Legal i s ∧ t = (x.apply s).done)
    ∨ ∃ (l : List HostOp), t = { s with host := l } ∨ ∃ a, t = { s with host := l }.hostAccess a := by
  unfold step stepOnce at h
  split at h
  · next hrun =>
    unfold runCommand at h
    split at h
    · next i hi =>
      rcases exec_next h with hf | ⟨x, hx⟩
      · exact .inl hf
      · exact .inr (.inl ⟨i, x, (Bool.and_eq_true_iff.1 hrun).1, hx⟩)
    · cases h
      exact .inl ⟨.illegalCmd, rfl⟩
  · cases h
    unfold State.hostTurn
    split
    · next op rest hl => exact .inr (.inr ⟨rest, .inr ⟨op.access, rfl⟩⟩)
    · exact .inr (.inr ⟨s.host, .inl rfl⟩)

/-- A step keeps a property of states when the end of a command keeps it, the host's accesses keep it, and it does not depend on the
host's side of the state. -/
theorem step_keeps {P : State → Prop} {s t : State} (h : step s = .next t) (hs : P s)
    (hfault : ∀ c : ErrCode, P (s.faulted c.code))
    (hdone : ∀ (i : Instr) (x : Change), s.status.busy = true → x.Legal i s → P (x.apply s).done)
    (haccept : ∀ w, s.status.busy = false → s.status.fault = false → P (s.accept w))
    (hstore : ∀ (k : Fin 1024) (b : Byte), P (s.writeIob k.val [b]))
    (hreset : P s.resetCore)
    (hhost : ∀ (r : State) (l : List HostOp) (d : Word) (n : Nat), P r → P { r with host := l, rdata := d, freeReads := n }) : P t := by
  rcases step_cases h with ⟨c, rfl⟩ | ⟨i, x, hbusy, hx, rfl⟩ | ⟨l, rfl | ⟨a, rfl⟩⟩
  · exact hfault c
  · exact hdone i x hbusy hx
  · exact hhost s l s.rdata s.freeReads hs
  · rcases State.hostAccess_cases { s with host := l } a with ⟨w, hb, hf, he⟩ | ⟨d, n, he⟩ | ⟨k, b, he⟩ | he <;> rw [he]
    · exact hhost _ l s.rdata s.freeReads (haccept w hb hf)
    · exact hhost s l d n hs
    · exact hhost _ l s.rdata s.freeReads (hstore k b)
    · exact hhost s.resetCore l s.rdata s.freeReads hreset

/-! ## The buffer -/

theorem step_keeps_iob_wf {s t : State} (h : step s = .next t) (hs : s.iob.wf = true) : t.iob.wf = true :=
  step_keeps (P := fun r => r.iob.wf = true) h hs (fun _ => hs) (fun _ x _ hx => x.apply_iob_wf s hx.inBuffer hs) (fun _ _ _ => hs)
    (fun k b => Memory.wf_writeBytes [b] s.iob k.val hs k.isLt) rfl (fun _ _ _ _ hr => hr)

/-! ## The status -/

theorem State.StatusOk.faulted (s : State) (c : ErrCode) : (s.faulted c.code).StatusOk :=
  ⟨nofun, nofun, nofun, nofun, fun _ => ⟨c, rfl⟩⟩

theorem State.StatusOk.accept {s : State} (hs : s.StatusOk) (hf : s.status.fault = false) (w : Word) : (s.accept w).StatusOk :=
  ⟨nofun, fun h => Bool.false_ne_true (hf.symm.trans h.2), nofun, hs.clear, hs.code⟩

/-- A running command has no fault before it, so its completion shows `DONE` alone (10_state.md R25). -/
theorem State.StatusOk.apply_done {s : State} (hs : s.StatusOk) (hbusy : s.status.busy = true) (x : Change) :
    (x.apply s).done.StatusOk := by
  have hf : s.status.fault = false := Bool.eq_false_iff.2 fun h => hs.busyFault ⟨hbusy, h⟩
  have hf' : (x.apply s).done.status.fault = false := by
    rw [State.done_status, x.apply_status, x.flags_fault, hf]
  exact ⟨nofun, nofun, fun h => Bool.false_ne_true (hf'.symm.trans h.2),
    fun _ => ⟨(x.apply_faultCode s).trans (hs.clear hf).1, (x.apply_faultCmd s).trans (hs.clear hf).2⟩,
    fun h => absurd (hf'.symm.trans h) Bool.false_ne_true⟩

theorem State.StatusOk.resetOf (w : DigitWidth) : (State.resetOf w).StatusOk := ⟨nofun, nofun, nofun, fun _ => ⟨rfl, rfl⟩, nofun⟩

theorem step_keeps_statusOk {s t : State} (h : step s = .next t) (hs : s.StatusOk) : t.StatusOk := by
  have hhost : ∀ (r : State) (l : List HostOp) (d : Word) (n : Nat), r.StatusOk →
      { r with host := l, rdata := d, freeReads := n }.StatusOk := fun _ _ _ _ hr =>
    ⟨hr.busyDone, hr.busyFault, hr.doneFault, hr.clear, hr.code⟩
  have hstore : ∀ (k : Fin 1024) (b : Byte), (s.writeIob k.val [b]).StatusOk := fun _ _ =>
    ⟨hs.busyDone, hs.busyFault, hs.doneFault, hs.clear, hs.code⟩
  exact step_keeps h hs (State.StatusOk.faulted s) (fun _ x hbusy _ => hs.apply_done hbusy x) (fun w _ hf => hs.accept hf w) hstore
    (hhost _ _ _ _ (State.StatusOk.resetOf s.width)) hhost

/-- Settles O59, by the buffer and the status apart. -/
theorem bufferAndStatusKept : Obligations.BufferAndStatusKept :=
  fun _ _ h => ⟨step_keeps_iob_wf h, step_keeps_statusOk h⟩

/-! ## The register files -/

/-- The part of the invariant that speaks of the register files, the contexts and the curve slot. -/
structure State.FilesOk (s : State) : Prop where
  b : ∀ i : BSel, s.b[i].Ok s.W
  c : ∀ i : CSel, s.c[i] = Ctx.empty ∨ s.c[i].Ok s.W
  crv : s.crv = Curve.empty ∨ s.crv.Ok s.W
  p : ∀ i : PSel, s.p[i].valid = true → s.crv.Ok s.W ∧ s.p[i].Ok s.W s.crv

/-- The invariant is its three parts. -/
theorem State.inv_iff (s : State) : s.Inv ↔ s.FilesOk ∧ s.iob.wf = true ∧ s.StatusOk :=
  ⟨fun h => ⟨⟨h.b, h.c, h.crv, h.p⟩, h.iob, h.status⟩, fun ⟨h, hi, hst⟩ => ⟨h.b, h.c, h.crv, h.p, hi, hst⟩⟩

theorem State.FilesOk.resetOf (w : DigitWidth) : (State.resetOf w).FilesOk where
  b i := by
    have hi : (State.resetOf w).b[i] = BReg.empty := by simp [State.resetOf, Fin.getElem_fin]
    rw [hi]
    exact ⟨nofun, fun _ => rfl⟩
  c i := .inl (by simp [State.resetOf, Fin.getElem_fin])
  crv := .inl rfl
  p i h := by
    have hi : (State.resetOf w).p[i] = PReg.empty := by simp [State.resetOf, Fin.getElem_fin]
    rw [hi] at h
    cases h

section
variable {s : State} (hs : s.FilesOk)
include hs

theorem State.FilesOk.writeB {n v : Nat} (d : BSel) (h : Fits s.W n v) : (s.writeB d n v).FilesOk where
  b i := by
    rw [State.writeB_get]
    split
    · exact ⟨fun _ => h, nofun⟩
    · exact hs.b i
  c := hs.c
  crv := hs.crv
  p := hs.p

theorem State.FilesOk.writeC {k : Ctx} (c : CSel) (h : k.Ok s.W) : (s.writeC c k).FilesOk where
  b := hs.b
  c i := by
    rw [State.writeC_get]
    split
    · exact .inr h
    · exact hs.c i
  crv := hs.crv
  p := hs.p

theorem State.FilesOk.writeP {q : PReg} (d : PSel) (h : q.valid = true → s.crv.Ok s.W ∧ q.Ok s.W s.crv) : (s.writeP d q).FilesOk where
  b := hs.b
  c := hs.c
  crv := hs.crv
  p i := by
    rw [State.writeP_get]
    split
    · exact h
    · exact hs.p i

/-- A new curve leaves no valid point that could be in a form of the old one (10_state.md R34). -/
theorem State.FilesOk.installCurve {k : Curve} (h : k.Ok s.W) : (s.installCurve k).FilesOk where
  b := hs.b
  c := hs.c
  crv := .inr h
  p i hv := by
    rw [State.installCurve_get] at hv
    cases hv

/-- The status and the host's side are no part of the register files. -/
theorem State.FilesOk.of_files {t : State} (hw : t.width = s.width) (hb : t.b = s.b) (hc : t.c = s.c) (hk : t.crv = s.crv)
    (hp : t.p = s.p) : t.FilesOk := by
  have hW : t.W = s.W := congrArg DigitWidth.bits hw
  exact ⟨hb ▸ hW ▸ hs.b, hc ▸ hW ▸ hs.c, hk ▸ hW ▸ hs.crv, hp ▸ hk ▸ hW ▸ hs.p⟩

theorem State.FilesOk.apply {x : Change} (h : x.Sound s) : (x.apply s).FilesOk := by
  cases x with
  | reg d n v => exact hs.writeB d h
  | sum d n v f => exact (hs.writeB d h).of_files rfl rfl rfl rfl rfl
  | pair q nq vq r nr vr => exact (hs.writeB q h.1).writeB r h.2
  | order f => exact hs.of_files rfl rfl rfl rfl rfl
  | ctx c k => exact hs.writeC c h
  | curve k => exact hs.installCurve h
  | point d q => exact hs.writeP d h
  | verdict d q f => exact (hs.writeP d h).of_files rfl rfl rfl rfl rfl
  | bytes off bs => exact hs.of_files rfl rfl rfl rfl rfl

end

theorem step_keeps_filesOk {s t : State} (h : step s = .next t) (hs : s.Inv) : t.FilesOk := by
  have hf : s.FilesOk := (s.inv_iff.1 hs).1
  exact step_keeps h hf (fun _ => hf.of_files rfl rfl rfl rfl rfl)
    (fun _ _ _ hx => (hf.apply (hx.sound hs)).of_files rfl rfl rfl rfl rfl) (fun _ _ _ => hf.of_files rfl rfl rfl rfl rfl)
    (fun _ _ => hf.of_files rfl rfl rfl rfl rfl) ((State.FilesOk.resetOf s.width).of_files rfl rfl rfl rfl rfl)
    (fun _ _ _ _ hr => hr.of_files rfl rfl rfl rfl rfl)

/-- Settles O60: a legal change writes sound values, and the other ways of a step write no register file or clear them all. -/
theorem invKept : Obligations.InvKept := fun _ t hs h =>
  t.inv_iff.2 ⟨step_keeps_filesOk h hs, step_keeps_iob_wf h hs.iob, step_keeps_statusOk h hs.status⟩

/-! ## Reset, and the step itself -/

theorem State.Inv.resetOf (w : DigitWidth) : (State.resetOf w).Inv :=
  (State.inv_iff _).2 ⟨State.FilesOk.resetOf w, State.resetOf_iob_wf w, State.StatusOk.resetOf w⟩

/-- Settles O58: the reset state of a width has empty register files, an empty buffer and no status bit set. -/
theorem invReset : Obligations.InvReset := ⟨State.Inv.resetOf Config.resetWidth, State.Inv.resetOf⟩

theorem step_of_busy {s : State} (hb : s.status.busy = true) (hf : s.hostFirst = false) : step s = runCommand s := by
  simp [step, stepOnce, hb, hf]

theorem step_of_idle {s : State} (hb : s.status.busy = false) : step s = .next s.hostTurn := by
  simp [step, stepOnce, hb]

theorem runCommand_of_ok {s : State} {i : Instr} (h : decode s.cmd = .ok i) : runCommand s = exec i s := by
  simp [runCommand, h]

theorem runCommand_of_error {s : State} {e : DecodeError} (h : decode s.cmd = .error e) : runCommand s = .next (s.faulted 0x01) := by
  simp only [runCommand, h]
  rfl

theorem State.hostTurn_cons {s : State} {op : HostOp} {rest : List HostOp} (h : s.host = op :: rest) :
    s.hostTurn = { s with host := rest }.hostAccess op.access := by
  simp [State.hostTurn, h]

theorem State.hostAccess_cmd {s : State} (hb : s.status.busy = false) (hf : s.status.fault = false) (w : Word) :
    s.hostAccess (.writeReg 0 w) = s.accept w := if_pos ⟨rfl, hb, hf⟩

/-- Settles O5, from what a step of a busy and of an idle core is. -/
theorem stepRunsCommand : Obligations.StepRunsCommand := by
  refine ⟨fun s i hb hf hd => ?_, fun s e hb hf hd => ?_, fun s w early rest hb hf hh => ?_⟩
  · rw [step_of_busy hb hf, runCommand_of_ok hd]
  · rw [step_of_busy hb hf, runCommand_of_error hd]
  · have haccept : { s with host := rest }.hostAccess (.writeReg 0 w) = { s with host := rest }.accept w := State.hostAccess_cmd (s := { s with host := rest }) hb hf w
    rw [step_of_idle hb, State.hostTurn_cons hh, haccept]
    rfl

end Sys2Proof.Machine
end

section
/-! The host's port: the registers and what STATUS and ID hold, the places of the bus map, and the accesses to the buffer on an idle
and on a busy core (20_memory.md R53, R54, R56, R65; 10_state.md R25, R40). -/

namespace Sys2Proof.Machine

/-! ## The registers -/

theorem flagBit_eq (f : Bool) (i : Nat) : flagBit f i = f.toNat * 2 ^ i := by cases f <;> simp [flagBit]

theorem CmpFlag.code_lt (f : CmpFlag) : f.code < 4 := by cases f <;> decide

theorem CmpFlag.code_testBit_zero (f : CmpFlag) : f.code.testBit 0 = true ↔ f = .greater := by cases f <;> decide

theorem CmpFlag.code_testBit_one (f : CmpFlag) : f.code.testBit 1 = true ↔ f = .less := by cases f <;> decide

/-- `STATUS` as the bits of 10_state.md R25, bit 0 outermost. -/
theorem Status.word_toNat (u : Status) :
    u.word.toNat =
      Nat.bit u.busy (Nat.bit u.done (Nat.bit u.fault (Nat.bit false (Nat.bit u.carry (Nat.bit u.v u.cmp.code))))) := by
  have hcode := u.cmp.code_lt
  have hbusy := u.busy.toNat_le
  have hdone := u.done.toNat_le
  have hfault := u.fault.toNat_le
  have hcarry := u.carry.toNat_le
  have hv := u.v.toNat_le
  simp only [Status.word, flagBit_eq, BitVec.toNat_ofNat, Nat.bit_val, Bool.toNat_false]
  omega

theorem Status.word_toNat_lt (u : Status) : u.word.toNat < 2 ^ 8 := by
  rw [u.word_toNat]
  iterate 6 apply Nat.bit_lt_two_pow_succ_iff.2
  exact u.cmp.code_lt

/-- Each bit of `STATUS` is the flag at its place (10_state.md R25). -/
theorem Status.word_bits (u : Status) :
    u.word.getLsbD 0 = u.busy ∧ u.word.getLsbD 1 = u.done ∧ u.word.getLsbD 2 = u.fault ∧ u.word.getLsbD 3 = false
    ∧ u.word.getLsbD 4 = u.carry ∧ u.word.getLsbD 5 = u.v
    ∧ (u.word.getLsbD 6 = true ↔ u.cmp = .greater) ∧ (u.word.getLsbD 7 = true ↔ u.cmp = .less)
    ∧ ∀ j : Nat, 8 ≤ j → u.word.getLsbD j = false := by
  have hhigh (j : Nat) (hj : 8 ≤ j) : u.word.toNat.testBit j = false :=
    Nat.testBit_lt_two_pow (u.word_toNat_lt.trans_le (Nat.pow_le_pow_right two_pos hj))
  simp only [← BitVec.testBit_toNat] at hhigh ⊢
  rw [← u.cmp.code_testBit_zero, ← u.cmp.code_testBit_one]
  refine ⟨?_, ?_, ?_, ?_, ?_, ?_, ?_, ?_, hhigh⟩ <;>
    simp only [u.word_toNat, Nat.testBit_bit_zero, Nat.testBit_bit_succ]

theorem DigitWidth.bits_le (d : DigitWidth) : d.bits ≤ 64 := by cases d <;> decide

theorem State.idWord_toNat (s : State) : s.idWord.toNat = 0x4D4D0100 + s.W := by
  have hW := DigitWidth.bits_le s.width
  simp only [State.idWord, State.W, BitVec.toNat_ofNat]
  omega

theorem State.hostRegister_reserved (s : State) {word : Fin 256} (h : 5 ≤ word.val) : s.hostRegister word = 0 := by
  unfold State.hostRegister
  split
  case h_5 => rfl
  all_goals omega

theorem State.hostAccess_writeReg_of_ne (s : State) {word : Fin 256} (data : Word) (h : word.val ≠ 0) :
    s.hostAccess (.writeReg word data) = s := if_neg fun hacc => h hacc.1

/-! ## The map of the bus -/

theorem registerAt_word (word : Fin 256) : registerAt (4 * word.val) = some word := by
  have hoff : 4 * word.val < iobOffset ∧ 4 * word.val % 4 = 0 := by
    have := word.isLt
    unfold iobOffset
    omega
  rw [registerAt, if_pos hoff, Nat.mul_div_cancel_left _ (by decide)]
  simp

theorem iobByteAt_byte (a : Fin 1024) : iobByteAt (0x400 + a.val) = some a := by
  have hoff : iobOffset ≤ 0x400 + a.val ∧ 0x400 + a.val < blockBytes := by
    have := a.isLt
    unfold iobOffset blockBytes
    omega
  rw [iobByteAt, if_pos hoff, iobOffset, Nat.add_sub_cancel_left]
  simp

theorem registerAt_isSome (off : Nat) : (registerAt off).isSome ↔ off < 0x400 ∧ off % 4 = 0 := by
  rw [registerAt]
  exact Option.isSome_ite

theorem iobByteAt_isSome (off : Nat) : (iobByteAt off).isSome ↔ 0x400 ≤ off ∧ off < 0x800 := by
  rw [iobByteAt]
  exact Option.isSome_ite

theorem State.exists_busAccess_iff (s : State) (off : Nat) (op : BusOp) :
    (∃ t : State, s.busAccess off op = some t) ↔ (decodeBus off op).isSome := by
  rw [State.busAccess, ← Option.isSome_iff_exists, Option.isSome_map]

/-- Settles O12, from the bits of `STATUS`, the value of `ID` and the offsets the map decodes. -/
theorem hostReads : Obligations.HostReads := by
  refine ⟨?_, fun s _ => s.hostAccess_writeReg_of_ne, fun s word a data v => ⟨?_, ?_, ?_, ?_⟩, fun s off op => ?_, Status.word_bits⟩
  · rintro s word _ rfl
    have hreg (n : Fin 256) (h : word.val = n.val) : s.hostRegister word = s.hostRegister n := congrArg _ (Fin.ext h)
    exact ⟨rfl, hreg 0, hreg 1, hreg 2, hreg 3, fun h => (congrArg _ (hreg 4 h)).trans s.idWord_toNat, s.hostRegister_reserved⟩
  · simp [State.busAccess, decodeBus, registerAt_word]
  · simp [State.busAccess, decodeBus, registerAt_word]
  · simp [State.busAccess, decodeBus, iobByteAt_byte]
  · simp [State.busAccess, decodeBus, iobByteAt_byte]
  · rw [s.exists_busAccess_iff]
    cases op with
    | readWord | writeWord _ => rw [decodeBus, Option.isSome_map, registerAt_isSome]
    | readByte | writeByte _ => rw [decodeBus, Option.isSome_map, iobByteAt_isSome]

/-! ## The buffer -/

section
variable {s : State}

theorem State.hostAccess_readIob_idle (h : s.status.busy = false) (a : Fin 1024) :
    s.hostAccess (.readIob a) = { s with rdata := (s.iob.read a.val).zeroExtend 32 } := if_neg (by simp [h])

theorem State.hostAccess_readIob_busy (h : s.status.busy = true) (a : Fin 1024) :
    s.hostAccess (.readIob a)
      = { s with rdata := (Config.busyByte s.freeReads).zeroExtend 32, freeReads := s.freeReads + 1 } := if_pos h

theorem State.hostAccess_writeIob_idle (h : s.status.busy = false) (a : Fin 1024) (v : Byte) :
    s.hostAccess (.writeIob a v) = s.writeIob a.val [v] := if_neg (by simp [h])

theorem State.hostAccess_writeIob_busy (h : s.status.busy = true) (a : Fin 1024) (v : Byte) :
    s.hostAccess (.writeIob a v) = s := if_pos h

end

theorem Byte.zeroExtend_toNat_lt (v : Byte) : (v.zeroExtend 32 : Word).toNat < 256 := by
  rw [BitVec.toNat_setWidth]
  exact (Nat.mod_le _ _).trans_lt v.isLt

/-- Settles O13: on an idle core an access is a read or a write of the buffer, on a busy one it leaves the buffer alone. -/
theorem bufferAccess : Obligations.BufferAccess := by
  refine fun s a v hwf => ⟨fun hidle => ?_, fun hbusy => ?_⟩
  · obtain ⟨-, hsame, hother⟩ := Memory.write_spec v hwf a.isLt
    exact ⟨State.hostAccess_readIob_idle hidle a, _, State.hostAccess_writeIob_idle hidle a v, rfl, hsame, hother⟩
  · exact ⟨State.hostAccess_writeIob_busy hbusy a v, _, State.hostAccess_readIob_busy hbusy a, rfl, Byte.zeroExtend_toNat_lt _⟩

end Sys2Proof.Machine
end

section
/-! Command words: the fields of a packed word, what each reader of a field accepts, the decoder and the encoder as inverses of each
other, and the words the opcode map allows (30_encoding.md R71 to R76, R82). -/

namespace Sys2Proof

/-! ## The fields of a word -/

@[simp] theorem bitsOf_lt (w : Word) {hi lo n : Nat} (h : 2 ^ (hi + 1 - lo) ≤ n) : bitsOf w hi lo < n :=
  (Nat.mod_lt _ (by positivity)).trans_le h

/-- A format R word is the only word with its fields (30_encoding.md R71). -/
theorem packR_eq_iff {op rd ra rb rc im : Nat} {w : Word} (hop : op < 256) (hrd : rd < 16) (hra : ra < 16) (hrb : rb < 16)
    (hrc : rc < 16) (him : im < 256) :
    packR op rd ra rb rc im = w ↔ bitsOf w 31 24 = op ∧ bitsOf w 23 20 = rd ∧ bitsOf w 19 16 = ra ∧ bitsOf w 15 12 = rb
      ∧ bitsOf w 11 8 = rc ∧ bitsOf w 7 0 = im := by
  have hw := w.isLt
  rw [← BitVec.toNat_inj]
  simp only [packR, bitsOf, BitVec.toNat_ofNat]
  omega

/-- A format M word is the only word with its fields (30_encoding.md R72). -/
theorem packM_eq_iff {op r off lenm1 : Nat} {w : Word} (hop : op < 256) (hr : r < 16) (hoff : off < 1024) (hlen : lenm1 < 1024) :
    packM op r off lenm1 = w ↔ bitsOf w 31 24 = op ∧ bitsOf w 23 20 = r ∧ bitsOf w 19 10 = lenm1 ∧ bitsOf w 9 0 = off := by
  have hw := w.isLt
  rw [← BitVec.toNat_inj]
  simp only [packM, bitsOf, BitVec.toNat_ofNat]
  omega

/-! ## The readers of a field: the selectors and immediates -/

@[simp] theorem bSel_val (b : BSel) : bSel b = b := Fin.ofNat_val_eq_self b

@[simp] theorem imm10_val (v : Imm10) : imm10 v = v := Fin.ofNat_val_eq_self v

@[simp] theorem imm8_val (v : Imm8) : imm8 v = v := Fin.ofNat_val_eq_self v

@[simp] theorem val_bSel {n : Nat} (h : n < 16) : (bSel n).val = n := Nat.mod_eq_of_lt h

@[simp] theorem val_imm10 {n : Nat} (h : n < 1024) : (imm10 n).val = n := Nat.mod_eq_of_lt h

@[simp] theorem val_imm8 {n : Nat} (h : n < 256) : (imm8 n).val = n := Nat.mod_eq_of_lt h

@[simp] theorem pSel_eq_ok {n : Nat} {p : PSel} : pSel n = .ok p ↔ n = p.val := by
  unfold pSel
  split
  · simp [Fin.ext_iff]
  · simp only [reduceCtorEq, false_iff]
    omega

@[simp] theorem cSel_eq_ok {n : Nat} {c : CSel} : cSel n = .ok c ↔ n = c.val := by
  unfold cSel
  split
  · simp [Fin.ext_iff]
  · simp only [reduceCtorEq, false_iff]
    omega

@[simp] theorem exists_fin_val_eq {n k : Nat} : (∃ a : Fin k, n = a.val) ↔ n < k :=
  ⟨fun ⟨a, h⟩ => h ▸ a.isLt, fun h => ⟨⟨n, h⟩, rfl⟩⟩

/-! ## The readers of a field: the field selectors, each inverse to its `code` -/

@[simp] theorem ctxField_eq_ok {n : Nat} {f : CtxField} : ctxField n = .ok f ↔ n = f.code := by
  unfold ctxField
  split <;> cases f <;> simp_all [CtxField.code]

@[simp] theorem crvField_eq_ok {n : Nat} {f : CrvField} : crvField n = .ok f ↔ n = f.code := by
  unfold crvField
  split <;> cases f <;> simp_all [CrvField.code]

@[simp] theorem ptField_eq_ok {n : Nat} {f : PtField} : ptField n = .ok f ↔ n = f.code := by
  unfold ptField
  split <;> cases f <;> simp_all [PtField.code]

@[simp] theorem CtxField.code_lt (f : CtxField) {n : Nat} (h : 8 ≤ n) : f.code < n :=
  lt_of_lt_of_le (by cases f <;> decide) h

@[simp] theorem CrvField.code_lt (f : CrvField) {n : Nat} (h : 8 ≤ n) : f.code < n :=
  lt_of_lt_of_le (by cases f <;> decide) h

@[simp] theorem PtField.code_lt (f : PtField) {n : Nat} (h : 6 ≤ n) : f.code < n :=
  lt_of_lt_of_le (by cases f <;> decide) h

@[simp] theorem CtxField.exists_eq_code {n : Nat} : (∃ f : CtxField, n = f.code) ↔ n < 8 := by
  refine ⟨fun ⟨f, h⟩ => h ▸ f.code_lt le_rfl, fun h => ?_⟩
  interval_cases n
  exacts [⟨.m, rfl⟩, ⟨.rmod, rfl⟩, ⟨.r2mod, rfl⟩, ⟨.r3mod, rfl⟩, ⟨.mu, rfl⟩, ⟨.mprime, rfl⟩, ⟨.m0, rfl⟩, ⟨.s, rfl⟩]

@[simp] theorem CrvField.exists_eq_code {n : Nat} : (∃ f : CrvField, n = f.code) ↔ n < 8 := by
  refine ⟨fun ⟨f, h⟩ => h ▸ f.code_lt le_rfl, fun h => ?_⟩
  interval_cases n
  exacts [⟨.p, rfl⟩, ⟨.a, rfl⟩, ⟨.bd, rfl⟩, ⟨.order, rfl⟩, ⟨.gx, rfl⟩, ⟨.gy, rfl⟩, ⟨.rbits, rfl⟩, ⟨.info, rfl⟩]

@[simp] theorem PtField.exists_eq_code {n : Nat} : (∃ f : PtField, n = f.code) ↔ n < 6 := by
  refine ⟨fun ⟨f, h⟩ => h ▸ f.code_lt le_rfl, fun h => ?_⟩
  interval_cases n
  exacts [⟨.x, rfl⟩, ⟨.y, rfl⟩, ⟨.z, rfl⟩, ⟨.ta, rfl⟩, ⟨.tb, rfl⟩, ⟨.flags, rfl⟩]

/-! ## Well-formed commands, and when a decoding succeeds -/

/-- Only `DIVREM` and `CRVNEW` have a condition of their own (30_encoding.md R76 d, f). -/
theorem Instr.wf_of_ne {i : Instr} (hdivrem : ∀ q r a b, i ≠ .divrem q r a b) (hcrvnew : ∀ first type, i ≠ .crvnew first type) :
    i.wf = true := by
  unfold Instr.wf
  split
  · exact absurd rfl (hdivrem _ _ _ _)
  · exact absurd rfl (hcrvnew _ _)
  · rfl

theorem Instr.wf_divrem {q r a b : BSel} : (Instr.divrem q r a b).wf = true ↔ q.val ≠ r.val := by
  simp [Instr.wf, Fin.ext_iff]

theorem Instr.wf_crvnew {first : BSel} {type : Imm8} :
    (Instr.crvnew first type).wf = true ↔ (type.val = 0 → first.val ≤ 10) ∧ (type.val = 1 → first.val ≤ 9) := by
  simp only [Instr.wf]
  split_ifs <;> simp [*]

@[simp] theorem mustBeZero_eq_ok {fields : List Nat} {u : Unit} : mustBeZero fields = .ok u ↔ ∀ f ∈ fields, f = 0 := by
  simp [mustBeZero]

@[simp] theorem legal_eq_ok {i j : Instr} {e : DecodeError} : legal i e = .ok j ↔ i.wf = true ∧ i = j := by
  unfold legal
  split <;> simp [*]

section
variable {α β : Type}

@[simp] theorem DecodeError.bind_eq_ok {x : Except DecodeError α} {f : α → Except DecodeError β} {b : β} :
    (x >>= f) = .ok b ↔ ∃ a, x = .ok a ∧ f a = .ok b := by
  cases x <;> simp [bind, Except.bind]

@[simp] theorem DecodeError.pure_eq_ok {a b : α} : (pure a : Except DecodeError α) = .ok b ↔ a = b := by
  simp [pure, Except.pure]

@[simp] theorem DecodeError.map_eq_ok {x : Except DecodeError α} {f : α → β} {b : β} :
    f <$> x = .ok b ↔ ∃ a, x = .ok a ∧ f a = b := by
  cases x <;> simp [Functor.map, Except.map]

end

/-! ## The decoder and the encoder -/

/-- Command by command: the encoding fixes every field of the word, and the decoder reads those fields. -/
theorem decode_of_encode {w : Word} {i : Instr} (hwf : i.WellFormed) (h : encode i = w) : decode w = .ok i := by
  cases i
  all_goals
    -- `h` becomes the list of the fields of `w`
    simp [encode, packR_eq_iff, packM_eq_iff, Fin.val_lt_of_le] at h
    simp [decode, h, hwf]

/-- Arm by arm of the decoder: the readers that succeed give every field of the word, and these are the fields of the encoding. -/
theorem encode_of_decode {w : Word} {i : Instr} : decode w = .ok i → i.WellFormed ∧ encode i = w := by
  unfold decode
  dsimp only
  split
  case h_44 => exact nofun -- an unknown opcode
  all_goals
    simp only [DecodeError.bind_eq_ok, DecodeError.pure_eq_ok, mustBeZero_eq_ok, pSel_eq_ok, cSel_eq_ok, ctxField_eq_ok,
      crvField_eq_ok, ptField_eq_ok, legal_eq_ok, Except.ok.injEq, List.forall_mem_cons, forall_exists_index, and_imp]
    intros
    subst_vars
    simp [encode, packR_eq_iff, packM_eq_iff, Fin.val_lt_of_le, Instr.WellFormed, Instr.wf_of_ne, *]

/-- Settles O1: the decoder reads the fields the encoder wrote. -/
theorem decodeEncode : Obligations.DecodeEncode := fun _ hwf => decode_of_encode hwf rfl

/-- Settles O2: the fields the decoder read are those the encoder writes. -/
theorem encodeDecode : Obligations.EncodeDecode := fun _ _ => encode_of_decode

end Sys2Proof

/-! ## The words the opcode map allows -/

namespace Sys2Proof.Machine

@[simp] theorem FieldRule.zero_ok (v : Nat) : FieldRule.zero.ok v = true ↔ v = 0 := by simp [FieldRule.ok]

@[simp] theorem FieldRule.below_ok (n v : Nat) : (FieldRule.below n).ok v = true ↔ v < n := by simp [FieldRule.ok]

/-- The row of an opcode. -/
def rowAt (op : Nat) : Option OpcodeRow := (opcodeRowsLow ++ opcodeRowsHigh).find? (op == ·.op)

/-- No opcode has two rows. -/
theorem rowAt_eq_some {op : Nat} {r : OpcodeRow} : rowAt op = some r ↔ r ∈ opcodeRowsLow ++ opcodeRowsHigh ∧ r.op = op := by
  have hdistinct : ∀ q ∈ opcodeRowsLow ++ opcodeRowsHigh, rowAt q.op = some q := by decide
  constructor
  · intro h
    unfold rowAt at h
    have hop : op = r.op := by simpa using List.find?_some h
    exact ⟨List.mem_of_find?_eq_some h, hop.symm⟩
  · rintro ⟨hr, rfl⟩
    exact hdistinct r hr

/-- The rules of the row hold of the word's fields. -/
def OpcodeRow.Allows (r : OpcodeRow) (w : Word) : Prop :=
  r.rd.ok (bitsOf w 23 20) = true ∧ r.ra.ok (bitsOf w 19 16) = true ∧ r.rb.ok (bitsOf w 15 12) = true
    ∧ r.rc.ok (bitsOf w 11 8) = true ∧ r.im.ok (bitsOf w 7 0) = true

/-- A legal word is one its opcode's row allows, outside the three exceptions of 30_encoding.md R76 (d) and (f). -/
theorem legalWord_iff (w : Word) :
    legalWord w.toNat = true ↔
      (∃ r, rowAt (bitsOf w 31 24) = some r ∧ r.Allows w)
      ∧ ¬ (bitsOf w 31 24 = 0x19 ∧ bitsOf w 23 20 = bitsOf w 11 8)
      ∧ ¬ (bitsOf w 31 24 = 0x40 ∧ bitsOf w 7 0 = 0 ∧ 10 < bitsOf w 19 16)
      ∧ ¬ (bitsOf w 31 24 = 0x40 ∧ bitsOf w 7 0 = 1 ∧ 9 < bitsOf w 19 16) := by
  have hop : w.toNat / 2 ^ 24 = bitsOf w 31 24 := (Nat.mod_eq_of_lt (Nat.div_lt_of_lt_mul (show w.toNat < 2 ^ 24 * 2 ^ 8 from w.isLt))).symm
  have hrd : w.toNat / 2 ^ 20 % 16 = bitsOf w 23 20 := rfl
  have hra : w.toNat / 2 ^ 16 % 16 = bitsOf w 19 16 := rfl
  have hrb : w.toNat / 2 ^ 12 % 16 = bitsOf w 15 12 := rfl
  have hrc : w.toNat / 2 ^ 8 % 16 = bitsOf w 11 8 := rfl
  have him : w.toNat % 256 = bitsOf w 7 0 := by simp [bitsOf]
  simp only [legalWord, rowAt_eq_some, OpcodeRow.Allows, hop, hrd, hra, hrb, hrc, him, Bool.and_eq_true, List.any_eq_true,
    Bool.not_eq_true', ← Bool.not_eq_true, beq_iff_eq, decide_eq_true_eq, and_assoc]

/-- Arm by arm of the decoder: its readers succeed exactly on the fields that the opcode's row and the exceptions allow. -/
theorem exists_decode_iff (w : Word) : (∃ i, decode w = .ok i) ↔ legalWord w.toNat = true := by
  rw [legalWord_iff]
  unfold decode
  dsimp only
  split
  case h_44 => -- an unknown opcode has no row
    simp only [imp_false] at *
    simp [rowAt, opcodeRowsLow, opcodeRowsHigh, rowR, rowM, *]
  all_goals
    simp [rowAt, opcodeRowsLow, opcodeRowsHigh, rowR, rowM, OpcodeRow.Allows, Instr.wf_divrem, Instr.wf_crvnew, *]
  -- the two sides now list the same conditions, at most in another order
  all_goals omega

/-- Settles O3: the row of each opcode asks what the decoder's arm asks. -/
theorem legalWords : Obligations.LegalWords := exists_decode_iff

/-- Settles O4: every word is read by evaluating the decoder on it. -/
theorem decodeWords : Obligations.DecodeWords :=
  ⟨rfl, rfl, rfl, rfl, rfl, rfl, rfl, rfl, rfl, rfl, rfl, rfl, rfl, rfl, rfl⟩

end Sys2Proof.Machine
end

section
/-! The digit-array commands: what each one ends in, and the numbers it writes (40_digit_array.md). -/

namespace Sys2Proof.Machine

/-- The bytes of a string, weighted by their places (00_scope.md R12). -/
theorem be_map_range (f : Nat → Byte) (n : Nat) :
    be ((List.range n).map f) = ((List.range n).map fun j => (f j).toNat * 256 ^ (n - 1 - j)).sum := by
  induction n generalizing f with
  | zero => rfl
  | succ n ih =>
    simp [List.range_succ_eq_map, be_cons, ih, Function.comp_def, Nat.sub_sub, Nat.add_comm 1]

/-- The length that `normlen` gives is the normalized one (00_scope.md R10). -/
theorem normlen_normalized {W : Nat} (hW : 0 < W) (v : Nat) :
    v < 2 ^ (W * normlen W v) ∧ 1 ≤ normlen W v ∧ (normlen W v = 1 ∨ 2 ^ (W * (normlen W v - 1)) ≤ v) :=
  ⟨lt_pow_normlen hW v, normlen_pos W v, normlen_top hW⟩

/-- The wrapped sum and the carry out are the exact sum (40_digit_array.md R107). -/
theorem carryOut_spec {W n t : Nat} (h : t < 2 * 2 ^ (W * n)) :
    t % 2 ^ (W * n) < 2 ^ (W * n) ∧ t = t % 2 ^ (W * n) + (carryOut W n t).toNat * 2 ^ (W * n) := by
  refine ⟨Nat.mod_lt _ (by positivity), ?_⟩
  by_cases hc : 2 ^ (W * n) ≤ t
  · rw [carryOut, decide_eq_true hc, Nat.mod_eq_sub_mod hc, Nat.mod_eq_of_lt (by omega), Bool.toNat_true]
    omega
  · rw [carryOut, decide_eq_false hc, Nat.mod_eq_of_lt (by omega), Bool.toNat_false]
    omega

/-- The wrapped difference and the borrow out are the exact difference (40_digit_array.md R108). -/
theorem borrowOut_spec {a b n : Nat} (ha : a < 2 ^ n) (hb : b < 2 ^ n) :
    a + (borrowOut a b).toNat * 2 ^ n = wrapSub a b n + b := by
  rw [wrapSub_eq ha hb, borrowOut]
  by_cases h : a < b
  · rw [if_pos h, decide_eq_true h, Bool.toNat_true]
    omega
  · rw [if_neg h, decide_eq_false h, Bool.toNat_false]
    omega

/-! ## How each command ends -/

variable {s : State}

/-- A check ends the command when it fails, and otherwise is passed (60_exceptions.md R254, R261). -/
theorem State.finish_check (c : Prop) [Decidable c] (e : ErrCode) (f : Unit → Effect State) :
    s.finish (raiseIf (decide c) e >>= f) = if c then .next (s.faulted e.code) else s.finish (f ()) := by
  by_cases h : c
  · simp [h]
  · simp [h]

/-- The read of a held register gives what it holds (00_scope.md R11). -/
theorem State.finish_read {i : BSel} {n v : Nat} (h : s.holds i n v) (f : BReg → Effect State) :
    s.finish (s.readB i >>= f) = s.finish (f ⟨true, n, v⟩) := by
  rw [State.readB_holds h, Effect.bind_ok]

variable {ba bb : BSel} {la a lb b : Nat}

/-- `LDB` (40_digit_array.md R101). -/
theorem exec_ldb_eq (bd : BSel) (off lenm1 : Imm10) (s : State) :
    exec (.ldb bd off lenm1) s =
      if 1024 < off.val + (lenm1.val + 1) then .next (s.faulted 0x0D)
      else .next (s.writeB bd (normlen s.W (be (s.iob.readBytes off.val (lenm1.val + 1))))
        (be (s.iob.readBytes off.val (lenm1.val + 1)))).done :=
  State.finish_check _ _ _

/-- `STB` of a held register (40_digit_array.md R102). -/
theorem exec_stb_eq (ha : s.holds ba la a) (off lenm1 : Imm10) :
    exec (.stb ba off lenm1) s =
      if 1024 < off.val + (lenm1.val + 1) then .next (s.faulted 0x0D)
      else if 256 ^ (lenm1.val + 1) ≤ a then .next (s.faulted 0x0F)
      else .next (s.writeIob off.val (bytesBE a (lenm1.val + 1))).done := by
  rw [exec, execStb, State.finish_check, State.finish_read ha, State.finish_check]
  rfl

/-- `MOV` of a held register (40_digit_array.md R103). -/
theorem exec_mov_eq (ha : s.holds ba la a) (bd : BSel) : exec (.mov bd ba) s = .next (s.writeB bd la a).done :=
  State.finish_read ha _

/-- `NORM` of a held register (40_digit_array.md R105). -/
theorem exec_norm_eq (ha : s.holds ba la a) (bd : BSel) :
    exec (.norm bd ba) s = .next (s.writeB bd (normlen s.W a) a).done :=
  State.finish_read ha _

section
variable (ha : s.holds ba la a) (hb : s.holds bb lb b)
include ha hb

/-- `CMP` of held registers (40_digit_array.md R106). -/
theorem exec_cmp_eq : exec (.cmp ba bb) s = .next (s.setCmp (compareFlag a b)).done := by
  rw [exec, execCmp, State.finish_read ha, State.finish_read hb]
  rfl

/-- `ADD` of held registers (40_digit_array.md R107). -/
theorem exec_add_eq (bd : BSel) :
    exec (.add bd ba bb) s = .next ((s.writeB bd (max la lb) ((a + b) % 2 ^ (s.W * max la lb))).setCarry
      (carryOut s.W (max la lb) (a + b))).done := by
  rw [exec, execAdd, State.finish_read ha, State.finish_read hb]
  rfl

/-- `SUB` of held registers (40_digit_array.md R108). -/
theorem exec_sub_eq (bd : BSel) :
    exec (.sub bd ba bb) s = .next ((s.writeB bd (max la lb) (wrapSub a b (s.W * max la lb))).setCarry (borrowOut a b)).done := by
  rw [exec, execSub, State.finish_read ha, State.finish_read hb]
  rfl

/-- `MUL` of held registers (40_digit_array.md R109). -/
theorem exec_mul_eq (bd : BSel) :
    exec (.mul bd ba bb) s =
      if Config.cap s.W < la + lb then .next (s.faulted 0x03) else .next (s.writeB bd (la + lb) (a * b)).done := by
  rw [exec, execMul, State.finish_read ha, State.finish_read hb, State.finish_check]
  rfl

/-- `DIVREM` of held registers (40_digit_array.md R110). -/
theorem exec_divrem_eq {bq br : BSel} (hne : bq ≠ br) :
    exec (.divrem bq br ba bb) s =
      if b = 0 then .next (s.faulted 0x06)
      else .next ((s.writeB bq (normlen s.W (a / b)) (a / b)).writeB br (normlen s.W (a % b)) (a % b)).done := by
  rw [exec, execDivrem, State.finish_check, if_neg hne, State.finish_read ha, State.finish_read hb, State.finish_check]
  rfl

end

/-! ## The obligations -/

/-- Settles O14: the value of the run is the weighted sum of its bytes, and `normlen` is its normalized length. -/
theorem ldbResult : Obligations.LdbResult := by
  intro bd off lenm1 s
  rw [exec_ldb_eq]
  refine ⟨fun h => if_pos h, fun h => ⟨_, _, if_neg (by omega), ?_, normlen_normalized s.W_pos _⟩⟩
  exact be_map_range (fun j => s.iob.read (off.val + j)) (lenm1.val + 1)

/-- Settles O15: the bytes read back are those of `bytesBE`, and a run leaves the bytes outside it alone. -/
theorem stbResult : Obligations.StbResult := by
  intro bs off lenm1 s n v hwf hv hrun
  rw [exec_stb_eq hv, if_neg (by omega)]
  refine ⟨fun h => if_pos h, fun h => ⟨_, if_neg (by omega), rfl, fun j hj => ?_, fun x hx => ?_⟩⟩
  · rw [State.writeIob_iob, Memory.read_writeBytes_inside _ _ _ j (by simp; omega) hwf (by rwa [bytesBE_length]), bytesBE_getElem,
      Nat.add_sub_cancel]
  · exact Memory.read_writeBytes_outside _ _ _ (by simpa using hx)

/-- Settles O16: the run written is the run read, and its value is the value stored. -/
theorem bufferRoundTrip : Obligations.BufferRoundTrip := by
  intro bs bd off lenm1 s n v hwf hv hrun hfit
  have hrun' : ¬1024 < off.val + (lenm1.val + 1) := by omega
  have hback : be ((s.iob.writeBytes off.val (bytesBE v (lenm1.val + 1))).readBytes off.val (lenm1.val + 1)) = v := by
    have h := Memory.readBytes_writeBytes (bytesBE v (lenm1.val + 1)) s.iob off.val hwf (by rwa [bytesBE_length])
    rw [bytesBE_length] at h
    rw [h, be_bytesBE hfit]
  refine ⟨(s.writeIob off.val (bytesBE v (lenm1.val + 1))).done, _, ?_, (exec_ldb_eq ..).trans (if_neg hrun'), ?_, fun r hr => ?_⟩
  · rw [exec_stb_eq hv, if_neg hrun', if_neg (by omega)]
  · rw [State.done_iob, State.writeIob_iob, hback]
    exact (State.writeB_get _ bd bd _ _).trans (if_pos rfl)
  · exact (State.writeB_get _ bd r _ _).trans (if_neg hr.symm)

/-- Settles O17: each command's end, `normlen` and the three-way comparison. -/
theorem moveResults : Obligations.MoveResults := by
  intro bd ba bb s la a lb b
  refine ⟨rfl, fun ha => ⟨exec_mov_eq ha bd, _, exec_norm_eq ha bd, normlen_normalized s.W_pos a⟩, fun ha hb => ?_⟩
  exact ⟨compareFlag a b, exec_cmp_eq ha hb, compareFlag_spec a b⟩

/-- Settles O18: both operands fit the longer length, where carry and borrow make the results exact. -/
theorem addSubResults : Obligations.AddSubResults := by
  intro bd ba bb s la a lb b ha hb hla hlb
  have hla' : a < 2 ^ (s.W * max la lb) := hla.trans_le (Nat.pow_le_pow_right (by decide) (Nat.mul_le_mul_left _ (le_max_left ..)))
  have hlb' : b < 2 ^ (s.W * max la lb) := hlb.trans_le (Nat.pow_le_pow_right (by decide) (Nat.mul_le_mul_left _ (le_max_right ..)))
  exact ⟨⟨_, _, exec_add_eq ha hb bd, carryOut_spec (by omega)⟩,
    _, _, exec_sub_eq ha hb bd, wrapSub_lt _ _ _, borrowOut_spec hla' hlb'⟩

/-- Settles O19: the capacity check of `MUL`, the zero check of `DIVREM`, and the quotient and remainder of natural numbers. -/
theorem mulDivResults : Obligations.MulDivResults := by
  intro bd br ba bb s la a lb b ha hb
  rw [exec_mul_eq ha hb]
  refine ⟨fun h => if_neg (by omega), fun h => if_pos h, fun hne h0 => ?_, fun hne h0 => ?_⟩
  · rw [exec_divrem_eq ha hb hne, if_pos h0]
  · refine ⟨a / b, a % b, (Nat.div_add_mod' a b).symm, Nat.mod_lt _ (Nat.pos_of_ne_zero h0), ?_⟩
    rw [exec_divrem_eq ha hb hne, if_neg h0]

end Sys2Proof.Machine
end

section
/-! The digit loops of `CMP`, `ADD`, `SUB` and `MUL`: the values they leave on digit strings (40_digit_array.md R106 to R108, R111). -/

namespace Sys2Proof.Machine

/-! ## Digit strings -/

/-- Every element is a digit of `W` bits (00_scope.md R10). -/
def AllDigits (W : Nat) (l : List Nat) : Prop := ∀ d ∈ l, d < 2 ^ W

theorem AllDigits.cons {W d : Nat} {l : List Nat} (hd : d < 2 ^ W) (hl : AllDigits W l) : AllDigits W (d :: l) :=
  List.forall_mem_cons.2 ⟨hd, hl⟩

theorem allDigits_digits (W v n : Nat) : AllDigits W (digits W v n) := by
  intro d hd
  obtain ⟨i, -, rfl⟩ := List.mem_map.1 hd
  exact Nat.mod_lt _ (by positivity)

@[simp] theorem digits_zero (W v : Nat) : digits W v 0 = [] := rfl

/-- The least significant digit, and the digits of the rest (00_scope.md R10). -/
theorem digits_succ (W v n : Nat) : digits W v (n + 1) = v % 2 ^ W :: digits W (v / 2 ^ W) n := by
  simp [digits, List.range_succ_eq_map, Nat.div_div_eq_div_mul, ← pow_add, Nat.mul_succ, Nat.add_comm W]

/-- A number of `n + 1` digits loses one to a division by the base. -/
theorem div_base_lt {W v n : Nat} (h : v < 2 ^ (W * (n + 1))) : v / 2 ^ W < 2 ^ (W * n) := by
  rw [Nat.div_lt_iff_lt_mul (by positivity), ← pow_add]
  exact h

/-- The digits of a number that fits have its value (00_scope.md R10). -/
theorem digitsVal_digits {W v n : Nat} (h : v < 2 ^ (W * n)) : digitsVal W (digits W v n) = v := by
  induction n generalizing v with
  | zero => simpa [digitsVal, eq_comm] using h
  | succ n ih => rw [digits_succ, digitsVal, ih (div_base_lt h), Nat.mod_add_div]

theorem AllDigits.digitsVal_lt {W : Nat} {l : List Nat} (h : AllDigits W l) : digitsVal W l < 2 ^ (W * l.length) := by
  induction l with
  | nil => simp [digitsVal]
  | cons d l ih =>
    obtain ⟨hd, hl⟩ := List.forall_mem_cons.1 h
    calc d + 2 ^ W * digitsVal W l < 2 ^ W * (digitsVal W l + 1) := by rw [mul_add]; omega
      _ ≤ 2 ^ W * 2 ^ (W * l.length) := Nat.mul_le_mul_left _ (ih hl)
      _ = 2 ^ (W * (d :: l).length) := by rw [← pow_add, List.length_cons, mul_add, mul_one, add_comm]

theorem digitsVal_replicate_zero (W n : Nat) : digitsVal W (List.replicate n 0) = 0 := by
  induction n with
  | zero => rfl
  | succ n ih => simp [List.replicate_succ, digitsVal, ih]

theorem digitsVal_head_tail (W : Nat) (l : List Nat) : l.headD 0 + 2 ^ W * digitsVal W l.tail = digitsVal W l := by
  cases l <;> rfl

theorem two_pow_mul_succ (W n : Nat) : 2 ^ (W * (n + 1)) = 2 ^ W * 2 ^ (W * n) := by rw [mul_add, mul_one, pow_add, mul_comm]

/-! ## Addition and subtraction -/

theorem addLoop_nil_value (W c : Nat) : (addLoop W [] [] c).value = ([], c) := rfl

theorem addLoop_cons_value (W a b c : Nat) (as bs : List Nat) :
    (addLoop W (a :: as) (b :: bs) c).value
      = ((a + b + c) % 2 ^ W :: (addLoop W as bs ((a + b + c) / 2 ^ W)).value.1, (addLoop W as bs ((a + b + c) / 2 ^ W)).value.2) := rfl

/-- The sum digits and the carry out are the exact sum with the carry in (40_digit_array.md R107). -/
theorem addLoop_spec (W : Nat) {as bs : List Nat} (c : Nat) (h : as.length = bs.length) :
    digitsVal W (addLoop W as bs c).value.1 + 2 ^ (W * as.length) * (addLoop W as bs c).value.2
        = digitsVal W as + digitsVal W bs + c
      ∧ (addLoop W as bs c).value.1.length = as.length := by
  induction as generalizing bs c with
  | nil =>
    obtain rfl := List.length_eq_zero_iff.1 h.symm
    simp [addLoop_nil_value, digitsVal]
  | cons a as ih =>
    obtain ⟨b, bs, rfl⟩ := List.exists_cons_of_length_eq_add_one h.symm
    obtain ⟨hval, hlen⟩ := ih ((a + b + c) / 2 ^ W) (Nat.succ_injective h)
    simp only [addLoop_cons_value, digitsVal, List.length_cons, hlen, and_true, two_pow_mul_succ]
    generalize (addLoop W as bs ((a + b + c) / 2 ^ W)).value = r at hval
    calc (a + b + c) % 2 ^ W + 2 ^ W * digitsVal W r.1 + 2 ^ W * 2 ^ (W * as.length) * r.2
        = (a + b + c) % 2 ^ W + 2 ^ W * (digitsVal W r.1 + 2 ^ (W * as.length) * r.2) := by ring
      _ = (a + b + c) % 2 ^ W + 2 ^ W * ((a + b + c) / 2 ^ W) + 2 ^ W * (digitsVal W as + digitsVal W bs) := by rw [hval]; ring
      _ = a + 2 ^ W * digitsVal W as + (b + 2 ^ W * digitsVal W bs) + c := by rw [Nat.mod_add_div]; ring

theorem subLoop_nil_value (W c : Nat) : (subLoop W [] [] c).value = ([], c) := rfl

theorem subLoop_cons_value (W a b c : Nat) (as bs : List Nat) :
    (subLoop W (a :: as) (b :: bs) c).value
      = ((2 ^ W + a - b - c) % 2 ^ W :: (subLoop W as bs (if a < b + c then 1 else 0)).value.1,
        (subLoop W as bs (if a < b + c then 1 else 0)).value.2) := rfl

/-- One digit of a subtraction: the wrapped difference and the borrow out are exact (40_digit_array.md R108). -/
theorem subDigit_eq {B a b c : Nat} (ha : a < B) (hb : b < B) (hc : c ≤ 1) :
    (B + a - b - c) % B + b + c = a + B * (if a < b + c then 1 else 0) := by
  split
  · rw [Nat.mod_eq_of_lt (by omega)]
    omega
  · rw [show B + a - b - c = a - b - c + B by omega, Nat.add_mod_right, Nat.mod_eq_of_lt (by omega)]
    omega

/-- The difference digits and the borrow out are the exact difference with the borrow in (40_digit_array.md R108). -/
theorem subLoop_spec (W : Nat) {as bs : List Nat} {c : Nat} (h : as.length = bs.length) (has : AllDigits W as) (hbs : AllDigits W bs)
    (hc : c ≤ 1) :
    digitsVal W (subLoop W as bs c).value.1 + digitsVal W bs + c
        = digitsVal W as + 2 ^ (W * as.length) * (subLoop W as bs c).value.2
      ∧ (subLoop W as bs c).value.1.length = as.length
      ∧ AllDigits W (subLoop W as bs c).value.1
      ∧ (subLoop W as bs c).value.2 ≤ 1 := by
  induction as generalizing bs c with
  | nil =>
    obtain rfl := List.length_eq_zero_iff.1 h.symm
    simp [subLoop_nil_value, digitsVal, has, hc]
  | cons a as ih =>
    obtain ⟨b, bs, rfl⟩ := List.exists_cons_of_length_eq_add_one h.symm
    obtain ⟨ha, has⟩ := List.forall_mem_cons.1 has
    obtain ⟨hb, hbs⟩ := List.forall_mem_cons.1 hbs
    have hdigit := subDigit_eq ha hb hc
    have hborrow : (if a < b + c then 1 else 0) ≤ 1 := by split <;> omega
    obtain ⟨hval, hlen, hall, hout⟩ := ih (Nat.succ_injective h) has hbs hborrow
    simp only [subLoop_cons_value, digitsVal, List.length_cons, hlen, two_pow_mul_succ]
    refine ⟨?_, trivial, hall.cons (Nat.mod_lt _ (by positivity)), hout⟩
    generalize (subLoop W as bs (if a < b + c then 1 else 0)).value = r at hval
    calc (2 ^ W + a - b - c) % 2 ^ W + 2 ^ W * digitsVal W r.1 + (b + 2 ^ W * digitsVal W bs) + c
        = (2 ^ W + a - b - c) % 2 ^ W + b + c + 2 ^ W * (digitsVal W r.1 + digitsVal W bs) := by ring
      _ = a + 2 ^ W * (digitsVal W r.1 + digitsVal W bs + if a < b + c then 1 else 0) := by rw [hdigit]; ring
      _ = a + 2 ^ W * digitsVal W as + 2 ^ W * 2 ^ (W * as.length) * r.2 := by rw [hval]; ring

/-! ## Comparison -/

/-- A scan that has reached a verdict keeps it; one that has not takes the verdict of the last pair (40_digit_array.md R106). -/
theorem cmpLoop_append_value (l : List (Nat × Nat)) (a b : Nat) (gt lt : Bool) :
    (cmpLoop (l ++ [(a, b)]) gt lt).value
      = if (cmpLoop l gt lt).value = .equal then compareFlag a b else (cmpLoop l gt lt).value := by
  induction l generalizing gt lt with
  | nil =>
    rcases lt_trichotomy a b with h | rfl | h
    · cases gt <;> cases lt <;> simp [cmpLoop, compareFlag, h, h.ne]
    · cases gt <;> cases lt <;> simp [cmpLoop, compareFlag]
    · cases gt <;> cases lt <;> simp [cmpLoop, compareFlag, h, h.ne']
  | cons p l ih => exact ih _ _

/-- Two numbers compare as their upper digits do, or when those are equal as their lowest digits. -/
theorem compareFlag_div_mod (B a b : Nat) :
    compareFlag a b = if compareFlag (a / B) (b / B) = .equal then compareFlag (a % B) (b % B) else compareFlag (a / B) (b / B) := by
  obtain ⟨-, hgt, hlt⟩ := compareFlag_spec a b
  obtain ⟨heq', hgt', hlt'⟩ := compareFlag_spec (a / B) (b / B)
  rcases lt_trichotomy (a / B) (b / B) with h | h | h
  · rw [hlt'.2 h, hlt.2 (lt_of_not_ge fun hle => absurd (Nat.div_le_div_right hle) (Nat.not_le.2 h))]
    rfl
  · have ha := Nat.mod_add_div a B
    have hb := Nat.mod_add_div b B
    rw [if_pos (heq'.2 h), ← ha, ← hb, h]
    simp [compareFlag]
  · rw [hgt'.2 h, hgt.2 (lt_of_not_ge fun hle => absurd (Nat.div_le_div_right hle) (Nat.not_le.2 h))]
    rfl

/-- The scan of all digits, most significant first, is the comparison (40_digit_array.md R106). -/
theorem cmpDigits_value {W n a b : Nat} (ha : a < 2 ^ (W * n)) (hb : b < 2 ^ (W * n)) :
    (cmpDigits W n a b).value = compareFlag a b := by
  induction n generalizing a b with
  | zero =>
    obtain rfl : a = 0 := by simpa using ha
    obtain rfl : b = 0 := by simpa using hb
    rfl
  | succ n ih =>
    have hup := ih (div_base_lt ha) (div_base_lt hb)
    rw [compareFlag_div_mod (2 ^ W), ← hup, cmpDigits, cmpDigits, digits_succ, digits_succ, List.zip_cons_cons, List.reverse_cons,
      cmpLoop_append_value]

/-! ## Multiplication -/

/-- A row of multiply-accumulate is exact: `rs + as * b + c` (40_digit_array.md R111). -/
theorem mulRow_val (W b : Nat) {as rs : List Nat} (c : Nat) (h : as.length = rs.length) :
    digitsVal W (mulRow W b as rs c).value = digitsVal W rs + digitsVal W as * b + c := by
  induction as generalizing rs c with
  | nil =>
    obtain rfl := List.length_eq_zero_iff.1 h.symm
    simp [mulRow, digitsVal]
  | cons a as ih =>
    obtain ⟨r, rs, rfl⟩ := List.exists_cons_of_length_eq_add_one h.symm
    have hrest := ih ((r + a * b + c) / 2 ^ W) (Nat.succ_injective h)
    calc digitsVal W (mulRow W b (a :: as) (r :: rs) c).value
        = (r + a * b + c) % 2 ^ W + 2 ^ W * digitsVal W (mulRow W b as rs ((r + a * b + c) / 2 ^ W)).value := rfl
      _ = (r + a * b + c) % 2 ^ W + 2 ^ W * ((r + a * b + c) / 2 ^ W) + 2 ^ W * (digitsVal W rs + digitsVal W as * b) := by
        rw [hrest]; ring
      _ = digitsVal W (r :: rs) + digitsVal W (a :: as) * b + c := by rw [Nat.mod_add_div, digitsVal, digitsVal]; ring

/-- The rows of a product, each shifted by one digit, add up to it (40_digit_array.md R111). -/
theorem mulLoop_spec (W : Nat) (as : List Nat) {bs r : List Nat} (h : as.length = r.length) :
    digitsVal W (mulLoop W as bs r).value = digitsVal W r + digitsVal W as * digitsVal W bs
      ∧ (mulLoop W as bs r).value.length = as.length + bs.length := by
  induction bs generalizing r with
  | nil => simp [mulLoop, digitsVal, h]
  | cons b bs ih =>
    have hrow := mulRow_val W b 0 h
    have hlen : as.length = (mulRow W b as r 0).value.tail.length := by simp [mulRow_length, ← h]
    obtain ⟨hval, hcount⟩ := ih hlen
    rw [← digitsVal_head_tail W (mulRow W b as r 0).value] at hrow
    constructor
    · calc digitsVal W (mulLoop W as (b :: bs) r).value
          = (mulRow W b as r 0).value.headD 0 + 2 ^ W * digitsVal W (mulLoop W as bs (mulRow W b as r 0).value.tail).value := rfl
        _ = digitsVal W r + digitsVal W as * b + 0 + 2 ^ W * (digitsVal W as * digitsVal W bs) := by rw [hval, ← hrow]; ring
        _ = digitsVal W r + digitsVal W as * digitsVal W (b :: bs) := by rw [digitsVal]; ring
    · exact congrArg Nat.succ hcount

/-- The digits of the product (40_digit_array.md R111). -/
theorem mulDigits_spec (W : Nat) (as bs : List Nat) :
    digitsVal W (mulDigits W as bs).value = digitsVal W as * digitsVal W bs
      ∧ (mulDigits W as bs).value.length = as.length + bs.length := by
  obtain ⟨hval, hlen⟩ := mulLoop_spec W as (bs := bs) (r := List.replicate as.length 0) (by simp)
  refine ⟨?_, hlen⟩
  rw [mulDigits, hval, digitsVal_replicate_zero, zero_add]

/-- A product of two digits and two digits more are below the square of the base (00_scope.md R8). -/
theorem accumulator_lt {W r x y c : Nat} (hr : r < 2 ^ W) (hx : x < 2 ^ W) (hy : y < 2 ^ W) (hc : c < 2 ^ W) :
    r + x * y + c < 2 ^ (2 * W) := by
  obtain ⟨k, hk⟩ : ∃ k, 2 ^ W = k + 1 := Nat.exists_eq_add_one.2 (by positivity)
  rw [hk, Nat.lt_succ_iff] at hr hx hy hc
  calc r + x * y + c ≤ k + k * k + k := by gcongr
    _ < (k + 1) * (k + 1) := by linarith [add_mul_self_eq k 1]
    _ = 2 ^ (2 * W) := by rw [← hk, two_mul, pow_add]

/-- Settles O50: each loop's value on the digits of numbers that fit, and the accumulator's bound. -/
theorem digitLoops : Obligations.DigitLoops := by
  intro d n a b ha hb
  have hva := digitsVal_digits ha
  have hvb := digitsVal_digits hb
  refine ⟨hva, ?_, ?_, cmpDigits_value ha hb, fun m e he => ⟨?_, ?_, fun r x y c => accumulator_lt⟩⟩
  · rintro r rfl
    obtain ⟨hval, hlen⟩ := addLoop_spec d.bits (as := digits d.bits a n) (bs := digits d.bits b n) 0 (by simp)
    rw [digits_length, hva, hvb, add_zero] at hval
    refine ⟨hval, hlen.trans (digits_length ..), Nat.le_of_lt_succ ?_⟩
    exact Nat.lt_of_mul_lt_mul_left (a := 2 ^ (d.bits * n)) (by omega)
  · rintro r rfl
    obtain ⟨hval, hlen, hall, hout⟩ := subLoop_spec d.bits (as := digits d.bits a n) (bs := digits d.bits b n) (by simp)
      (allDigits_digits _ _ _) (allDigits_digits _ _ _) zero_le_one
    rw [digits_length] at hlen
    rw [digits_length, hva, hvb, add_zero] at hval
    have hlt := hall.digitsVal_lt
    rw [hlen] at hlt
    refine ⟨hval, hlen, ?_⟩
    obtain h | h := Nat.le_one_iff_eq_zero_or_eq_one.1 hout
    · rw [h] at hval ⊢
      omega
    · rw [h] at hval ⊢
      omega
  · rw [(mulDigits_spec ..).1, hva, digitsVal_digits he]
  · rw [(mulDigits_spec ..).2, digits_length, digits_length]

end Sys2Proof.Machine
end

section
/-! Division: Algorithm D and the short division give the quotient and the remainder (40_digit_array.md R112). -/

namespace Sys2Proof.Machine

/-- A division from the top down: the quotient's upper part `q * p`, then the division of what it leaves. -/
theorem divMod_of_eq {u v p q x : Nat} (hv : 0 < v) (h : u = q * p * v + x) : (u / v, u % v) = (q * p + x / v, x % v) := by
  rw [h, Nat.mul_comm _ v, Nat.mul_add_div hv, Nat.mul_add_mod]

/-- The number above position `k` is its lowest digit and the number above position `k + 1`. -/
theorem div_pow_eq_next (W x k : Nat) :
    x / 2 ^ (W * k) = x / 2 ^ (W * (k + 1)) * 2 ^ W + x / 2 ^ (W * k) % 2 ^ W := by
  rw [Nat.mul_succ, pow_add, ← Nat.div_div_eq_div_mul, Nat.div_add_mod']

/-- The number below position `k + 1` is its digit at `k` and the number below position `k`. -/
theorem mod_pow_succ_eq (W x k : Nat) :
    x % 2 ^ (W * (k + 1)) = x / 2 ^ (W * k) % 2 ^ W * 2 ^ (W * k) + x % 2 ^ (W * k) := by
  rw [Nat.mul_succ, pow_add, Nat.mod_mul, Nat.mul_comm (2 ^ (W * k)), add_comm]

/-! ## Short division -/

/-- The short division of the `j` lowest digits of `a`, with the remainder `r` of the upper ones, by any divisor. -/
theorem shortDivLoop_eq (W a : Nat) {b : Nat} (j r : Nat) (hr : r < b) :
    shortDivLoop W b a j r = ((r * 2 ^ (W * j) + a % 2 ^ (W * j)) / b, (r * 2 ^ (W * j) + a % 2 ^ (W * j)) % b) := by
  have hb := Nat.zero_lt_of_lt hr
  induction j generalizing r with
  | zero => simp [shortDivLoop, Nat.mod_one, Nat.div_eq_of_lt hr, Nat.mod_eq_of_lt hr]
  | succ j ih =>
    rw [shortDivLoop, ih _ (Nat.mod_lt _ hb)]
    refine (divMod_of_eq hb ?_).symm
    generalize hcur : r * 2 ^ W + a / 2 ^ (W * j) % 2 ^ W = cur
    calc r * 2 ^ (W * (j + 1)) + a % 2 ^ (W * (j + 1)) = cur * 2 ^ (W * j) + a % 2 ^ (W * j) := by
          rw [mod_pow_succ_eq, ← hcur, two_pow_mul_succ]; ring
      _ = (b * (cur / b) + cur % b) * 2 ^ (W * j) + a % 2 ^ (W * j) := by rw [Nat.div_add_mod]
      _ = cur / b * 2 ^ (W * j) * b + (cur % b * 2 ^ (W * j) + a % 2 ^ (W * j)) := by ring

/-! ## Quotients by leading digits -/

/-- `V` and `U` are the leading parts of `v` and `u` above the place `N`. -/
structure Leading (N v u V U : Nat) : Prop where
  le_v : V * N ≤ v
  v_lt : v < (V + 1) * N
  le_u : U * N ≤ u
  u_lt : u < (U + 1) * N

theorem leading_div {N : Nat} (hN : 0 < N) (v u : Nat) : Leading N v u (v / N) (u / N) :=
  ⟨Nat.div_mul_le_self v N, (Nat.div_lt_iff_lt_mul hN).1 (Nat.lt_succ_self _),
    Nat.div_mul_le_self u N, (Nat.div_lt_iff_lt_mul hN).1 (Nat.lt_succ_self _)⟩

namespace Leading

variable {N v u V U : Nat} (l : Leading N v u V U)
include l

/-- A number whose product with the leading part of `v` is above that of `u` is above the quotient. -/
theorem div_lt {k : Nat} (hv : 0 < v) (h : U < k * V) : u / v < k := by
  rw [Nat.div_lt_iff_lt_mul hv]
  calc u < (U + 1) * N := l.u_lt
    _ ≤ k * V * N := Nat.mul_le_mul_right N h
    _ = k * (V * N) := Nat.mul_assoc ..
    _ ≤ k * v := Nat.mul_le_mul_left k l.le_v

/-- A number is not above the quotient when its product with the leading part of `v`, rounded up, is not above that of `u`. -/
theorem le_div {k : Nat} (hv : 0 < v) (h : k * (V + 1) ≤ U) : k ≤ u / v := by
  rw [Nat.le_div_iff_mul_le hv]
  calc k * v ≤ k * ((V + 1) * N) := Nat.mul_le_mul_left k l.v_lt.le
    _ = k * (V + 1) * N := (Nat.mul_assoc ..).symm
    _ ≤ U * N := Nat.mul_le_mul_right N h
    _ ≤ u := l.le_u

/-- The leading parts without their last digits are leading parts. -/
theorem drop_digit {B V' U' d e : Nat} (hV : V = V' * B + d) (hU : U = U' * B + e) (hd : d < B) (he : e < B) :
    Leading (B * N) v u V' U' where
  le_v := calc V' * (B * N) = V' * B * N := (Nat.mul_assoc ..).symm
    _ ≤ V * N := Nat.mul_le_mul_right N (by omega)
    _ ≤ v := l.le_v
  v_lt := calc v < (V + 1) * N := l.v_lt
    _ ≤ (V' + 1) * B * N := Nat.mul_le_mul_right N (by rw [Nat.succ_mul]; omega)
    _ = (V' + 1) * (B * N) := Nat.mul_assoc ..
  le_u := calc U' * (B * N) = U' * B * N := (Nat.mul_assoc ..).symm
    _ ≤ U * N := Nat.mul_le_mul_right N (by omega)
    _ ≤ u := l.le_u
  u_lt := calc u < (U + 1) * N := l.u_lt
    _ ≤ (U' + 1) * B * N := Nat.mul_le_mul_right N (by rw [Nat.succ_mul]; omega)
    _ = (U' + 1) * (B * N) := Nat.mul_assoc ..

end Leading

/-! ## The trial quotient digit -/

/-- The digits to the base `B` that Algorithm D reads: `v1` and `v2` are the top digits of the divisor `v`, `v1` at least half the base; `top`
holds the digits of the partial dividend `u` that stand above `v2`, and `u2` the next one. The quotient is one digit. -/
structure TopDigits (B M v u v1 v2 top u2 : Nat) : Prop where
  half : B ≤ 2 * v1
  v2_lt : v2 < B
  u2_lt : u2 < B
  leading : Leading M v u (v1 * B + v2) (top * B + u2)
  small : u < B * v

namespace TopDigits

variable {B M v u v1 v2 top u2 : Nat} (t : TopDigits B M v u v1 v2 top u2)
include t

theorem v_pos : 0 < v := Nat.pos_of_mul_pos_left (Nat.zero_lt_of_lt t.small)

theorem leading_two : Leading (B * M) v u v1 top := t.leading.drop_digit rfl rfl t.v2_lt t.u2_lt

theorem v1_pos : 0 < v1 := by
  have := t.half
  have := t.v2_lt
  omega

theorem quot_lt_base : u / v < B := (Nat.div_lt_iff_lt_mul t.v_pos).2 t.small

theorem top_lt : top < (v1 + 1) * B := by
  have h := t.leading_two.le_div (k := B) t.v_pos
  have := t.quot_lt_base
  rw [Nat.mul_comm]
  by_contra hc
  omega

/-- A digit whose product with `v1` is not above `top` is at most one above the base. -/
theorem digit_le {qh : Nat} (h : qh * v1 ≤ top) : qh ≤ B + 1 := by
  have hhalf := t.half
  have htop := t.top_lt
  refine Nat.le_of_lt_succ (Nat.lt_of_mul_lt_mul_right (a := v1) ?_)
  calc qh * v1 ≤ top := h
    _ < (v1 + 1) * B := htop
    _ ≤ (B + 1).succ * v1 := by linarith

/-- The trial digit is not below the quotient. -/
theorem quot_le_trial : u / v ≤ top / v1 :=
  Nat.le_of_lt_succ (t.leading_two.div_lt t.v_pos ((Nat.div_lt_iff_lt_mul t.v1_pos).1 (Nat.lt_succ_self _)))

/-- The trial digit is at most two above the quotient. -/
theorem trial_le_quot : top / v1 ≤ u / v + 2 := by
  have htrial := Nat.div_mul_le_self top v1
  have hle := t.digit_le htrial
  have hhalf := t.half
  rw [← Nat.sub_le_iff_le_add]
  refine t.leading_two.le_div t.v_pos (le_trans ?_ htrial)
  generalize top / v1 = k at hle
  obtain hk | hk := Nat.le_total k 2
  · rw [Nat.sub_eq_zero_of_le hk, Nat.zero_mul]
    exact Nat.zero_le _
  · obtain ⟨m, rfl⟩ := Nat.exists_eq_add_of_le' hk
    rw [Nat.add_sub_cancel]
    linarith

/-- A digit that fails R112's test, by its first or by its second half, fails the product comparison. -/
theorem product_le {qh rh : Nat} (hsum : qh * v1 + rh = top) (h : ¬(rh < B ∧ (qh ≥ B ∨ qh * v2 > rh * B + u2))) :
    qh * v2 ≤ rh * B + u2 := by
  obtain hrh | hrh := Nat.lt_or_ge rh B
  · omega
  · have htop := t.top_lt
    have hqh : qh < B := Nat.lt_of_mul_lt_mul_right (a := v1) (by linarith)
    calc qh * v2 ≤ B * B := Nat.mul_le_mul hqh.le t.v2_lt.le
      _ ≤ rh * B := Nat.mul_le_mul_right B hrh
      _ ≤ rh * B + u2 := Nat.le_add_right ..

/-- A digit that passes R112's test is above the quotient. -/
theorem quot_lt_of_test {qh rh : Nat} (hsum : qh * v1 + rh = top) (h : qh ≥ B ∨ qh * v2 > rh * B + u2) : u / v < qh := by
  obtain h | h := h
  · exact t.quot_lt_base.trans_le h
  · refine t.leading.div_lt t.v_pos ?_
    rw [← hsum]
    linarith

/-- A digit that fails R112's test is at most one above the quotient. -/
theorem le_quot_succ {qh rh : Nat} (hsum : qh * v1 + rh = top) (h : qh * v2 ≤ rh * B + u2) : qh ≤ u / v + 1 := by
  have hle := t.digit_le (qh := qh) (by omega)
  rw [← Nat.sub_le_iff_le_add]
  refine t.leading.le_div t.v_pos ?_
  have hB : B ≤ v1 * B := Nat.le_mul_of_pos_left B t.v1_pos
  cases qh with
  | zero => simp
  | succ k =>
    rw [Nat.add_sub_cancel, ← hsum]
    linarith

/-- With as many corrections as the trial digit may be above it, the digit left is the quotient or one more (40_digit_array.md R112). -/
theorem correctDigit_spec {W : Nat} (hB : B = 2 ^ W) (fuel : Nat) {qh rh : Nat} (hsum : qh * v1 + rh = top) (hlow : u / v ≤ qh)
    (hhigh : qh ≤ u / v + fuel) :
    u / v ≤ correctDigit W v1 v2 u2 fuel qh rh ∧ correctDigit W v1 v2 u2 fuel qh rh ≤ u / v + 1 := by
  subst hB
  induction fuel generalizing qh rh with
  | zero => exact ⟨hlow, hhigh.trans (Nat.le_succ _)⟩
  | succ fuel ih =>
    rw [correctDigit]
    split
    · next htest =>
      have hlt := t.quot_lt_of_test hsum htest.2
      refine ih ?_ (Nat.le_sub_one_of_lt hlt) (Nat.sub_le_iff_le_add.2 hhigh)
      rw [← hsum, Nat.sub_mul, Nat.one_mul]
      have := Nat.le_mul_of_pos_left v1 (Nat.zero_lt_of_lt hlt)
      omega
    · next htest => exact ⟨hlow, t.le_quot_succ hsum (t.product_le hsum htest)⟩

/-- The trial digit of R112, corrected at most twice. -/
theorem correctDigit_two {W : Nat} (hB : B = 2 ^ W) :
    u / v ≤ correctDigit W v1 v2 u2 2 (top / v1) (top % v1) ∧ correctDigit W v1 v2 u2 2 (top / v1) (top % v1) ≤ u / v + 1 :=
  t.correctDigit_spec hB 2 (Nat.div_add_mod' top v1) t.quot_le_trial t.trial_le_quot

end TopDigits

/-- The digits that a step of Algorithm D reads, for a divisor of `m + 2` digits with its highest bit set. -/
theorem topDigits_of {W m v u : Nat} (hW : 0 < W) (hhigh : 2 ^ (W * (m + 2)) ≤ 2 * v) (hsmall : u < 2 ^ W * v) :
    TopDigits (2 ^ W) (2 ^ (W * m)) v u (v / 2 ^ (W * (m + 1))) (v / 2 ^ (W * m) % 2 ^ W)
      (u / 2 ^ (W * (m + 1))) (u / 2 ^ (W * m) % 2 ^ W) where
  half := by
    obtain ⟨w, rfl⟩ := Nat.exists_eq_add_one.2 hW
    rw [two_pow_mul_succ _ (m + 1), pow_succ', Nat.mul_assoc] at hhigh
    rw [pow_succ']
    refine Nat.mul_le_mul_left 2 ((Nat.le_div_iff_mul_le (by positivity)).2 ?_)
    omega
  v2_lt := Nat.mod_lt _ (by positivity)
  u2_lt := Nat.mod_lt _ (by positivity)
  leading := by
    rw [← div_pow_eq_next, ← div_pow_eq_next]
    exact leading_div (by positivity) v u
  small := hsmall

/-! ## Algorithm D -/

/-- A digit whose product borrows is one above the quotient, and adding the divisor back gives the remainder (40_digit_array.md R112). -/
theorem divMod_of_borrow {p v qh : Nat} (h : p < qh * v) (hq : qh ≤ p / v + 1) : qh - 1 = p / v ∧ p + v - qh * v = p % v := by
  have hp := Nat.div_add_mod' p v
  have hlt : p / v < qh := Nat.lt_of_mul_lt_mul_right (a := v) ((Nat.div_mul_le_self p v).trans_lt h)
  obtain rfl : qh = p / v + 1 := le_antisymm hq hlt
  refine ⟨rfl, ?_⟩
  rw [Nat.succ_mul]
  omega

/-- A digit whose product does not borrow is the quotient, and what is left is the remainder (40_digit_array.md R112). -/
theorem divMod_of_no_borrow {p v qh : Nat} (hv : 0 < v) (h : qh * v ≤ p) (hq : p / v ≤ qh) : qh = p / v ∧ p - qh * v = p % v := by
  obtain rfl : qh = p / v := le_antisymm ((Nat.le_div_iff_mul_le hv).2 h) hq
  exact ⟨rfl, Nat.sub_eq_of_eq_add (Nat.mod_add_div' p v).symm⟩

/-- One step on a normalized divisor: the quotient digit, and the remainder above the digits not yet read (40_digit_array.md R112). -/
theorem knuthStep_eq {W n v j u : Nat} (hW : 0 < W) (hn : 2 ≤ n) (hv : v < 2 ^ (W * n)) (hhigh : 2 ^ (W * n) ≤ 2 * v)
    (hu : u < v * 2 ^ (W * (j + 1))) :
    knuthStep W n v j u = (u / 2 ^ (W * j) / v, u / 2 ^ (W * j) % v * 2 ^ (W * j) + u % 2 ^ (W * j)) := by
  obtain ⟨m, rfl⟩ := Nat.exists_eq_add_of_le' hn
  have hdigit (i : Nat) : u / 2 ^ (W * (j + i)) = u / 2 ^ (W * j) / 2 ^ (W * i) := by
    rw [mul_add, pow_add, Nat.div_div_eq_div_mul]
  have hsmall : u / 2 ^ (W * j) < 2 ^ W * v := by
    rw [Nat.div_lt_iff_lt_mul (by positivity)]
    calc u < v * 2 ^ (W * (j + 1)) := hu
      _ = 2 ^ W * v * 2 ^ (W * j) := by rw [two_pow_mul_succ]; ring
  have hvtop : v / 2 ^ (W * (m + 1)) < 2 ^ W := by
    rw [Nat.div_lt_iff_lt_mul (by positivity), ← two_pow_mul_succ]
    exact hv
  have hutop : u / 2 ^ (W * j) / 2 ^ (W * (m + 2)) < 2 ^ W := by
    rw [Nat.div_lt_iff_lt_mul (by positivity)]
    exact hsmall.trans (Nat.mul_lt_mul_of_pos_left hv (by positivity))
  have htop := topDigits_of hW hhigh hsmall
  obtain ⟨hlow, hhigh'⟩ := htop.correctDigit_two rfl
  simp only [knuthStep, show j + (m + 2) - 1 = j + (m + 1) from rfl, show j + (m + 2) - 2 = j + m from rfl,
    show m + 2 - 1 = m + 1 from rfl, Nat.add_sub_cancel, hdigit, Nat.mod_eq_of_lt hvtop, Nat.mod_eq_of_lt hutop]
  rw [← div_pow_eq_next]
  split
  · next hborrow =>
    obtain ⟨hq, hr⟩ := divMod_of_borrow hborrow hhigh'
    rw [hq, hr]
  · next hborrow =>
    obtain ⟨hq, hr⟩ := divMod_of_no_borrow htop.v_pos (Nat.le_of_not_lt hborrow) hlow
    rw [hr, hq]

/-- The loop on a normalized divisor (40_digit_array.md R112). -/
theorem knuthLoop_eq {W n v : Nat} (hW : 0 < W) (hn : 2 ≤ n) (hv : v < 2 ^ (W * n)) (hhigh : 2 ^ (W * n) ≤ 2 * v) (j : Nat) {u : Nat}
    (hu : u < v * 2 ^ (W * j)) : knuthLoop W n v j u = (u / v, u % v) := by
  have hpos : 0 < v := Nat.pos_of_mul_pos_right (Nat.zero_lt_of_lt hu)
  induction j generalizing u with
  | zero =>
    rw [Nat.mul_zero, pow_zero, Nat.mul_one] at hu
    rw [knuthLoop, Nat.div_eq_of_lt hu, Nat.mod_eq_of_lt hu]
  | succ j ih =>
    have hleft : u / 2 ^ (W * j) % v * 2 ^ (W * j) + u % 2 ^ (W * j) < v * 2 ^ (W * j) := by
      calc u / 2 ^ (W * j) % v * 2 ^ (W * j) + u % 2 ^ (W * j) < (u / 2 ^ (W * j) % v + 1) * 2 ^ (W * j) := by
            rw [Nat.succ_mul]
            exact Nat.add_lt_add_left (Nat.mod_lt _ (by positivity)) _
        _ ≤ v * 2 ^ (W * j) := Nat.mul_le_mul_right _ (Nat.mod_lt _ hpos)
    rw [knuthLoop, knuthStep_eq hW hn hv hhigh hu, ih hleft]
    refine (divMod_of_eq hpos ?_).symm
    generalize hp : u / 2 ^ (W * j) = p
    calc u = p * 2 ^ (W * j) + u % 2 ^ (W * j) := by rw [← hp, Nat.div_add_mod']
      _ = (v * (p / v) + p % v) * 2 ^ (W * j) + u % 2 ^ (W * j) := by rw [Nat.div_add_mod]
      _ = p / v * 2 ^ (W * j) * v + (p % v * 2 ^ (W * j) + u % 2 ^ (W * j)) := by ring

/-- Shifted so that its highest digit is full, the divisor has as many digits and at least half their range (40_digit_array.md R112). -/
theorem shift_normalizes {W b : Nat} (hW : 0 < W) (hb : b ≠ 0) :
    b * 2 ^ (W * normlen W b - bitlen b) < 2 ^ (W * normlen W b) ∧ 2 ^ (W * normlen W b) ≤ 2 * (b * 2 ^ (W * normlen W b - bitlen b)) := by
  have hbits : bitlen b ≤ W * normlen W b := bitlen_le_iff.2 (lt_pow_normlen hW b)
  have hsplit : 2 ^ (W * normlen W b) = 2 ^ bitlen b * 2 ^ (W * normlen W b - bitlen b) := by rw [← pow_add, Nat.add_sub_cancel' hbits]
  have htop : 2 ^ bitlen b ≤ 2 * b := by
    have hpos : bitlen b ≠ 0 := by simp [bitlen, hb]
    rw [← Nat.succ_pred_eq_of_ne_zero hpos, pow_succ']
    exact Nat.mul_le_mul_left 2 (two_pow_bitlen_le hb)
  rw [hsplit, ← Nat.mul_assoc]
  exact ⟨Nat.mul_lt_mul_of_pos_right (lt_two_pow_bitlen b) (by positivity), Nat.mul_le_mul_right _ htop⟩

/-- The dividend is below the divisor at the position above the first quotient digit (40_digit_array.md R112). -/
theorem dividend_lt {W la n a b : Nat} (ha : a < 2 ^ (W * la)) (hb : 2 ^ (W * (n - 1)) ≤ b) : a < b * 2 ^ (W * (la - n + 1)) :=
  calc a < 2 ^ (W * la) := ha
    _ ≤ 2 ^ (W * (n - 1) + W * (la - n + 1)) := by
      rw [← Nat.mul_add]
      exact Nat.pow_le_pow_right (by decide) (Nat.mul_le_mul_left W (by omega))
    _ = 2 ^ (W * (n - 1)) * 2 ^ (W * (la - n + 1)) := pow_add ..
    _ ≤ b * 2 ^ (W * (la - n + 1)) := Nat.mul_le_mul_right _ hb

/-- Settles O49: a smaller dividend, the short division, and Algorithm D on operands shifted by the same amount. -/
theorem knuthValue : Obligations.KnuthValue := by
  intro d la a b ha hb
  have hW := DigitWidth.bits_pos d
  have hpos := Nat.pos_of_ne_zero hb
  rw [knuthDivRem]
  split
  · next h => rw [Nat.div_eq_of_lt h, Nat.mod_eq_of_lt h]
  split
  · rw [shortDivLoop_eq _ _ _ _ hpos, Nat.zero_mul, Nat.zero_add, Nat.mod_eq_of_lt ha]
  · next hne =>
    obtain ⟨hlt, hhigh⟩ := shift_normalizes hW hb
    have hn := normlen_pos d.bits b
    have hu := dividend_lt ha ((normlen_top hW).resolve_left hne)
    generalize d.bits * normlen d.bits b - bitlen b = sh at hlt hhigh ⊢
    have hu' : a * 2 ^ sh < b * 2 ^ sh * 2 ^ (d.bits * (la - normlen d.bits b + 1)) := by
      rw [Nat.mul_right_comm]
      exact Nat.mul_lt_mul_of_pos_right hu (by positivity)
    simp only [knuthLoop_eq hW (by omega) hlt hhigh _ hu', Nat.mul_div_mul_right _ _ (Nat.two_pow_pos sh), Nat.mul_mod_mul_right,
      Nat.mul_div_cancel _ (Nat.two_pow_pos sh)]

end Sys2Proof.Machine
end

section
/-! The Montgomery form of a number, and the commands of the engine: what each one ends in (41_montgomery.md,
42_inversion_group.md R154). -/

namespace Sys2Proof.Machine

/-! ## Montgomery form -/

/-- `v * R mod m`, the Montgomery form of `v` (00_scope.md R13). -/
def toMont (W : Nat) (c : Ctx) (v : Nat) : Nat := v * 2 ^ (W * c.s) % c.m

section
variable {W : Nat} {c : Ctx} (hc : c.Ok W)
include hc

theorem Ctx.Ok.toMont_lt (v : Nat) : toMont W c v < c.m := hc.mod_lt _

/-- A reduced number whose product with `R` is that of the operands is their Montgomery product (00_scope.md R13). -/
theorem Ctx.Ok.mont_eq {x a b : Nat} (hx : x < c.m) (h : x * 2 ^ (W * c.s) % c.m = a * b % c.m) : mont W c a b = x := by
  obtain ⟨hlt, hspec⟩ := mont_spec W c a b hc.gtOne hc.odd
  exact mont_unique W c hc.gtOne hc.odd hlt hx (hspec.trans h.symm)

/-- The Montgomery product of Montgomery forms is that of the product (41_montgomery.md R129). -/
theorem Ctx.Ok.mont_toMont (u v : Nat) : mont W c (toMont W c u) (toMont W c v) = toMont W c (u * v) := by
  refine hc.mont_eq (hc.toMont_lt _) ?_
  rw [toMont, toMont, toMont, ← Nat.mul_mod, Nat.mod_mul_mod]
  congr 1
  ring

/-- Into Montgomery form, by the constant `R^2 mod m` (41_montgomery.md R127). -/
theorem Ctx.Ok.mont_r2mod (v : Nat) : mont W c v c.r2mod = toMont W c v := by
  refine hc.mont_eq (hc.toMont_lt _) ?_
  rw [toMont, hc.r2mod, Nat.mod_mul_mod, Nat.mul_mod_mod, mul_assoc v, ← pow_add, ← two_mul, mul_assoc]

/-- Out of Montgomery form, by the factor `1` (41_montgomery.md R128). -/
theorem Ctx.Ok.mont_toMont_one (v : Nat) : mont W c (toMont W c v) 1 = v % c.m := by
  refine hc.mont_eq (hc.mod_lt v) ?_
  rw [toMont, mul_one, Nat.mod_mul_mod, Nat.mod_mod]

/-- `R mod m` is the Montgomery form of `1` (10_state.md R30). -/
theorem Ctx.Ok.rmod_eq_toMont : c.rmod = toMont W c 1 := by rw [hc.rmod, toMont, one_mul]

end

/-- The power `m - 2` is the inverse under a prime modulus (42_inversion_group.md R154). -/
theorem mul_pow_sub_two_mod {a m : Nat} (hm : m.Prime) (h0 : a ≠ 0) (hlt : a < m) : a * (a ^ (m - 2) % m) % m = 1 := by
  have hcop : Nat.Coprime a m := (Nat.coprime_of_lt_prime h0 hlt hm).symm
  have hfermat : a ^ (m - 1) ≡ 1 [MOD m] := Nat.totient_prime hm ▸ Nat.ModEq.pow_totient hcop
  have htwo := hm.two_le
  rw [Nat.mul_mod_mod, ← pow_succ', show m - 2 + 1 = m - 1 by omega, hfermat, Nat.mod_eq_of_lt hm.one_lt]

/-! ## How each command ends -/

section
variable {s : State} {c : CSel} {k : Ctx} {ba bb : BSel} {la a lb b : Nat}

/-- The read of a valid context slot gives the context (10_state.md R22). -/
theorem State.finish_readC (hk : s.c[c] = k) (hv : k.valid = true) (f : Ctx → Effect State) :
    s.finish (s.readC c >>= f) = s.finish (f k) := by
  rw [(State.readC_ok_iff s c k).2 ⟨by rw [hk, hv], hk⟩, Effect.bind_ok]

/-- A residue operand is checked and then is the register's value (41_montgomery.md R120 b). -/
theorem State.finish_residue (s : State) (k : Ctx) (r : BReg) (f : Nat → Effect State) :
    s.finish (residue k r >>= f) = if k.m ≤ r.val then .next (s.faulted 0x04) else s.finish (f r.val) := by
  rcases residue_cases k r with ⟨hlt, he⟩ | ⟨hle, he⟩
  · rw [he, if_neg (Nat.not_le.2 hlt), Effect.bind_ok]
  · rw [he, if_pos hle, Effect.bind_error]
    rfl

/-- `CTXNEW` of a held register (41_montgomery.md R121). -/
theorem exec_ctxnew_eq (ha : s.holds ba la a) (c : CSel) :
    exec (.ctxnew c ba) s = s.finish (s.writeC c <$> makeCtx s.W la a) :=
  State.finish_read ha _

section
variable (hk : s.c[c] = k) (hv : k.valid = true) (ha : s.holds ba la a)
include hk hv

/-- `CTXGET` of a valid context (41_montgomery.md R142). -/
theorem exec_ctxget_eq (bd : BSel) (f : CtxField) :
    exec (.ctxget bd c f) s = .next (s.writeB bd (ctxFieldValue s.W k f).1 (ctxFieldValue s.W k f).2).done :=
  State.finish_readC hk hv _

include ha

/-- `TOMONT` of a held register (41_montgomery.md R127). -/
theorem exec_tomont_eq (bd : BSel) :
    exec (.tomont bd ba c) s =
      if k.m ≤ a then .next (s.faulted 0x04) else .next (s.writeB bd k.s (mont s.W k a k.r2mod)).done := by
  rw [exec, execTomont, State.finish_readC hk hv, State.finish_read ha, State.finish_residue]
  rfl

/-- `FROMMONT` of a held register (41_montgomery.md R128). -/
theorem exec_frommont_eq (bd : BSel) :
    exec (.frommont bd ba c) s =
      if k.m ≤ a then .next (s.faulted 0x04) else .next (s.writeB bd k.s (mont s.W k a 1)).done := by
  rw [exec, execFrommont, State.finish_readC hk hv, State.finish_read ha, State.finish_residue]
  rfl

/-- `MODINVCT` of a held register (42_inversion_group.md R154). -/
theorem exec_modinvct_eq (bd : BSel) :
    exec (.modinvct bd ba c) s =
      if k.m ≤ a then .next (s.faulted 0x04) else .next (s.writeB bd k.s (a ^ (k.m - 2) % k.m)).done := by
  rw [exec, execModinvct, State.finish_readC hk hv, State.finish_read ha, State.finish_residue, ← powMod_eq]
  rfl

/-- `BRED` of a held register (41_montgomery.md R139). -/
theorem exec_bred_eq (bd : BSel) :
    exec (.bred bd ba c) s =
      if 2 ^ (2 * s.W * k.s) ≤ a then .next (s.faulted 0x04) else .next (s.writeB bd k.s (a % k.m)).done := by
  rw [exec, execBred, State.finish_readC hk hv, State.finish_read ha, State.finish_check]
  rfl

variable (hb : s.holds bb lb b)
include hb

/-- `MODEXP` of held registers (41_montgomery.md R131). -/
theorem exec_modexp_eq (bd : BSel) :
    exec (.modexp bd ba bb c) s =
      if k.m ≤ a then .next (s.faulted 0x04) else .next (s.writeB bd k.s (a ^ b % k.m)).done := by
  rw [exec, execModexp, State.finish_readC hk hv, State.finish_read ha, State.finish_read hb, State.finish_residue, ← powMod_eq]
  rfl

/-- `MONTMUL` of held registers (41_montgomery.md R123). -/
theorem exec_montmul_eq (bd : BSel) :
    exec (.montmul bd ba bb c) s =
      if k.m ≤ a then .next (s.faulted 0x04) else if k.m ≤ b then .next (s.faulted 0x04)
      else .next (s.writeB bd k.s (mont s.W k a b)).done := by
  rw [exec, execMontmul, State.finish_readC hk hv, State.finish_read ha, State.finish_read hb, State.finish_residue,
    State.finish_residue]
  rfl

end

/-! ## The commands on Montgomery forms -/

/-- The slot `C[c]` holds the constructed context `k`, at the digit width `W`. -/
structure State.Under (W : Nat) (c : CSel) (k : Ctx) (s : State) : Prop where
  width : s.W = W
  slot : s.c[c] = k
  ok : k.Ok W

/-- The state `t` is a completion after `B[d] <- (n, v)` on the state `s`. -/
def State.Wrote (s : State) (d : BSel) (n v : Nat) (t : State) : Prop := t = (s.writeB d n v).done

theorem State.Wrote.holds_same {s t : State} {d : BSel} {n v : Nat} (h : s.Wrote d n v t) : t.holds d n v := by
  rw [h]
  exact (State.writeB_get s d d n v).trans (if_pos rfl)

theorem State.Wrote.holds_other {s t : State} {d j : BSel} {n v n' v' : Nat} (h : s.Wrote d n v t) (hne : d ≠ j)
    (hj : s.holds j n' v') : t.holds j n' v' := by
  rw [h]
  exact ((State.writeB_get s d j n v).trans (if_neg hne)).trans hj

theorem State.Wrote.under {W : Nat} {s t : State} {d : BSel} {n v : Nat} {c : CSel} {k : Ctx} (h : s.Wrote d n v t)
    (hs : s.Under W c k) : t.Under W c k := by
  rw [h]
  exact ⟨hs.width, hs.slot, hs.ok⟩

section
variable {W : Nat} (hs : s.Under W c k)
include hs

/-- `TOMONT` of a reduced value gives its Montgomery form (41_montgomery.md R127). -/
theorem State.Under.exec_tomont (ha : s.holds ba la a) (hla : a < k.m) (bd : BSel) :
    ∃ t, exec (.tomont bd ba c) s = .next t ∧ s.Wrote bd k.s (toMont W k a) t := by
  obtain ⟨rfl, hk, hok⟩ := hs
  exact ⟨_, by rw [exec_tomont_eq hk hok.valid ha, if_neg (Nat.not_le.2 hla), hok.mont_r2mod], rfl⟩

/-- `MONTMUL` of Montgomery forms gives the form of the product (41_montgomery.md R129). -/
theorem State.Under.exec_montmul (ha : s.holds ba la (toMont W k a)) (hb : s.holds bb lb (toMont W k b)) (bd : BSel) :
    ∃ t, exec (.montmul bd ba bb c) s = .next t ∧ s.Wrote bd k.s (toMont W k (a * b)) t := by
  obtain ⟨rfl, hk, hok⟩ := hs
  refine ⟨_, ?_, rfl⟩
  rw [exec_montmul_eq hk hok.valid ha hb, if_neg (Nat.not_le.2 (hok.toMont_lt a)), if_neg (Nat.not_le.2 (hok.toMont_lt b)),
    hok.mont_toMont]

/-- `FROMMONT` of a Montgomery form gives the value reduced (41_montgomery.md R128). -/
theorem State.Under.exec_frommont (ha : s.holds ba la (toMont W k a)) (bd : BSel) :
    ∃ t, exec (.frommont bd ba c) s = .next t ∧ s.Wrote bd k.s (a % k.m) t := by
  obtain ⟨rfl, hk, hok⟩ := hs
  refine ⟨_, ?_, rfl⟩
  rw [exec_frommont_eq hk hok.valid ha, if_neg (Nat.not_le.2 (hok.toMont_lt a)), hok.mont_toMont_one]

end

end

/-! ## The obligations -/

/-- Settles O20: `makeCtx` gives the context or its one fault. -/
theorem ctxnewResult : Obligations.CtxnewResult := by
  intro c bs s n m hm hn hlt
  rw [exec_ctxnew_eq hm]
  rcases makeCtx_cases s.W n m s.W_pos hn hlt with ⟨hmax, htop, hone, hodd, k, hk, hok, hs, hkm⟩ | ⟨hbad, hk⟩
  · rw [hk]
    exact ⟨fun _ _ _ _ => ⟨k, hok, hs, hkm, rfl⟩, fun _ => by omega⟩
  · rw [hk]
    exact ⟨fun _ _ _ _ => by omega, fun _ => rfl⟩

/-- Settles O21, by the Montgomery product and the two conversions. -/
theorem montResults : Obligations.MontResults := by
  intro bd ba bb c s k la a lb b hk hok ha hb
  rw [exec_montmul_eq hk hok.valid ha hb, exec_tomont_eq hk hok.valid ha, exec_frommont_eq hk hok.valid ha, hok.mont_r2mod]
  refine ⟨fun hla hlb => ?_, fun hle => ?_, fun hla => if_neg (Nat.not_le.2 hla), fun hla => ?_,
    fun hle => ⟨if_pos hle, if_pos hle⟩⟩
  · obtain ⟨hlt, hspec⟩ := mont_spec s.W k a b hok.gtOne hok.odd
    exact ⟨_, hlt, hspec, by rw [if_neg (Nat.not_le.2 hla), if_neg (Nat.not_le.2 hlb)]⟩
  · split
    · rfl
    · next hna => exact if_pos (hle.resolve_left hna)
  · obtain ⟨hlt, hspec⟩ := mont_spec s.W k a 1 hok.gtOne hok.odd
    rw [mul_one, Nat.mod_eq_of_lt hla] at hspec
    exact ⟨_, hlt, hspec, if_neg (Nat.not_le.2 hla)⟩

/-- Settles O22: the forms of the operands are multiplied to the form of the product, whatever registers hold them. -/
theorem montRoundTrip : Obligations.MontRoundTrip := by
  intro ba bb d1 d2 d3 d4 c s k la a lb b hk hok ha hb hla hlb hne1 hne2
  have hs : s.Under s.W c k := ⟨rfl, hk, hok⟩
  obtain ⟨t1, hrun1, hw1⟩ := hs.exec_tomont ha hla d1
  have hs1 := hw1.under hs
  constructor
  · obtain ⟨t2, hrun2, hw2⟩ := hs1.exec_tomont (hw1.holds_other hne1 hb) hlb d2
    have hs2 := hw2.under hs1
    obtain ⟨t3, hrun3, hw3⟩ := hs2.exec_montmul (hw2.holds_other hne2.symm hw1.holds_same) hw2.holds_same d3
    obtain ⟨t4, hrun4, hw4⟩ := (hw3.under hs2).exec_frommont hw3.holds_same d4
    exact ⟨t1, t2, t3, t4, hrun1, hrun2, hrun3, hrun4, hw4.holds_same⟩
  · obtain ⟨t2, hrun2, hw2⟩ := hs1.exec_frommont hw1.holds_same d4
    rw [Nat.mod_eq_of_lt hla] at hw2
    exact ⟨t1, t2, hrun1, hrun2, hw2.holds_same⟩

/-- Settles O23: `powMod` is the power, and Fermat's theorem under a prime modulus. -/
theorem powerResults : Obligations.PowerResults := by
  intro bd ba be c s k la a le e hk hok ha he
  rw [exec_modexp_eq hk hok.valid ha he, exec_modinvct_eq hk hok.valid ha]
  exact ⟨fun hla => if_neg (Nat.not_le.2 hla), fun hle => ⟨if_pos hle, if_pos hle⟩, fun hla => if_neg (Nat.not_le.2 hla),
    fun hla h0 hp => mul_pow_sub_two_mod hp h0 hla⟩

/-- The digit that `CTXGET` writes for the count is a digit, and is the count where that fits (41_montgomery.md R142; log 21). -/
theorem countDigit_spec (W n : Nat) : countDigit W n < 2 ^ W ∧ (n < 2 ^ W → countDigit W n = n) := by
  unfold countDigit
  split
  · next h => exact ⟨h, fun _ => rfl⟩
  · next h => exact ⟨Nat.mod_lt _ (by positivity), fun h' => absurd h' h⟩

/-- Settles O24: the bound check of `BRED`, and the field that each selector of `CTXGET` names. -/
theorem bredCtxgetResults : Obligations.BredCtxgetResults := by
  intro bd bs c s k lx x hk hv hx
  rw [exec_bred_eq hk hv hx]
  refine ⟨fun h => if_neg (Nat.not_le.2 h), fun h => if_pos h, fun f => ⟨_, _, exec_ctxget_eq hk hv bd f, ?_⟩⟩
  cases f with
  | s => exact ⟨rfl, countDigit_spec s.W k.s⟩
  | m | rmod | r2mod | r3mod | mu | mprime | m0 => exact ⟨rfl, rfl⟩

end Sys2Proof.Machine
end

section
/-! The multiplier: the CIOS rows are exact, their loop divides by `R` modulo `m`, and the masked final subtraction reduces
(41_montgomery.md R124 to R126). -/

namespace Sys2Proof.Machine

/-! ## Parts of a digit string -/

/-- The first `n + 1` digits are the first `n` and one more (00_scope.md R10). -/
theorem digitsVal_take_succ (W n : Nat) (l : List Nat) :
    digitsVal W (l.take (n + 1)) = digitsVal W (l.take n) + 2 ^ (W * n) * l.getD n 0 := by
  induction n generalizing l with
  | zero => cases l <;> simp [digitsVal]
  | succ n ih =>
    cases l with
    | nil => simp [digitsVal]
    | cons d l =>
      simp only [List.take_succ_cons, digitsVal, ih, List.getD_cons_succ, two_pow_mul_succ]
      ring

theorem digitsVal_append (W : Nat) (l r : List Nat) :
    digitsVal W (l ++ r) = digitsVal W l + 2 ^ (W * l.length) * digitsVal W r := by
  induction l with
  | nil => simp [digitsVal]
  | cons d l ih =>
    simp only [List.cons_append, digitsVal, ih, List.length_cons, two_pow_mul_succ]
    ring

/-- A number below `2^(W*n)` has its value in the first `n` digits. -/
theorem digitsVal_take_of_lt {W n : Nat} {l : List Nat} (h : digitsVal W l < 2 ^ (W * n)) : digitsVal W (l.take n) = digitsVal W l := by
  by_cases hn : l.length ≤ n
  · rw [List.take_of_length_le hn]
  have hsplit := digitsVal_append W (l.take n) (l.drop n)
  rw [List.take_append_drop, List.length_take, Nat.min_eq_left (by omega)] at hsplit
  have hzero : digitsVal W (l.drop n) = 0 := by
    by_contra hne
    have := Nat.le_mul_of_pos_right (2 ^ (W * n)) (Nat.pos_of_ne_zero hne)
    omega
  rw [hsplit, hzero, mul_zero, add_zero]

theorem AllDigits.append {W : Nat} {l r : List Nat} (hl : AllDigits W l) (hr : AllDigits W r) : AllDigits W (l ++ r) :=
  List.forall_mem_append.2 ⟨hl, hr⟩

/-- A row of multiply-accumulate is exact, its low digits and its carry out taken apart (40_digit_array.md R111). -/
theorem mulRow_split (W b : Nat) {as rs : List Nat} (c : Nat) (h : as.length = rs.length) :
    digitsVal W ((mulRow W b as rs c).value.take as.length) + 2 ^ (W * as.length) * (mulRow W b as rs c).value.getD as.length 0
        = digitsVal W rs + digitsVal W as * b + c
      ∧ ((mulRow W b as rs c).value.take as.length).length = as.length := by
  have hlen := mulRow_length W b as rs c
  rw [← h, Nat.min_self] at hlen
  refine ⟨?_, by simp [hlen]⟩
  rw [← digitsVal_take_succ, ← hlen, List.take_length]
  exact mulRow_val W b c h

/-- The low digits of a row are digits (40_digit_array.md R111). -/
theorem mulRow_allDigits (W b : Nat) {as rs : List Nat} (c : Nat) (h : as.length = rs.length) :
    AllDigits W ((mulRow W b as rs c).value.take as.length) := by
  induction as generalizing rs c with
  | nil => simp [AllDigits]
  | cons a as ih =>
    obtain ⟨r, rs, rfl⟩ := List.exists_cons_of_length_eq_add_one h.symm
    exact (ih ((r + a * b + c) / 2 ^ W) (Nat.succ_injective h)).cons (Nat.mod_lt _ (by positivity))

/-! ## One row -/

/-- The multiply row by the digit `b` on the accumulator `t` of `s + 2` digits (41_montgomery.md R124). -/
def multiplyRow (W s b : Nat) (as t : List Nat) : List Nat :=
  let low := (mulRow W b as (t.take s) 0).value
  let u := t.getD s 0 + low.getD s 0
  low.take s ++ [u % 2 ^ W, u / 2 ^ W]

/-- The reduce row by `q` on the accumulator `t` of `s + 2` digits (41_montgomery.md R124). -/
def reduceRow (W s q : Nat) (ms t : List Nat) : List Nat :=
  let red := (mulRow W q ms.tail (t.tail.take (s - 1)) ((t.headD 0 + q * ms.headD 0) / 2 ^ W)).value
  let u := t.getD s 0 + red.getD (s - 1) 0
  red.take (s - 1) ++ [u % 2 ^ W, t.getD (s + 1) 0 + u / 2 ^ W, t.getD (s + 1) 0]

/-- A row of CIOS is a multiply row and a reduce row by the digit that clears the lowest one (41_montgomery.md R124). -/
theorem ciosRow_value (W mprime : Nat) (as ms : List Nat) (b : Nat) (t : List Nat) :
    (ciosRow W mprime as ms b t).value
      = reduceRow W ms.length ((multiplyRow W ms.length b as t).headD 0 * mprime % 2 ^ W) ms (multiplyRow W ms.length b as t) := rfl

/-- The multiply row adds `a * b`, and no carry is lost. -/
theorem multiplyRow_val (W b : Nat) {as t : List Nat} (h : as.length ≤ t.length) :
    digitsVal W (multiplyRow W as.length b as t) = digitsVal W (t.take (as.length + 1)) + digitsVal W as * b
      ∧ (multiplyRow W as.length b as t).length = as.length + 2 := by
  obtain ⟨hrow, hlen⟩ := mulRow_split W b (as := as) (rs := t.take as.length) 0 (by simpa using h)
  simp only [multiplyRow, digitsVal_append, digitsVal_take_succ, digitsVal, List.length_append, hlen, List.length_cons, List.length_nil,
    mul_zero, add_zero, Nat.mod_add_div, zero_add, Nat.reduceAdd, and_true] at hrow ⊢
  rw [mul_add]
  omega

/-- The reduce row divides `t + q * m` by the base, exactly when `q` clears the lowest digit. -/
theorem reduceRow_val (W q m0 t0 : Nat) {ms t : List Nat} (ht : t.length = ms.length + 2) (hq : (t0 + q * m0) % 2 ^ W = 0) :
    2 ^ W * digitsVal W ((reduceRow W (ms.length + 1) q (m0 :: ms) (t0 :: t)).take (ms.length + 2))
        = digitsVal W (t0 :: t) + q * digitsVal W (m0 :: ms)
      ∧ (reduceRow W (ms.length + 1) q (m0 :: ms) (t0 :: t)).length = ms.length + 3 := by
  have htop := digitsVal_take_succ W (ms.length + 1) t
  rw [List.take_of_length_le ht.le, digitsVal_take_succ W ms.length, two_pow_mul_succ] at htop
  have hdiv := Nat.mod_add_div (t0 + q * m0) (2 ^ W)
  rw [hq, zero_add] at hdiv
  obtain ⟨hrow, hlen⟩ := mulRow_split W q (as := ms) (rs := t.take ms.length) ((t0 + q * m0) / 2 ^ W) (by simp [ht])
  simp only [reduceRow, List.tail_cons, List.headD_cons, List.getD_cons_succ, Nat.add_sub_cancel]
  generalize (mulRow W q ms (t.take ms.length) ((t0 + q * m0) / 2 ^ W)).value = red at hrow hlen
  generalize hu : t.getD ms.length 0 + red.getD ms.length 0 = u
  generalize t.getD (ms.length + 1) 0 = top at htop
  have hcarry := Nat.mod_add_div u (2 ^ W)
  refine ⟨?_, by simp [hlen]⟩
  have hlast : [u % 2 ^ W, top + u / 2 ^ W, top] = [u % 2 ^ W, top + u / 2 ^ W] ++ [top] := rfl
  rw [hlast, ← List.append_assoc, List.take_left' (by simp [hlen]), digitsVal_append, hlen]
  simp only [digitsVal, mul_zero, add_zero]
  calc 2 ^ W * (digitsVal W (red.take ms.length) + 2 ^ (W * ms.length) * (u % 2 ^ W + 2 ^ W * (top + u / 2 ^ W)))
      = 2 ^ W * (digitsVal W (red.take ms.length) + 2 ^ (W * ms.length) * (u % 2 ^ W + 2 ^ W * (u / 2 ^ W) + 2 ^ W * top)) := by ring
    _ = 2 ^ W * (digitsVal W (red.take ms.length) + 2 ^ (W * ms.length) * red.getD ms.length 0
          + 2 ^ (W * ms.length) * (t.getD ms.length 0 + 2 ^ W * top)) := by rw [hcarry, ← hu]; ring
    _ = 2 ^ W * ((t0 + q * m0) / 2 ^ W) + 2 ^ W * digitsVal W t + q * (2 ^ W * digitsVal W ms) := by rw [hrow, htop]; ring
    _ = t0 + 2 ^ W * digitsVal W t + q * (m0 + 2 ^ W * digitsVal W ms) := by rw [hdiv]; ring

/-- The digits of the accumulator after a row, but for the top one. -/
theorem reduceRow_allDigits (W q m0 t0 : Nat) {ms t : List Nat} (ht : t.length = ms.length + 2) :
    AllDigits W ((reduceRow W (ms.length + 1) q (m0 :: ms) (t0 :: t)).take (ms.length + 1)) := by
  have hrow := mulRow_allDigits W q (as := ms) (rs := t.take ms.length) ((t0 + q * m0) / 2 ^ W) (by simp [ht])
  obtain ⟨-, hlen⟩ := mulRow_split W q (as := ms) (rs := t.take ms.length) ((t0 + q * m0) / 2 ^ W) (by simp [ht])
  simp only [reduceRow, List.tail_cons, List.headD_cons, List.getD_cons_succ, Nat.add_sub_cancel]
  generalize (mulRow W q ms (t.take ms.length) ((t0 + q * m0) / 2 ^ W)).value = red at hrow hlen
  rw [List.append_cons, List.take_left' (by simp [hlen])]
  exact hrow.append (by simp [AllDigits, Nat.mod_lt])

/-- The digit `q` of the reduce row clears the lowest digit, because `m * m' = -1` modulo the base (41_montgomery.md R125). -/
theorem add_quotient_mul_mod {B m mprime : Nat} (hB : 0 < B) (h : m * mprime % B = B - 1) (t : Nat) :
    (t + t * mprime % B * m) % B = 0 := by
  have hdvd : (m * mprime + 1) % B = 0 := by
    have hdiv := Nat.mod_add_div (m * mprime) B
    rw [show m * mprime + 1 = B * (m * mprime / B + 1) by rw [mul_add]; omega, Nat.mul_mod_right]
  rw [Nat.add_mod, Nat.mod_mul_mod, ← Nat.add_mod, show t + t * mprime * m = t * (m * mprime + 1) by ring, Nat.mul_mod, hdvd, mul_zero,
    Nat.zero_mod]

section
variable {W n : Nat} {as ms : List Nat} (has : as.length = n) (hms : ms.length = n) (hn : 1 ≤ n)
include has hms hn

/-- What a row of CIOS makes of the accumulator: `(t + a * b + q * m) / 2^W`, for a digit `q` (41_montgomery.md R125). -/
theorem ciosRow_val {mprime : Nat} (hq : ms.headD 0 * mprime % 2 ^ W = 2 ^ W - 1) (b : Nat) {t : List Nat} (ht : t.length = n + 2) :
    ∃ q, q < 2 ^ W
      ∧ 2 ^ W * digitsVal W ((ciosRow W mprime as ms b t).value.take (n + 1))
          = digitsVal W (t.take (n + 1)) + digitsVal W as * b + q * digitsVal W ms
      ∧ AllDigits W ((ciosRow W mprime as ms b t).value.take n) := by
  obtain ⟨m0, ms, rfl⟩ := List.exists_cons_of_length_pos (hms ▸ hn : 0 < ms.length)
  obtain ⟨hval, hlen⟩ := multiplyRow_val W b (as := as) (t := t) (by omega)
  rw [ciosRow_value, hms, ← has]
  generalize multiplyRow W as.length b as t = u at hval hlen
  obtain ⟨t0, u, rfl⟩ := List.exists_cons_of_length_eq_add_one hlen
  have hclear := add_quotient_mul_mod (Nat.two_pow_pos W) hq t0
  have hsucc : as.length = ms.length + 1 := has.trans hms.symm
  have hu : u.length = ms.length + 2 := by simpa [hsucc] using hlen
  rw [hsucc] at hval ⊢
  refine ⟨t0 * mprime % 2 ^ W, Nat.mod_lt _ (by positivity), ?_, reduceRow_allDigits W _ m0 t0 hu⟩
  rw [← hval]
  exact (reduceRow_val W _ m0 t0 hu hclear).1

end

theorem ciosLoop_cons_value (W mprime : Nat) (as ms : List Nat) (b : Nat) (bs t : List Nat) :
    (ciosLoop W mprime as ms (b :: bs) t).value = (ciosLoop W mprime as ms bs (ciosRow W mprime as ms b t).value).value := rfl

/-- The accumulator between two rows, for the modulus `m` of `n` digits: `n + 1` digits with a value below `2 * m`
(41_montgomery.md R125). -/
structure Accumulator (W n m : Nat) (t : List Nat) : Prop where
  length : t.length = n + 2
  digits : AllDigits W (t.take (n + 1))
  lt : digitsVal W (t.take (n + 1)) < 2 * m

theorem Accumulator.zero {W n m : Nat} (hm : 0 < m) : Accumulator W n m (List.replicate (n + 2) 0) where
  length := by simp
  digits := by simp [AllDigits, List.take_replicate, List.mem_replicate]
  lt := by rw [List.take_replicate, digitsVal_replicate_zero]; omega

/-- The operands of the CIOS loop as digit strings: `a < m`, the modulus of `n` digits, and its constant `m'` (41_montgomery.md R124). -/
structure CiosOperands (W n m mprime : Nat) (as ms : List Nat) : Prop where
  width : 0 < W
  count : 1 ≤ n
  lenA : as.length = n
  lenM : ms.length = n
  valM : digitsVal W ms = m
  fits : m < 2 ^ (W * n)
  reduced : digitsVal W as < m
  mprime : ms.headD 0 * mprime % 2 ^ W = 2 ^ W - 1

section
variable {W n m mprime : Nat} {as ms : List Nat} (h : CiosOperands W n m mprime as ms)
include h

/-- A row keeps the accumulator below `2 * m` and divides by the base modulo `m` (41_montgomery.md R125). -/
theorem CiosOperands.row {b : Nat} (hb : b < 2 ^ W) {t : List Nat} (ht : Accumulator W n m t) :
    Accumulator W n m (ciosRow W mprime as ms b t).value
      ∧ 2 ^ W * digitsVal W ((ciosRow W mprime as ms b t).value.take (n + 1))
          ≡ digitsVal W (t.take (n + 1)) + digitsVal W as * b [MOD m] := by
  obtain ⟨q, hq, hval, hdigits⟩ := ciosRow_val h.lenA h.lenM h.count h.mprime b ht.length
  have hlen := (ciosRow_spec W mprime b as ms t (h.lenM ▸ h.count) (h.lenA.trans h.lenM.symm) (h.lenM ▸ ht.length)).2
  rw [h.lenM] at hlen
  rw [h.valM] at hval
  generalize (ciosRow W mprime as ms b t).value = t' at hval hdigits hlen
  have hlt : digitsVal W (t'.take (n + 1)) < 2 * m := by
    obtain ⟨k, hk⟩ : ∃ k, 2 ^ W = k + 1 := Nat.exists_eq_add_one.2 (by positivity)
    have hab : digitsVal W as * b ≤ m * k := Nat.mul_le_mul h.reduced.le (by omega)
    have hqm : q * m ≤ k * m := Nat.mul_le_mul_right m (by omega)
    have ht := ht.lt
    refine Nat.lt_of_mul_lt_mul_left (a := 2 ^ W) ?_
    rw [hval, hk]
    linarith
  refine ⟨⟨hlen, ?_, hlt⟩, ?_⟩
  · have hsplit := digitsVal_take_succ W n t'
    have hfits := h.fits
    have htop : t'.getD n 0 < 2 := Nat.lt_of_mul_lt_mul_left (a := 2 ^ (W * n)) (by omega)
    rw [List.take_succ_eq_append_getElem (by omega)]
    rw [List.getD_eq_getElem _ _ (by omega)] at htop
    exact hdigits.append (List.forall_mem_singleton.2 (htop.trans_le (Nat.pow_le_pow_right two_pos h.width)))
  · rw [hval]
    exact (Nat.modEq_iff_dvd' (Nat.le_add_right ..)).2 (by simp) |>.symm

/-- The loop of CIOS over the digits `bs` multiplies by their value and divides by `2^(W * bs.length)`, modulo `m`. -/
theorem CiosOperands.loop {bs : List Nat} (hbs : AllDigits W bs) {t : List Nat} (ht : Accumulator W n m t) :
    Accumulator W n m (ciosLoop W mprime as ms bs t).value
      ∧ 2 ^ (W * bs.length) * digitsVal W ((ciosLoop W mprime as ms bs t).value.take (n + 1))
          ≡ digitsVal W (t.take (n + 1)) + digitsVal W as * digitsVal W bs [MOD m] := by
  induction bs generalizing t with
  | nil => simpa [ciosLoop, digitsVal] using ⟨ht, rfl⟩
  | cons b bs ih =>
    obtain ⟨hb, hbs⟩ := List.forall_mem_cons.1 hbs
    obtain ⟨hrow, hstep⟩ := h.row hb ht
    obtain ⟨hacc, hrest⟩ := ih hbs hrow
    refine ⟨hacc, ?_⟩
    rw [ciosLoop_cons_value]
    generalize (ciosRow W mprime as ms b t).value = row at hstep hrest
    generalize (ciosLoop W mprime as ms bs row).value = out at hrest
    calc 2 ^ (W * (bs.length + 1)) * digitsVal W (out.take (n + 1))
        = 2 ^ W * (2 ^ (W * bs.length) * digitsVal W (out.take (n + 1))) := by rw [two_pow_mul_succ, mul_assoc]
      _ ≡ 2 ^ W * (digitsVal W (row.take (n + 1)) + digitsVal W as * digitsVal W bs) [MOD m] := hrest.mul_left _
      _ = 2 ^ W * digitsVal W (row.take (n + 1)) + 2 ^ W * (digitsVal W as * digitsVal W bs) := mul_add ..
      _ ≡ digitsVal W (t.take (n + 1)) + digitsVal W as * b + 2 ^ W * (digitsVal W as * digitsVal W bs) [MOD m] := hstep.add_right _
      _ = digitsVal W (t.take (n + 1)) + digitsVal W as * digitsVal W (b :: bs) := by rw [digitsVal]; ring

end

/-! ## The final subtraction -/

/-- The select takes the difference when there is no borrow, and the minuend when there is one (41_montgomery.md R126). -/
theorem selectDigits_eq {W : Nat} (noBorrow : Bool) {d t : List Nat} (hlen : d.length = t.length) (hd : AllDigits W d)
    (ht : AllDigits W t) : selectDigits W noBorrow d t = if noBorrow then d else t := by
  have hmask : ∀ x < 2 ^ W, x &&& (2 ^ W - 1) = x := fun x hx => by rw [Nat.and_two_pow_sub_one_eq_mod, Nat.mod_eq_of_lt hx]
  induction d generalizing t with
  | nil =>
    obtain rfl := List.length_eq_zero_iff.1 hlen.symm
    cases noBorrow <;> rfl
  | cons x d ih =>
    obtain ⟨y, t, rfl⟩ := List.exists_cons_of_length_eq_add_one hlen.symm
    obtain ⟨hx, hd⟩ := List.forall_mem_cons.1 hd
    obtain ⟨hy, ht⟩ := List.forall_mem_cons.1 ht
    have hrest := ih (Nat.succ_injective hlen) hd ht
    cases noBorrow with
    | true =>
      simp only [selectDigits, if_true, List.zipWith_cons_cons, Nat.sub_self, Nat.and_zero, Nat.or_zero, hmask x hx] at hrest ⊢
      rw [hrest]
    | false =>
      simp only [selectDigits, Bool.false_eq_true, if_false, List.zipWith_cons_cons, Nat.sub_zero, Nat.and_zero, Nat.zero_or,
        hmask y hy] at hrest ⊢
      rw [hrest]

/-- The masked subtraction of the modulus reduces a number below twice the modulus (41_montgomery.md R126). -/
theorem maskedSub_val {W n m : Nat} (hm : m < 2 ^ (W * n)) {t : List Nat} (hlen : t.length = n + 1) (ht : AllDigits W t)
    (hlt : digitsVal W t < 2 * m) {r : List Nat × Nat} (hr : r = (subLoop W t (digits W m (n + 1)) 0).value) :
    digitsVal W ((selectDigits W (r.2 == 0) r.1 t).take n) = digitsVal W t % m := by
  have hm' : m < 2 ^ (W * (n + 1)) := hm.trans_le (Nat.pow_le_pow_right two_pos (Nat.mul_le_mul_left W n.le_succ))
  obtain ⟨hval, hlenr, hr1, hr2⟩ := subLoop_spec W (as := t) (bs := digits W m (n + 1)) (by simpa using hlen) ht
    (allDigits_digits _ _ _) zero_le_one
  rw [← hr, digitsVal_digits hm', hlen, add_zero] at hval
  rw [← hr] at hlenr hr1 hr2
  have hlt1 := hr1.digitsVal_lt
  rw [hlenr, hlen] at hlt1
  rw [selectDigits_eq _ hlenr hr1 ht]
  obtain h0 | h1 := Nat.le_one_iff_eq_zero_or_eq_one.1 hr2
  · rw [h0] at hval ⊢
    have hred : digitsVal W r.1 = digitsVal W t % m := by rw [Nat.mod_eq_sub_mod (by omega), Nat.mod_eq_of_lt (by omega)]; omega
    have hlow : digitsVal W r.1 < 2 ^ (W * n) := by omega
    exact (digitsVal_take_of_lt hlow).trans hred
  · rw [h1] at hval ⊢
    have hred : digitsVal W t % m = digitsVal W t := Nat.mod_eq_of_lt (by omega)
    have hlow : digitsVal W t < 2 ^ (W * n) := by omega
    exact (digitsVal_take_of_lt hlow).trans hred.symm

/-! ## The datapath -/

/-- A constructed context and a reduced operand are operands of the CIOS loop. -/
theorem Ctx.Ok.ciosOperands {W : Nat} (hW : 0 < W) {c : Ctx} (hc : c.Ok W) {a : Nat} (ha : a < c.m) :
    CiosOperands W c.s c.m c.mprime (digits W a c.s) (digits W c.m c.s) where
  width := hW
  count := hc.count.1
  lenA := digits_length ..
  lenM := digits_length ..
  valM := digitsVal_digits hc.fits
  fits := hc.fits
  reduced := by rwa [digitsVal_digits (ha.trans hc.fits)]
  mprime := by
    obtain ⟨n, hn⟩ := Nat.exists_eq_add_one.2 hc.count.1
    rw [hn, digits_succ, List.headD_cons, Nat.mod_mul_mod]
    exact hc.mprime

/-- The CIOS datapath gives the reduced Montgomery product (41_montgomery.md R124 to R126). -/
theorem Ctx.Ok.cios_value {W : Nat} (hW : 0 < W) {c : Ctx} (hc : c.Ok W) {a b : Nat} (ha : a < c.m) (hb : b < c.m) :
    (cios W c a b).value = mont W c a b := by
  have hops := hc.ciosOperands hW ha
  obtain ⟨hacc, hmod⟩ := hops.loop (allDigits_digits W b c.s) (Accumulator.zero (Nat.zero_lt_of_lt hc.gtOne))
  rw [List.take_replicate, digitsVal_replicate_zero, zero_add, digits_length, digitsVal_digits (ha.trans hc.fits),
    digitsVal_digits (hb.trans hc.fits)] at hmod
  have hsub : (cios W c a b).value = _ := maskedSub_val hc.fits (by simp [hacc.length]) hacc.digits hacc.lt rfl
  rw [hsub]
  refine (hc.mont_eq (hc.mod_lt _) ?_).symm
  rw [Nat.mod_mul_mod, mul_comm]
  exact hmod

/-- Settles O46: the loop is exact modulo `m`, the final subtraction reduces, and a reduced number with that product by `R` is `mont`. -/
theorem ciosValue : Obligations.CiosValue := by
  intro d c a b hc ha hb
  rw [hc.cios_value (DigitWidth.bits_pos d) ha hb]
  exact ⟨rfl, mont_spec d.bits c a b hc.gtOne hc.odd⟩

end Sys2Proof.Machine
end

section
/-! Barrett reduction: the estimated quotient is at most two too small, and the two masked subtractions make up for it
(41_montgomery.md R140). -/

namespace Sys2Proof.Machine

/-! ## The quotient estimate -/

section
variable {P Q m x : Nat}

/-- The estimate never exceeds the quotient. -/
theorem barrett_estimate_mul_le (hQ : 0 < Q) : x / P * (P * Q / m) / Q * m ≤ x := by
  refine Nat.le_of_mul_le_mul_right ?_ hQ
  calc x / P * (P * Q / m) / Q * m * Q = x / P * (P * Q / m) / Q * Q * m := by ring
    _ ≤ x / P * (P * Q / m) * m := Nat.mul_le_mul_right m (Nat.div_mul_le_self _ _)
    _ = x / P * (P * Q / m * m) := mul_assoc _ _ _
    _ ≤ x / P * (P * Q) := Nat.mul_le_mul_left _ (Nat.div_mul_le_self _ _)
    _ = x / P * P * Q := (mul_assoc _ _ _).symm
    _ ≤ x * Q := Nat.mul_le_mul_right Q (Nat.div_mul_le_self _ _)

/-- The estimate is at most two less than the quotient: each of its three divisions loses less than `m * Q`. -/
theorem lt_barrett_estimate_add (hP : 0 < P) (hQ : 0 < Q) (hm : P ≤ m) (hx : x < P * Q) :
    x < x / P * (P * Q / m) / Q * m + 3 * m := by
  have hm0 : 0 < m := hP.trans_le hm
  have hq1 : x / P < Q := Nat.div_lt_of_lt_mul hx
  have h1 : x < (x / P + 1) * P := Nat.lt_mul_of_div_lt (Nat.lt_succ_self _) hP
  have hmu : P * Q < (P * Q / m + 1) * m := Nat.lt_mul_of_div_lt (Nat.lt_succ_self _) hm0
  generalize x / P = q1 at hq1 h1
  generalize P * Q / m = mu at hmu
  have h3 : q1 * mu < (q1 * mu / Q + 1) * Q := Nat.lt_mul_of_div_lt (Nat.lt_succ_self _) hQ
  generalize q1 * mu / Q = q3 at h3
  refine Nat.lt_of_mul_lt_mul_right (a := Q) ?_
  calc x * Q < (q1 + 1) * P * Q := Nat.mul_lt_mul_of_pos_right h1 hQ
    _ = q1 * (P * Q) + P * Q := by ring
    _ ≤ q1 * ((mu + 1) * m) + m * Q := Nat.add_le_add (Nat.mul_le_mul_left q1 hmu.le) (Nat.mul_le_mul_right Q hm)
    _ = q1 * mu * m + q1 * m + m * Q := by ring
    _ ≤ (q3 + 1) * Q * m + Q * m + m * Q := by gcongr
    _ = (q3 * m + 3 * m) * Q := by ring

end

/-! ## The corrections -/

/-- A difference below `2^n` is that of the numbers taken modulo `2^n` (40_digit_array.md R108). -/
theorem wrapSub_mod {x y n : Nat} (hle : y ≤ x) (hlt : x - y < 2 ^ n) : wrapSub (x % 2 ^ n) (y % 2 ^ n) n = x - y := by
  rw [wrapSub, Int.natCast_mod, Int.natCast_mod, ← Int.sub_emod, ← Nat.cast_sub hle, ← Int.natCast_mod, Int.toNat_natCast,
    Nat.mod_eq_of_lt hlt]

/-- One masked subtraction takes one `m` off, if there is one, and keeps the residue. -/
theorem barrettCorrect_spec {m r n : Nat} (h : r < (n + 2) * m) :
    barrettCorrect m r < (n + 1) * m ∧ barrettCorrect m r % m = r % m := by
  unfold barrettCorrect sel
  by_cases hr : m ≤ r
  · rw [if_pos (decide_eq_true hr)]
    exact ⟨by linarith [Nat.sub_add_cancel hr], (Nat.mod_eq_sub_mod hr).symm⟩
  · rw [if_neg (by simpa using hr)]
    exact ⟨(Nat.lt_of_not_le hr).trans_le (Nat.le_mul_of_pos_left m n.succ_pos), rfl⟩

/-- Two masked subtractions reduce a number below `3 * m`. -/
theorem barrettCorrect_twice {m r : Nat} (h : r < 3 * m) : barrettCorrect m (barrettCorrect m r) = r % m := by
  obtain ⟨hlt, hmod⟩ := barrettCorrect_spec (n := 1) h
  obtain ⟨hlt', hmod'⟩ := barrettCorrect_spec (n := 0) hlt
  rw [← hmod, ← hmod', Nat.mod_eq_of_lt (by omega)]

/-- The Barrett datapath gives the residue (41_montgomery.md R140). -/
theorem Ctx.Ok.barrett_eq {W : Nat} (hW : 2 ≤ W) {c : Ctx} (hc : c.Ok W) {x : Nat} (hx : x < 2 ^ (2 * W * c.s)) :
    barrett W c x = x % c.m := by
  have hs := hc.count.1
  have hsplit : 2 ^ (2 * W * c.s) = 2 ^ (W * (c.s - 1)) * 2 ^ (W * (c.s + 1)) := by
    rw [← pow_add, ← mul_add, show c.s - 1 + (c.s + 1) = 2 * c.s by omega, ← mul_assoc, mul_comm W 2]
  rw [hsplit] at hx
  have hmu := hc.mu
  rw [hsplit] at hmu
  have hle := barrett_estimate_mul_le (P := 2 ^ (W * (c.s - 1))) (m := c.m) (x := x) (Nat.two_pow_pos (W * (c.s + 1)))
  have hlt := lt_barrett_estimate_add (Nat.two_pow_pos _) (Nat.two_pow_pos _) hc.topDigit hx
  have hroom : 3 * c.m < 2 ^ (W * (c.s + 1)) := by
    have hfour : 2 ^ 2 ≤ 2 ^ W := Nat.pow_le_pow_right two_pos hW
    have hmul : 2 ^ 2 * 2 ^ (W * c.s) ≤ 2 ^ W * 2 ^ (W * c.s) := Nat.mul_le_mul_right _ hfour
    have hfits := hc.fits
    rw [two_pow_mul_succ]
    omega
  simp only [barrett, hmu]
  generalize x / 2 ^ (W * (c.s - 1)) * (2 ^ (W * (c.s - 1)) * 2 ^ (W * (c.s + 1)) / c.m) / 2 ^ (W * (c.s + 1)) = q at hle hlt
  rw [wrapSub_mod hle (by omega), barrettCorrect_twice (by omega), mul_comm, Nat.sub_mul_mod (by rwa [mul_comm])]

theorem DigitWidth.eight_le_bits (d : DigitWidth) : 8 ≤ d.bits := by cases d <;> decide

/-- Settles O47: the estimate of the quotient, and the two corrections. -/
theorem barrettValue : Obligations.BarrettValue := fun d _ _ hc hx =>
  hc.barrett_eq (le_trans (by decide) (DigitWidth.eight_le_bits d)) hx

end Sys2Proof.Machine
end

section
/-! Fixed-window exponentiation: its table, its scan and its windows hold Montgomery forms of powers, and its calls of the multiplier are
those of the public lengths (41_montgomery.md R132 to R135). -/

namespace Sys2Proof.Machine

/-! ## The table scan -/

theorem scanTable_cons_value (d t j ent : Nat) (ts : List Nat) :
    (scanTable d (t :: ts) j ent).value = (scanTable d ts (j + 1) (ent ||| sel (j == d) t 0)).value := rfl

/-- The scan from index `j` on finds the entry at `d`, if it has not passed it (41_montgomery.md R134). -/
theorem scanTable_value_from (d : Nat) (ts : List Nat) (j ent : Nat) :
    (scanTable d ts j ent).value = ent ||| (if j ≤ d then ts.getD (d - j) 0 else 0) := by
  induction ts generalizing j ent with
  | nil => simp [scanTable]
  | cons t ts ih =>
    rw [scanTable_cons_value, ih]
    rcases lt_trichotomy j d with hlt | rfl | hgt
    · obtain ⟨k, rfl⟩ := Nat.exists_eq_add_of_lt hlt
      simp [sel, show j ≠ j + k + 1 by omega, show j ≤ j + k + 1 by omega, show j + k + 1 - j = k + 1 by omega]
    · simp [sel]
    · simp [sel, show ¬j ≤ d by omega, show ¬j + 1 ≤ d by omega, hgt.ne']

/-- The scan of a whole table returns the entry of the digit (41_montgomery.md R134). -/
theorem scanTable_value (d : Nat) (ts : List Nat) : (scanTable d ts 0 0).value = ts.getD d 0 := by
  rw [scanTable_value_from, if_pos d.zero_le, Nat.zero_or, Nat.sub_zero]

/-! ## Powers in Montgomery form -/

/-- The Montgomery forms of `a^0 .. a^(n-1)`, the table of R132. -/
def powerForms (W : Nat) (c : Ctx) (a n : Nat) : List Nat := (List.range n).map fun j => toMont W c (a ^ j)

theorem powerForms_getD {W : Nat} {c : Ctx} {a n j : Nat} (h : j < n) : (powerForms W c a n).getD j 0 = toMont W c (a ^ j) := by
  simp [powerForms, h]

section
variable {W : Nat} {c : Ctx} (hc : c.Ok W)
include hc

/-- The entries after `a^i` are the next powers (41_montgomery.md R132). -/
theorem Ctx.Ok.powerTable_value (a n j i : Nat) :
    (powerTable W c (toMont W c a) n j (toMont W c (a ^ i))).value = (List.range n).map fun k => toMont W c (a ^ (i + 1 + k)) := by
  induction n generalizing j i with
  | zero => rfl
  | succ n ih =>
    simp only [powerTable, Traced.value_bind, montT_value, Traced.value_pure, hc.mont_toMont, ← pow_succ, ih, List.range_succ_eq_map,
      List.map_cons, List.map_map, Function.comp_def, add_zero]
    simp only [Nat.succ_eq_add_one, Nat.add_assoc, Nat.add_comm 1]

/-- The table of all window digits (41_montgomery.md R132). -/
theorem Ctx.Ok.table_eq {w : Nat} (hw : 1 ≤ w) (a : Nat) :
    c.rmod :: toMont W c a :: (powerTable W c (toMont W c a) (2 ^ w - 2) 2 (toMont W c a)).value = powerForms W c a (2 ^ w) := by
  have htwo : 2 ^ 1 ≤ 2 ^ w := Nat.pow_le_pow_right two_pos hw
  obtain ⟨n, hn⟩ := Nat.exists_eq_add_of_le htwo
  have htab := hc.powerTable_value a n 2 1
  rw [pow_one] at htab
  rw [hn, show 2 ^ 1 + n - 2 = n by omega, htab, hc.rmod_eq_toMont, show 2 ^ 1 + n = n + 1 + 1 by omega]
  simp only [powerForms, List.range_succ_eq_map, List.map_cons, List.map_map, Function.comp_def, pow_zero, zero_add, pow_one,
    Nat.succ_eq_add_one, Nat.reduceAdd, Nat.add_comm 2, Nat.add_assoc]

/-- `n` squarings raise to the power `2^n` (41_montgomery.md R132). -/
theorem Ctx.Ok.squarings_value (n u : Nat) : (squarings W c n (toMont W c u)).value = toMont W c (u ^ 2 ^ n) := by
  induction n generalizing u with
  | zero => simp [squarings]
  | succ n ih =>
    simp only [squarings, Traced.value_bind, montT_value, hc.mont_toMont, ih]
    rw [← pow_two, ← pow_mul, ← pow_succ']

/-- The windows below `i` append their digits of `e` to the exponent (41_montgomery.md R132). -/
theorem Ctx.Ok.windowLoop_value (w e a i u : Nat) :
    (windowLoop W c w e (powerForms W c a (2 ^ w)) i (toMont W c (a ^ u))).value
      = toMont W c (a ^ (u * 2 ^ (w * i) + e % 2 ^ (w * i))) := by
  induction i generalizing u with
  | zero => simp [windowLoop, Nat.mod_one]
  | succ i ih =>
    have hdigit : e / 2 ^ (w * i) % 2 ^ w < 2 ^ w := Nat.mod_lt _ (by positivity)
    simp only [windowLoop, Traced.value_bind, montT_value, hc.squarings_value, scanTable_value, powerForms_getD hdigit, hc.mont_toMont,
      ← pow_mul, ← pow_add, ih]
    congr 2
    rw [mod_pow_succ_eq, mul_add w, mul_one, pow_add]
    ring

/-- The windowed exponentiation over all the digits of the exponent is the power (41_montgomery.md R132). -/
theorem Ctx.Ok.modexpWindows_value {a e le : Nat} (hw : 1 ≤ optimalWindow (W * le)) (he : e < 2 ^ (W * le)) :
    (modexpWindows W c a e le).value = a ^ e % c.m := by
  have hloop := hc.windowLoop_value (optimalWindow (W * le)) e a (ceilDiv (W * le) (optimalWindow (W * le))) 0
  have hcover : W * le ≤ optimalWindow (W * le) * ceilDiv (W * le) (optimalWindow (W * le)) := (le_ceilDiv_iff hw).1 le_rfl
  rw [pow_zero, zero_mul, zero_add, Nat.mod_eq_of_lt (he.trans_le (Nat.pow_le_pow_right two_pos hcover)), ← hc.rmod_eq_toMont,
    ← hc.table_eq hw] at hloop
  simp only [modexpWindows, Traced.value_bind, montT_value, hc.mont_r2mod, hloop, hc.mont_toMont_one]

end

/-- The window width is one of `1 .. 6` (41_montgomery.md R133). -/
theorem optimalWindow_pos (nbits : Nat) : 1 ≤ optimalWindow nbits := by
  refine List.foldlRecOn [2, 3, 4, 5, 6] _ le_rfl fun best hbest w hw => ?_
  have hone : ∀ w ∈ [2, 3, 4, 5, 6], 1 ≤ w := by decide
  split
  · exact hone w hw
  · exact hbest

/-! ## Calls of the multiplier -/

theorem observe_calls (op : LeakOp) : (observe op).trace.count .mont = if op = .mont then 1 else 0 := by
  rw [observe_trace, List.count_singleton]
  simp only [beq_iff_eq]

/-- A call of the multiplier is one call, whatever its loops leave (41_montgomery.md R135). -/
theorem montT_calls (W : Nat) (c : Ctx) (a b : Nat) : (montT W c a b).trace.count .mont = 1 := by
  simp [List.count_replicate]

theorem powerTable_calls (W : Nat) (c : Ctx) (base n i prev : Nat) : (powerTable W c base n i prev).trace.count .mont = n := by
  induction n generalizing i prev with
  | zero => rfl
  | succ n ih =>
    simp only [powerTable, Traced.trace_bind, List.count_append, observe_calls, montT_calls, ih, Traced.trace_pure, List.count_nil,
      reduceCtorEq, if_false]
    omega

theorem squarings_calls (W : Nat) (c : Ctx) (n acc : Nat) : (squarings W c n acc).trace.count .mont = n := by
  induction n generalizing acc with
  | zero => rfl
  | succ n ih =>
    simp only [squarings, Traced.trace_bind, List.count_append, observe_calls, montT_calls, ih, reduceCtorEq, if_false]
    omega

theorem scanTable_calls (d : Nat) (ts : List Nat) (j ent : Nat) : (scanTable d ts j ent).trace.count .mont = 0 := by
  induction ts generalizing j ent with
  | nil => rfl
  | cons t ts ih => simp [scanTable, ih]

/-- Every window squares `w` times and multiplies once, whatever its digit (41_montgomery.md R135). -/
theorem windowLoop_calls (W : Nat) (c : Ctx) (w e : Nat) (tab : List Nat) (i acc : Nat) :
    (windowLoop W c w e tab i acc).trace.count .mont = i * (w + 1) := by
  induction i generalizing acc with
  | zero => simp [windowLoop]
  | succ i ih =>
    simp only [windowLoop, Traced.trace_bind, List.count_append, observe_calls, squarings_calls, scanTable_calls, montT_calls, ih,
      reduceCtorEq, if_false]
    ring

theorem modexpWindows_calls (W : Nat) (c : Ctx) (a e le : Nat) :
    (modexpWindows W c a e le).trace.count .mont
      = 2 ^ optimalWindow (W * le) - 2 + ceilDiv (W * le) (optimalWindow (W * le)) * (optimalWindow (W * le) + 1) + 2 := by
  simp only [modexpWindows, Traced.trace_bind, List.count_append, montT_calls, powerTable_calls, windowLoop_calls]
  omega

/-- Settles O48: the value of the windows, and the calls of the table, of the windows and of the two conversions. -/
theorem modexpWindows_spec : Obligations.ModexpWindows := by
  intro d c a e le w hc ha he hw
  have hpos := optimalWindow_pos (d.bits * le)
  refine ⟨hc.modexpWindows_value hpos he, ?_⟩
  rw [modexpWindows_calls, ← hw, ceilDiv]
  have htwo : 2 ^ 1 ≤ 2 ^ w := Nat.pow_le_pow_right two_pos (hw ▸ hpos)
  omega

end Sys2Proof.Machine
end

section
/-! The inversion and integer-group commands: the signed cofactors of the Euclidean loop, what each command ends in, and the properties
of the group (42_inversion_group.md). -/

namespace Sys2Proof.Machine

/-! ## The Euclidean loop -/

/-- The cofactors carry their signs in the parity of the count: `a * t0 ≡ (-1)^(k+1) * r0` and `a * t1 ≡ (-1)^k * r1` modulo `n`, kept by
every turn (42_inversion_group.md R152). -/
theorem euclidLoop_signed {n a : Int} : ∀ fuel r0 r1 t0 t1 k : Nat,
    a * t0 ≡ (-1) ^ (k + 1) * r0 [ZMOD n] → a * t1 ≡ (-1) ^ k * r1 [ZMOD n] →
    a * (euclidLoop fuel r0 r1 t0 t1 k).2.1
      ≡ (-1) ^ ((euclidLoop fuel r0 r1 t0 t1 k).2.2 + 1) * (euclidLoop fuel r0 r1 t0 t1 k).1 [ZMOD n]
  | 0, _, _, _, _, _, h0, _ => h0
  | fuel + 1, r0, r1, t0, t1, k, h0, h1 => by
    unfold euclidLoop
    split
    · exact h0
    · have hnext : a * ((t0 + r0 / r1 * t1 : Nat) : Int) ≡ (-1) ^ (k + 1) * ((r0 - r0 / r1 * r1 : Nat) : Int) [ZMOD n] :=
        calc a * ((t0 + r0 / r1 * t1 : Nat) : Int)
            = a * t0 + ((r0 / r1 : Nat) : Int) * (a * t1) := by push_cast; ring
          _ ≡ (-1) ^ (k + 1) * r0 + ((r0 / r1 : Nat) : Int) * ((-1) ^ k * r1) [ZMOD n] := h0.add (h1.mul_left _)
          _ = (-1) ^ (k + 1) * ((r0 - r0 / r1 * r1 : Nat) : Int) := by
            rw [Nat.cast_sub (Nat.div_mul_le_self r0 r1), Nat.cast_mul]
            ring
      have hsame : a * (t1 : Int) ≡ (-1) ^ (k + 1 + 1) * r1 [ZMOD n] := by
        rwa [pow_add (-1 : Int) k 2, neg_one_sq, mul_one]
      exact euclidLoop_signed fuel _ _ _ _ _ hsame hnext

theorem euclid_signed (n a : Nat) :
    (a : Int) * (euclid n a).2.1 ≡ (-1) ^ ((euclid n a).2.2 + 1) * (euclid n a).1 [ZMOD n] :=
  euclidLoop_signed a n a 0 1 0 (by simp [Int.modEq_iff_dvd]) (by simp)

/-- The reduction before the loop does not change the greatest common divisor (42_inversion_group.md R151). -/
theorem euclid_mod_fst (n a : Nat) : (euclid n (a % n)).1 = Nat.gcd a n := by
  rw [euclid_fst, Nat.gcd_comm n, ← Nat.gcd_rec, Nat.gcd_comm]

/-! ## The inverse -/

/-- The number that `MODINV` writes: the cofactor, or on an even count its complement (42_inversion_group.md R151). -/
def euclidInverse (n a : Nat) : Nat :=
  if (euclid n (a % n)).2.2 % 2 = 1 then (euclid n (a % n)).2.1 else n - (euclid n (a % n)).2.1

theorem euclidInverse_le {n : Nat} (hn : 1 ≤ n) (a : Nat) : euclidInverse n a ≤ n := by
  unfold euclidInverse
  split
  · exact euclid_cofactor_le n _ hn
  · exact Nat.sub_le _ _

/-- The sign adjustment makes up for the parity of the count (42_inversion_group.md R151, R152). -/
theorem mul_euclidInverse {n a : Nat} (hn : 2 ≤ n) (hcop : Nat.gcd a n = 1) : a * euclidInverse n a % n = 1 := by
  have hsigned := euclid_signed n (a % n)
  rw [euclid_mod_fst, hcop, Nat.cast_one, mul_one] at hsigned
  have hinv : ((a % n : Nat) : Int) * euclidInverse n a ≡ 1 [ZMOD n] := by
    unfold euclidInverse
    split
    · next hodd => rwa [(Nat.odd_iff.2 hodd).add_one.neg_one_pow] at hsigned
    · next hne =>
      rw [(Nat.even_iff.2 (by omega : _ % 2 = 0)).add_one.neg_one_pow] at hsigned
      rw [Nat.cast_sub (euclid_cofactor_le n _ (by omega)), mul_sub]
      have hzero : ((a % n : Nat) : Int) * n ≡ 0 [ZMOD n] := by simp [Int.modEq_iff_dvd]
      exact hzero.sub hsigned
  have hnat : a % n * euclidInverse n a ≡ 1 [MOD n] := Int.natCast_modEq_iff.1 (by exact_mod_cast hinv)
  rw [← Nat.mod_mul_mod, hnat, Nat.mod_eq_of_lt (by omega)]

theorem euclidInverse_range {n a : Nat} (hn : 2 ≤ n) (hcop : Nat.gcd a n = 1) : 1 ≤ euclidInverse n a ∧ euclidInverse n a < n := by
  have hmul := mul_euclidInverse hn hcop
  have hle := euclidInverse_le (by omega : 1 ≤ n) a
  have h0 : euclidInverse n a ≠ 0 := fun h => by simp [h] at hmul
  have hne : euclidInverse n a ≠ n := fun h => by simp [h] at hmul
  omega

/-- A reduced inverse is the only one (42_inversion_group.md R151). -/
theorem inverse_unique {a n x y : Nat} (hx : x < n) (hy : y < n) (hax : a * x % n = 1) (hay : a * y % n = 1) : x = y := by
  have hsym : x * a * y = a * y * x := by ring
  calc x = a * y % n * x % n := by rw [hay, one_mul, Nat.mod_eq_of_lt hx]
    _ = a * x % n * y % n := by rw [Nat.mod_mul_mod, Nat.mod_mul_mod, mul_right_comm]
    _ = y := by rw [hax, one_mul, Nat.mod_eq_of_lt hy]

/-! ## Sums, differences and products modulo `m` -/

/-- The masked subtraction of reduced operands is the difference of integers modulo `m` (42_inversion_group.md R158). -/
theorem modSub_eq_emod {m a b : Nat} (ha : a < m) (hb : b < m) : modSub m a b = (((a : Int) - b) % m).toNat := by
  rw [modSub_eq ha hb, ← Int.toNat_natCast ((a + (m - b)) % m), Int.natCast_mod,
    show ((a + (m - b) : Nat) : Int) = (a : Int) - b + m by omega, Int.add_emod_right]

/-- A subtraction is undone by the addition of the same operand (42_inversion_group.md R161). -/
theorem modAdd_modSub {m a b : Nat} (ha : a < m) (hb : b < m) : modAdd m (modSub m a b) b = a := by
  have hlt : modSub m a b < m := modSub_eq ha hb ▸ Nat.mod_lt _ (by omega)
  rw [modAdd_eq hlt hb, modSub_eq ha hb, Nat.mod_add_mod, show a + (m - b) + b = a + m by omega, Nat.add_mod_right,
    Nat.mod_eq_of_lt ha]

section
variable {W : Nat} {c : Ctx} (hc : c.Ok W)
include hc

/-- The second pass of the multiplier takes the factor `R^-1` of the first away (42_inversion_group.md R159). -/
theorem Ctx.Ok.mont_mont_r2mod (a b : Nat) : mont W c (mont W c a b) c.r2mod = a * b % c.m := by
  rw [hc.mont_r2mod, toMont, (mont_spec W c a b hc.gtOne hc.odd).2]

/-- The modulus of a context is normalized: its top digit is not zero (10_state.md R30). -/
theorem Ctx.Ok.normlen_modulus (hW : 0 < W) : normlen W c.m = c.s := by
  obtain ⟨hpos, -⟩ := hc.count
  refine le_antisymm ((normlen_le_iff hW hpos).2 hc.fits) ?_
  by_contra hlt
  have hone := normlen_pos W c.m
  have hfits := (normlen_le_iff hW (show 1 ≤ c.s - 1 by omega)).1 (show normlen W c.m ≤ c.s - 1 by omega)
  exact absurd hc.topDigit (Nat.not_le.2 hfits)

end

/-! ## How each command ends -/

section
variable {s : State} {c : CSel} {k : Ctx} {ba bb : BSel} {la a lb b : Nat}

section
variable (ha : s.holds ba la a) (hb : s.holds bb lb b)
include ha hb

/-- `MODINV` of held registers (42_inversion_group.md R151). -/
theorem exec_modinv_eq (bd : BSel) :
    exec (.modinv bd ba bb) s =
      if b = 0 then .next (s.faulted 0x06) else if b = 1 then .next (s.faulted 0x05)
      else if Nat.gcd a b ≠ 1 then .next (s.faulted 0x07)
      else .next (s.writeB bd (normlen s.W b) (euclidInverse b a)).done := by
  have hgcd : (euclid b (a % b)).1 ≠ 1 ↔ Nat.gcd a b ≠ 1 := by rw [euclid_mod_fst]
  rw [exec, execModinv, State.finish_read ha, State.finish_read hb, State.finish_check, State.finish_check, State.finish_check]
  exact if_congr Iff.rfl rfl (if_congr Iff.rfl rfl (if_congr hgcd rfl rfl))

/-- `GCD` of held registers (42_inversion_group.md R155). -/
theorem exec_gcd_eq (bd : BSel) :
    exec (.gcd bd ba bb) s = .next (s.writeB bd (normlen s.W (Nat.gcd a b)) (Nat.gcd a b)).done := by
  rw [exec, execGcd, State.finish_read ha, State.finish_read hb, ← euclid_fst]
  rfl

end

/-- Two residue operands are checked in order, with the same fault (42_inversion_group.md R150 b). -/
theorem State.finish_residues (s : State) (k : Ctx) (ra rb : BReg) (f : Nat → Nat → Effect State) :
    s.finish (residue k ra >>= fun x => residue k rb >>= f x) =
      if k.m ≤ ra.val ∨ k.m ≤ rb.val then .next (s.faulted 0x04) else s.finish (f ra.val rb.val) := by
  rw [State.finish_residue]
  by_cases h : k.m ≤ ra.val
  · rw [if_pos h, if_pos (.inl h)]
  · rw [if_neg h, State.finish_residue]
    exact if_congr (or_iff_right h).symm rfl rfl

section
variable (hk : s.c[c] = k) (hv : k.valid = true) (ha : s.holds ba la a) (hb : s.holds bb lb b)
include hk hv ha hb

/-- `MODADD` of held registers (42_inversion_group.md R157). -/
theorem exec_modadd_eq (bd : BSel) :
    exec (.modadd bd ba bb c) s =
      if k.m ≤ a ∨ k.m ≤ b then .next (s.faulted 0x04) else .next (s.writeB bd k.s (modAdd k.m a b)).done := by
  rw [exec, execModadd, State.finish_readC hk hv, State.finish_read ha, State.finish_read hb, State.finish_residues]
  rfl

/-- `MODSUB` of held registers (42_inversion_group.md R158). -/
theorem exec_modsub_eq (bd : BSel) :
    exec (.modsub bd ba bb c) s =
      if k.m ≤ a ∨ k.m ≤ b then .next (s.faulted 0x04) else .next (s.writeB bd k.s (modSub k.m a b)).done := by
  rw [exec, execModsub, State.finish_readC hk hv, State.finish_read ha, State.finish_read hb, State.finish_residues]
  rfl

/-- `MODMUL` of held registers (42_inversion_group.md R159). -/
theorem exec_modmul_eq (bd : BSel) :
    exec (.modmul bd ba bb c) s =
      if k.m ≤ a ∨ k.m ≤ b then .next (s.faulted 0x04)
      else .next (s.writeB bd k.s (mont s.W k (mont s.W k a b) k.r2mod)).done := by
  rw [exec, execModmul, State.finish_readC hk hv, State.finish_read ha, State.finish_read hb, State.finish_residues]
  rfl

end

/-! ## The commands on reduced operands -/

section
variable {W : Nat} (hs : s.Under W c k) (ha : s.holds ba la a)
include hs ha

/-- `MODINV` modulo the context's modulus writes a residue of the context's length (42_inversion_group.md R151). -/
theorem State.Under.exec_modinv {bm : BSel} {lm : Nat} (hm : s.holds bm lm k.m) (hcop : Nat.gcd a k.m = 1) (bd : BSel) :
    ∃ t, exec (.modinv bd ba bm) s = .next t ∧ s.Wrote bd k.s (euclidInverse k.m a) t := by
  obtain ⟨rfl, hk, hok⟩ := hs
  have hone := hok.gtOne
  refine ⟨_, ?_, rfl⟩
  rw [exec_modinv_eq ha hm, if_neg (by omega), if_neg (by omega), if_neg (not_not_intro hcop), hok.normlen_modulus s.W_pos]

variable (hla : a < k.m)
include hla

theorem State.Under.exec_modinvct (bd : BSel) :
    ∃ t, exec (.modinvct bd ba c) s = .next t ∧ s.Wrote bd k.s (a ^ (k.m - 2) % k.m) t := by
  obtain ⟨rfl, hk, hok⟩ := hs
  exact ⟨_, (exec_modinvct_eq hk hok.valid ha bd).trans (if_neg (Nat.not_le.2 hla)), rfl⟩

variable (hb : s.holds bb lb b) (hlb : b < k.m)
include hb hlb

theorem State.Under.exec_modadd (bd : BSel) :
    ∃ t, exec (.modadd bd ba bb c) s = .next t ∧ s.Wrote bd k.s (modAdd k.m a b) t := by
  obtain ⟨rfl, hk, hok⟩ := hs
  exact ⟨_, (exec_modadd_eq hk hok.valid ha hb bd).trans (if_neg (by omega)), rfl⟩

theorem State.Under.exec_modsub (bd : BSel) :
    ∃ t, exec (.modsub bd ba bb c) s = .next t ∧ s.Wrote bd k.s (modSub k.m a b) t := by
  obtain ⟨rfl, hk, hok⟩ := hs
  exact ⟨_, (exec_modsub_eq hk hok.valid ha hb bd).trans (if_neg (by omega)), rfl⟩

theorem State.Under.exec_modmul (bd : BSel) :
    ∃ t, exec (.modmul bd ba bb c) s = .next t ∧ s.Wrote bd k.s (a * b % k.m) t := by
  obtain ⟨rfl, hk, hok⟩ := hs
  rw [exec_modmul_eq hk hok.valid ha hb, if_neg (by omega), hok.mont_mont_r2mod]
  exact ⟨_, rfl, rfl⟩

end

end

/-! ## The obligations -/

/-- Settles O25: the signed cofactor of the Euclidean loop is the inverse, and its last remainder the greatest common divisor. -/
theorem modinvGcdResults : Obligations.ModinvGcdResults := by
  intro bd ba bn s la a ln n ha hn
  rw [exec_modinv_eq ha hn, exec_gcd_eq ha hn]
  refine ⟨fun h0 => if_pos h0, fun h1 => ?_, fun h2 hg => ?_, fun h2 hg => ?_, rfl⟩
  · rw [if_neg (by omega), if_pos h1]
  · rw [if_neg (by omega), if_neg (by omega), if_pos hg]
  · obtain ⟨hpos, hlt⟩ := euclidInverse_range h2 hg
    refine ⟨euclidInverse n a, hpos, hlt, mul_euclidInverse h2 hg, ?_⟩
    rw [if_neg (by omega), if_neg (by omega), if_neg (not_not_intro hg)]

/-- Settles O26: the masked sum and difference, and the product after both passes of the multiplier, under one check of the operands. -/
theorem groupResults : Obligations.GroupResults := by
  intro bd ba bb c s k la a lb b hk hok ha hb
  rw [exec_modadd_eq hk hok.valid ha hb, exec_modsub_eq hk hok.valid ha hb, exec_modmul_eq hk hok.valid ha hb]
  constructor
  · intro hla hlb
    have hin : ¬(k.m ≤ a ∨ k.m ≤ b) := by omega
    rw [if_neg hin, if_neg hin, if_neg hin, modAdd_eq hla hlb, modSub_eq_emod hla hlb, hok.mont_mont_r2mod]
    exact ⟨rfl, rfl, rfl⟩
  · intro hout
    exact ⟨if_pos hout, if_pos hout, if_pos hout⟩

/-- Settles O27: each property is a run of one or two commands on reduced operands; the two inverses agree because a reduced inverse is
unique. -/
theorem groupProperties : Obligations.GroupProperties := by
  intro d1 d2 ba bb bm c s k la a lb b lm hk hok ha hla
  have hs : s.Under s.W c k := ⟨rfl, hk, hok⟩
  have hone := hok.gtOne
  refine ⟨fun hb hlb => ⟨?_, fun hne => ?_⟩, fun hm hne hcop => ?_, fun hm hp h0 => ?_⟩
  · obtain ⟨t, hrun, hw⟩ := hs.exec_modadd ha hla hb hlb d1
    exact ⟨t, hrun, modAdd_eq hla hlb ▸ hw.holds_same⟩
  · obtain ⟨t, hrun, hw⟩ := hs.exec_modsub ha hla hb hlb d1
    have hlt : modSub k.m a b < k.m := modSub_eq hla hlb ▸ hok.mod_lt _
    obtain ⟨u, hrun', hw'⟩ := (hw.under hs).exec_modadd hw.holds_same hlt (hw.holds_other hne hb) hlb d2
    exact ⟨t, u, hrun, hrun', modAdd_modSub hla hlb ▸ hw'.holds_same⟩
  · obtain ⟨t, hrun, hw⟩ := hs.exec_modinv ha hm hcop d1
    obtain ⟨-, hlt⟩ := euclidInverse_range hone hcop
    obtain ⟨u, hrun', hw'⟩ := (hw.under hs).exec_modmul (hw.holds_other hne ha) hla hw.holds_same hlt d2
    exact ⟨t, u, hrun, hrun', mul_euclidInverse hone hcop ▸ hw'.holds_same⟩
  · have hcop : Nat.gcd a k.m = 1 := (Nat.coprime_of_lt_prime h0 hla hp).symm
    obtain ⟨t, hrun, hw⟩ := hs.exec_modinv ha hm hcop d1
    obtain ⟨u, hrun', hw'⟩ := hs.exec_modinvct ha hla d2
    have hagree : a ^ (k.m - 2) % k.m = euclidInverse k.m a :=
      inverse_unique (hok.mod_lt _) (euclidInverse_range hone hcop).2 (mul_pow_sub_two_mod hp h0 hla) (mul_euclidInverse hone hcop)
    refine ⟨t, u, hrun, hrun', ?_, ?_, ?_⟩
    · rw [hw'.holds_same, hw.holds_same, hagree]
    · rw [hw]; rfl
    · rw [hw']; rfl

end Sys2Proof.Machine
end

section
/-! The curve and point-form commands: what each one ends in (43_curve_point_forms.md). -/

namespace Sys2Proof.Machine

/-! ## Reads and checks -/

section
variable {s : State} {k : Curve} {ps : PSel} {q : PReg}

/-- The read of an installed curve gives the curve (10_state.md R22). -/
theorem State.finish_readCrv (hk : s.crv = k) (hv : k.valid = true) (f : Curve → Effect State) :
    s.finish (s.readCrv >>= f) = s.finish (f k) := by
  rw [(State.readCrv_ok_iff s k).2 ⟨by rw [hk, hv], hk⟩, Effect.bind_ok]

/-- The read of a valid point register gives the point (10_state.md R22). -/
theorem State.finish_readP (hq : s.p[ps] = q) (hqv : q.valid = true) (f : PReg → Effect State) :
    s.finish (s.readP ps >>= f) = s.finish (f q) := by
  rw [(State.readP_ok_iff s ps q).2 ⟨by rw [hq, hqv], hq⟩, Effect.bind_ok]

/-- A check of a bit ends the command when the bit is set, and otherwise is passed (60_exceptions.md R254, R261). -/
theorem State.finish_raise (c : Bool) (e : ErrCode) (f : Unit → Effect State) :
    s.finish (raiseIf c e >>= f) = if c then .next (s.faulted e.code) else s.finish (f ()) := by
  cases c <;> rfl

/-- A written point register holds the point after the command (43_curve_point_forms.md R170 d). -/
theorem State.writeP_done_get (s : State) (i : PSel) (q : PReg) : (s.writeP i q).done.p[i] = q :=
  (State.writeP_get s i i q).trans (if_pos rfl)

/-- A register of a run that is held is read (43_curve_point_forms.md R171). -/
theorem State.readRun_holds {n l v : Nat} (hn : n < 16) (h : s.holds (Fin.ofNat 16 n) l v) : s.readRun n = .ok ⟨true, l, v⟩ := by
  rcases s.readRun_cases n with ⟨-, he⟩ | ⟨hge, -⟩
  · rw [he, State.readB_holds h]
  · omega

end

/-! ## How each command ends -/

section
variable {s : State} {k : Curve} (hk : s.crv = k) (hv : k.valid = true)
include hk hv

/-- `CRVGET` (43_curve_point_forms.md R175). -/
theorem exec_crvget_eq (bd : BSel) (f : CrvField) :
    exec (.crvget bd f) s = .next (s.writeB bd (crvFieldValue s.W k f).1 (crvFieldValue s.W k f).2).done :=
  State.finish_readCrv hk hv _

/-- `PGEN` (43_curve_point_forms.md R179). -/
theorem exec_pgen_eq (pd : PSel) : exec (.pgen pd) s = .next (s.writeP pd (affinePoint k.gx k.gy false false)).done :=
  State.finish_readCrv hk hv _

/-- `PINF` (43_curve_point_forms.md R180). -/
theorem exec_pinf_eq (pd : PSel) : exec (.pinf pd) s = .next (s.writeP pd (k.affineIdentity false true)).done :=
  State.finish_readCrv hk hv _

/-- `PSET` of held registers (43_curve_point_forms.md R177). -/
theorem exec_pset_eq {bx by' : BSel} {lx x ly y : Nat} (hx : s.holds bx lx x) (hy : s.holds by' ly y) (pd : PSel) :
    exec (.pset pd bx by') s =
      if 2 ^ (s.W * k.fctx.s) ≤ x ∨ 2 ^ (s.W * k.fctx.s) ≤ y then .next (s.faulted 0x03)
      else .next (s.writeP pd (affinePoint x y false false)).done := by
  rw [exec, execPset, State.finish_readCrv hk hv, State.finish_read hx, State.finish_read hy, State.finish_check]
  rfl

/-- `PDEC` inside the buffer (43_curve_point_forms.md R199). -/
theorem exec_pdec_eq {off lenm1 : Imm10} (hrun : off.val + (lenm1.val + 1) ≤ 1024) (pd : PSel) :
    exec (.pdec pd off lenm1) s = s.finish (s.writeP pd <$> k.decodePoint (s.iob.readBytes off.val (lenm1.val + 1))) := by
  rw [exec, execPdec, State.finish_check, if_neg (by show ¬1024 < _; omega), State.finish_readCrv hk hv]
  rfl

variable {ps : PSel} {q : PReg} (hq : s.p[ps] = q) (hqv : q.valid = true)
include hq hqv

/-- `PGET` of a valid point (43_curve_point_forms.md R178). -/
theorem exec_pget_eq (bd : BSel) (f : PtField) :
    exec (.pget bd ps f) s = s.finish ((fun r => s.writeB bd r.1 r.2) <$> ptFieldValue k.fctx.s q f) := by
  rw [exec, execPget, State.finish_readCrv hk hv, State.finish_readP hq hqv]
  rfl

/-- `PMOV` of a valid point (43_curve_point_forms.md R181). -/
theorem exec_pmov_eq (pd : PSel) : exec (.pmov pd ps) s = .next (s.writeP pd q).done := by
  rw [exec, execPmov, State.finish_readCrv hk hv, State.finish_readP hq hqv]
  rfl

/-- `PTOMONT` of a valid point (43_curve_point_forms.md R190). -/
theorem exec_ptomont_eq (pd : PSel) :
    exec (.ptomont pd ps) s =
      if q.mont then .next (s.faulted 0x08)
      else if q.present.any fun t => decide (k.p ≤ t) then .next (s.faulted 0x04)
      else .next (s.writeP pd (q.mapCoords (fun t => mont s.W k.fctx t k.fctx.r2mod) true)).done := by
  rw [exec, execPtomont, State.finish_readCrv hk hv, State.finish_readP hq hqv, State.finish_raise, State.finish_raise]
  rfl

/-- `PFROMMONT` of a valid point (43_curve_point_forms.md R191). -/
theorem exec_pfrommont_eq (pd : PSel) :
    exec (.pfrommont pd ps) s =
      if !q.mont then .next (s.faulted 0x08)
      else .next (s.writeP pd (q.mapCoords (fun t => mont s.W k.fctx t 1) false)).done := by
  rw [exec, execPfrommont, State.finish_readCrv hk hv, State.finish_readP hq hqv, State.finish_raise]
  rfl

/-- `PTOPROJ` of a valid point (43_curve_point_forms.md R192). -/
theorem exec_ptoproj_eq (pd : PSel) :
    exec (.ptoproj pd ps) s = if q.hasZ then .next (s.faulted 0x08) else .next (s.writeP pd (k.proj q)).done := by
  rw [exec, execPtoproj, State.finish_readCrv hk hv, State.finish_readP hq hqv, State.finish_raise]
  rfl

/-- `PTOAFF` of a valid point (43_curve_point_forms.md R193). -/
theorem exec_ptoaff_eq (pd : PSel) :
    exec (.ptoaff pd ps) s =
      if !q.hasZ || !q.mont then .next (s.faulted 0x08) else .next (s.writeP pd (k.affine s.W q)).done := by
  rw [exec, execPtoaff, State.finish_readCrv hk hv, State.finish_readP hq hqv, State.finish_raise]
  rfl

/-- `PVAL` of a valid point (43_curve_point_forms.md R196). -/
theorem exec_pval_eq :
    exec (.pval ps) s =
      if q.hasZ || q.mont then .next (s.faulted 0x08)
      else .next ((s.writeP ps { q with onc := k.validate q }).setV (k.validate q)).done := by
  rw [exec, execPval, State.finish_readCrv hk hv, State.finish_readP hq hqv, State.finish_raise]
  rfl

end

/-! ## Making and reading out points -/

/-- The affine identity, written out (43_curve_point_forms.md R180). -/
theorem Curve.affineIdentity_eq (k : Curve) (m o : Bool) :
    k.affineIdentity m o = ⟨true, 0, if k.type = .weierstrass then 0 else k.unit m, 0, 0, 0, false, false, true, m, o⟩ := by
  unfold Curve.affineIdentity
  cases k.type <;> rfl

/-- The flags word is the sum of the weights of the bits set (43_curve_point_forms.md R178). -/
theorem PReg.flags_eq (q : PReg) :
    q.flags = q.hasZ.toNat + 2 * q.hasT.toNat + 4 * q.inf.toNat + 8 * q.mont.toNat + 16 * q.onc.toNat := by
  simp only [PReg.flags, flagBit_eq]
  omega

/-- Settles O31: the point each command writes, whole. -/
theorem pointMaking : Obligations.PointMaking := by
  intro pd ps bx byy s k q lx x ly y
  refine ⟨rfl, fun hk hv => ⟨exec_pgen_eq hk hv pd, ?_, fun hq hqv => exec_pmov_eq hk hv hq hqv pd, fun hx hy => ?_⟩⟩
  · rw [exec_pinf_eq hk hv, Curve.affineIdentity_eq]
    rfl
  · rw [exec_pset_eq hk hv hx hy]
    exact ⟨fun hlx hly => if_neg (by omega), fun hlen => if_pos hlen⟩

/-- Settles O30: the field that each selector names; a coordinate is read out where its flag says that it is present. -/
theorem readoutResults : Obligations.ReadoutResults := by
  intro bd s k hk hv
  refine ⟨fun f => ⟨_, _, exec_crvget_eq hk hv bd f, ?_⟩, fun ps q hq hqv => ?_⟩
  · cases f with
    | info =>
      refine ⟨rfl, ?_⟩
      show k.type.code + 2 * k.spec.code + 16 * k.w = _
      cases k.type <;> cases k.spec <;> rfl
    | p | a | bd | order | gx | gy | rbits => exact ⟨rfl, rfl⟩
  · have hrun := fun f => exec_pget_eq hk hv hq hqv bd f
    refine ⟨hrun .x, hrun .y, (hrun .z).trans ?_, (hrun .ta).trans ?_, (hrun .tb).trans ?_, (hrun .flags).trans ?_⟩
    · cases hz : q.hasZ <;> simp [ptFieldValue, hz, ErrCode.code]
    · cases ht : q.hasT <;> simp [ptFieldValue, ht, ErrCode.code]
    · cases ht : q.hasT <;> simp [ptFieldValue, ht, ErrCode.code]
    · rw [← PReg.flags_eq]
      rfl

end Sys2Proof.Machine
end

section
/-! Represented values, and the changes of form between the residue forms and between the coordinate forms
(43_curve_point_forms.md R190 to R194). -/

namespace Sys2Proof.Machine

/-! ## Represented values -/

section
variable {W : Nat} {k : Curve} (hk : k.Ok W)
include hk

/-- The stored coordinates that represent an integer are the Montgomery forms of the natural numbers congruent to it
(00_scope.md R13). -/
theorem Curve.Ok.reps_iff {t : Nat} {v : Int} :
    k.Reps W t v ↔ ∃ n : Nat, t = toMont W k.fctx n ∧ (n : Int) ≡ v [ZMOD (k.p : Int)] := by
  have hform : ∀ n : Nat, ((toMont W k.fctx n : Nat) : Int) ≡ n * 2 ^ (W * k.fctx.s) [ZMOD (k.p : Int)] := fun n => by
    rw [toMont, hk.modulus, Int.natCast_mod, Nat.cast_mul, Nat.cast_pow, Nat.cast_ofNat]
    exact Int.mod_modEq _ _
  have hlt : ∀ n : Nat, toMont W k.fctx n < k.p := fun n => hk.modulus ▸ hk.fctx.toMont_lt n
  constructor
  · rintro ⟨ht, hmod⟩
    have hpos : (k.p : Int) ≠ 0 := by exact_mod_cast hk.p_pos.ne'
    have hn : (((v % k.p).toNat : Nat) : Int) ≡ v [ZMOD (k.p : Int)] := by
      rw [Int.toNat_of_nonneg (Int.emod_nonneg v hpos)]
      exact Int.mod_modEq _ _
    refine ⟨(v % k.p).toNat, ?_, hn⟩
    have hcong : t ≡ toMont W k.fctx (v % k.p).toNat [MOD k.p] :=
      Int.natCast_modEq_iff.1 (hmod.trans ((hform _).trans (hn.mul_right _)).symm)
    exact Nat.ModEq.eq_of_lt_of_lt hcong ht (hlt _)
  · rintro ⟨n, rfl, hn⟩
    exact ⟨hlt n, (hform n).trans (hn.mul_right _)⟩

omit hk in
/-- An integer has one representation. -/
theorem Curve.reps_unique {t u : Nat} {v : Int} (ht : k.Reps W t v) (hu : k.Reps W u v) : t = u :=
  Nat.ModEq.eq_of_lt_of_lt (Int.natCast_modEq_iff.1 (ht.2.trans hu.2.symm)) ht.1 hu.1

theorem Curve.Ok.one_eq_toMont : k.one = toMont W k.fctx 1 := hk.one.trans hk.fctx.rmod_eq_toMont

theorem Curve.Ok.reps_one : k.Reps W k.one 1 := hk.reps_iff.2 ⟨1, hk.one_eq_toMont, rfl⟩

/-- The product of stored coordinates represents the product (44_point_arith.md R210 d). -/
theorem Curve.Ok.reps_fmul {t u : Nat} {x y : Int} (ht : k.Reps W t x) (hu : k.Reps W u y) : k.Reps W (k.fmul W t u) (x * y) := by
  obtain ⟨m, rfl, hm⟩ := hk.reps_iff.1 ht
  obtain ⟨n, rfl, hn⟩ := hk.reps_iff.1 hu
  refine hk.reps_iff.2 ⟨m * n, hk.fctx.mont_toMont m n, ?_⟩
  rw [Nat.cast_mul]
  exact hm.mul hn

/-- `finv` represents the power `p - 2` (43_curve_point_forms.md R194). -/
theorem Curve.Ok.reps_finv {t : Nat} {z : Int} (ht : k.Reps W t z) : k.Reps W (k.finv W t) (z ^ (k.p - 2)) := by
  obtain ⟨n, rfl, hn⟩ := hk.reps_iff.1 ht
  refine hk.reps_iff.2 ⟨(n % k.p) ^ (k.p - 2) % k.p, ?_, ?_⟩
  · rw [Curve.finv, hk.fctx.mont_r2mod, hk.fctx.mont_toMont_one, powMod_eq, hk.modulus]
  · rw [← Nat.pow_mod, Int.natCast_mod, Nat.cast_pow]
    exact (Int.mod_modEq _ _).trans (hn.pow _)

/-- The stored one is neutral for reduced coordinates. -/
theorem Curve.Ok.fmul_one {x : Nat} (hx : x < k.p) : k.fmul W x k.one = x :=
  hk.fctx.mont_eq (hk.modulus.symm ▸ hx) (by rw [hk.one, hk.fctx.rmod, Nat.mul_mod_mod])

theorem Curve.Ok.finv_one : k.finv W k.one = k.one :=
  Curve.reps_unique (hk.reps_finv hk.reps_one) (by rw [one_pow]; exact hk.reps_one)

/-- `1` in a residue form (10_state.md R29 c). -/
theorem Curve.Ok.unit_eq (m : Bool) : k.unit m = if m then 2 ^ (W * k.fctx.s) % k.p else 1 := by
  rw [Curve.unit, hk.one, hk.fctx.rmod, hk.modulus]

end

/-- The power `p - 2` of a number that a prime `p` does not divide is its inverse (43_curve_point_forms.md R194). -/
theorem pow_sub_two_mul_modEq {p : Nat} (hp : p.Prime) {z : Int} (hz : ¬z ≡ 0 [ZMOD (p : Int)]) :
    z ^ (p - 2) * z ≡ 1 [ZMOD (p : Int)] := by
  have hcop : IsCoprime z p := by
    refine ((Nat.prime_iff_prime_int.1 hp).coprime_iff_not_dvd.2 fun hd => hz ?_).symm
    exact Int.modEq_zero_iff_dvd.2 hd
  have htwo := hp.two_le
  rw [← pow_succ, show p - 2 + 1 = p - 1 by omega]
  exact Int.ModEq.pow_card_sub_one_eq_one hp hcop

/-! ## Residue forms -/

/-- One map of the present coordinates after another. -/
theorem PReg.mapCoords_mapCoords (q : PReg) (f g : Nat → Nat) (m m' : Bool) :
    (q.mapCoords f m).mapCoords g m' = q.mapCoords (fun t => g (f t)) m' := by
  unfold PReg.mapCoords
  cases q.hasZ <;> cases q.hasT <;> rfl

/-- A map that fixes the present coordinates changes nothing of a point whose absent coordinates are zero. -/
theorem PReg.mapCoords_of_fixed {q : PReg} {f : Nat → Nat} (hf : ∀ t ∈ q.present, f t = t) (hz : q.hasZ = false → q.z = 0)
    (ht : q.hasT = false → q.ta = 0 ∧ q.tb = 0) : q.mapCoords f q.mont = q := by
  have hfix := fun t h => hf t (PReg.mem_present.2 h)
  have fx : f q.x = q.x := hfix _ (.inl rfl)
  have fy : f q.y = q.y := hfix _ (.inr (.inl rfl))
  have fz : (if q.hasZ then f q.z else 0) = q.z := by
    split
    · next h => exact hfix _ (.inr (.inr (.inl ⟨h, rfl⟩)))
    · next h => exact (hz (Bool.eq_false_iff.2 h)).symm
  have fta : (if q.hasT then f q.ta else 0) = q.ta := by
    split
    · next h => exact hfix _ (.inr (.inr (.inr ⟨h, .inl rfl⟩)))
    · next h => exact (ht (Bool.eq_false_iff.2 h)).1.symm
  have ftb : (if q.hasT then f q.tb else 0) = q.tb := by
    split
    · next h => exact hfix _ (.inr (.inr (.inr ⟨h, .inr rfl⟩)))
    · next h => exact (ht (Bool.eq_false_iff.2 h)).2.symm
  rw [PReg.mapCoords, fx, fy, fz, fta, ftb]

/-- Into Montgomery form and back is the identity on a legal point with reduced coordinates (43_curve_point_forms.md R190, R191). -/
theorem Curve.Ok.fromMont_toMont {W : Nat} {k : Curve} (hk : k.Ok W) {q : PReg} (hq : q.Ok W k) (hm : q.mont = false)
    (hred : ∀ t ∈ q.present, t < k.p) :
    (q.mapCoords (fun t => mont W k.fctx t k.fctx.r2mod) true).mapCoords (fun t => mont W k.fctx t 1) false = q := by
  rw [PReg.mapCoords_mapCoords, ← hm]
  refine PReg.mapCoords_of_fixed (fun t ht => ?_) hq.absentZ hq.absentT
  rw [hk.fctx.mont_r2mod, hk.fctx.mont_toMont_one, hk.modulus, Nat.mod_eq_of_lt (hred t ht)]

/-- Settles O32: the maps of the present coordinates are the product by `R` and the division by it, which undo each other. -/
theorem residueForms : Obligations.ResidueForms := by
  intro pd pe ps s k q hk hok hq hqv
  rw [exec_ptomont_eq hk hok.valid hq hqv, exec_pfrommont_eq hk hok.valid hq hqv]
  have hstd : q.mont = false → ¬q.mont = true := Bool.eq_false_iff.1
  have hred : (∀ t ∈ q.present, t < k.p) → ¬(q.present.any fun t => decide (k.p ≤ t)) = true := fun h => by simpa using h
  refine ⟨fun hm => if_pos hm, fun hm => if_pos (by rw [hm]; rfl), fun hm hbig => ?_, fun hm hp => ?_, fun hm => ?_,
    fun hqok hm hp => ?_⟩
  · rw [if_neg (hstd hm), if_pos (by simpa using hbig)]
  · rw [if_neg (hstd hm), if_neg (hred hp)]
    refine ⟨fun t => mont s.W k.fctx t k.fctx.r2mod, fun t => ?_, rfl⟩
    beta_reduce
    rw [hok.fctx.mont_r2mod, toMont, hok.modulus]
  · refine ⟨fun t => mont s.W k.fctx t 1, fun t => ?_, if_neg (by rw [hm]; decide)⟩
    have hspec := mont_spec s.W k.fctx t 1 hok.fctx.gtOne hok.fctx.odd
    rwa [hok.modulus, mul_one] at hspec
  · rw [if_neg (hstd hm), if_neg (hred hp)]
    have hback := exec_pfrommont_eq (s := (s.writeP pd _).done) hk hok.valid
      (State.writeP_done_get s pd (q.mapCoords (fun t => mont s.W k.fctx t k.fctx.r2mod) true)) hqv pe
    refine ⟨_, _, rfl, hback.trans (if_neg Bool.false_ne_true), ?_⟩
    exact (State.writeP_done_get _ pe _).trans (hok.fromMont_toMont hqok hm hp)

/-! ## Coordinate forms -/

/-- A lifted point, written out (43_curve_point_forms.md R192). -/
theorem Curve.proj_eq (k : Curve) (q : PReg) :
    k.proj q =
      if k.type = .twistedEdwards then ⟨true, q.x, q.y, k.unit q.mont, q.x, q.y, true, true, false, q.mont, q.onc⟩
      else if q.inf then ⟨true, k.unit q.mont, k.unit q.mont, 0, 0, 0, true, false, true, q.mont, q.onc⟩
      else ⟨true, q.x, q.y, k.unit q.mont, 0, 0, true, false, false, q.mont, q.onc⟩ := by
  unfold Curve.proj
  cases k.type <;> rfl

/-- A lifted point is projective, in the residue form and with the `onc` bit of the point (43_curve_point_forms.md R192). -/
theorem Curve.proj_flags (k : Curve) (q : PReg) :
    (k.proj q).valid = true ∧ (k.proj q).hasZ = true ∧ (k.proj q).mont = q.mont ∧ (k.proj q).onc = q.onc := by
  unfold Curve.proj
  split
  · split <;> exact ⟨rfl, rfl, rfl, rfl⟩
  · exact ⟨rfl, rfl, rfl, rfl⟩

/-- A point that is not the identity of a W-curve is lifted with `Z = 1` (43_curve_point_forms.md R192). -/
theorem Curve.proj_of_finite {k : Curve} {q : PReg} (h : k.type = .weierstrass → q.inf = false) :
    (k.proj q).x = q.x ∧ (k.proj q).y = q.y ∧ (k.proj q).z = k.unit q.mont ∧ (k.proj q).inf = false := by
  unfold Curve.proj
  split
  · next ht =>
    rw [h ht]
    exact ⟨rfl, rfl, rfl, rfl⟩
  · exact ⟨rfl, rfl, rfl, rfl⟩

/-- The affine identity that a flagged Jacobian point gives (43_curve_point_forms.md R193). -/
theorem Curve.affine_of_inf {k : Curve} (W : Nat) {q : PReg} (ht : k.type = .weierstrass) (hi : q.inf = true) :
    k.affine W q = ⟨true, 0, 0, 0, 0, 0, false, false, true, true, q.onc⟩ := by
  simp [Curve.affine, Curve.affineIdentity, ht, hi]

/-- The divided coordinates of a finite point, by `finv` of `Z` (43_curve_point_forms.md R193). -/
def Curve.divided (k : Curve) (W : Nat) (q : PReg) : Nat × Nat :=
  let zi := k.finv W q.z
  match k.type with
  | .weierstrass => (k.fmul W q.x (k.fmul W zi zi), k.fmul W q.y (k.fmul W (k.fmul W zi zi) zi))
  | .twistedEdwards => (k.fmul W q.x zi, k.fmul W q.y zi)

/-- The affine point of a finite point (43_curve_point_forms.md R193). -/
theorem Curve.affine_of_finite {k : Curve} (W : Nat) {q : PReg} (h : k.type = .weierstrass → q.inf = false) :
    k.affine W q = ⟨true, (k.divided W q).1, (k.divided W q).2, 0, 0, 0, false, false,
      decide (k.type = .twistedEdwards ∧ (k.divided W q).1 = 0 ∧ (k.divided W q).2 = k.one), true, q.onc⟩ := by
  cases ht : k.type with
  | weierstrass => simp [Curve.affine, Curve.divided, affinePoint, ht, h ht]
  | twistedEdwards => simp [Curve.affine, Curve.divided, affinePoint, ht]

section
variable {W : Nat} {k : Curve} (hk : k.Ok W)
include hk

/-- What the divided coordinates represent: `X / Z^2` and `Y / Z^3`, or `X / Z` and `Y / Z` (43_curve_point_forms.md R193). -/
theorem Curve.Ok.reps_divided {q : PReg} {X Y Z : Int} (hx : k.Reps W q.x X) (hy : k.Reps W q.y Y) (hz : k.Reps W q.z Z) :
    k.Reps W (k.divided W q).1 (X * (if k.type = .weierstrass then (Z ^ (k.p - 2)) ^ 2 else Z ^ (k.p - 2)))
      ∧ k.Reps W (k.divided W q).2 (Y * (if k.type = .weierstrass then (Z ^ (k.p - 2)) ^ 3 else Z ^ (k.p - 2))) := by
  have hzi := hk.reps_finv hz
  unfold Curve.divided
  cases k.type with
  | weierstrass =>
    rw [if_pos rfl, if_pos rfl, pow_succ _ 2, pow_two]
    exact ⟨hk.reps_fmul hx (hk.reps_fmul hzi hzi), hk.reps_fmul hy (hk.reps_fmul (hk.reps_fmul hzi hzi) hzi)⟩
  | twistedEdwards =>
    rw [if_neg nofun, if_neg nofun]
    exact ⟨hk.reps_fmul hx hzi, hk.reps_fmul hy hzi⟩

/-- The division by the stored one leaves reduced coordinates as they are. -/
theorem Curve.Ok.divided_of_one {q : PReg} (hz : q.z = k.one) (hx : q.x < k.p) (hy : q.y < k.p) : k.divided W q = (q.x, q.y) := by
  unfold Curve.divided
  rw [hz, hk.finv_one]
  cases k.type with
  | weierstrass => simp only [hk.fmul_one hk.one_lt, hk.fmul_one hx, hk.fmul_one hy]
  | twistedEdwards => simp only [hk.fmul_one hx, hk.fmul_one hy]

omit hk in
/-- A legal affine point is determined by its coordinates `x`, `y` and its flags, of which `inf` and `onc` may be written anew
(10_state.md R28, R29). -/
theorem PReg.Ok.eq_of_affine {q : PReg} (hq : q.Ok W k) (hv : q.valid = true) (hz : q.hasZ = false) (i o : Bool) :
    { q with inf := i, onc := o } = (⟨true, q.x, q.y, 0, 0, 0, false, false, i, q.mont, o⟩ : PReg) := by
  have hT : q.hasT = false := Bool.eq_false_iff.2 fun h => Bool.eq_false_iff.1 hz (hq.aux h).1
  obtain ⟨hta, htb⟩ := hq.absentT hT
  rw [hv, hq.absentZ hz, hta, htb, hz, hT]

/-- `PTOAFF` undoes `PTOPROJ` on a legal affine point in Montgomery form (43_curve_point_forms.md R192, R193). -/
theorem Curve.Ok.affine_proj {q : PReg} (hq : q.Ok W k) (hv : q.valid = true) (hz : q.hasZ = false) (hm : q.mont = true) :
    k.affine W (k.proj q)
      = { q with inf := if k.type = .weierstrass then q.inf else decide (q.x = 0 ∧ q.y = k.one) } := by
  obtain ⟨-, -, -, honc⟩ := k.proj_flags q
  rw [hq.eq_of_affine hv hz, hm]
  by_cases hid : k.type = .weierstrass ∧ q.inf = true
  · obtain ⟨ht, hi⟩ := hid
    obtain ⟨hx0, hy0⟩ := hq.affineInf ht hz hi
    have hpi : (k.proj q).inf = true := by rw [Curve.proj_eq, if_neg (Curve.ne_twistedEdwards ht), if_pos hi]
    rw [Curve.affine_of_inf W ht hpi, honc, hx0, hy0, if_pos ht, hi]
  · have hfin : k.type = .weierstrass → q.inf = false := fun ht => Bool.eq_false_iff.2 fun hi => hid ⟨ht, hi⟩
    obtain ⟨hpx, hpy, hpz, hpi⟩ := Curve.proj_of_finite hfin
    have hone : (k.proj q).z = k.one := by rw [hpz, hm]; rfl
    rw [Curve.affine_of_finite W fun _ => hpi, hk.divided_of_one hone (hpx ▸ hq.coord_x.2 hm) (hpy ▸ hq.coord_y.2 hm), hpx, hpy, honc]
    cases ht : k.type with
    | weierstrass => simp [hfin ht]
    | twistedEdwards => simp

end

/-- Settles O33: the written-out results of the lift and of the division, and the division by one. -/
theorem coordinateForms : Obligations.CoordinateForms := by
  intro pd pe ps s k q hk hok hq hqv
  rw [exec_ptoproj_eq hk hok.valid hq hqv, exec_ptoaff_eq hk hok.valid hq hqv]
  have haff : q.hasZ = true → q.mont = true → ¬(!q.hasZ || !q.mont) = true := fun hz hm => by simp [hz, hm]
  refine ⟨fun hz => if_pos hz, fun h => if_pos (by simpa using h), fun hz => ?_, fun hz hm ht hi => ?_,
    fun hz hm hfin X Y Z hX hY hZ => ?_, fun hqok hz hm => ?_⟩
  · refine ⟨k.unit q.mont, hok.unit_eq q.mont, ?_⟩
    rw [if_neg (Bool.eq_false_iff.1 hz), Curve.proj_eq]
  · rw [if_neg (haff hz hm), Curve.affine_of_inf s.W ht hi]
  · obtain ⟨hx, hy⟩ := hok.reps_divided hX hY hZ
    refine ⟨_, _, _, hx, hy, rfl, fun hp hne => pow_sub_two_mul_modEq hp hne, ?_⟩
    rw [if_neg (haff hz hm), Curve.affine_of_finite s.W hfin]
  · rw [if_neg (Bool.eq_false_iff.1 hz)]
    obtain ⟨hpv, hpz, hpm, -⟩ := k.proj_flags q
    have hback := exec_ptoaff_eq (s := (s.writeP pd _).done) hk hok.valid (State.writeP_done_get s pd (k.proj q)) hpv pe
    refine ⟨_, _, rfl, hback.trans (if_neg (by rw [hpz, hpm, hm]; decide)), ?_⟩
    exact (State.writeP_done_get _ pe _).trans (hok.affine_proj hqok hqv hz hm)

end Sys2Proof.Machine
end

section
/-! Validation, and the SEC1 encodings of a point (43_curve_point_forms.md R196 to R200). -/

namespace Sys2Proof.Machine

/-! ## Validation -/

/-- Two numbers with the same remainder differ by a multiple of the modulus. -/
theorem natCast_sub_emod_eq_zero_iff {a b p : Nat} : ((a : Int) - b) % (p : Int) = 0 ↔ a % p = b % p := by
  rw [← Int.emod_eq_emod_iff_emod_sub_eq_zero, ← Int.natCast_mod, ← Int.natCast_mod, Nat.cast_inj]

/-- The curve equation as a congruence of integers (43_curve_point_forms.md R196, 90_conflicts.md C4). -/
theorem Curve.equation_iff (k : Curve) (x y : Nat) :
    k.equation x y = true ↔
      (k.type = .weierstrass → ((y : Int) ^ 2 - ((x : Int) ^ 3 + k.a * x + k.bd)) % (k.p : Int) = 0)
      ∧ (k.type = .twistedEdwards →
          ((k.a : Int) * (x : Int) ^ 2 + (y : Int) ^ 2 - (1 + k.bd * (x : Int) ^ 2 * (y : Int) ^ 2)) % (k.p : Int) = 0) := by
  unfold Curve.equation
  cases k.type with
  | weierstrass =>
    have heq := natCast_sub_emod_eq_zero_iff (a := y * y) (b := x * x * x + k.a * x + k.bd) (p := k.p)
    push_cast at heq
    simp [← heq, pow_succ]
  | twistedEdwards =>
    have heq := natCast_sub_emod_eq_zero_iff (a := k.a * (x * x) + y * y) (b := 1 + k.bd * (x * x) * (y * y)) (p := k.p)
    push_cast at heq
    simp [← heq, pow_two]

/-- `validatePoint` (43_curve_point_forms.md R196). -/
theorem Curve.validate_iff (k : Curve) (q : PReg) :
    k.validate q = true ↔ q.inf = false ∧ q.x < k.p ∧ q.y < k.p ∧ k.equation q.x q.y = true := by
  simp [Curve.validate, and_assoc]

/-- Settles O34: the verdict is `validatePoint`, and its equation is the congruence of the curve's family. -/
theorem pvalResult : Obligations.PvalResult := by
  intro ps s k q hk hv hq hqv
  rw [exec_pval_eq hk hv hq hqv]
  refine ⟨fun h => if_pos (by simpa using h), fun hz hm => ⟨k.validate q, if_neg (by rw [hz, hm]; decide), ?_⟩⟩
  rw [Curve.validate_iff, Curve.equation_iff]

/-! ## Encoding -/

/-- The SEC1 encoding of an affine point with `L` bytes to a coordinate (43_curve_point_forms.md R198). -/
def PReg.encoding (q : PReg) (L : Nat) : List Byte :=
  if q.inf then [0x00] else 0x04 :: (bytesBE q.x L ++ bytesBE q.y L)

theorem PReg.encoding_length (q : PReg) (L : Nat) : (q.encoding L).length = (if q.inf then 0 else 2 * L) + 1 := by
  unfold PReg.encoding
  split
  · rfl
  · rw [List.length_cons, List.length_append, bytesBE_length, bytesBE_length, two_mul]

theorem bytesBE_getElem? {v n j : Nat} (h : j < n) : (bytesBE v n)[j]? = some (BitVec.ofNat 8 (v / 256 ^ (n - 1 - j))) := by
  simp [bytesBE, h]

/-- The lead byte of an encoding (43_curve_point_forms.md R198). -/
theorem PReg.encoding_lead (q : PReg) (L : Nat) : (q.encoding L)[0]? = some (if q.inf then 0x00 else 0x04) := by
  unfold PReg.encoding
  cases q.inf <;> rfl

section
variable {q : PReg} {L j : Nat} (hi : q.inf = false) (hj : j < L)
include hi hj

/-- The bytes of `x` in an encoding (43_curve_point_forms.md R198). -/
theorem PReg.encoding_x : (q.encoding L)[1 + j]? = some (BitVec.ofNat 8 (q.x / 256 ^ (L - 1 - j))) := by
  rw [PReg.encoding, hi, if_neg Bool.false_ne_true, Nat.add_comm, List.getElem?_cons_succ,
    List.getElem?_append_left (by rwa [bytesBE_length]), bytesBE_getElem? hj]

/-- The bytes of `y` in an encoding (43_curve_point_forms.md R198). -/
theorem PReg.encoding_y : (q.encoding L)[1 + L + j]? = some (BitVec.ofNat 8 (q.y / 256 ^ (L - 1 - j))) := by
  rw [PReg.encoding, hi, if_neg Bool.false_ne_true, Nat.add_assoc, Nat.add_comm, List.getElem?_cons_succ,
    List.getElem?_append_right (by rw [bytesBE_length]; omega), bytesBE_length, Nat.add_sub_cancel_left, bytesBE_getElem? hj]

end

/-- A byte of a run written is the byte read. -/
theorem Memory.read_writeBytes_getElem? {m : Memory} {bs : List Byte} {a j : Nat} {b : Byte} (hm : m.wf = true)
    (hrun : a + bs.length ≤ Config.iobBytes) (h : bs[j]? = some b) : (m.writeBytes a bs).read (a + j) = b := by
  obtain ⟨hj, rfl⟩ := List.getElem?_eq_some_iff.1 h
  exact Memory.read_writeBytes_inside bs m a j hj hm hrun

/-- `PENC` of a valid point inside the buffer (43_curve_point_forms.md R198). -/
theorem exec_penc_eq {s : State} {k : Curve} {ps : PSel} {q : PReg} {off lenm1 : Imm10} (hk : s.crv = k) (hv : k.valid = true)
    (hq : s.p[ps] = q) (hqv : q.valid = true) (hrun : off.val + (lenm1.val + 1) ≤ 1024) :
    exec (.penc ps off lenm1) s =
      if q.hasZ || q.mont then .next (s.faulted 0x08)
      else if lenm1.val ≠ (if q.inf then 0 else 2 * k.byteLen) then .next (s.faulted 0x03)
      else if q.inf = false ∧ (256 ^ k.byteLen ≤ q.x ∨ 256 ^ k.byteLen ≤ q.y) then .next (s.faulted 0x0F)
      else .next (s.writeIob off.val (q.encoding k.byteLen)).done := by
  have hlen : lenm1.val + 1 ≠ (if q.inf then 1 else 1 + 2 * k.byteLen) ↔ lenm1.val ≠ (if q.inf then 0 else 2 * k.byteLen) := by
    split <;> omega
  rw [exec, execPenc, State.finish_check, if_neg (by show ¬1024 < _; omega), State.finish_readCrv hk hv, State.finish_readP hq hqv,
    State.finish_raise, State.finish_check]
  refine if_congr Iff.rfl rfl (if_congr hlen rfl ?_)
  unfold PReg.encoding
  cases hi : q.inf with
  | true => rfl
  | false =>
    rw [if_neg Bool.false_ne_true, State.finish_check]
    exact if_congr (and_iff_right rfl).symm rfl rfl

/-- Settles O35: the checks in their order, and the bytes of the encoding read back from the buffer. -/
theorem pencResult : Obligations.PencResult := by
  intro ps off lenm1 s k q L hwf hk hv hq hqv hrun hL
  obtain rfl : k.byteLen = L := hL.symm
  rw [exec_penc_eq hk hv hq hqv hrun]
  refine ⟨fun h => if_pos (by simpa using h), fun hz hm => ?_⟩
  rw [if_neg (show ¬(q.hasZ || q.mont) = true by rw [hz, hm]; decide)]
  refine ⟨fun hlen => if_pos hlen, fun hi hlen hbig => ?_, fun hok => ?_⟩
  · rw [if_neg (not_not_intro (by rw [hi]; exact hlen)), if_pos ⟨hi, hbig⟩]
  · have hlen : lenm1.val = if q.inf then 0 else 2 * k.byteLen := by
      rcases hok with ⟨hi, hlen⟩ | ⟨hi, hlen, -⟩ <;> rw [hi] <;> exact hlen
    have hfit : ¬(q.inf = false ∧ (256 ^ k.byteLen ≤ q.x ∨ 256 ^ k.byteLen ≤ q.y)) := by
      rcases hok with ⟨hi, -⟩ | ⟨-, -, hx, hy⟩
      · simp [hi]
      · omega
    rw [if_neg (not_not_intro hlen), if_neg hfit]
    have hfill : (q.encoding k.byteLen).length = lenm1.val + 1 := by rw [PReg.encoding_length, hlen]
    have hread := fun {j b} => Memory.read_writeBytes_getElem? (j := j) (b := b) hwf
      (show off.val + (q.encoding k.byteLen).length ≤ 1024 by rwa [hfill])
    refine ⟨_, rfl, rfl, hread (q.encoding_lead _), fun hi j hj => ?_, fun a ha => ?_⟩
    · rw [Nat.add_assoc, Nat.add_assoc off.val, Nat.add_assoc off.val, State.writeIob_iob, hread (PReg.encoding_x hi hj),
        hread (PReg.encoding_y hi hj)]
      exact ⟨BitVec.toNat_ofNat _ _, BitVec.toNat_ofNat _ _⟩
    · exact Memory.read_writeBytes_outside _ _ _ (by rwa [hfill])

/-! ## Decoding -/

theorem Memory.readBytes_succ (m : Memory) (a n : Nat) : m.readBytes a (n + 1) = m.read a :: m.readBytes (a + 1) n := by
  simp only [Memory.readBytes, List.range_succ_eq_map, List.map_cons, List.map_map, Function.comp_def, Nat.add_zero,
    Nat.succ_eq_add_one, Nat.add_comm 1, Nat.add_assoc]

theorem Memory.readBytes_append (m : Memory) (a n n' : Nat) :
    m.readBytes a (n + n') = m.readBytes a n ++ m.readBytes (a + n) n' := by
  simp only [Memory.readBytes, List.range_add, List.map_append, List.map_map, Function.comp_def, Nat.add_assoc]

/-- The point of a byte string given by its lead byte and the rest (43_curve_point_forms.md R199). -/
theorem Curve.decodePoint_cons (k : Curve) (lead : Byte) (rest : List Byte) :
    k.decodePoint (lead :: rest) =
      if lead = 0x00 ∧ rest.length = 0 then .ok (k.affineIdentity false false)
      else if lead = 0x04 ∧ rest.length = 2 * k.byteLen then
        .ok (affinePoint (be (rest.take k.byteLen)) (be (rest.drop k.byteLen)) false false)
      else .error .malformedPoint := rfl

/-- The point of two coordinate strings after the byte `04` (43_curve_point_forms.md R199). -/
theorem Curve.decodePoint_uncompressed {k : Curve} {xs ys : List Byte} (hx : xs.length = k.byteLen) (hy : ys.length = k.byteLen) :
    k.decodePoint (0x04 :: (xs ++ ys)) = .ok (affinePoint (be xs) (be ys) false false) := by
  rw [Curve.decodePoint_cons, if_neg (fun h => absurd h.1 (by decide)),
    if_pos ⟨rfl, by rw [List.length_append, hx, hy, two_mul]⟩, ← hx, List.take_left, List.drop_left]

/-- A legal affine point in standard form is decoded from its encoding, not validated (43_curve_point_forms.md R198, R199). -/
theorem PReg.Ok.decodePoint_encoding {W : Nat} {k : Curve} {q : PReg} (hq : q.Ok W k) (hv : q.valid = true) (hz : q.hasZ = false)
    (hm : q.mont = false) (hx : q.x < 256 ^ k.byteLen) (hy : q.y < 256 ^ k.byteLen) :
    k.decodePoint (q.encoding k.byteLen) = .ok { q with onc := false } := by
  rw [hq.eq_of_affine hv hz q.inf false, hm, PReg.encoding]
  cases hi : q.inf with
  | true =>
    have hxy : q.x = 0 ∧ q.y = if k.type = .weierstrass then 0 else k.unit false := by
      cases ht : k.type with
      | weierstrass => exact hq.affineInf ht hz hi
      | twistedEdwards => exact hm ▸ (hq.twistedInf ht hi).2
    rw [if_pos rfl, Curve.decodePoint_cons, if_pos ⟨rfl, rfl⟩, Curve.affineIdentity_eq, hxy.1, hxy.2]
  | false =>
    rw [if_neg Bool.false_ne_true, Curve.decodePoint_uncompressed (bytesBE_length _ _) (bytesBE_length _ _), be_bytesBE hx,
      be_bytesBE hy]
    rfl

/-- The prime fits the bytes of a coordinate (43_curve_point_forms.md R198). -/
theorem Curve.p_lt_bytes (k : Curve) : k.p < 256 ^ k.byteLen := by
  rw [pow_256_eq_two_pow, ← bitlen_le_iff, ← le_ceilDiv_iff (by decide)]
  exact le_rfl

/-- Settles O36: the lead byte and the length decide the form, and the run that `PENC` wrote is the run that `PDEC` reads. -/
theorem pdecResult : Obligations.PdecResult := by
  intro pd ps off lenm1 s k L hk hv hrun hL
  obtain rfl : k.byteLen = L := hL.symm
  have hdec := exec_pdec_eq hk hv hrun pd
  rw [Memory.readBytes_succ, Curve.decodePoint_cons, Memory.readBytes_length] at hdec
  refine ⟨fun hlen hlead => ?_, fun hlen hlead => ?_, fun h0 h4 => ?_, fun hok hwf hqv hqok hz hm hx hy hlen => ?_⟩
  · rw [hdec, if_pos ⟨hlead, hlen⟩, Curve.affineIdentity_eq]
    rfl
  · rw [exec_pdec_eq hk hv hrun, Memory.readBytes_succ, hlead, hlen, two_mul, Memory.readBytes_append,
      Curve.decodePoint_uncompressed (Memory.readBytes_length _ _ _) (Memory.readBytes_length _ _ _), Memory.readBytes,
      Memory.readBytes, be_map_range, be_map_range]
    rfl
  · rw [hdec, if_neg fun h => h0 h.symm, if_neg fun h => h4 h.symm]
    rfl
  · have hx' := hx.trans k.p_lt_bytes
    have hy' := hy.trans k.p_lt_bytes
    have henc := exec_penc_eq hk hv rfl hqv hrun
    rw [if_neg (by rw [hz, hm]; decide), if_neg (not_not_intro hlen), if_neg (by omega)] at henc
    have hfill : (s.p[ps].encoding k.byteLen).length = lenm1.val + 1 := by rw [PReg.encoding_length, hlen]
    have hback := Memory.readBytes_writeBytes (s.p[ps].encoding k.byteLen) s.iob off.val hwf (by rwa [hfill])
    rw [hfill] at hback
    have hrun' := exec_pdec_eq (s := (s.writeIob off.val (s.p[ps].encoding k.byteLen)).done) hk hv hrun pd
    rw [State.done_iob, State.writeIob_iob, hback, hqok.decodePoint_encoding hqv hz hm hx' hy'] at hrun'
    exact ⟨_, _, henc, hrun', State.writeP_done_get _ pd _⟩

end Sys2Proof.Machine
end

section
/-! Installing a curve, from a run of registers or from the table of named curves (43_curve_point_forms.md R171 to R176). -/

namespace Sys2Proof.Machine

/-! ## From registers -/

/-- The reduction bits are a parameter of a TED-curve alone (43_curve_point_forms.md R171). -/
theorem curveFault_rbits {W np p a bd order gx gy rb rb' : Nat} {ct : CurveType} (h : ct = .twistedEdwards → rb = rb') :
    curveFault W ct ⟨np, p, a, bd, order, gx, gy, rb'⟩ = curveFault W ct ⟨np, p, a, bd, order, gx, gy, rb⟩ := by
  cases ct with
  | weierstrass => simp only [curveFault, reduceCtorEq, false_and, if_false]
  | twistedEdwards => rw [h rfl]

/-- `CRVNEW` of a supported type builds the curve of its held registers: six, and on a TED-curve the reduction bits from a seventh
(43_curve_point_forms.md R171). -/
theorem exec_crvnew_eq {s : State} {first : BSel} {type : Imm8} {ln vl : Nat → Nat} {ct : CurveType} {cnt : Nat}
    (htype : (type.val = 0 ∧ ct = .weierstrass ∧ cnt = 6) ∨ (type.val = 1 ∧ ct = .twistedEdwards ∧ cnt = 7))
    (hrun : first.val + cnt ≤ 16) (hheld : ∀ i : Nat, i < cnt → s.holds (Fin.ofNat 16 (first.val + i)) (ln i) (vl i)) :
    ∃ rb, (ct = .twistedEdwards → rb = vl 6) ∧ exec (.crvnew first type) s
      = s.finish (s.installCurve <$> buildCurve s.W ct ⟨ln 0, vl 0, vl 1, vl 2, vl 3, vl 4, vl 5, rb⟩) := by
  have hct : curveType type.val = .ok ct := by
    rcases htype with ⟨ht, rfl, -⟩ | ⟨ht, rfl, -⟩
    · rw [ht]; rfl
    · rw [ht]; rfl
  have hread := fun i (hi : i < cnt) => State.readRun_holds (by omega) (hheld i hi)
  have hread0 : s.readRun first.val = .ok ⟨true, ln 0, vl 0⟩ := hread 0 (by omega)
  rw [exec, execCrvnew, hct, Effect.bind_ok, State.finish_check, if_neg, hread0, hread 1 (by omega), hread 2 (by omega),
    hread 3 (by omega), hread 4 (by omega), hread 5 (by omega)]
  · rcases htype with ⟨-, rfl, rfl⟩ | ⟨-, rfl, rfl⟩
    · exact ⟨0, nofun, rfl⟩
    · exact ⟨vl 6, fun _ => rfl, by rw [hread 6 (by omega)]; rfl⟩
  · rcases htype with ⟨-, rfl, rfl⟩ | ⟨-, rfl, rfl⟩
    · exact Nat.not_lt.2 hrun
    · exact Nat.not_lt.2 hrun

/-- Settles O28: `buildCurve` takes the first fault or gives the descriptor, on the parameters read from the run. -/
theorem crvnewResult : Obligations.CrvnewResult := by
  intro first type s ln vl
  refine ⟨fun hbad => ?_, fun ct cnt htype hrun hheld hn hp => ?_⟩
  · rcases curveType_cases type.val with ⟨h0, -⟩ | ⟨h1, -⟩ | ⟨-, he⟩
    · omega
    · omega
    · rw [exec, execCrvnew, he]
      rfl
  · obtain ⟨rb, hrb, hexec⟩ := exec_crvnew_eq htype hrun hheld
    rw [hexec, curveFault_rbits hrb]
    rcases buildCurve_cases s.W ct ⟨ln 0, vl 0, vl 1, vl 2, vl 3, vl 4, vl 5, rb⟩ s.W_pos hn hp with
      ⟨e, hbuild, he⟩ | ⟨hnone, k, hbuild, hok, hty, hlen, hkp, hka, hkb, hko, hkx, hky, hkr⟩
    · rw [hbuild, he]
      rfl
    · rw [hbuild, hnone]
      exact ⟨k, hok, hty, hlen, hkp, hka, hkb, hko, hkx, hky, fun ht => (hkr ht).trans (hrb ht), rfl⟩

/-! ## From the table -/

/-- Numbers of at most 768 bits fit the longest modulus, at every digit width. -/
theorem normlen_le_maxS (d : DigitWidth) {v : Nat} (h : v < 2 ^ 768) : normlen d.bits v ≤ Config.maxS d.bits := by
  obtain ⟨hpos, hbits⟩ : 1 ≤ Config.maxS d.bits ∧ 768 ≤ d.bits * Config.maxS d.bits := by cases d <;> decide
  rw [normlen_le_iff (DigitWidth.bits_pos d) hpos]
  exact h.trans_le (pow_le_pow_right₀ one_le_two hbits)

/-- The conditions on the constants of a named curve, none of them about the digit width: those of 43_curve_point_forms.md R171, the
generator's equation, and the bits of the order and the window that the derived fields of 10_state.md R33 take from them. -/
structure CurveParams.Named (q : CurveParams) (rb w : Nat) : Prop where
  p : 3 < q.p ∧ q.p < 2 ^ 768 ∧ q.p % 2 = 1
  a : q.a = q.p - 3
  reduced : q.bd < q.p ∧ q.gx < q.p ∧ q.gy < q.p
  order : 3 ≤ q.order ∧ q.order < 2 ^ 768 ∧ q.order % 2 = 1
  generator : q.gy ^ 2 % q.p = (q.gx ^ 3 + (q.p - 3) * q.gx + q.bd) % q.p
  rbits : bitlen q.order = rb
  window : (if bitlen q.p ≤ 256 then 5 else 6) = w

/-- The conditions do not depend on the length that `p` is given with. -/
theorem CurveParams.Named.with_np {q : CurveParams} {rb w : Nat} (hq : q.Named rb w) (n : Nat) : { q with np := n }.Named rb w :=
  ⟨hq.p, hq.a, hq.reduced, hq.order, hq.generator, hq.rbits, hq.window⟩

/-- A named curve passes the checks of R171, with `p` at its normalized length. -/
theorem CurveParams.Named.curveFault {q : CurveParams} {rb w : Nat} (hq : q.Named rb w) (d : DigitWidth) (hnp : q.np = normlen d.bits q.p) :
    curveFault d.bits .weierstrass q = none := by
  have hplen := normlen_le_maxS d hq.p.2.1
  have holen := normlen_le_maxS d hq.order.2.1
  obtain ⟨hthree, -, hodd⟩ := hq.p
  obtain ⟨hbd, hgx, hgy⟩ := hq.reduced
  obtain ⟨homin, -, hoodd⟩ := hq.order
  have ha := hq.a
  have htop : 2 ^ (d.bits * (q.np - 1)) ≤ q.p := by
    rcases normlen_top (v := q.p) (DigitWidth.bits_pos d) with h1 | htop
    · rw [hnp, h1, Nat.sub_self, mul_zero, pow_zero]
      omega
    · rwa [hnp]
  rw [← hnp] at hplen
  unfold Machine.curveFault
  rw [if_neg (by omega), if_neg (by omega), if_neg (by omega), if_neg (by omega), if_neg (fun h => nomatch h.1)]

/-- A named curve is installed with the derived fields of 10_state.md R33 (43_curve_point_forms.md R174). -/
theorem crvld_installs {id : Imm8} {s : State} {q : CurveParams} {rb w : Nat} (hrom : romCurve s.W id.val = .ok q)
    (hq : q.Named rb w) :
    ∃ k : Curve, k.Ok s.W ∧ k.type = .weierstrass ∧ k.spec = .aMinus3 ∧ k.p = q.p ∧ k.a = q.p - 3 ∧ k.bd = q.bd
      ∧ k.order = q.order ∧ k.gx = q.gx ∧ k.gy = q.gy ∧ k.rbits = rb ∧ k.w = w ∧ k.fctx.s = normlen s.W q.p
      ∧ q.gy ^ 2 % q.p = (q.gx ^ 3 + (q.p - 3) * q.gx + q.bd) % q.p
      ∧ exec (.crvld id) s = .next { s with crv := k, p := s.p.map fun (q : PReg) => { q with valid := false } }.done := by
  have hnp := romCurve_ok hrom
  obtain ⟨hthree, -, -⟩ := hq.p
  have ha := hq.a
  rcases buildCurve_cases s.W .weierstrass q s.W_pos (hnp ▸ normlen_pos _ _) (hnp ▸ lt_pow_normlen s.W_pos _) with
    ⟨e, -, he⟩ | ⟨-, k, hbuild, hok, hty, hlen, hkp, hka, hkb, hko, hkx, hky, -⟩
  · cases (hq.curveFault s.width hnp).symm.trans he
  · have hspec := hok.spec
    have hrbits := hok.rbits
    rw [hty] at hspec hrbits
    have hminus : k.spec = .aMinus3 := by
      rcases hspec with ⟨h0, -⟩ | ⟨-, -, h3⟩
      · omega
      · exact h3
    have hwindow : k.w = w := hok.w.trans (hkp ▸ hq.window)
    refine ⟨k, hok, hty, hminus, hkp, hka.trans ha, hkb, hko, hkx, hky, hrbits.trans (hko ▸ hq.rbits), hwindow, hlen.trans hnp,
      hq.generator, ?_⟩
    rw [exec, execCrvld, hrom, Effect.bind_ok, hbuild]
    rfl

theorem romP256_named (W : Nat) : (romP256 W).Named 256 5 :=
  have h : (romP256 0).Named 256 5 :=
    ⟨by decide +kernel, rfl, by decide +kernel, by decide +kernel, by decide +kernel, by decide +kernel, by decide +kernel⟩
  h.with_np _

theorem romP384_named (W : Nat) : (romP384 W).Named 384 6 :=
  have h : (romP384 0).Named 384 6 :=
    ⟨by decide +kernel, rfl, by decide +kernel, by decide +kernel, by decide +kernel, by decide +kernel, by decide +kernel⟩
  h.with_np _

theorem romP521_named (W : Nat) : (romP521 W).Named 521 6 :=
  have h : (romP521 0).Named 521 6 :=
    ⟨by decide +kernel, rfl, by decide +kernel, by decide +kernel, by decide +kernel, by decide +kernel, by decide +kernel⟩
  h.with_np _

/-- The prime of P-521 (43_curve_point_forms.md R176). -/
theorem romP521_p (W : Nat) : (romP521 W).p = 2 ^ 521 - 1 := by
  show (romP521 0).p = 2 ^ 521 - 1
  decide +kernel

/-- Settles O29: each id's constants are those of the table, and they pass the checks at every digit width. -/
theorem crvldResult : Obligations.CrvldResult := by
  intro id s
  refine ⟨fun h1 h2 h3 => ?_, fun p bd order gx gy rb w h => ?_⟩
  · rcases romCurve_cases s.W id.val with ⟨he, -⟩ | ⟨he, -⟩ | ⟨he, -⟩ | ⟨-, -, -, he⟩
    · exact absurd he h1
    · exact absurd he h2
    · exact absurd he h3
    · rw [exec, execCrvld, he]
      rfl
  · rcases h with ⟨hid, rfl, rfl, rfl, rfl, rfl, rfl, rfl⟩ | ⟨hid, rfl, rfl, rfl, rfl, rfl, rfl, rfl⟩
      | ⟨hid, rfl, rfl, hp, rfl, rfl, rfl, rfl⟩
    · exact crvld_installs (q := romP256 s.W) (by rw [hid]; rfl) (romP256_named _)
    · exact crvld_installs (q := romP384 s.W) (by rw [hid]; rfl) (romP384_named _)
    · obtain rfl : p = (romP521 s.W).p := hp.trans (romP521_p _).symm
      exact crvld_installs (q := romP521 s.W) (by rw [hid]; rfl) (romP521_named _)

end Sys2Proof.Machine
end

section
/-! The `onc` bit of a point: which commands may set it (43_curve_point_forms.md R197). -/

namespace Sys2Proof.Machine

/-! ## The bit under the operations on points -/

theorem Curve.affine_onc (k : Curve) (W : Nat) (q : PReg) : (k.affine W q).onc = q.onc := by
  unfold Curve.affine
  split
  · split <;> rfl
  · rfl

theorem Curve.wdbl_onc (k : Curve) (W : Nat) (q : PReg) : (k.wdbl W q).onc = q.onc := by
  unfold Curve.wdbl
  split
  · rfl
  · dsimp only
    split <;> rfl

theorem Curve.dbl_onc (k : Curve) (W : Nat) (q : PReg) : (k.dbl W q).onc = q.onc := by
  unfold Curve.dbl
  split
  · exact k.wdbl_onc W q
  · rfl

theorem Curve.wmadd_onc (k : Curve) (W : Nat) (q1 q2 : PReg) : (k.wmadd W q1 q2).onc = (q1.onc && q2.onc) := by
  unfold Curve.wmadd
  dsimp only
  repeat' split
  all_goals rfl

theorem Curve.padd_onc (k : Curve) (W : Nat) (q1 q2 : PReg) : (k.padd W q1 q2).onc = (q1.onc && q2.onc) := by
  unfold Curve.padd
  split
  · exact k.wmadd_onc W q1 q2
  · rfl

theorem Curve.neg_onc (k : Curve) (q : PReg) : (k.neg q).onc = q.onc := by
  unfold Curve.neg Curve.negCoords
  split
  · rfl
  · split <;> rfl

/-! ## The commands -/

/-- The register holds a valid point with `onc = 1`. -/
def State.Validated (s : State) (r : PSel) : Prop := s.p[r].valid = true ∧ s.p[r].onc = true

/-- The ways of 43_curve_point_forms.md R197 in which a change may write a point with `onc = 1`, other than the verdict of `PVAL`: `PINF`, or
sources that all have the bit. -/
def Instr.MaySetOnc (i : Instr) (s : State) (d : PSel) : Prop :=
  i = .pinf d ∨ (i.readsP ≠ [] ∧ ∀ r ∈ i.readsP, s.Validated r)

/-- A point written with `onc = 1` has one of the ways of 43_curve_point_forms.md R197. -/
def Change.OncRule (i : Instr) (s : State) : Change → Prop
  | .point d q => q.onc = true → Instr.MaySetOnc i s d
  | .verdict _ q f => q.onc = true → f = true
  | .reg .. | .sum .. | .pair .. | .order _ | .ctx .. | .curve _ | .bytes .. => True

/-- The command faults, or makes a change at its place that follows the rule. -/
def KeepsOncRule (i : Instr) (s : State) : Prop :=
  ∃ e, exec i s = s.finish e ∧ Effect.Makes (fun x => x.place = i.place ∧ x.OncRule i s) s s e e

section
variable {s : State}

theorem State.validated_of_readP {r : PSel} {q : PReg} (h : s.readP r = .ok q) (ho : q.onc = true) : s.Validated r := by
  obtain ⟨hv, rfl⟩ := (s.readP_ok_iff r q).1 h
  exact ⟨hv, ho⟩

/-- A command with one source, which has the bit. -/
theorem Instr.MaySetOnc.of_source {i : Instr} {d r : PSel} (hr : i.readsP = [r]) (h : s.Validated r) : Instr.MaySetOnc i s d := by
  right
  rw [hr]
  exact ⟨List.cons_ne_nil _ _, fun r' h' => List.mem_singleton.1 h' ▸ h⟩

/-- A command that writes a point whose bit is that of its one source. -/
theorem Change.OncRule.of_source {i : Instr} {d r : PSel} {q x : PReg} (hr : i.readsP = [r]) (hq : s.readP r = .ok q)
    (hx : x.onc = q.onc) : (Change.point d x).OncRule i s := fun ho =>
  .of_source hr (State.validated_of_readP hq (hx ▸ ho))

theorem pset_keepsOncRule (d : PSel) (a b : BSel) : KeepsOncRule (.pset d a b) s :=
  ⟨_, rfl, .bind fun _ _ => .bind fun _ _ => .bind fun _ _ => .bind fun _ _ => .ok (.point d _) ⟨rfl, nofun⟩⟩

theorem pgen_keepsOncRule (d : PSel) : KeepsOncRule (.pgen d) s :=
  ⟨_, rfl, .bind fun _ _ => .ok (.point d _) ⟨rfl, nofun⟩⟩

theorem pinf_keepsOncRule (d : PSel) : KeepsOncRule (.pinf d) s :=
  ⟨_, rfl, .bind fun _ _ => .ok (.point d _) ⟨rfl, fun _ => .inl rfl⟩⟩

theorem pmov_keepsOncRule (d r : PSel) : KeepsOncRule (.pmov d r) s :=
  ⟨_, rfl, .bind fun _ _ => .bind fun _ hq => .ok (.point d _) ⟨rfl, .of_source rfl hq rfl⟩⟩

theorem pclr_keepsOncRule (d : PSel) : KeepsOncRule (.pclr d) s :=
  ⟨_, rfl, .ok (.point d PReg.empty) ⟨rfl, nofun⟩⟩

theorem ptomont_keepsOncRule (d r : PSel) : KeepsOncRule (.ptomont d r) s :=
  ⟨_, rfl, .bind fun _ _ => .bind fun _ hq => .bind fun _ _ => .bind fun _ _ => .ok (.point d _) ⟨rfl, .of_source rfl hq rfl⟩⟩

theorem pfrommont_keepsOncRule (d r : PSel) : KeepsOncRule (.pfrommont d r) s :=
  ⟨_, rfl, .bind fun _ _ => .bind fun _ hq => .bind fun _ _ => .ok (.point d _) ⟨rfl, .of_source rfl hq rfl⟩⟩

theorem ptoproj_keepsOncRule (d r : PSel) : KeepsOncRule (.ptoproj d r) s :=
  ⟨_, rfl, .bind fun k _ => .bind fun q hq => .bind fun _ _ => .ok (.point d _) ⟨rfl, .of_source rfl hq (k.proj_flags q).2.2.2⟩⟩

theorem ptoaff_keepsOncRule (d r : PSel) : KeepsOncRule (.ptoaff d r) s :=
  ⟨_, rfl, .bind fun k _ => .bind fun q hq => .bind fun _ _ => .ok (.point d _) ⟨rfl, .of_source rfl hq (k.affine_onc s.W q)⟩⟩

theorem pval_keepsOncRule (r : PSel) : KeepsOncRule (.pval r) s :=
  ⟨_, rfl, .bind fun _ _ => .bind fun _ _ => .bind fun _ _ => .ok (.verdict r _ _) ⟨rfl, id⟩⟩

theorem pdec_keepsOncRule (d : PSel) (off len : Imm10) : KeepsOncRule (.pdec d off len) s :=
  ⟨_, rfl, .bind fun _ _ => .bind fun k _ => .bind fun q hq => .ok (.point d q) ⟨rfl, fun ho => by
    rcases k.decodePoint_cases (s.iob.readBytes off.val (len.val + 1)) with ⟨x, y, i, he⟩ | he
    · cases he.symm.trans hq
      cases ho
    · cases he.symm.trans hq⟩⟩

theorem pdbl_keepsOncRule (d r : PSel) : KeepsOncRule (.pdbl d r) s :=
  ⟨_, rfl, .bind fun k _ => .bind fun q hq => .bind fun _ _ => .ok (.point d _) ⟨rfl, .of_source rfl hq (k.dbl_onc s.W q)⟩⟩

theorem padd_keepsOncRule (d r r' : PSel) : KeepsOncRule (.padd d r r') s :=
  ⟨_, rfl, .bind fun k _ => .bind fun q1 h1 => .bind fun q2 h2 => .bind fun _ _ => .ok (.point d _) ⟨rfl, fun ho => by
    obtain ⟨ho1, ho2⟩ := Bool.and_eq_true_iff.1 ((k.padd_onc s.W q1 q2).symm.trans ho)
    refine .inr ⟨List.cons_ne_nil _ _, fun p hp => ?_⟩
    rcases List.mem_pair.1 hp with rfl | rfl
    · exact State.validated_of_readP h1 ho1
    · exact State.validated_of_readP h2 ho2⟩⟩

theorem pneg_keepsOncRule (d r : PSel) : KeepsOncRule (.pneg d r) s :=
  ⟨_, rfl, .bind fun k _ => .bind fun q hq => .bind fun _ _ => .ok (.point d _) ⟨rfl, .of_source rfl hq (k.neg_onc q)⟩⟩

/-- The result of `SMUL` has the bit; a source without it is refused (45_scalar_mul.md R231). -/
theorem smul_keepsOncRule (d r : PSel) (b : BSel) : KeepsOncRule (.smul d r b) s :=
  ⟨_, rfl, .bind fun _ _ => .bind fun _ hq => .bind fun _ _ => .bind fun _ _ => .bind fun _ ho => .bind fun _ _ =>
    .ok (.point d _) ⟨rfl, fun _ => .of_source rfl (State.validated_of_readP hq (by simpa using raiseIf_ok ho))⟩⟩

/-- Every command that writes a point follows the rule. -/
theorem keepsOncRule (s : State) {j : PSel} : ∀ i : Instr, j ∈ i.writesP → KeepsOncRule i s
  | .pset d a b, _ => pset_keepsOncRule d a b
  | .pgen d, _ => pgen_keepsOncRule d
  | .pinf d, _ => pinf_keepsOncRule d
  | .pmov d r, _ => pmov_keepsOncRule d r
  | .pclr d, _ => pclr_keepsOncRule d
  | .ptomont d r, _ => ptomont_keepsOncRule d r
  | .pfrommont d r, _ => pfrommont_keepsOncRule d r
  | .ptoproj d r, _ => ptoproj_keepsOncRule d r
  | .ptoaff d r, _ => ptoaff_keepsOncRule d r
  | .pval r, _ => pval_keepsOncRule r
  | .pdec d off len, _ => pdec_keepsOncRule d off len
  | .pdbl d r, _ => pdbl_keepsOncRule d r
  | .padd d r r', _ => padd_keepsOncRule d r r'
  | .pneg d r, _ => pneg_keepsOncRule d r
  | .smul d r b, _ => smul_keepsOncRule d r b

end

/-- What a change that follows the rule leaves in the point register it writes. -/
theorem Change.OncRule.apply {i : Instr} {s : State} {x : Change} {j : PSel} (hx : x.OncRule i s) (hj : j ∈ x.place.points)
    (ho : (x.apply s).p[j].onc = true) : (x.place = .verdict j ∧ (x.apply s).status.v = true) ∨ Instr.MaySetOnc i s j := by
  cases x with
  | point d q =>
    obtain rfl : j = d := List.mem_singleton.1 hj
    rw [Change.apply, State.writeP_get, if_pos rfl] at ho
    exact .inr (hx ho)
  | verdict d q f =>
    obtain rfl : j = d := List.mem_singleton.1 hj
    rw [Change.apply, State.setV_p, State.writeP_get, if_pos rfl] at ho
    exact .inl ⟨rfl, hx ho⟩
  | reg | sum | pair | order | ctx | curve | bytes => cases hj

/-- Settles O57: a register that the command does not name keeps its point or its bit; a command that names it follows the rule. -/
theorem onCurveRule : Obligations.OnCurveRule := by
  intro i s t j h hv ho
  obtain ⟨-, hframe, hinstall, -⟩ := commandFrame i s t h
  by_cases hj : j ∈ i.writesP
  · obtain ⟨e, hexec, ⟨c, rfl, -⟩ | ⟨x, ⟨hplace, hx⟩, rfl, -⟩⟩ := keepsOncRule s i hj
    · cases hexec.symm.trans h
      exact .inl rfl
    · cases hexec.symm.trans h
      rcases hx.apply (by rwa [hplace, ← i.writesP_eq]) ho with ⟨hverdict, hflag⟩ | hpinf | hsources
      · obtain ⟨r, rfl⟩ := i.place_eq_verdict_iff.1 ⟨j, hplace.symm.trans hverdict⟩
        cases hplace.symm.trans hverdict
        exact .inr (.inl ⟨rfl, hflag⟩)
      · exact .inr (.inr (.inl hpinf))
      · exact .inr (.inr (.inr ⟨hj, hsources⟩))
  · cases hi : i.installs with
    | false => exact .inl (hframe j hj hi)
    | true =>
      rcases hinstall j hi with heq | heq
      · exact .inl heq
      · rw [heq] at hv
        cases hv

end Sys2Proof.Machine
end

section
/-! Field arithmetic on represented values, and how the point arithmetic commands end (44_point_arith.md R210, R211, R214, R218). -/

namespace Sys2Proof.Machine

/-! ## Field arithmetic on represented values -/

/-- A represented value may be written in another way. -/
theorem Curve.Reps.of_eq {W t : Nat} {k : Curve} {v w : Int} (h : k.Reps W t v) (he : v = w) : k.Reps W t w := he ▸ h

/-- A represented value may be replaced by one congruent to it. -/
theorem Curve.Reps.of_modEq {W t : Nat} {k : Curve} {v w : Int} (h : k.Reps W t v) (he : v ≡ w [ZMOD (k.p : Int)]) : k.Reps W t w :=
  ⟨h.1, h.2.trans (he.mul_right _)⟩

/-- The difference of two naturals modulo `p`, the second reduced first, is that of the integers (44_point_arith.md R210 d). -/
theorem natCast_sub_mod_modEq {p : Nat} (hp : 0 < p) (x y : Nat) :
    (((x + (p - y % p)) % p : Nat) : Int) ≡ x - y [ZMOD (p : Int)] := by
  rw [Int.natCast_mod, Nat.cast_add, Nat.cast_sub (Nat.mod_lt y hp).le, Int.natCast_mod]
  refine (Int.mod_modEq _ _).trans ((Int.ModEq.refl _).add ?_)
  calc (p : Int) - y % p ≡ 0 - y [ZMOD (p : Int)] := (Int.modEq_zero_iff_dvd.2 dvd_rfl).sub (Int.mod_modEq _ _)
    _ = -y := zero_sub _

section
variable {W : Nat} {k : Curve} (hk : k.Ok W)
include hk

theorem Curve.Ok.reps_zero : k.Reps W 0 0 := ⟨hk.p_pos, by simp⟩

/-- Only zero is stored for a multiple of `p`. -/
theorem Curve.Ok.reps_eq_zero_iff {t : Nat} {v : Int} (h : k.Reps W t v) : t = 0 ↔ v ≡ 0 [ZMOD (k.p : Int)] := by
  constructor
  · rintro rfl
    have hcop : IsCoprime (k.p : Int) (2 ^ (W * k.fctx.s)) := by
      exact_mod_cast Nat.isCoprime_iff_coprime.2 (hk.modulus ▸ hk.fctx.coprime_two_pow (W * k.fctx.s))
    exact Int.modEq_zero_iff_dvd.2 (hcop.dvd_of_dvd_mul_right (Int.modEq_zero_iff_dvd.1 h.2.symm))
  · exact fun hv => Curve.reps_unique (h.of_modEq hv) hk.reps_zero

/-- Every reduced number represents a value. -/
theorem Curve.Ok.exists_reps {t : Nat} (ht : t < k.p) : ∃ v : Int, k.Reps W t v := by
  obtain ⟨-, hspec⟩ := mont_spec W k.fctx t 1 hk.fctx.gtOne hk.fctx.odd
  rw [mul_one, hk.modulus] at hspec
  exact ⟨mont W k.fctx t 1, ht, by exact_mod_cast Int.natCast_modEq_iff.2 (Eq.symm hspec : t ≡ _ [MOD k.p])⟩

theorem Curve.Ok.reps_fadd {t u : Nat} {x y : Int} (ht : k.Reps W t x) (hu : k.Reps W u y) : k.Reps W (k.fadd t u) (x + y) := by
  refine ⟨hk.fadd_lt t u, ?_⟩
  rw [Curve.fadd, Int.natCast_mod, Nat.cast_add, add_mul]
  exact (Int.mod_modEq _ _).trans (ht.2.add hu.2)

theorem Curve.Ok.reps_fsub {t u : Nat} {x y : Int} (ht : k.Reps W t x) (hu : k.Reps W u y) : k.Reps W (k.fsub t u) (x - y) := by
  refine ⟨hk.fsub_lt t u, (natCast_sub_mod_modEq hk.p_pos t u).trans ?_⟩
  rw [sub_mul]
  exact ht.2.sub hu.2

theorem Curve.Ok.reps_ftimes (n : Nat) {t : Nat} {x : Int} (ht : k.Reps W t x) : k.Reps W (k.ftimes n t) (n * x) := by
  refine ⟨hk.ftimes_lt n t, ?_⟩
  rw [Curve.ftimes, Int.natCast_mod, Nat.cast_mul, mul_assoc]
  exact (Int.mod_modEq _ _).trans (ht.2.mul_left _)

theorem Curve.Ok.reps_fneg {t : Nat} {x : Int} (ht : k.Reps W t x) : k.Reps W (k.fneg t) (-x) := by
  have hsub := hk.reps_fsub hk.reps_zero ht
  rw [Curve.fsub, Nat.zero_add, Nat.mod_eq_of_lt ht.1, zero_sub] at hsub
  exact hsub

/-- The stored coefficient `a_m` represents `a` (10_state.md R33). -/
theorem Curve.Ok.reps_aM : k.Reps W k.aM k.a := by
  rw [hk.aM, ← hk.modulus]
  exact hk.reps_iff.2 ⟨k.a, rfl, rfl⟩

/-- The stored coefficient `bd_m` represents `b` or `d` (10_state.md R33). -/
theorem Curve.Ok.reps_bdM : k.Reps W k.bdM k.bd := by
  rw [hk.bdM, ← hk.modulus]
  exact hk.reps_iff.2 ⟨k.bd, rfl, rfl⟩

end

/-! ## How each command ends -/

theorem Curve.isProjMont_of_weierstrass {k : Curve} (ht : k.type = .weierstrass) (q : PReg) :
    k.isProjMont q = (q.hasZ && q.mont) := by
  simp [Curve.isProjMont, ht]

theorem Curve.isProjMont_of_twistedEdwards {k : Curve} (ht : k.type = .twistedEdwards) (q : PReg) :
    k.isProjMont q = (q.hasZ && q.mont && q.hasT) := by
  rw [Curve.isProjMont, ht, show (CurveType.twistedEdwards == CurveType.weierstrass) = false from rfl, Bool.or_false]

theorem Curve.isSecondMont_of_weierstrass {k : Curve} (ht : k.type = .weierstrass) (q : PReg) :
    k.isSecondMont q = (!q.hasZ && q.mont) := by
  rw [Curve.isSecondMont, ht]

theorem Curve.isSecondMont_of_twistedEdwards {k : Curve} (ht : k.type = .twistedEdwards) (q : PReg) :
    k.isSecondMont q = (q.hasZ && q.hasT && q.mont) := by
  rw [Curve.isSecondMont, ht]

theorem Curve.dbl_of_weierstrass {k : Curve} (ht : k.type = .weierstrass) (W : Nat) (q : PReg) : k.dbl W q = k.wdbl W q := by
  rw [Curve.dbl, ht]

theorem Curve.dbl_of_twistedEdwards {k : Curve} (ht : k.type = .twistedEdwards) (W : Nat) (q : PReg) : k.dbl W q = k.tdbl W q := by
  rw [Curve.dbl, ht]

theorem Curve.padd_of_weierstrass {k : Curve} (ht : k.type = .weierstrass) (W : Nat) (q1 q2 : PReg) :
    k.padd W q1 q2 = k.wmadd W q1 q2 := by
  rw [Curve.padd, ht]

theorem Curve.padd_of_twistedEdwards {k : Curve} (ht : k.type = .twistedEdwards) (W : Nat) (q1 q2 : PReg) :
    k.padd W q1 q2 = k.tadd W q1 q2 := by
  rw [Curve.padd, ht]

section
variable {s : State} {k : Curve} (hk : s.crv = k) (hv : k.valid = true) {pa pb : PSel} {q1 q2 : PReg}
  (h1 : s.p[pa] = q1) (hv1 : q1.valid = true)
include hk hv h1 hv1

/-- `PDBL` of a valid point (44_point_arith.md R211). -/
theorem exec_pdbl_eq (pd : PSel) :
    exec (.pdbl pd pa) s =
      if !k.isProjMont q1 then .next (s.faulted 0x08) else .next (s.writeP pd (k.dbl s.W q1)).done := by
  rw [exec, execPdbl, State.finish_readCrv hk hv, State.finish_readP h1 hv1, State.finish_raise]
  rfl

/-- `PNEG` of a valid point (44_point_arith.md R218). -/
theorem exec_pneg_eq (pd : PSel) :
    exec (.pneg pd pa) s = if !q1.mont then .next (s.faulted 0x08) else .next (s.writeP pd (k.neg q1)).done := by
  rw [exec, execPneg, State.finish_readCrv hk hv, State.finish_readP h1 hv1, State.finish_raise]
  rfl

/-- `PADD` of valid points (44_point_arith.md R214). -/
theorem exec_padd_eq (h2 : s.p[pb] = q2) (hv2 : q2.valid = true) (pd : PSel) :
    exec (.padd pd pa pb) s =
      if !k.isProjMont q1 || !k.isSecondMont q2 then .next (s.faulted 0x08)
      else .next (s.writeP pd (k.padd s.W q1 q2)).done := by
  rw [exec, execPadd, State.finish_readCrv hk hv, State.finish_readP h1 hv1, State.finish_readP h2 hv2, State.finish_raise]
  rfl

end

end Sys2Proof.Machine
end

section
/-! Doubling: the coordinates it stores, the values they represent, and the two operation sequences (44_point_arith.md R212, R213). -/

namespace Sys2Proof.Machine

/-! ## Points given by represented coordinates -/

/-- The stored triple of a Jacobian point represents the coordinates `(X, Y, Z)`. -/
structure Curve.RepsJacobian (k : Curve) (W : Nat) (t : Nat × Nat × Nat) (X Y Z : Int) : Prop where
  x : k.Reps W t.1 X
  y : k.Reps W t.2.1 Y
  z : k.Reps W t.2.2 Z

/-- Represented coordinates have one stored triple. -/
theorem Curve.RepsJacobian.unique {k : Curve} {W : Nat} {t u : Nat × Nat × Nat} {X Y Z : Int} (ht : k.RepsJacobian W t X Y Z)
    (hu : k.RepsJacobian W u X Y Z) : t = u :=
  Prod.ext (Curve.reps_unique ht.x hu.x) (Prod.ext (Curve.reps_unique ht.y hu.y) (Curve.reps_unique ht.z hu.z))

/-- The Jacobian point of a computed triple: the canonical identity where `Z3 = 0` (44_point_arith.md R212, R215). -/
def Curve.jacobianOf (k : Curve) (t : Nat × Nat × Nat) (o : Bool) : PReg :=
  if t.2.2 = 0 then k.jacobianIdentity true o else jacobianPoint t.1 t.2.1 t.2.2 true o

/-- The five coordinates of an extended-projective point represent `(X, Y, Z, Ta, Tb)`. -/
structure Curve.RepsExtended (k : Curve) (W : Nat) (q : PReg) (X Y Z Ta Tb : Int) : Prop where
  x : k.Reps W q.x X
  y : k.Reps W q.y Y
  z : k.Reps W q.z Z
  ta : k.Reps W q.ta Ta
  tb : k.Reps W q.tb Tb

section
variable {W : Nat} {k : Curve} (hk : k.Ok W)
include hk

theorem Curve.Ok.jacobianOf_of_zero {t : Nat × Nat × Nat} {X Y Z : Int} (ht : k.RepsJacobian W t X Y Z)
    (hz : Z ≡ 0 [ZMOD (k.p : Int)]) (o : Bool) : k.jacobianOf t o = k.jacobianIdentity true o :=
  if_pos ((hk.reps_eq_zero_iff ht.z).2 hz)

theorem Curve.Ok.jacobianOf_of_ne_zero {t : Nat × Nat × Nat} {X Y Z : Int} (ht : k.RepsJacobian W t X Y Z)
    (hz : ¬Z ≡ 0 [ZMOD (k.p : Int)]) (o : Bool) : k.jacobianOf t o = jacobianPoint t.1 t.2.1 t.2.2 true o :=
  if_neg fun h => hz ((hk.reps_eq_zero_iff ht.z).1 h)

/-- The last step of both twisted Edwards formulas: the products of the factors `E`, `F`, `G`, `H` (44_point_arith.md R213, R216). -/
theorem Curve.Ok.reps_extended_of_factors {e f g h : Nat} {E F G H : Int} (he : k.Reps W e E) (hf : k.Reps W f F) (hg : k.Reps W g G)
    (hh : k.Reps W h H) (o : Bool) :
    k.RepsExtended W (extendedPoint (k.fmul W e f) (k.fmul W g h) (k.fmul W f g) e h true o) (E * F) (G * H) (F * G) E H :=
  ⟨hk.reps_fmul he hf, hk.reps_fmul hg hh, hk.reps_fmul hf hg, he, hh⟩

end

/-! ## Weierstrass doubling -/

/-- The triple that Weierstrass doubling computes before it tests `Z3` (44_point_arith.md R212). -/
def Curve.doubled (k : Curve) (W x y z : Nat) : Nat × Nat × Nat :=
  let yy := k.fmul W y y
  let zz := k.fmul W z z
  let s := k.ftimes 4 (k.fmul W x yy)
  let m := k.fadd (k.ftimes 3 (k.fmul W x x)) (k.fmul W k.aM (k.fmul W zz zz))
  let x3 := k.fsub (k.fmul W m m) (k.ftimes 2 s)
  (x3, k.fsub (k.fmul W m (k.fsub s x3)) (k.ftimes 8 (k.fmul W yy yy)), k.ftimes 2 (k.fmul W y z))

theorem Curve.wdbl_of_inf (k : Curve) (W : Nat) {q : PReg} (hi : q.inf = true) : k.wdbl W q = k.jacobianIdentity true q.onc :=
  if_pos hi

theorem Curve.wdbl_of_finite (k : Curve) (W : Nat) {q : PReg} (hi : q.inf = false) :
    k.wdbl W q = k.jacobianOf (k.doubled W q.x q.y q.z) q.onc :=
  if_neg (Bool.eq_false_iff.1 hi)

section
variable {W : Nat} {k : Curve} (hk : k.Ok W)
include hk

/-- Doubling computes the formulas of 44_point_arith.md R212, for any value `a` that the stored coefficient represents. -/
theorem Curve.Ok.reps_doubled {x y z : Nat} {a X Y Z S M : Int} (ha : k.Reps W k.aM a) (hx : k.Reps W x X) (hy : k.Reps W y Y)
    (hz : k.Reps W z Z) (hS : S = 4 * X * Y ^ 2) (hM : M = 3 * X ^ 2 + a * Z ^ 4) :
    k.RepsJacobian W (k.doubled W x y z) (M ^ 2 - 2 * S) (M * (S - (M ^ 2 - 2 * S)) - 8 * Y ^ 4) (2 * Y * Z) := by
  have hyy := hk.reps_fmul hy hy
  have hzz := hk.reps_fmul hz hz
  have hs := (hk.reps_ftimes 4 (hk.reps_fmul hx hyy)).of_eq (w := S) (by rw [hS]; ring)
  have hm := (hk.reps_fadd (hk.reps_ftimes 3 (hk.reps_fmul hx hx)) (hk.reps_fmul ha (hk.reps_fmul hzz hzz))).of_eq (w := M)
    (by rw [hM]; ring)
  have hx3 := (hk.reps_fsub (hk.reps_fmul hm hm) (hk.reps_ftimes 2 hs)).of_eq (w := M ^ 2 - 2 * S) (by ring)
  exact ⟨hx3, (hk.reps_fsub (hk.reps_fmul hm (hk.reps_fsub hs hx3)) (hk.reps_ftimes 8 (hk.reps_fmul hyy hyy))).of_eq (by ring),
    (hk.reps_ftimes 2 (hk.reps_fmul hy hz)).of_eq (by ring)⟩

/-- The sequence for `a = -3` computes the formulas with that coefficient (44_point_arith.md R212). -/
theorem Curve.Ok.reps_dblMinus3 {x y z : Nat} {X Y Z S M : Int} (hx : k.Reps W x X) (hy : k.Reps W y Y) (hz : k.Reps W z Z)
    (hS : S = 4 * X * Y ^ 2) (hM : M = 3 * X ^ 2 + -3 * Z ^ 4) :
    k.RepsJacobian W (k.dblMinus3 W x y z) (M ^ 2 - 2 * S) (M * (S - (M ^ 2 - 2 * S)) - 8 * Y ^ 4) (2 * Y * Z) := by
  rw [dblMinus3_eq k W x y z _ _ _ _ _ _ rfl rfl rfl rfl rfl rfl]
  have hdelta := hk.reps_fmul hz hz
  have hgamma := hk.reps_fmul hy hy
  have hbeta := hk.reps_fmul hx hgamma
  have halpha := (hk.reps_ftimes 3 (hk.reps_fmul (hk.reps_fsub hx hdelta) (hk.reps_fadd hx hdelta))).of_eq (w := M) (by rw [hM]; ring)
  have hx3 := (hk.reps_fsub (hk.reps_fmul halpha halpha) (hk.reps_ftimes 8 hbeta)).of_eq (w := M ^ 2 - 2 * S) (by rw [hS]; ring)
  have hyz := hk.reps_fadd hy hz
  have hy3 := hk.reps_fsub (hk.reps_fmul halpha (hk.reps_fsub (hk.reps_ftimes 4 hbeta) hx3))
    (hk.reps_ftimes 8 (hk.reps_fmul hgamma hgamma))
  have hz3 := hk.reps_fsub (hk.reps_fsub (hk.reps_fmul hyz hyz) hgamma) hdelta
  exact ⟨hx3, hy3.of_eq (by rw [hS]; ring), hz3.of_eq (by ring)⟩

/-- The sequence for `a = 0` computes the formulas with that coefficient (44_point_arith.md R212). -/
theorem Curve.Ok.reps_dblZero {x y z : Nat} {X Y Z S M : Int} (hx : k.Reps W x X) (hy : k.Reps W y Y) (hz : k.Reps W z Z)
    (hS : S = 4 * X * Y ^ 2) (hM : M = 3 * X ^ 2 + 0 * Z ^ 4) :
    k.RepsJacobian W (k.dblZero W x y z) (M ^ 2 - 2 * S) (M * (S - (M ^ 2 - 2 * S)) - 8 * Y ^ 4) (2 * Y * Z) := by
  rw [dblZero_eq k W x y z _ _ _ _ _ _ _ _ rfl rfl rfl rfl rfl rfl rfl rfl]
  have ha := hk.reps_fmul hx hx
  have hb := hk.reps_fmul hy hy
  have hc := hk.reps_fmul hb hb
  have hxb := hk.reps_fadd hx hb
  have hd := (hk.reps_ftimes 2 (hk.reps_fsub (hk.reps_fsub (hk.reps_fmul hxb hxb) ha) hc)).of_eq (w := S) (by rw [hS]; ring)
  have he := (hk.reps_ftimes 3 ha).of_eq (w := M) (by rw [hM]; ring)
  have hx3 := (hk.reps_fsub (hk.reps_fmul he he) (hk.reps_ftimes 2 hd)).of_eq (w := M ^ 2 - 2 * S) (by ring)
  exact ⟨hx3, (hk.reps_fsub (hk.reps_fmul he (hk.reps_fsub hd hx3)) (hk.reps_ftimes 8 hc)).of_eq (by ring),
    (hk.reps_ftimes 2 (hk.reps_fmul hy hz)).of_eq (by ring)⟩

/-- The coefficient that a W-curve's `spec` stands for (10_state.md R33). -/
theorem Curve.Ok.reps_aM_of_spec (ht : k.type = .weierstrass) : k.Reps W k.aM (if k.spec = .aZero then 0 else -3) := by
  have hspec := hk.spec
  rw [ht] at hspec
  rcases hspec with ⟨ha, hsp⟩ | ⟨hne, ha, hsp⟩
  · exact hk.reps_aM.of_eq (by rw [hsp, ha]; rfl)
  · refine hk.reps_aM.of_modEq ?_
    rw [if_neg (by rw [hsp]; nofun), ha, Nat.cast_sub (by omega)]
    exact Int.modEq_iff_dvd.2 ⟨-1, by push_cast; ring⟩

/-- Each operation sequence computes the triple of the formulas on the curve that selects it (44_point_arith.md R212). -/
theorem Curve.Ok.sequence_eq_doubled (ht : k.type = .weierstrass) {x y z : Nat} (hx : x < k.p) (hy : y < k.p) (hz : z < k.p) :
    (if k.spec = .aZero then k.dblZero W x y z else k.dblMinus3 W x y z) = k.doubled W x y z := by
  obtain ⟨X, hX⟩ := hk.exists_reps hx
  obtain ⟨Y, hY⟩ := hk.exists_reps hy
  obtain ⟨Z, hZ⟩ := hk.exists_reps hz
  have ha := hk.reps_aM_of_spec ht
  split at ha
  · next hsp =>
    rw [if_pos hsp]
    exact (hk.reps_dblZero hX hY hZ rfl rfl).unique (hk.reps_doubled ha hX hY hZ rfl rfl)
  · next hsp =>
    rw [if_neg hsp]
    exact (hk.reps_dblMinus3 hX hY hZ rfl rfl).unique (hk.reps_doubled ha hX hY hZ rfl rfl)

/-! ## Twisted Edwards doubling -/

/-- Twisted Edwards doubling computes the formulas of 44_point_arith.md R213. -/
theorem Curve.Ok.reps_tdbl {q : PReg} {X Y Z A B C D E F G H : Int} (hx : k.Reps W q.x X) (hy : k.Reps W q.y Y) (hz : k.Reps W q.z Z)
    (hA : A = X ^ 2) (hB : B = Y ^ 2) (hC : C = 2 * Z ^ 2) (hD : D = k.a * A) (hE : E = (X + Y) ^ 2 - A - B) (hG : G = D + B)
    (hF : F = G - C) (hH : H = D - B) : k.RepsExtended W (k.tdbl W q) (E * F) (G * H) (F * G) E H := by
  have ha := (hk.reps_fmul hx hx).of_eq (w := A) (by rw [hA]; ring)
  have hb := (hk.reps_fmul hy hy).of_eq (w := B) (by rw [hB]; ring)
  have hc := (hk.reps_ftimes 2 (hk.reps_fmul hz hz)).of_eq (w := C) (by rw [hC]; ring)
  have hd := (hk.reps_fmul hk.reps_aM ha).of_eq hD.symm
  have hxy := hk.reps_fadd hx hy
  have he := (hk.reps_fsub (hk.reps_fsub (hk.reps_fmul hxy hxy) ha) hb).of_eq (w := E) (by rw [hE]; ring)
  have hg := (hk.reps_fadd hd hb).of_eq hG.symm
  exact hk.reps_extended_of_factors he ((hk.reps_fsub hg hc).of_eq hF.symm) hg ((hk.reps_fsub hd hb).of_eq hH.symm) q.onc

end

/-! ## The obligations -/

/-- Settles O51: the sequences compute the triple that the formulas compute. -/
theorem doublingSequences : Obligations.DoublingSequences := by
  intro d k q hk ht hi hx hy hz r hr
  rw [k.wdbl_of_finite d.bits hi, hr, hk.sequence_eq_doubled ht hx hy hz]
  rfl

/-- Settles O37: the form check, the flagged identity, and the triple of the formulas with the test of `Z3`. -/
theorem pdblWeierstrass : Obligations.PdblWeierstrass := by
  intro pd ps s k q hk hok ht hq hqv
  rw [exec_pdbl_eq hk hok.valid hq hqv, Curve.isProjMont_of_weierstrass ht, Curve.dbl_of_weierstrass ht]
  have hform : q.hasZ = true → q.mont = true → ¬(!(q.hasZ && q.mont)) = true := fun hz hm => by simp [hz, hm]
  refine ⟨fun h => if_pos (by rwa [Bool.not_eq_true', Bool.and_eq_false_iff]), fun hz hm hi => ?_,
    fun hz hm hi X Y Z S M hX hY hZ hS hM => ?_⟩
  · rw [if_neg (hform hz hm), k.wdbl_of_inf s.W hi]
    rfl
  · have hreps := hok.reps_doubled hok.reps_aM hX hY hZ hS hM
    rw [if_neg (hform hz hm), k.wdbl_of_finite s.W hi]
    refine ⟨fun h0 => ?_, fun h0 => ⟨_, _, _, hreps.x, hreps.y, hreps.z, ?_⟩⟩
    · rw [hok.jacobianOf_of_zero hreps h0]
      rfl
    · rw [hok.jacobianOf_of_ne_zero hreps h0]
      rfl

/-- Settles O38: the form check and the unified formulas. -/
theorem pdblTwisted : Obligations.PdblTwisted := by
  intro pd ps s k q hk hok ht hq hqv
  rw [exec_pdbl_eq hk hok.valid hq hqv, Curve.isProjMont_of_twistedEdwards ht, Curve.dbl_of_twistedEdwards ht]
  refine ⟨fun h => if_pos (by simpa [or_assoc] using h),
    fun hz hm hT X Y Z A B C D E F G H hX hY hZ hA hB hC hD hE hG hF hH => ?_⟩
  obtain ⟨rx, ry, rz, rta, rtb⟩ := hok.reps_tdbl hX hY hZ hA hB hC hD hE hG hF hH
  exact ⟨_, _, _, _, _, rx, ry, rz, rta, rtb, if_neg (by simp [hz, hm, hT])⟩

end Sys2Proof.Machine
end

section
/-! Addition and negation: the coordinates they store and the values these represent (44_point_arith.md R215, R216, R218), and the
curve equation of the results (R217). -/

namespace Sys2Proof.Machine

/-! ## Weierstrass mixed addition -/

/-- `H` and `r` of the mixed addition (44_point_arith.md R215). -/
def Curve.differences (k : Curve) (W : Nat) (q1 q2 : PReg) : Nat × Nat :=
  let zz := k.fmul W q1.z q1.z
  (k.fsub (k.fmul W q2.x zz) q1.x, k.fsub (k.fmul W (k.fmul W q2.y q1.z) zz) q1.y)

/-- The triple that the mixed addition computes from `H` and `r` before it tests `Z3` (44_point_arith.md R215). -/
def Curve.added (k : Curve) (W : Nat) (q1 : PReg) (d : Nat × Nat) : Nat × Nat × Nat :=
  let hh := k.fmul W d.1 d.1
  let hhh := k.fmul W d.1 hh
  let v := k.fmul W q1.x hh
  let x3 := k.fsub (k.fsub (k.fmul W d.2 d.2) hhh) (k.ftimes 2 v)
  (x3, k.fsub (k.fmul W d.2 (k.fsub v x3)) (k.fmul W q1.y hhh), k.fmul W q1.z d.1)

section
variable (k : Curve) (W : Nat) {q1 q2 : PReg}

theorem Curve.wmadd_of_inf_inf (h1 : q1.inf = true) (h2 : q2.inf = true) :
    k.wmadd W q1 q2 = k.jacobianIdentity true (q1.onc && q2.onc) := by
  simp [Curve.wmadd, h1, h2]

theorem Curve.wmadd_of_inf_finite (h1 : q1.inf = true) (h2 : q2.inf = false) :
    k.wmadd W q1 q2 = jacobianPoint q2.x q2.y k.one true (q1.onc && q2.onc) := by
  simp [Curve.wmadd, h1, h2]

theorem Curve.wmadd_of_finite_inf (h1 : q1.inf = false) (h2 : q2.inf = true) :
    k.wmadd W q1 q2 = { q1 with valid := true, hasT := false, mont := true, onc := q1.onc && q2.onc } := by
  simp [Curve.wmadd, h1, h2]

variable (h1 : q1.inf = false) (h2 : q2.inf = false)
include h1 h2

/-- The paths of the addition of finite points, told apart by `H` and `r` (44_point_arith.md R215). -/
theorem Curve.wmadd_of_finite :
    k.wmadd W q1 q2 =
      if (k.differences W q1 q2).1 = 0 ∧ (k.differences W q1 q2).2 = 0 then { k.wdbl W q1 with onc := q1.onc && q2.onc }
      else if (k.differences W q1 q2).1 = 0 then k.jacobianIdentity true (q1.onc && q2.onc)
      else k.jacobianOf (k.added W q1 (k.differences W q1 q2)) (q1.onc && q2.onc) := by
  rw [Curve.wmadd, h1, h2]
  rfl

/-- The addition of finite points that are the same: the doubling (44_point_arith.md R215). -/
theorem Curve.wmadd_of_same (hH : (k.differences W q1 q2).1 = 0) (hr : (k.differences W q1 q2).2 = 0) :
    k.wmadd W q1 q2 = { k.wdbl W q1 with onc := q1.onc && q2.onc } := by
  rw [k.wmadd_of_finite W h1 h2, if_pos ⟨hH, hr⟩]

/-- The addition of finite points that are opposite: the identity (44_point_arith.md R215). -/
theorem Curve.wmadd_of_opposite (hH : (k.differences W q1 q2).1 = 0) (hr : (k.differences W q1 q2).2 ≠ 0) :
    k.wmadd W q1 q2 = k.jacobianIdentity true (q1.onc && q2.onc) := by
  rw [k.wmadd_of_finite W h1 h2, if_neg fun h => hr h.2, if_pos hH]

/-- The addition of finite points with different `x` (44_point_arith.md R215). -/
theorem Curve.wmadd_of_general (hH : (k.differences W q1 q2).1 ≠ 0) :
    k.wmadd W q1 q2 = k.jacobianOf (k.added W q1 (k.differences W q1 q2)) (q1.onc && q2.onc) := by
  rw [k.wmadd_of_finite W h1 h2, if_neg fun h => hH h.1, if_neg hH]

end

section
variable {W : Nat} {k : Curve} (hk : k.Ok W)
include hk

/-- `H` and `r` on represented values (44_point_arith.md R215). -/
theorem Curve.Ok.reps_differences {q1 q2 : PReg} {X1 Y1 Z1 x2 y2 : Int} (hX1 : k.Reps W q1.x X1) (hY1 : k.Reps W q1.y Y1)
    (hZ1 : k.Reps W q1.z Z1) (hx2 : k.Reps W q2.x x2) (hy2 : k.Reps W q2.y y2) :
    k.Reps W (k.differences W q1 q2).1 (x2 * Z1 ^ 2 - X1) ∧ k.Reps W (k.differences W q1 q2).2 (y2 * Z1 * Z1 ^ 2 - Y1) := by
  have hzz := hk.reps_fmul hZ1 hZ1
  rw [← pow_two] at hzz
  exact ⟨hk.reps_fsub (hk.reps_fmul hx2 hzz) hX1, hk.reps_fsub (hk.reps_fmul (hk.reps_fmul hy2 hZ1) hzz) hY1⟩

/-- The general addition computes the formulas of 44_point_arith.md R215. -/
theorem Curve.Ok.reps_added {q1 : PReg} {d : Nat × Nat} {X1 Y1 Z1 H r V X3 : Int} (hX1 : k.Reps W q1.x X1) (hY1 : k.Reps W q1.y Y1)
    (hZ1 : k.Reps W q1.z Z1) (hH : k.Reps W d.1 H) (hr : k.Reps W d.2 r) (hV : V = X1 * H ^ 2)
    (hX3 : X3 = r ^ 2 - H * H ^ 2 - 2 * V) :
    k.RepsJacobian W (k.added W q1 d) X3 (r * (V - X3) - Y1 * (H * H ^ 2)) (Z1 * H) := by
  have hhh := hk.reps_fmul hH hH
  rw [← pow_two] at hhh
  have hhhh := hk.reps_fmul hH hhh
  have hv := (hk.reps_fmul hX1 hhh).of_eq hV.symm
  have hx3 := (hk.reps_fsub (hk.reps_fsub (hk.reps_fmul hr hr) hhhh) (hk.reps_ftimes 2 hv)).of_eq (w := X3) (by rw [hX3]; ring)
  exact ⟨hx3, hk.reps_fsub (hk.reps_fmul hr (hk.reps_fsub hv hx3)) (hk.reps_fmul hY1 hhhh), hk.reps_fmul hZ1 hH⟩

/-! ## Twisted Edwards addition -/

/-- Twisted Edwards addition computes the formulas of 44_point_arith.md R216. -/
theorem Curve.Ok.reps_tadd {q1 q2 : PReg} {X1 Y1 Z1 Ta1 Tb1 X2 Y2 Z2 Ta2 Tb2 A B C D E F G H : Int}
    (h1 : k.RepsExtended W q1 X1 Y1 Z1 Ta1 Tb1) (h2 : k.RepsExtended W q2 X2 Y2 Z2 Ta2 Tb2)
    (hA : A = X1 * X2) (hB : B = Y1 * Y2) (hC : C = k.bd * (Ta1 * Tb1) * (Ta2 * Tb2)) (hD : D = Z1 * Z2)
    (hE : E = (X1 + Y1) * (X2 + Y2) - A - B) (hF : F = D - C) (hG : G = D + C) (hH : H = B - k.a * A) :
    k.RepsExtended W (k.tadd W q1 q2) (E * F) (G * H) (F * G) E H := by
  have ha := (hk.reps_fmul h1.x h2.x).of_eq hA.symm
  have hb := (hk.reps_fmul h1.y h2.y).of_eq hB.symm
  have hc := (hk.reps_fmul (hk.reps_fmul hk.reps_bdM (hk.reps_fmul h1.ta h1.tb)) (hk.reps_fmul h2.ta h2.tb)).of_eq hC.symm
  have hd := (hk.reps_fmul h1.z h2.z).of_eq hD.symm
  have he := (hk.reps_fsub (hk.reps_fsub (hk.reps_fmul (hk.reps_fadd h1.x h1.y) (hk.reps_fadd h2.x h2.y)) ha) hb).of_eq hE.symm
  exact hk.reps_extended_of_factors he ((hk.reps_fsub hd hc).of_eq hF.symm) ((hk.reps_fadd hd hc).of_eq hG.symm)
    ((hk.reps_fsub hb (hk.reps_fmul hk.reps_aM ha)).of_eq hH.symm) (q1.onc && q2.onc)

end

/-! ## Negation -/

theorem Curve.neg_of_inf (k : Curve) {q : PReg} (hi : q.inf = true) : k.neg q = q := if_pos hi

theorem Curve.neg_of_weierstrass {k : Curve} (ht : k.type = .weierstrass) {q : PReg} (hi : q.inf = false) :
    k.neg q = { q with y := k.fneg q.y } := by
  rw [Curve.neg, if_neg (Bool.eq_false_iff.1 hi), Curve.negCoords, ht]

theorem Curve.neg_of_twistedEdwards {k : Curve} (ht : k.type = .twistedEdwards) {q : PReg} (hi : q.inf = false) :
    k.neg q = { q with x := k.fneg q.x, ta := if q.hasT then k.fneg q.ta else q.ta } := by
  rw [Curve.neg, if_neg (Bool.eq_false_iff.1 hi), Curve.negCoords, ht]

/-- Negation changes no flag (44_point_arith.md R218). -/
theorem Curve.neg_flags (k : Curve) (q : PReg) :
    (k.neg q).valid = q.valid ∧ (k.neg q).hasZ = q.hasZ ∧ (k.neg q).mont = q.mont ∧ (k.neg q).inf = q.inf
      ∧ (k.neg q).onc = q.onc := by
  unfold Curve.neg Curve.negCoords
  split
  · exact ⟨rfl, rfl, rfl, rfl, rfl⟩
  · split <;> exact ⟨rfl, rfl, rfl, rfl, rfl⟩

/-- On a W-curve a lifted point plus the negated point is the canonical identity, a point of order two included
(44_point_arith.md R219). -/
theorem Curve.Ok.wmadd_proj_neg {W : Nat} {k : Curve} (hk : k.Ok W) (ht : k.type = .weierstrass) {q : PReg} (hm : q.mont = true)
    (hx : q.x < k.p) (hy : q.y < k.p) : k.wmadd W (k.proj q) (k.neg q) = k.jacobianIdentity true q.onc := by
  obtain ⟨-, -, -, hponc⟩ := k.proj_flags q
  obtain ⟨-, -, -, hninf, hnonc⟩ := k.neg_flags q
  have honc : ((k.proj q).onc && (k.neg q).onc) = q.onc := by rw [hponc, hnonc, Bool.and_self]
  cases hi : q.inf with
  | true =>
    have hpinf : (k.proj q).inf = true := by rw [Curve.proj_eq, if_neg (Curve.ne_twistedEdwards ht), if_pos hi]
    rw [k.wmadd_of_inf_inf W hpinf (hninf.trans hi), honc]
  | false =>
    obtain ⟨hpx, hpy, hpz, hpinf⟩ := Curve.proj_of_finite (k := k) fun _ => hi
    obtain ⟨X, hX⟩ := hk.exists_reps hx
    obtain ⟨Y, hY⟩ := hk.exists_reps hy
    have hPX : k.Reps W (k.proj q).x X := hpx ▸ hX
    have hPY : k.Reps W (k.proj q).y Y := hpy ▸ hY
    have hPZ : k.Reps W (k.proj q).z 1 := by
      rw [hpz, hm]
      exact hk.reps_one
    have hNX : k.Reps W (k.neg q).x X := by
      rw [Curve.neg_of_weierstrass ht hi]
      exact hX
    have hNY : k.Reps W (k.neg q).y (-Y) := by
      rw [Curve.neg_of_weierstrass ht hi]
      exact hk.reps_fneg hY
    obtain ⟨hH, hr⟩ := hk.reps_differences hPX hPY hPZ hNX hNY
    have hH0 : (k.differences W (k.proj q) (k.neg q)).1 = 0 := (hk.reps_eq_zero_iff hH).2 (by ring_nf; rfl)
    by_cases hr0 : (k.differences W (k.proj q) (k.neg q)).2 = 0
    · have hz3 : 2 * Y * 1 ≡ 0 [ZMOD (k.p : Int)] := by
        have hneg := ((hk.reps_eq_zero_iff hr).1 hr0).neg
        ring_nf at hneg ⊢
        exact hneg
      rw [k.wmadd_of_same W hpinf (hninf.trans hi) hH0 hr0, honc, k.wdbl_of_finite W hpinf,
        hk.jacobianOf_of_zero (hk.reps_doubled hk.reps_aM hPX hPY hPZ rfl rfl) hz3]
      rfl
    · rw [k.wmadd_of_opposite W hpinf (hninf.trans hi) hH0 hr0, honc]

/-- A command that writes another point register leaves this one. -/
theorem State.writeP_done_get_of_ne {i j : PSel} (h : i ≠ j) (s : State) (q : PReg) : (s.writeP i q).done.p[j] = s.p[j] :=
  (State.writeP_get s i j q).trans (if_neg h)

/-! ## The obligations on addition and negation -/

/-- Settles O39: the form check, the flagged operands, and the paths of the addition of finite points, told apart by what `H`, `r` and
`Z3` represent. -/
theorem paddWeierstrass : Obligations.PaddWeierstrass := by
  intro pd pa pb s k q1 q2 hk hok ht h1 hv1 h2 hv2
  rw [exec_padd_eq hk hok.valid h1 hv1 h2 hv2, Curve.isProjMont_of_weierstrass ht, Curve.isSecondMont_of_weierstrass ht,
    Curve.padd_of_weierstrass ht]
  refine ⟨fun h => if_pos (by simpa [or_assoc] using h), ?_⟩
  rintro hz1 hT1 hm1 hz2 hm2 onc ident rfl rfl
  rw [if_neg (by simp [hz1, hm1, hz2, hm2])]
  refine ⟨fun hi1 hi2 => ?_, fun hi1 hi2 => ?_, fun hi1 hi2 => ?_, fun hi1 hi2 => ?_⟩
  · rw [k.wmadd_of_inf_inf s.W hi1 hi2]
    rfl
  · rw [k.wmadd_of_inf_finite s.W hi1 hi2]
    rfl
  · rw [k.wmadd_of_finite_inf s.W hi1 hi2]
    simp only [hv1, hT1, hm1]
  intro X1 Y1 Z1 x2 y2 H r V X3 hX1 hY1 hZ1 hx2 hy2 hH hr hV hX3
  obtain ⟨rH, rr⟩ := hok.reps_differences hX1 hY1 hZ1 hx2 hy2
  rw [← hH] at rH
  rw [← hr] at rr
  have hreps := hok.reps_added hX1 hY1 hZ1 rH rr hV hX3
  rw [← hok.reps_eq_zero_iff rH, ← hok.reps_eq_zero_iff rr]
  refine ⟨fun hH0 hr0 => ⟨k.wdbl s.W q1, ?_, ?_⟩, fun hH0 hr0 => ?_, fun hH0 hZ0 => ?_, fun hH0 hZ0 => ?_⟩
  · rw [exec_pdbl_eq hk hok.valid h1 hv1, Curve.isProjMont_of_weierstrass ht, Curve.dbl_of_weierstrass ht]
    exact if_neg (by simp [hz1, hm1])
  · rw [k.wmadd_of_same s.W hi1 hi2 hH0 hr0]
  · rw [k.wmadd_of_opposite s.W hi1 hi2 hH0 hr0]
    rfl
  · rw [k.wmadd_of_general s.W hi1 hi2 hH0, hok.jacobianOf_of_zero hreps hZ0]
    rfl
  · rw [k.wmadd_of_general s.W hi1 hi2 hH0, hok.jacobianOf_of_ne_zero hreps hZ0]
    exact ⟨_, _, _, hreps.x, hreps.y, hreps.z, rfl⟩

/-- Settles O40: the form check and the unified formulas. -/
theorem paddTwisted : Obligations.PaddTwisted := by
  intro pd pa pb s k q1 q2 hk hok ht h1 hv1 h2 hv2
  rw [exec_padd_eq hk hok.valid h1 hv1 h2 hv2, Curve.isProjMont_of_twistedEdwards ht, Curve.isSecondMont_of_twistedEdwards ht,
    Curve.padd_of_twistedEdwards ht]
  refine ⟨fun h => if_pos ?_, fun hz1 hT1 hm1 hz2 hT2 hm2 => ?_⟩
  · by_contra hform
    simp only [Bool.or_eq_true, Bool.not_eq_true', not_or, Bool.not_eq_false, Bool.and_eq_true] at hform
    obtain ⟨⟨⟨hz1, hm1⟩, hT1⟩, ⟨hz2, hT2⟩, hm2⟩ := hform
    exact h ⟨hz1, hT1, hm1, hz2, hT2, hm2⟩
  · intro X1 Y1 Z1 Ta1 Tb1 X2 Y2 Z2 Ta2 Tb2 A B C D E F G H hX1 hY1 hZ1 hTa1 hTb1 hX2 hY2 hZ2 hTa2 hTb2 hA hB hC hD hE hF hG hH
    obtain ⟨rx, ry, rz, rta, rtb⟩ :=
      hok.reps_tadd ⟨hX1, hY1, hZ1, hTa1, hTb1⟩ ⟨hX2, hY2, hZ2, hTa2, hTb2⟩ hA hB hC hD hE hF hG hH
    exact ⟨_, _, _, _, _, rx, ry, rz, rta, rtb, if_neg (by simp [hz1, hm1, hT1, hz2, hT2, hm2])⟩

/-- Settles O41: the negated coordinates, and the sum of a lifted point and the negated point. -/
theorem pnegResult : Obligations.PnegResult := by
  intro pd ps s k q hk hok hq hqv
  have hrun := exec_pneg_eq hk hok.valid hq hqv
  have hmont : q.mont = true → ¬(!q.mont) = true := fun hm => by simp [hm]
  refine ⟨fun hm => (hrun pd).trans (if_pos (by rw [hm]; rfl)), fun hm hi => ?_, fun hm hi ht => ?_, fun hm hi ht => ?_,
    fun hqok ht hz hm pj pn hjs hnj => ?_⟩
  · rw [hrun, if_neg (hmont hm), k.neg_of_inf hi]
  · rw [hrun, if_neg (hmont hm), Curve.neg_of_weierstrass ht hi]
    rfl
  · rw [hrun, if_neg (hmont hm), Curve.neg_of_twistedEdwards ht hi]
    rfl
  · obtain ⟨hpv, hpz, hpm, -⟩ := k.proj_flags q
    obtain ⟨hnv, hnz, hnm, -, -⟩ := k.neg_flags q
    have hproj : exec (.ptoproj pj ps) s = .next (s.writeP pj (k.proj q)).done :=
      (exec_ptoproj_eq hk hok.valid hq hqv pj).trans (if_neg (Bool.eq_false_iff.1 hz))
    generalize ht' : (s.writeP pj (k.proj q)).done = t at hproj
    have htcrv : t.crv = k := ht' ▸ hk
    have htW : t.W = s.W := ht' ▸ rfl
    have htj : t.p[pj] = k.proj q := ht' ▸ State.writeP_done_get s pj _
    have hts : t.p[ps] = q := ht' ▸ (State.writeP_done_get_of_ne hjs s _).trans hq
    have hneg : exec (.pneg pn ps) t = .next (t.writeP pn (k.neg q)).done :=
      (exec_pneg_eq htcrv hok.valid hts hqv pn).trans (if_neg (hmont hm))
    have hadd := exec_padd_eq (s := (t.writeP pn (k.neg q)).done) htcrv hok.valid
      ((State.writeP_done_get_of_ne hnj t _).trans htj) hpv (State.writeP_done_get t pn _) (hnv.trans hqv) pd
    rw [Curve.isProjMont_of_weierstrass ht, Curve.isSecondMont_of_weierstrass ht, hpz, hpm, hnz, hnm, hz, hm, if_neg (by decide),
      Curve.padd_of_weierstrass ht, State.done_W, State.writeP_W, htW,
      hok.wmadd_proj_neg ht hm (hqok.coord_x.2 hm) (hqok.coord_y.2 hm)] at hadd
    exact ⟨t, _, _, hproj, hneg, hadd, State.writeP_done_get _ pd _⟩

/-! ## The curve equation of the results -/

/-- A congruence follows from another whose difference divides its own. -/
theorem modEq_of_sub_eq_mul {n a b c d : Int} (e : Int) (h : a ≡ b [ZMOD n]) (he : d - c = e * (b - a)) : c ≡ d [ZMOD n] :=
  Int.modEq_iff_dvd.2 (he ▸ (Int.modEq_iff_dvd.1 h).mul_left e)

/-- The doubling formulas keep the Jacobian curve equation (44_point_arith.md R212, R217). -/
theorem doubled_on_curve {n a b X Y Z S M X3 Y3 Z3 : Int} (h : Y ^ 2 ≡ X ^ 3 + a * X * Z ^ 4 + b * Z ^ 6 [ZMOD n])
    (hS : S = 4 * X * Y ^ 2) (hM : M = 3 * X ^ 2 + a * Z ^ 4) (hX3 : X3 = M ^ 2 - 2 * S) (hY3 : Y3 = M * (S - X3) - 8 * Y ^ 4)
    (hZ3 : Z3 = 2 * Y * Z) : Y3 ^ 2 ≡ X3 ^ 3 + a * X3 * Z3 ^ 4 + b * Z3 ^ 6 [ZMOD n] := by
  refine modEq_of_sub_eq_mul (64 * Y ^ 6) h ?_
  subst hY3 hZ3 hX3 hS hM
  ring

/-- The mixed addition formulas keep the Jacobian curve equation (44_point_arith.md R215, R217). The difference of the sides for the sum
is a combination of the differences for the two points. -/
theorem added_on_curve {n a b X1 Y1 Z1 x2 y2 H r V X3 Y3 Z3 : Int}
    (h1 : Y1 ^ 2 ≡ X1 ^ 3 + a * X1 * Z1 ^ 4 + b * Z1 ^ 6 [ZMOD n]) (h2 : y2 ^ 2 ≡ x2 ^ 3 + a * x2 + b [ZMOD n])
    (hH : H = x2 * Z1 ^ 2 - X1) (hr : r = y2 * Z1 * Z1 ^ 2 - Y1) (hV : V = X1 * H ^ 2) (hX3 : X3 = r ^ 2 - H * H ^ 2 - 2 * V)
    (hY3 : Y3 = r * (V - X3) - Y1 * (H * H ^ 2)) (hZ3 : Z3 = Z1 * H) :
    Y3 ^ 2 ≡ X3 ^ 3 + a * X3 * Z3 ^ 4 + b * Z3 ^ 6 [ZMOD n] := by
  have hd1 := (Int.modEq_iff_dvd.1 h1).mul_left (H ^ 3 * (x2 * Z1 ^ 2 * H ^ 2 - X3))
  have hd2 := (Int.modEq_iff_dvd.1 h2).mul_left (Z1 ^ 6 * (H ^ 6 - H ^ 3 * (x2 * Z1 ^ 2 * H ^ 2 - X3)))
  refine Int.modEq_iff_dvd.2 ((dvd_add hd1 hd2).trans (dvd_of_eq ?_))
  subst hY3 hZ3 hX3 hV hH hr
  ring

/-- The twisted Edwards doubling formulas keep the curve equation in the extended coordinates (44_point_arith.md R213, R217). -/
theorem tdoubled_on_curve {n a d X Y Z A B C D E F G H : Int}
    (h : (a * X ^ 2 + Y ^ 2) * Z ^ 2 ≡ Z ^ 4 + d * X ^ 2 * Y ^ 2 [ZMOD n]) (hA : A = X ^ 2) (hB : B = Y ^ 2) (hC : C = 2 * Z ^ 2)
    (hD : D = a * A) (hE : E = (X + Y) ^ 2 - A - B) (hG : G = D + B) (hF : F = G - C) (hH : H = D - B) :
    a * (E * F) ^ 2 + (G * H) ^ 2 ≡ (F * G) ^ 2 + d * (E * H) ^ 2 [ZMOD n] := by
  refine modEq_of_sub_eq_mul (4 * H ^ 2) h ?_
  subst hF hG hH hE hD hC hA hB
  ring

/-- Settles O42: the represented results satisfy the curve equation, by the identities of the three formulas. -/
theorem arithmeticStaysOnCurve : Obligations.ArithmeticStaysOnCurve := by
  intro pd pa pb s k q1 q2 X Y Z hk hok h1 hv1 h2 hv2 hz hm hi hX hY hZ
  refine ⟨fun ht _ hcurve hne => ?_, fun ht hT hcurve hz2 hm2 hi2 x2 y2 hx2 hy2 hcurve2 hne => ?_, fun ht hT hcurve => ?_⟩
  · obtain ⟨-, -, hfinite⟩ := pdblWeierstrass pd pa s k q1 hk hok ht h1 hv1
    obtain ⟨-, hgeneral⟩ := hfinite hz hm hi X Y Z _ _ hX hY hZ rfl rfl
    obtain ⟨x, y, z, hx3, hy3, hz3, hrun⟩ := hgeneral hne
    exact ⟨_, _, _, _, hrun, hx3, hy3, hz3, doubled_on_curve hcurve rfl rfl rfl rfl rfl⟩
  · obtain ⟨-, hforms⟩ := paddWeierstrass pd pa pb s k q1 q2 hk hok ht h1 hv1 h2 hv2
    obtain ⟨-, -, -, hfinite⟩ := hforms hz hT hm hz2 hm2 _ _ rfl rfl
    obtain ⟨-, -, -, hgeneral⟩ := hfinite hi hi2 X Y Z x2 y2 _ _ _ _ hX hY hZ hx2 hy2 rfl rfl rfl rfl
    have hH : ¬x2 * Z ^ 2 - X ≡ 0 [ZMOD (k.p : Int)] := fun h0 => hne (by simpa using h0.mul_left Z)
    obtain ⟨x, y, z, hx3, hy3, hz3, hrun⟩ := hgeneral hH hne
    exact ⟨_, _, _, _, hrun, hx3, hy3, hz3, added_on_curve hcurve hcurve2 rfl rfl rfl rfl rfl rfl⟩
  · obtain ⟨-, hforms⟩ := pdblTwisted pd pa s k q1 hk hok ht h1 hv1
    obtain ⟨x, y, z, ta, tb, hx3, hy3, hz3, hta, htb, hrun⟩ :=
      hforms hz hm hT X Y Z _ _ _ _ _ _ _ _ hX hY hZ rfl rfl rfl rfl rfl rfl rfl rfl
    exact ⟨_, _, _, _, _, _, hrun, hx3, hy3, hz3, hta, htb, tdoubled_on_curve hcurve rfl rfl rfl rfl rfl rfl rfl rfl,
      congrArg (· % (k.p : Int)) (by ring)⟩

end Sys2Proof.Machine
end

section
/-! The scalar recoding: its digits are odd and bounded, the top one is 1, and they weigh up to the scalar (45_scalar_mul.md R234). -/

namespace Sys2Proof.Machine

/-! ## Weighted sums of digits -/

/-- The sum of the digits, least significant first, each weighted by its power of the base `b`. -/
def weightedSum (b : Int) (ds : List Int) : Int := ds.foldr (fun d v => d + b * v) 0

@[simp] theorem weightedSum_nil (b : Int) : weightedSum b [] = 0 := rfl

@[simp] theorem weightedSum_cons (b d : Int) (ds : List Int) : weightedSum b (d :: ds) = d + b * weightedSum b ds := rfl

/-- The sum by positions, from position `i` on, is the nested sum times the weight of that position (45_scalar_mul.md R234). -/
theorem sum_zipIdx_eq (m i : Nat) (ds : List Int) :
    ((ds.zipIdx i).map fun di => di.1 * (2 : Int) ^ (m * di.2)).sum = 2 ^ (m * i) * weightedSum (2 ^ m) ds := by
  induction ds generalizing i with
  | nil => simp
  | cons d ds ih =>
    rw [List.zipIdx_cons, List.map_cons, List.sum_cons, ih, weightedSum_cons]
    ring

/-- Read from the most significant digit down, the sum is the value the main loop of R232 accumulates. -/
theorem weightedSum_of_reverse {b top : Int} {ds rest : List Int} (h : ds.reverse = top :: rest) :
    weightedSum b ds = rest.foldl (fun v d => b * v + d) top := by
  rw [weightedSum, ← List.foldl_reverse, h, List.foldl_cons, mul_zero, add_zero]
  simp only [add_comm]

/-! ## The digits of `fixedWindowRecode` -/

/-- One step of the recoding: the scalar that is left is twice the window's quotient plus one, the odd number that makes up for the
subtracted half window (45_scalar_mul.md R234). -/
theorem recode_succ {w : Nat} (hw : 1 ≤ w) (t kk : Nat) :
    recode w (t + 1) kk = ((kk % 2 ^ w : Nat) - (2 ^ (w - 1) : Nat) : Int) :: recode w t (2 * (kk / 2 ^ w) + 1) := by
  obtain ⟨m, rfl⟩ := Nat.exists_eq_add_of_le' hw
  have hnext : (kk + 2 ^ m - kk % 2 ^ (m + 1)) / 2 ^ m = 2 * (kk / 2 ^ (m + 1)) + 1 := by
    have hsplit := Nat.div_add_mod kk (2 ^ (m + 1))
    refine Nat.div_eq_of_eq_mul_left (by positivity) ?_
    rw [show kk + 2 ^ m - kk % 2 ^ (m + 1) = 2 ^ (m + 1) * (kk / 2 ^ (m + 1)) + 2 ^ m by omega]
    ring
  rw [recode, Nat.add_sub_cancel, hnext]

theorem recode_length (w t kk : Nat) : (recode w t kk).length = t + 1 := by
  induction t generalizing kk with
  | zero => rfl
  | succ t ih => rw [recode, List.length_cons, ih]

theorem recode_ne_nil (w t kk : Nat) : recode w t kk ≠ [] := List.ne_nil_of_length_eq_add_one (recode_length w t kk)

/-- The digits weigh up to the scalar, whatever it is: each step takes off what its digit adds (45_scalar_mul.md R234). -/
theorem weightedSum_recode {w : Nat} (hw : 1 ≤ w) (t kk : Nat) : weightedSum (2 ^ (w - 1)) (recode w t kk) = kk := by
  induction t generalizing kk with
  | zero => simp [recode]
  | succ t ih =>
    obtain ⟨m, rfl⟩ := Nat.exists_eq_add_of_le' hw
    have hsplit : ((2 ^ (m + 1) * (kk / 2 ^ (m + 1)) + kk % 2 ^ (m + 1) : Nat) : Int) = kk := by rw [Nat.div_add_mod]
    rw [recode_succ hw, weightedSum_cons, ih, ← hsplit]
    push_cast
    ring

/-- An odd digit that the table of odd multiples up to `2^(w-1)` serves (45_scalar_mul.md R234, R235). -/
def IsWindowDigit (w : Nat) (d : Int) : Prop := d % 2 = 1 ∧ d.natAbs < 2 ^ (w - 1)

/-- The window of an odd scalar less half the base is an odd digit (45_scalar_mul.md R234). -/
theorem isWindowDigit_of_odd {w kk : Nat} (hw : 2 ≤ w) (hodd : kk % 2 = 1) :
    IsWindowDigit w ((kk % 2 ^ w : Nat) - (2 ^ (w - 1) : Nat)) := by
  obtain ⟨m, rfl⟩ := Nat.exists_eq_add_of_le' hw
  have hlt : kk % 2 ^ (m + 2) < 2 ^ (m + 2) := Nat.mod_lt _ (by positivity)
  have hpar : kk % 2 ^ (m + 2) % 2 = 1 := (Nat.mod_mod_of_dvd kk (dvd_pow_self 2 (by omega))).trans hodd
  have hhalf : 2 ^ (m + 2) = 2 * 2 ^ (m + 1) := pow_succ' 2 (m + 1)
  have heven : 2 ^ (m + 1) = 2 * 2 ^ m := pow_succ' 2 m
  rw [show m + 2 - 1 = m + 1 by omega, IsWindowDigit, show m + 2 - 1 = m + 1 by omega]
  omega

/-- What is left of a scalar of at most `t + 1` windows is at most `t` windows (45_scalar_mul.md R234). -/
theorem quotient_le_of_odd {w t kk : Nat} (hw : 2 ≤ w) (hodd : kk % 2 = 1) (hle : kk ≤ 2 ^ ((w - 1) * (t + 1))) :
    2 * (kk / 2 ^ w) + 1 ≤ 2 ^ ((w - 1) * t) := by
  obtain ⟨m, rfl⟩ := Nat.exists_eq_add_of_le' hw
  have hlow : 1 ≤ kk % 2 ^ (m + 2) := by
    have hpar : kk % 2 ^ (m + 2) % 2 = 1 := (Nat.mod_mod_of_dvd kk (dvd_pow_self 2 (by omega))).trans hodd
    omega
  have hsplit := Nat.div_add_mod kk (2 ^ (m + 2))
  have hlt : 2 ^ (m + 1) * (2 * (kk / 2 ^ (m + 2))) < 2 ^ (m + 1) * 2 ^ ((m + 1) * t) := by
    calc 2 ^ (m + 1) * (2 * (kk / 2 ^ (m + 2))) = 2 ^ (m + 2) * (kk / 2 ^ (m + 2)) := by ring
      _ < kk := by omega
      _ ≤ 2 ^ ((m + 2 - 1) * (t + 1)) := hle
      _ = 2 ^ (m + 1) * 2 ^ ((m + 1) * t) := by rw [← pow_add, show m + 2 - 1 = m + 1 by omega]; congr 1; ring
  exact Nat.lt_of_mul_lt_mul_left hlt

/-- Every digit of an odd scalar of at most `t` windows is a window digit, and the one above the windows is 1 (45_scalar_mul.md R234). -/
theorem recode_digits {w t kk : Nat} (hw : 2 ≤ w) (hodd : kk % 2 = 1) (hle : kk ≤ 2 ^ ((w - 1) * t)) :
    (recode w t kk).getLast? = some 1 ∧ ∀ d ∈ recode w t kk, IsWindowDigit w d := by
  induction t generalizing kk with
  | zero =>
    obtain rfl : kk = 1 := by rw [mul_zero, pow_zero] at hle; omega
    have hone : IsWindowDigit w 1 := ⟨rfl, Nat.one_lt_two_pow (by omega)⟩
    exact ⟨rfl, fun d hd => List.mem_singleton.1 hd ▸ hone⟩
  | succ t ih =>
    obtain ⟨hlast, hdigits⟩ := ih (kk := 2 * (kk / 2 ^ w) + 1) (by omega) (quotient_le_of_odd hw hodd hle)
    rw [recode_succ (by omega)]
    refine ⟨?_, List.forall_mem_cons.2 ⟨isWindowDigit_of_odd hw hodd, hdigits⟩⟩
    rw [List.getLast?_cons, hlast, Option.getD_some]

/-- A scalar below `2^rbits` has at most `ceil(rbits / (w - 1))` windows (45_scalar_mul.md R232). -/
theorem le_two_pow_windows {w rbits kk : Nat} (hw : 2 ≤ w) (h : kk < 2 ^ rbits) : kk ≤ 2 ^ ((w - 1) * ceilDiv rbits (w - 1)) :=
  h.le.trans (Nat.pow_le_pow_right two_pos ((le_ceilDiv_iff (by omega)).1 le_rfl))

/-- Settles O45: the bounds by the windows left, the weighted sum by what each step takes off. -/
theorem recodeDigits : Obligations.RecodeDigits := by
  intro w rbits kk t hw hodd hlt ht
  obtain rfl : t = ceilDiv rbits (w - 1) := ht
  obtain ⟨hlast, hdigits⟩ := recode_digits hw hodd (le_two_pow_windows hw hlt)
  refine ⟨recode_length w _ kk, hlast, hdigits, ?_⟩
  rw [sum_zipIdx_eq, mul_zero, pow_zero, one_mul, weightedSum_recode (by omega)]

end Sys2Proof.Machine
end

section
/-! Scalar multiplication in a group: every step of it keeps the relation between stored points and group elements that the curve's
operations keep (45_scalar_mul.md R231 to R239). -/

namespace Sys2Proof.Machine

/-- A relation for table entries: affine points on a W-curve, projective points on a TED-curve (45_scalar_mul.md R235). -/
def Curve.entryRel {G : Type} (k : Curve) (proj aff : PReg → G → Prop) (e : PReg) (h : G) : Prop :=
  match k.type with
  | .weierstrass => aff e h
  | .twistedEdwards => proj e h

/-- The relations `proj` and `aff` between stored points and group elements are kept by the curve's operations (45_scalar_mul.md R239). -/
structure Curve.Respects {G : Type} [AddCommGroup G] (k : Curve) (W : Nat) (proj aff : PReg → G → Prop) : Prop where
  lift : ∀ e h, aff e h → proj (k.proj e) h
  dbl : ∀ a h, proj a h → proj (k.dbl W a) (h + h)
  add : ∀ a e h₁ h₂, proj a h₁ → k.entryRel proj aff e h₂ → proj (k.padd W a e) (h₁ + h₂)
  neg : ∀ a h, proj a h → proj (k.neg a) (-h)
  negCoords : ∀ e h, k.entryRel proj aff e h → k.entryRel proj aff (k.negCoords e) (-h)
  affine : ∀ a h, proj a h → aff (k.affine W a) h
  onc : ∀ e h, aff e h → aff { e with onc := true } h

/-- An affine point in the form the table holds. -/
def Curve.toEntry (k : Curve) (q : PReg) : PReg :=
  match k.type with
  | .weierstrass => q
  | .twistedEdwards => k.proj q

/-- A projective point in the form the table holds (45_scalar_mul.md R235). -/
def Curve.ofProj (k : Curve) (W : Nat) (a : PReg) : PReg :=
  match k.type with
  | .weierstrass => k.affine W a
  | .twistedEdwards => a

/-- A table entry as the projective operand of the operations (45_scalar_mul.md R235, R237). -/
def Curve.toProj (k : Curve) (e : PReg) : PReg :=
  match k.type with
  | .weierstrass => k.proj e
  | .twistedEdwards => e

/-- Every entry is the one before it plus the doubled point, on either family (45_scalar_mul.md R235). -/
theorem Curve.tableFrom_succ (k : Curve) (W : Nat) (d : PReg) (n : Nat) (prev : PReg) :
    k.tableFrom W d (n + 1) prev
      = k.ofProj W (k.padd W (k.toProj prev) d) :: k.tableFrom W d n (k.ofProj W (k.padd W (k.toProj prev) d)) := by
  cases ht : k.type <;> simp only [Curve.tableFrom, Curve.ofProj, Curve.toProj, Curve.padd, ht]

/-- The table starts with the point and goes on by its double, on either family (45_scalar_mul.md R235). -/
theorem Curve.table_eq (k : Curve) (W : Nat) (q : PReg) :
    k.table W q = k.toEntry q :: k.tableFrom W (k.ofProj W (k.dbl W (k.proj q))) (2 ^ (k.w - 2) - 1) (k.toEntry q) := by
  cases ht : k.type <;> simp only [Curve.table, Curve.ofProj, Curve.toEntry, Curve.dbl, ht]

theorem Curve.firstEntry_eq (k : Curve) (table : List PReg) (d : Int) : k.firstEntry table d = k.toProj (k.lookup table d) := by
  cases ht : k.type <;> simp only [Curve.firstEntry, Curve.toProj, ht]

section
variable {G : Type} [AddCommGroup G] {k : Curve} {W : Nat} {proj aff : PReg → G → Prop} (hr : k.Respects W proj aff)
include hr

theorem Curve.Respects.toEntry {q : PReg} {g : G} (h : aff q g) : k.entryRel proj aff (k.toEntry q) g := by
  unfold Curve.entryRel Curve.toEntry
  cases k.type
  · exact h
  · exact hr.lift q g h

theorem Curve.Respects.ofProj {a : PReg} {g : G} (h : proj a g) : k.entryRel proj aff (k.ofProj W a) g := by
  unfold Curve.entryRel Curve.ofProj
  cases k.type
  · exact hr.affine a g h
  · exact h

theorem Curve.Respects.toProj {e : PReg} {g : G} (h : k.entryRel proj aff e g) : proj (k.toProj e) g := by
  unfold Curve.entryRel at h
  unfold Curve.toProj
  cases ht : k.type <;> rw [ht] at h
  · exact hr.lift e g h
  · exact h

/-! ## The table -/

/-- The entries after one for `g` are those for `g + d`, `g + 2d` and so on (45_scalar_mul.md R235). -/
theorem Curve.Respects.tableFrom {d : PReg} {dg : G} (hd : k.entryRel proj aff d dg) {j n : Nat} (hj : j < n) {prev : PReg} {g : G}
    (hprev : k.entryRel proj aff prev g) : k.entryRel proj aff ((k.tableFrom W d n prev).getD j PReg.empty) (g + (j + 1) • dg) := by
  induction n generalizing j prev g with
  | zero => omega
  | succ n ih =>
    have hnext := hr.ofProj (hr.add _ _ _ _ (hr.toProj hprev) hd)
    rw [Curve.tableFrom_succ]
    cases j with
    | zero => simpa using hnext
    | succ j =>
      have hlater := ih (Nat.lt_of_succ_lt_succ hj) hnext
      rwa [List.getD_cons_succ, show g + (j + 1 + 1) • dg = g + dg + (j + 1) • dg by rw [succ_nsmul' dg (j + 1), add_assoc]]

/-- The table holds the odd multiples of the point (45_scalar_mul.md R235). -/
theorem Curve.Respects.table {q : PReg} {g : G} (hq : aff q g) {j : Nat} (hj : j < 2 ^ (k.w - 2)) :
    k.entryRel proj aff ((k.table W q).getD j PReg.empty) ((2 * j + 1) • g) := by
  have hfirst := hr.toEntry hq
  rw [Curve.table_eq]
  cases j with
  | zero => simpa using hfirst
  | succ j =>
    have hlater := hr.tableFrom (hr.ofProj (hr.dbl _ _ (hr.lift q g hq))) (show j < 2 ^ (k.w - 2) - 1 by omega) hfirst
    rwa [List.getD_cons_succ, show (2 * (j + 1) + 1) • g = g + (j + 1) • (g + g) by
      rw [← two_nsmul, ← mul_nsmul, succ_nsmul', mul_comm]]

/-- The look-up of a window digit gives its multiple of the point (45_scalar_mul.md R237). -/
theorem Curve.Respects.lookup {q : PReg} {g : G} (hq : aff q g) (hw : 2 ≤ k.w) {d : Int} (hd : IsWindowDigit k.w d) :
    k.entryRel proj aff (k.lookup (k.table W q) d) (d • g) := by
  obtain ⟨hodd, hlt⟩ := hd
  have hindex : 2 * ((d.natAbs - 1) / 2) + 1 = d.natAbs := by omega
  have hbound : (d.natAbs - 1) / 2 < 2 ^ (k.w - 2) := by
    rw [show k.w - 1 = k.w - 2 + 1 by omega, pow_succ] at hlt
    omega
  have hentry := hr.table hq hbound
  rw [hindex] at hentry
  unfold Curve.lookup
  split
  · next hneg =>
    have habs : d • g = -(d.natAbs • g) := by rw [← natCast_zsmul, Int.ofNat_natAbs_of_nonpos hneg.le, neg_smul, neg_neg]
    exact habs ▸ hr.negCoords _ _ hentry
  · next hpos => rwa [← natCast_zsmul, Int.natAbs_of_nonneg (not_lt.1 hpos)] at hentry

/-! ## The main loop -/

/-- `n` doublings multiply by `2^n` (45_scalar_mul.md R232). -/
theorem Curve.Respects.doublings (n : Nat) {a : PReg} {g : G} (ha : proj a g) : proj (k.doublings W n a) (2 ^ n • g) := by
  induction n generalizing a g with
  | zero => simpa [Curve.doublings] using ha
  | succ n ih =>
    have hnext := ih (hr.dbl a g ha)
    rwa [← two_nsmul, ← mul_nsmul', ← pow_succ] at hnext

/-- The main loop accumulates the digits below the top one (45_scalar_mul.md R232). -/
theorem Curve.Respects.mainLoop {q : PReg} {g : G} (hq : aff q g) (hw : 2 ≤ k.w) {ds : List Int}
    (hds : ∀ d ∈ ds, IsWindowDigit k.w d) {v : Int} {a : PReg} (ha : proj a (v • g)) :
    proj (k.mainLoop W (k.table W q) ds a) (ds.foldl (fun v d => 2 ^ (k.w - 1) * v + d) v • g) := by
  induction ds generalizing v a with
  | nil => exact ha
  | cons d ds ih =>
    obtain ⟨hd, hrest⟩ := List.forall_mem_cons.1 hds
    have hnext := hr.add _ _ _ _ (hr.doublings (k.w - 1) ha) (hr.lookup hq hw hd)
    have hweight : (2 ^ (k.w - 1) : Int) • v • g = 2 ^ (k.w - 1) • v • g := by
      exact_mod_cast natCast_zsmul (v • g) (2 ^ (k.w - 1))
    refine ih hrest ?_
    rwa [add_smul, mul_smul, hweight]

/-- Look-up and main loop over the recoded digits of `kk` give `[kk]g` (45_scalar_mul.md R232). -/
theorem Curve.Respects.loop_recode {q : PReg} {g : G} (hq : aff q g) (hw : 2 ≤ k.w) {t kk : Nat} {top : Int} {rest : List Int}
    (hodd : kk % 2 = 1) (hle : kk ≤ 2 ^ ((k.w - 1) * t)) (hds : (recode k.w t kk).reverse = top :: rest) :
    proj (k.mainLoop W (k.table W q) rest (k.firstEntry (k.table W q) top)) (kk • g) := by
  obtain ⟨-, hdigits⟩ := recode_digits hw hodd hle
  have hall : ∀ d ∈ top :: rest, IsWindowDigit k.w d := fun d hd => hdigits d (List.mem_reverse.1 (hds ▸ hd))
  obtain ⟨htop, hrest⟩ := List.forall_mem_cons.1 hall
  have hloop := hr.mainLoop hq hw hrest (hr.toProj (hr.lookup hq hw htop))
  rwa [← weightedSum_of_reverse hds, weightedSum_recode (by omega), natCast_zsmul, ← Curve.firstEntry_eq] at hloop

end

/-! ## The scalar and the curve -/

theorem oddScalar_of_odd {n : Nat} (order : Nat) (h : n % 2 = 1) : oddScalar order n = n := by simp [oddScalar, sel, h]

theorem oddScalar_of_even {n : Nat} (order : Nat) (h : n % 2 = 0) : oddScalar order n = order - n := by simp [oddScalar, sel, h]

/-- The parity step gives an odd scalar when the order is odd (45_scalar_mul.md R233). -/
theorem oddScalar_odd {order n : Nat} (ho : order % 2 = 1) (hn : n < order) : oddScalar order n % 2 = 1 := by
  rcases Nat.mod_two_eq_zero_or_one n with h | h
  · rw [oddScalar_of_even _ h]
    omega
  · rwa [oddScalar_of_odd _ h]

theorem oddScalar_le {order n : Nat} (hn : n < order) : oddScalar order n ≤ order := by
  rcases Nat.mod_two_eq_zero_or_one n with h | h
  · rw [oddScalar_of_even _ h]
    omega
  · rw [oddScalar_of_odd _ h]
    exact hn.le

theorem Curve.Ok.two_le_w {W : Nat} {k : Curve} (hk : k.Ok W) : 2 ≤ k.w := by
  rw [hk.w]
  split <;> decide

/-- The order of an installed curve has at most `rbits` bits (43_curve_point_forms.md R171). -/
theorem Curve.Ok.order_lt {W : Nat} {k : Curve} (hk : k.Ok W) : k.order < 2 ^ k.rbits := by
  have hbits := hk.rbits
  rw [← bitlen_le_iff]
  split at hbits
  · exact hbits.ge
  · exact hbits.1

/-- The scalar that is recoded fits the windows (45_scalar_mul.md R232, R233). -/
theorem Curve.Ok.oddScalar_le_windows {W : Nat} {k : Curve} (hk : k.Ok W) {n : Nat} (hn : n < k.order) :
    oddScalar k.order n ≤ 2 ^ ((k.w - 1) * k.windows) :=
  le_two_pow_windows hk.two_le_w ((oddScalar_le hn).trans_lt hk.order_lt)

/-- The digits of the recoding from the top down: there is a top one (45_scalar_mul.md R234). -/
theorem exists_recode_reverse (w t kk : Nat) : ∃ top rest, (recode w t kk).reverse = top :: rest :=
  List.exists_cons_of_ne_nil (mt List.reverse_eq_nil_iff.1 (recode_ne_nil w t kk))

theorem Curve.smul_of_inf (k : Curve) (W n : Nat) {q : PReg} (hi : q.inf = true) : k.smul W n q = k.affineIdentity true true := if_pos hi

/-- `smul` of a finite point is its main loop, the correction for an even scalar, and the affine form (45_scalar_mul.md R232, R238). -/
theorem Curve.smul_of_finite {k : Curve} {W n : Nat} {q a : PReg} {top : Int} {rest : List Int} (hi : q.inf = false)
    (hds : (recode k.w k.windows (oddScalar k.order n)).reverse = top :: rest)
    (ha : k.mainLoop W (k.table W q) rest (k.firstEntry (k.table W q) top) = a) :
    k.smul W n q = { k.affine W (if n % 2 = 0 then k.neg a else a) with onc := true } := by
  rw [Curve.smul, if_neg (Bool.eq_false_iff.1 hi), hds, ← ha]

/-- The result represents the multiple that the main loop computed, negated for an even scalar (45_scalar_mul.md R231, R233). -/
theorem Curve.Respects.smul {G : Type} [AddCommGroup G] {k : Curve} {W : Nat} {proj aff : PReg → G → Prop} (hr : k.Respects W proj aff)
    (hk : k.Ok W) {q : PReg} {g : G} (hq : aff q g) (hi : q.inf = false) {n : Nat} (hn : n < k.order) :
    aff (k.smul W n q) (if n % 2 = 0 then -((k.order - n) • g) else n • g) := by
  obtain ⟨-, horder, -⟩ := hk.order
  obtain ⟨top, rest, hds⟩ := exists_recode_reverse k.w k.windows (oddScalar k.order n)
  have hloop := hr.loop_recode hq hk.two_le_w (oddScalar_odd horder hn) (hk.oddScalar_le_windows hn) hds
  rw [Curve.smul_of_finite hi hds rfl]
  split
  · next heven =>
    rw [oddScalar_of_even _ heven] at hloop
    exact hr.onc _ _ (hr.affine _ _ (hr.neg _ _ hloop))
  · next hodd =>
    rw [oddScalar_of_odd _ (Nat.mod_two_ne_zero.1 hodd)] at hloop
    exact hr.onc _ _ (hr.affine _ _ hloop)

/-- Settles O44: the steps keep the relation, and `-[order - n]g` is `[n]g` in a group where `[order]g = 0`. -/
theorem smulGroup : Obligations.SmulGroup := by
  intro G _ W k proj aff q g n hk hlift hdbl hadd hneg hnegCoords haffine honc hq hi _ hn
  have hr : k.Respects W proj aff := ⟨hlift, hdbl, hadd, hneg, hnegCoords, haffine, honc⟩
  have hres := hr.smul hk hq hi hn
  refine ⟨fun h => ?_, fun h => ?_, fun hzero => ?_⟩
  · rwa [if_neg (by omega)] at hres
  · rwa [if_pos h] at hres
  · have hsum : (k.order - n) • g + n • g = 0 := by rw [← add_nsmul, Nat.sub_add_cancel hn.le, hzero]
    rwa [neg_eq_of_add_eq_zero_right hsum, ite_self] at hres

end Sys2Proof.Machine
end

section
/-! How `SMUL` ends: its checks in their order, and the form of the point it writes (45_scalar_mul.md R231, R238, 60_exceptions.md R254). -/

namespace Sys2Proof.Machine

/-- The affine form of any point: only `x`, `y` and `inf` depend on its coordinates (43_curve_point_forms.md R193). -/
theorem Curve.exists_affine_eq (k : Curve) (W : Nat) (q : PReg) :
    ∃ x y inf, k.affine W q = ⟨true, x, y, 0, 0, 0, false, false, inf, true, q.onc⟩ := by
  by_cases h : k.type = .weierstrass ∧ q.inf = true
  · obtain ⟨ht, hi⟩ := h
    exact ⟨_, _, _, Curve.affine_of_inf W ht hi⟩
  · exact ⟨_, _, _, Curve.affine_of_finite W fun ht => Bool.eq_false_iff.2 fun hi => h ⟨ht, hi⟩⟩

/-- The result of `smul` is an affine point in Montgomery form with `onc = 1` (45_scalar_mul.md R231, R238). -/
theorem Curve.exists_smul_eq (k : Curve) (W n : Nat) (q : PReg) :
    ∃ x y inf, k.smul W n q = ⟨true, x, y, 0, 0, 0, false, false, inf, true, true⟩ := by
  cases hi : q.inf with
  | true => exact ⟨_, _, _, k.smul_of_inf W n hi⟩
  | false =>
    obtain ⟨top, rest, hds⟩ := exists_recode_reverse k.w k.windows (oddScalar k.order n)
    rw [Curve.smul_of_finite hi hds rfl]
    obtain ⟨x, y, inf, haffine⟩ := k.exists_affine_eq W _
    exact ⟨x, y, inf, by rw [haffine]⟩

/-- `SMUL` of a valid point and a held scalar (45_scalar_mul.md R231). -/
theorem exec_smul_eq {s : State} {k : Curve} (hk : s.crv = k) (hv : k.valid = true) {ps : PSel} {q : PReg} (hq : s.p[ps] = q)
    (hqv : q.valid = true) {bk : BSel} {ln n : Nat} (hb : s.holds bk ln n) (pd : PSel) :
    exec (.smul pd ps bk) s =
      if q.hasZ || !q.mont then .next (s.faulted 0x08)
      else if !q.onc then .next (s.faulted 0x10)
      else if n < 1 ∨ k.order ≤ n then .next (s.faulted 0x09)
      else .next (s.writeP pd (k.smul s.W n q)).done := by
  rw [exec, execSmul, State.finish_readCrv hk hv, State.finish_readP hq hqv, State.finish_read hb, State.finish_raise, State.finish_raise,
    State.finish_check]
  rfl

/-- Settles O43: the three checks in their order, and the form invariants of the affine result. -/
theorem smulResult : Obligations.SmulResult := by
  intro pd ps bk s k q ln n hk hok hq hqv hb
  have hrun := exec_smul_eq hk hok.valid hq hqv hb pd
  refine ⟨fun hform => ?_, fun hz hm ho => ?_, fun hz hm ho hrange => ?_, fun hz hm ho hpos hlt => ?_⟩
  · rw [hrun, if_pos (by simpa using hform)]
  · rw [hrun, if_neg (by simp [hz, hm]), if_pos (by simp [ho])]
  · rw [hrun, if_neg (by simp [hz, hm]), if_neg (by simp [ho]), if_pos (by omega)]
  · obtain ⟨x, y, inf, hres⟩ := k.exists_smul_eq s.W n q
    have hresOk := hok.smul_ok n q
    have hinf : q.inf = true → inf = true := fun hi => congrArg PReg.inf (hres.symm.trans (k.smul_of_inf s.W n hi))
    rw [hres] at hresOk
    refine ⟨x, y, inf, ?_, hresOk.coord_x.2 rfl, hresOk.coord_y.2 rfl, hres, fun ht hi => hresOk.affineInf ht rfl hi,
      fun ht hi => ?_, hinf⟩
    · rw [hrun, if_neg (by simp [hz, hm]), if_neg (by simp [ho]), if_neg (by omega), hres]
    · obtain ⟨-, hx, hy⟩ := hresOk.twistedInf ht hi
      exact ⟨hx, hy⟩

end Sys2Proof.Machine
end

section
/-! The traced scalar multiplication: its masked table scan finds the entry of the digit, and every part returns the value the definition
of `smul` gives it (45_scalar_mul.md R232 to R238). -/

namespace Sys2Proof.Machine

/-! ## The masked scan -/

/-- An entry whose mask is 0 leaves the accumulator as it is (45_scalar_mul.md R237). -/
@[simp] theorem PReg.orMasked_false (acc t : PReg) : acc.orMasked t false = acc := by simp [PReg.orMasked, sel]

/-- The entry whose mask is all ones is taken over by the empty accumulator (45_scalar_mul.md R237). -/
@[simp] theorem PReg.empty_orMasked_true (t : PReg) : PReg.empty.orMasked t true = t := by simp [PReg.orMasked, PReg.empty, sel]

theorem scanPoints_cons_value (idx : Nat) (t : PReg) (ts : List PReg) (j : Nat) (ent : PReg) :
    (scanPoints idx (t :: ts) j ent).value = (scanPoints idx ts (j + 1) (ent.orMasked t (j == idx))).value := rfl

/-- Past the index the scan keeps what it has found (45_scalar_mul.md R237). -/
theorem scanPoints_value_past {idx j : Nat} (h : idx < j) (ts : List PReg) (ent : PReg) : (scanPoints idx ts j ent).value = ent := by
  induction ts generalizing j ent with
  | nil => rfl
  | cons t ts ih => rw [scanPoints_cons_value, beq_false_of_ne h.ne', PReg.orMasked_false, ih (h.trans j.lt_succ_self)]

/-- Up to the index the scan finds nothing, there it takes the entry over (45_scalar_mul.md R237). -/
theorem scanPoints_value_from {idx j : Nat} (h : j ≤ idx) (ts : List PReg) :
    (scanPoints idx ts j PReg.empty).value = ts.getD (idx - j) PReg.empty := by
  induction ts generalizing j with
  | nil => rfl
  | cons t ts ih =>
    rw [scanPoints_cons_value]
    rcases h.eq_or_lt with rfl | hlt
    · rw [beq_self_eq_true, PReg.empty_orMasked_true, scanPoints_value_past j.lt_succ_self, Nat.sub_self, List.getD_cons_zero]
    · rw [beq_false_of_ne hlt.ne, PReg.orMasked_false, ih hlt, show idx - j = idx - (j + 1) + 1 by omega, List.getD_cons_succ]

/-- The scan of the whole table returns the entry at the index (45_scalar_mul.md R237). -/
theorem scanPoints_value (idx : Nat) (ts : List PReg) : (scanPoints idx ts 0 PReg.empty).value = ts.getD idx PReg.empty :=
  scanPoints_value_from idx.zero_le ts

/-- The scan reads the entries one after another, whatever the index (45_scalar_mul.md R237). -/
theorem scanPoints_tableReads (idx : Nat) (ts : List PReg) (j : Nat) (ent : PReg) :
    (scanPoints idx ts j ent).trace.filter LeakOp.isTableRead = (List.range' j ts.length).map .tableRead := by
  induction ts generalizing j ent with
  | nil => rfl
  | cons t ts ih =>
    simp only [scanPoints, Traced.trace_bind, observe_trace, List.filter_append, ih, List.length_cons, List.range'_succ, List.map_cons]
    rfl

/-- Negation is field arithmetic alone (45_scalar_mul.md R237). -/
theorem negCoordsT_tableReads (k : Curve) (W : Nat) (withT : Bool) (q : PReg) :
    (k.negCoordsT W withT q).trace.filter LeakOp.isTableRead = [] := by
  have hiter : ∀ n, (List.replicate n LeakOp.iter).filter LeakOp.isTableRead = [] := fun n =>
    List.filter_replicate_of_neg Bool.false_ne_true
  cases ht : k.type with
  | weierstrass => simp [Curve.negCoordsT, ht, hiter]
  | twistedEdwards => cases withT <;> simp [Curve.negCoordsT, ht, hiter]

@[simp] theorem lookupT_value (k : Curve) (W : Nat) (table : List PReg) (d : Int) : (k.lookupT W table d).value = k.lookup table d := by
  simp only [Curve.lookupT, Traced.value_bind, scanPoints_value, negCoordsT_value, Traced.value_pure, Curve.lookup]

/-- A look-up reads every entry of the table once, in order (45_scalar_mul.md R237). -/
theorem lookupT_tableReads (k : Curve) (W : Nat) (table : List PReg) (d : Int) :
    (k.lookupT W table d).trace.filter LeakOp.isTableRead = (List.range table.length).map .tableRead := by
  simp only [Curve.lookupT, Traced.trace_bind, List.filter_append, scanPoints_tableReads, negCoordsT_tableReads, Traced.trace_pure,
    List.append_nil, List.range_eq_range']

/-! ## The parts of `smul` -/

@[simp] theorem tableFromT_value (k : Curve) (W : Nat) (d : PReg) (n j : Nat) (prev : PReg) :
    (k.tableFromT W d n j prev).value = k.tableFrom W d n prev := by
  induction n generalizing j prev with
  | zero => rfl
  | succ n ih => cases ht : k.type <;> simp [Curve.tableFromT, Curve.tableFrom, Curve.padd, ht, ih]

@[simp] theorem tableT_value (k : Curve) (W : Nat) (q : PReg) : (k.tableT W q).value = k.table W q := by
  cases ht : k.type <;> simp [Curve.tableT, Curve.table, Curve.dbl, ht]

@[simp] theorem doublingsT_value (k : Curve) (W n : Nat) (a : PReg) : (k.doublingsT W n a).value = k.doublings W n a := by
  induction n generalizing a with
  | zero => rfl
  | succ n ih => simp [Curve.doublingsT, Curve.doublings, ih]

@[simp] theorem mainLoopT_value (k : Curve) (W : Nat) (table : List PReg) (ds : List Int) (a : PReg) :
    (k.mainLoopT W table ds a).value = k.mainLoop W table ds a := by
  induction ds generalizing a with
  | nil => rfl
  | cons d ds ih => simp [Curve.mainLoopT, Curve.mainLoop, ih]

@[simp] theorem oddScalarT_value (W n scalar : Nat) : (oddScalarT W n scalar).value = oddScalar n scalar := rfl

@[simp] theorem recodeT_value (w t kk : Nat) : (recodeT w t kk).value = recode w t kk := rfl

@[simp] theorem smulEndT_value (k : Curve) (W scalar : Nat) (a : PReg) :
    (k.smulEndT W scalar a).value = { k.affine W (if scalar % 2 = 0 then k.neg a else a) with onc := true } := by
  simp only [Curve.smulEndT, Traced.value_bind, affineT_value, Traced.value_pure]

/-- The traced scalar multiplication returns the value of the definition (45_scalar_mul.md R232). -/
@[simp] theorem smulT_value (k : Curve) (W n : Nat) (q : PReg) : (k.smulT W n q).value = k.smul W n q := by
  cases hi : q.inf with
  | true => rw [k.smul_of_inf W n hi, Curve.smulT, if_pos hi, Traced.value_bind, Traced.value_pure]
  | false =>
    obtain ⟨top, rest, hds⟩ := exists_recode_reverse k.w k.windows (oddScalar k.order n)
    rw [Curve.smul_of_finite hi hds rfl, Curve.smulT, if_neg (Bool.eq_false_iff.1 hi)]
    cases ht : k.type <;>
      simp only [Traced.value_bind, oddScalarT_value, recodeT_value, tableT_value, hds, lookupT_value, mainLoopT_value, smulEndT_value,
        Curve.firstEntry, ht]

end Sys2Proof.Machine
end

section
/-! Every command ends as its run through the datapath ends (10_state.md R38): the run performs the checks and the writes of the command's
effect in their order, and each loop between them returns the value the effect uses. -/

namespace Sys2Proof.Machine

/-! ## Values of the shared parts of a run -/

@[simp] theorem Effect.pure_eq_ok {α : Type} (a : α) : (pure a : Effect α) = .ok a := rfl

theorem Effect.map_eq_bind {α β : Type} (f : α → β) (x : Effect α) : x.map f = x >>= fun a => .ok (f a) := by cases x <;> rfl

@[simp] theorem Run.value_ite {α : Type} (c : Prop) [Decidable c] (x y : Run α) :
    (if c then x else y).value = if c then x.value else y.value := apply_ite Run.value c x y

@[simp] theorem pointT_value (s : State) (ps : PSel) :
    (s.pointT ps).value = s.readCrv >>= fun k => s.readP ps >>= fun q => .ok (k, q) := by
  simp [State.pointT]

@[simp] theorem residueOperandT_value (s : State) (c : CSel) (ba : BSel) :
    (s.residueOperandT c ba).value = s.readC c >>= fun k => s.readB ba >>= fun ra => residue k ra >>= fun a => .ok (k, a) := by
  simp [State.residueOperandT]

@[simp] theorem residuesT_value (s : State) (c : CSel) (ba bb : BSel) :
    (s.residuesT c ba bb).value = s.readC c >>= fun k => s.readB ba >>= fun ra => s.readB bb >>= fun rb =>
      residue k ra >>= fun a => residue k rb >>= fun b => .ok (k, a, b) := by
  simp [State.residuesT]

/-- Two checks with one code are one check (60_exceptions.md R254). -/
theorem raiseIf_or_bind {α : Type} (a b : Bool) (e : ErrCode) (f : Unit → Effect α) :
    (raiseIf (a || b) e >>= f) = raiseIf a e >>= fun _ => raiseIf b e >>= f := by
  cases a <;> rfl

section
variable (s : State)

/-! ## The digit-array commands (40_digit_array.md) -/

theorem exec_ldb_eq_run (bd : BSel) (off lenm1 : Imm10) : exec (.ldb bd off lenm1) s = s.finish (ldbT bd off lenm1 s).value :=
  congrArg s.finish (by simp [ldbT])

theorem exec_stb_eq_run (bs : BSel) (off lenm1 : Imm10) : exec (.stb bs off lenm1) s = s.finish (stbT bs off lenm1 s).value :=
  congrArg s.finish (by simp [stbT])

theorem exec_mov_eq_run (bd bs : BSel) : exec (.mov bd bs) s = s.finish (movT bd bs s).value :=
  congrArg s.finish (by simp [movT])

theorem exec_clr_eq_run (bd : BSel) : exec (.clr bd) s = s.finish (s.writeBT bd 1 0).value := rfl

theorem exec_norm_eq_run (bd bs : BSel) : exec (.norm bd bs) s = s.finish (normT bd bs s).value :=
  congrArg s.finish (by simp [normT])

theorem exec_cmp_eq_run (ba bb : BSel) : exec (.cmp ba bb) s = s.finish (cmpT ba bb s).value :=
  congrArg s.finish (by simp [cmpT])

theorem exec_add_eq_run (bd ba bb : BSel) : exec (.add bd ba bb) s = s.finish (addT bd ba bb s).value :=
  congrArg s.finish (by simp [addT])

theorem exec_sub_eq_run (bd ba bb : BSel) : exec (.sub bd ba bb) s = s.finish (subT bd ba bb s).value :=
  congrArg s.finish (by simp [subT])

theorem exec_mul_eq_run (bd ba bb : BSel) : exec (.mul bd ba bb) s = s.finish (mulT bd ba bb s).value :=
  congrArg s.finish (by simp [mulT])

theorem exec_divrem_eq_run (bq br ba bb : BSel) : exec (.divrem bq br ba bb) s = s.finish (divremT bq br ba bb s).value :=
  congrArg s.finish (by simp [divremT])

/-! ## The context commands (41_montgomery.md) -/

theorem exec_ctxnew_eq_run (c : CSel) (bs : BSel) : exec (.ctxnew c bs) s = s.finish (ctxnewT c bs s).value :=
  congrArg s.finish (by simp [ctxnewT])

theorem exec_montmul_eq_run (bd ba bb : BSel) (c : CSel) : exec (.montmul bd ba bb c) s = s.finish (montmulT bd ba bb c s).value :=
  congrArg s.finish (by simp [montmulT])

theorem exec_tomont_eq_run (bd bs : BSel) (c : CSel) : exec (.tomont bd bs c) s = s.finish (tomontT bd bs c s).value :=
  congrArg s.finish (by simp [tomontT])

theorem exec_frommont_eq_run (bd bs : BSel) (c : CSel) : exec (.frommont bd bs c) s = s.finish (frommontT bd bs c s).value :=
  congrArg s.finish (by simp [frommontT])

theorem exec_modexp_eq_run (bd base expo : BSel) (c : CSel) : exec (.modexp bd base expo c) s = s.finish (modexpT bd base expo c s).value :=
  congrArg s.finish (by simp [modexpT])

theorem exec_bred_eq_run (bd bs : BSel) (c : CSel) : exec (.bred bd bs c) s = s.finish (bredT bd bs c s).value :=
  congrArg s.finish (by simp [bredT])

theorem exec_ctxget_eq_run (bd : BSel) (c : CSel) (field : CtxField) :
    exec (.ctxget bd c field) s = s.finish (ctxgetT bd c field s).value :=
  congrArg s.finish (by simp [ctxgetT])

/-! ## Inversion and the integer group (42_inversion_group.md) -/

/-- The run's branch on the sign of the cofactor is a choice of the value in the definition (42_inversion_group.md R151). -/
theorem exec_modinv_eq_run (bd ba bn : BSel) : exec (.modinv bd ba bn) s = s.finish (modinvT bd ba bn s).value :=
  congrArg s.finish (by simp [modinvT, apply_ite])

theorem exec_modinvct_eq_run (bd bs : BSel) (c : CSel) : exec (.modinvct bd bs c) s = s.finish (modinvctT bd bs c s).value :=
  congrArg s.finish (by simp [modinvctT])

theorem exec_gcd_eq_run (bd ba bb : BSel) : exec (.gcd bd ba bb) s = s.finish (gcdT bd ba bb s).value :=
  congrArg s.finish (by simp [gcdT])

theorem exec_modadd_eq_run (bd ba bb : BSel) (c : CSel) : exec (.modadd bd ba bb c) s = s.finish (modaddT bd ba bb c s).value :=
  congrArg s.finish (by simp [modaddT])

theorem exec_modsub_eq_run (bd ba bb : BSel) (c : CSel) : exec (.modsub bd ba bb c) s = s.finish (modsubT bd ba bb c s).value :=
  congrArg s.finish (by simp [modsubT])

theorem exec_modmul_eq_run (bd ba bb : BSel) (c : CSel) : exec (.modmul bd ba bb c) s = s.finish (modmulT bd ba bb c s).value :=
  congrArg s.finish (by simp [modmulT])

/-! ## Curves and point forms (43_curve_point_forms.md) -/

/-- The seventh register of the run is read on a TED-curve only (43_curve_point_forms.md R171). -/
theorem exec_crvnew_eq_run (first : BSel) (type : Imm8) : exec (.crvnew first type) s = s.finish (crvnewT first type s).value :=
  congrArg s.finish (by
    simp only [crvnewT, Run.value_bind, require_value]
    refine bind_congr fun t => ?_
    cases t <;> simp [Effect.map_eq_bind])

theorem exec_crvld_eq_run (id : Imm8) : exec (.crvld id) s = s.finish (crvldT id s).value :=
  congrArg s.finish (by simp [crvldT])

theorem exec_crvget_eq_run (bd : BSel) (field : CrvField) : exec (.crvget bd field) s = s.finish (crvgetT bd field s).value :=
  congrArg s.finish (by simp [crvgetT])

theorem exec_pset_eq_run (pd : PSel) (xb yb : BSel) : exec (.pset pd xb yb) s = s.finish (psetT pd xb yb s).value :=
  congrArg s.finish (by simp [psetT])

theorem exec_pget_eq_run (bd : BSel) (ps : PSel) (field : PtField) : exec (.pget bd ps field) s = s.finish (pgetT bd ps field s).value :=
  congrArg s.finish (by simp [pgetT])

theorem exec_pgen_eq_run (pd : PSel) : exec (.pgen pd) s = s.finish (makePointT pd (fun k => affinePoint k.gx k.gy false false) s).value :=
  congrArg s.finish (by simp [makePointT])

theorem exec_pinf_eq_run (pd : PSel) : exec (.pinf pd) s = s.finish (makePointT pd (fun k => k.affineIdentity false true) s).value :=
  congrArg s.finish (by simp [makePointT])

theorem exec_pmov_eq_run (pd ps : PSel) : exec (.pmov pd ps) s = s.finish (pmovT pd ps s).value :=
  congrArg s.finish (by simp [pmovT])

theorem exec_pclr_eq_run (pd : PSel) : exec (.pclr pd) s = s.finish (s.writePT pd PReg.empty).value := rfl

theorem exec_ptomont_eq_run (pd ps : PSel) : exec (.ptomont pd ps) s = s.finish (ptomontT pd ps s).value :=
  congrArg s.finish (by simp [ptomontT])

theorem exec_pfrommont_eq_run (pd ps : PSel) : exec (.pfrommont pd ps) s = s.finish (pfrommontT pd ps s).value :=
  congrArg s.finish (by simp [pfrommontT])

theorem exec_ptoproj_eq_run (pd ps : PSel) : exec (.ptoproj pd ps) s = s.finish (ptoprojT pd ps s).value :=
  congrArg s.finish (by simp [ptoprojT])

theorem exec_ptoaff_eq_run (pd ps : PSel) : exec (.ptoaff pd ps) s = s.finish (ptoaffT pd ps s).value :=
  congrArg s.finish (by simp [ptoaffT])

theorem exec_pval_eq_run (ps : PSel) : exec (.pval ps) s = s.finish (pvalT ps s).value :=
  congrArg s.finish (by simp [pvalT])

theorem exec_penc_eq_run (ps : PSel) (off lenm1 : Imm10) : exec (.penc ps off lenm1) s = s.finish (pencT ps off lenm1 s).value :=
  congrArg s.finish (by simp [pencT])

theorem exec_pdec_eq_run (pd : PSel) (off lenm1 : Imm10) : exec (.pdec pd off lenm1) s = s.finish (pdecT pd off lenm1 s).value :=
  congrArg s.finish (by simp [pdecT])

/-! ## Point arithmetic and scalar multiplication (44_point_arith.md, 45_scalar_mul.md) -/

theorem exec_pdbl_eq_run (pd ps : PSel) : exec (.pdbl pd ps) s = s.finish (pdblT pd ps s).value :=
  congrArg s.finish (by simp [pdblT])

theorem exec_padd_eq_run (pd pa pb : PSel) : exec (.padd pd pa pb) s = s.finish (paddT pd pa pb s).value :=
  congrArg s.finish (by simp [paddT])

/-- The run's copy of a flagged identity is the choice inside `neg` (44_point_arith.md R218). -/
theorem exec_pneg_eq_run (pd ps : PSel) : exec (.pneg pd ps) s = s.finish (pnegT pd ps s).value :=
  congrArg s.finish (by simp [pnegT, Curve.neg, apply_ite])

/-- The run decides `k < 1` and `k < order` one after the other (45_scalar_mul.md R231). -/
theorem exec_smul_eq_run (pd ps : PSel) (bk : BSel) : exec (.smul pd ps bk) s = s.finish (smulCommandT pd ps bk s).value :=
  congrArg s.finish (by simp [smulCommandT, raiseIf_or_bind])

end

/-- Every command ends as its run (10_state.md R38). -/
theorem exec_eq_run (s : State) : ∀ i : Instr, exec i s = s.finish (commandT i s).value
  | .ldb bd off lenm1 => exec_ldb_eq_run s bd off lenm1
  | .stb bs off lenm1 => exec_stb_eq_run s bs off lenm1
  | .mov bd bs => exec_mov_eq_run s bd bs
  | .clr bd => exec_clr_eq_run s bd
  | .norm bd bs => exec_norm_eq_run s bd bs
  | .cmp ba bb => exec_cmp_eq_run s ba bb
  | .add bd ba bb => exec_add_eq_run s bd ba bb
  | .sub bd ba bb => exec_sub_eq_run s bd ba bb
  | .mul bd ba bb => exec_mul_eq_run s bd ba bb
  | .divrem bq br ba bb => exec_divrem_eq_run s bq br ba bb
  | .ctxnew c bs => exec_ctxnew_eq_run s c bs
  | .montmul bd ba bb c => exec_montmul_eq_run s bd ba bb c
  | .tomont bd bs c => exec_tomont_eq_run s bd bs c
  | .frommont bd bs c => exec_frommont_eq_run s bd bs c
  | .modexp bd base expo c => exec_modexp_eq_run s bd base expo c
  | .bred bd bs c => exec_bred_eq_run s bd bs c
  | .ctxget bd c field => exec_ctxget_eq_run s bd c field
  | .modinv bd ba bn => exec_modinv_eq_run s bd ba bn
  | .modinvct bd bs c => exec_modinvct_eq_run s bd bs c
  | .gcd bd ba bb => exec_gcd_eq_run s bd ba bb
  | .modadd bd ba bb c => exec_modadd_eq_run s bd ba bb c
  | .modsub bd ba bb c => exec_modsub_eq_run s bd ba bb c
  | .modmul bd ba bb c => exec_modmul_eq_run s bd ba bb c
  | .crvnew first type => exec_crvnew_eq_run s first type
  | .crvld id => exec_crvld_eq_run s id
  | .crvget bd field => exec_crvget_eq_run s bd field
  | .pset pd xb yb => exec_pset_eq_run s pd xb yb
  | .pget bd ps field => exec_pget_eq_run s bd ps field
  | .pgen pd => exec_pgen_eq_run s pd
  | .pinf pd => exec_pinf_eq_run s pd
  | .pmov pd ps => exec_pmov_eq_run s pd ps
  | .pclr pd => exec_pclr_eq_run s pd
  | .ptomont pd ps => exec_ptomont_eq_run s pd ps
  | .pfrommont pd ps => exec_pfrommont_eq_run s pd ps
  | .ptoproj pd ps => exec_ptoproj_eq_run s pd ps
  | .ptoaff pd ps => exec_ptoaff_eq_run s pd ps
  | .pval ps => exec_pval_eq_run s ps
  | .penc ps off lenm1 => exec_penc_eq_run s ps off lenm1
  | .pdec pd off lenm1 => exec_pdec_eq_run s pd off lenm1
  | .pdbl pd ps => exec_pdbl_eq_run s pd ps
  | .padd pd pa pb => exec_padd_eq_run s pd pa pb
  | .pneg pd ps => exec_pneg_eq_run s pd ps
  | .smul pd ps bk => exec_smul_eq_run s pd ps bk

/-- Settles O52: the value and the table reads of the traced scalar multiplication, and the end of every command's run. -/
theorem smulDatapath : Obligations.SmulDatapath :=
  ⟨fun W k n q => ⟨smulT_value k W n q, fun table e => ⟨lookupT_value k W table e, lookupT_tableReads k W table e⟩⟩,
    fun i s => exec_eq_run s i⟩

end Sys2Proof.Machine
end

section
/-! After a fault the core waits for the reset wire: the host's other accesses reach neither the status nor a register
(60_exceptions.md R262, R263). -/

namespace Sys2Proof.Machine

/-- A run of steps that each give a next state and keep a property gives a next state with the property. -/
theorem run_of_steps {P : State → Prop} (hstep : ∀ s, P s → ∃ t, step s = .next t ∧ P t) :
    ∀ (n : Nat) (s : State), P s → ∃ t, Host.Core.run core n s = .next t ∧ P t
  | 0, s, hs => ⟨s, rfl, hs⟩
  | n + 1, s, hs => by
    obtain ⟨t, hnext, ht⟩ := hstep s hs
    obtain ⟨t', hrun, ht'⟩ := run_of_steps hstep n t ht
    have hcore : core.step s = .next t := hnext
    refine ⟨t', ?_, ht'⟩
    simp only [Host.Core.run, hcore]
    exact hrun

/-- In `t` the status, the fault registers and the register files are those of `s`, and the host has no reset pending. -/
structure State.HeldIn (s t : State) : Prop where
  status : t.status = s.status
  faultCode : t.faultCode = s.faultCode
  faultCmd : t.faultCmd = s.faultCmd
  b : t.b = s.b
  p : t.p = s.p
  c : t.c = s.c
  crv : t.crv = s.crv
  noReset : ∀ op ∈ t.host, op.access ≠ .reset

section
variable {s t : State} (h : s.HeldIn t) (hfault : s.status.fault = true)
include h hfault

/-- A faulted core ignores a command word, and the host's other accesses but the reset wire change the buffer or the data read
(60_exceptions.md R262). -/
theorem State.HeldIn.hostAccess {a : HostAccess} (ha : a ≠ .reset) : s.HeldIn (t.hostAccess a) := by
  cases a with
  | writeReg word data =>
    have hignored : t.hostAccess (.writeReg word data) = t :=
      if_neg fun ⟨_, _, hf⟩ => Bool.false_ne_true (hf.symm.trans (h.status ▸ hfault))
    rwa [hignored]
  | readReg word => exact ⟨h.status, h.faultCode, h.faultCmd, h.b, h.p, h.c, h.crv, h.noReset⟩
  | writeIob k data =>
    rw [State.hostAccess]
    split
    · exact h
    · exact ⟨h.status, h.faultCode, h.faultCmd, h.b, h.p, h.c, h.crv, h.noReset⟩
  | readIob k =>
    rw [State.hostAccess]
    split <;> exact ⟨h.status, h.faultCode, h.faultCmd, h.b, h.p, h.c, h.crv, h.noReset⟩
  | reset => exact absurd rfl ha

/-- The host's next access, taken off its list. -/
theorem State.HeldIn.hostTurn : s.HeldIn t.hostTurn := by
  cases hl : t.host with
  | nil => rwa [State.hostTurn, hl]
  | cons op rest =>
    have hnone := h.noReset
    rw [hl, List.forall_mem_cons] at hnone
    have hrest : s.HeldIn { t with host := rest } :=
      ⟨h.status, h.faultCode, h.faultCmd, h.b, h.p, h.c, h.crv, hnone.2⟩
    rw [State.hostTurn_cons hl]
    exact hrest.hostAccess hfault hnone.1

end

/-- Settles O10: a faulted idle core makes no move of its own, and each turn of the host keeps what is held. -/
theorem faultSticky : Obligations.FaultSticky := by
  intro n s hfault hidle hnone
  have hstart : s.HeldIn s := ⟨rfl, rfl, rfl, rfl, rfl, rfl, rfl, hnone⟩
  obtain ⟨t, hrun, ht⟩ := run_of_steps (P := s.HeldIn)
    (fun r hr => ⟨r.hostTurn, step_of_idle (hr.status ▸ hidle), hr.hostTurn hfault⟩) n s hstart
  exact ⟨t, hrun, ht.status, ht.faultCode, ht.faultCmd, ht.b, ht.p, ht.c, ht.crv⟩

end Sys2Proof.Machine
end

section
/-! The faults of every command, in the order of 60_exceptions.md R254: the run of the buffer, the validity of the sources, then the
checks of the command itself. -/

namespace Sys2Proof.Machine

/-! ## Ends of a command -/

/-- A change lies in the register files, the buffer and the flags. -/
theorem Change.apply_eq (s : State) (x : Change) :
    x.apply s = { s with b := (x.apply s).b, p := (x.apply s).p, c := (x.apply s).c, crv := (x.apply s).crv, iob := (x.apply s).iob,
                         status := { s.status with carry := (x.apply s).status.carry, v := (x.apply s).status.v,
                                                   cmp := (x.apply s).status.cmp } } := by
  cases x <;> rfl

/-- Settles O6: every command takes a fault or makes one change. -/
theorem completesOrFaults : Obligations.CompletesOrFaults := by
  intro i s
  obtain ⟨e, -, hexec, -, ⟨c, rfl, -⟩ | ⟨x, -, rfl, -⟩⟩ := command_runs s s.status i
  · exact .inr ⟨c.code, c.code_range.1, c.code_range.2, hexec⟩
  · exact .inl ⟨x.apply s, hexec, x.apply_eq s⟩

/-- The fault register tells the sixteen faults apart (60_exceptions.md R251). -/
theorem ErrCode.ofNat_code_injective {c c' : ErrCode} (h : BitVec.ofNat 32 c.code = BitVec.ofNat 32 c'.code) : c = c' := by
  have hc := c.code_range
  have hc' := c'.code_range
  refine ErrCode.code_injective ?_
  have hval := congrArg BitVec.toNat h
  rwa [BitVec.toNat_ofNat, BitVec.toNat_ofNat, Nat.mod_eq_of_lt (by omega), Nat.mod_eq_of_lt (by omega)] at hval

/-- A command ends in the state of a fault only by taking that fault (60_exceptions.md R260). -/
theorem State.finish_eq_faulted {s : State} {e : Effect State} {c : ErrCode} (h : s.finish e = .next (s.faulted c.code)) :
    e = .error c := by
  cases e with
  | ok t =>
    rw [State.finish_ok, Host.Outcome.next.injEq] at h
    exact absurd (congrArg (fun r : State => r.status.done) h) Bool.noConfusion
  | error c' =>
    rw [State.finish_error, Host.Outcome.next.injEq] at h
    rw [ErrCode.ofNat_code_injective (congrArg State.faultCode h)]

/-! ## Faults of an effect -/

/-- Every fault the effect may take is listed. -/
def Effect.FaultsIn {α : Type} (l : List ErrCode) (e : Effect α) : Prop := ∀ c, e = .error c → c ∈ l

section
variable {α β : Type} {l : List ErrCode}

theorem Effect.FaultsIn.ok {a : α} : Effect.FaultsIn l (.ok a) := nofun

theorem Effect.FaultsIn.error {c : ErrCode} (h : l.contains c = true) : Effect.FaultsIn l (.error c : Effect α) := by
  rintro _ ⟨⟩
  exact List.contains_iff_mem.1 h

theorem Effect.FaultsIn.bind {e : Effect β} {f : β → Effect α} (he : e.FaultsIn l) (hf : ∀ a, (f a).FaultsIn l) :
    Effect.FaultsIn l (e >>= f) := by
  cases e with
  | ok a => exact hf a
  | error c => exact fun c' h => he c' (by cases h; rfl)

theorem Effect.FaultsIn.check {b : Bool} {c : ErrCode} {f : Unit → Effect α} (hc : l.contains c = true) (hf : (f ()).FaultsIn l) :
    Effect.FaultsIn l (raiseIf b c >>= f) := by
  cases b with
  | true => exact .error hc
  | false => exact hf

theorem Effect.FaultsIn.ite {b : Prop} [Decidable b] {e e' : Effect α} (h : e.FaultsIn l) (h' : e'.FaultsIn l) :
    Effect.FaultsIn l (if b then e else e') := by
  split
  · exact h
  · exact h'

theorem residue_faultsIn {k : Ctx} {r : BReg} (h : l.contains .range = true) : Effect.FaultsIn l (residue k r) :=
  .check h .ok

theorem makeCtx_faultsIn {W n m : Nat} (h : l.contains .modulus = true) : Effect.FaultsIn l (makeCtx W n m) :=
  .check h (.check h (.check h .ok))

theorem ptFieldValue_faultsIn {n : Nat} {q : PReg} {f : PtField} (h : l.contains .pointForm = true) :
    Effect.FaultsIn l (ptFieldValue n q f) := by
  rcases ptFieldValue_cases n q f with ⟨v, he⟩ | he <;> rw [he]
  · exact .ok
  · exact .error h

theorem decodePoint_faultsIn {k : Curve} {buf : List Byte} (h : l.contains .malformedPoint = true) :
    Effect.FaultsIn l (k.decodePoint buf) := by
  rcases k.decodePoint_cases buf with ⟨x, y, i, he⟩ | he <;> rw [he]
  · exact .ok
  · exact .error h

theorem weierstrassSpec_faultsIn {p a : Nat} (h : l.contains .curveUnsupported = true) : Effect.FaultsIn l (weierstrassSpec p a) :=
  .ite .ok (.ite .ok (.error h))

theorem buildCurve_faultsIn {W : Nat} {t : CurveType} {q : CurveParams} (hm : l.contains .modulus = true) (hr : l.contains .range = true)
    (hu : l.contains .curveUnsupported = true) (hp : l.contains .curveParam = true) : Effect.FaultsIn l (buildCurve W t q) :=
  .bind (makeCtx_faultsIn hm) fun _ => .check hr <| .check hr <| .check hr <| .check hr <| by
    cases t with
    | weierstrass => exact .bind (weierstrassSpec_faultsIn hu) fun _ => .check hp <| .check hp .ok
    | twistedEdwards => exact .bind .ok fun _ => .check hp <| .check hp .ok

end

/-! ## Reading the sources -/

/-- The effect finds every source valid, or faults for that; with all of them valid its faults are listed (60_exceptions.md R254 (3)). -/
structure Effect.Reads {α : Type} (s : State) (rs : List Source) (l : List ErrCode) (e : Effect α) : Prop where
  uninit : (∃ r ∈ rs, s.sourceValid r = false) → e = .error .uninit
  rest : (∀ r ∈ rs, s.sourceValid r = true) → e.FaultsIn l

section
variable {α β : Type} {s : State} {rs : List Source} {l : List ErrCode}

theorem Effect.Reads.nil {e : Effect α} (h : e.FaultsIn l) : e.Reads s [] l := ⟨nofun, fun _ => h⟩

theorem Effect.Reads.cons {r : Source} {e : Effect β} {f : β → Effect α} (hbad : s.sourceValid r = false → e = .error .uninit)
    (hgood : s.sourceValid r = true → ∃ a, e = .ok a) (hf : ∀ a, (f a).Reads s rs l) : Effect.Reads s (r :: rs) l (e >>= f) := by
  cases hv : s.sourceValid r with
  | false =>
    rw [hbad hv]
    exact ⟨fun _ => rfl, fun hall => absurd (hall r List.mem_cons_self) (by rw [hv]; exact Bool.false_ne_true)⟩
  | true =>
    obtain ⟨a, rfl⟩ := hgood hv
    refine ⟨fun ⟨r', hmem, hr'⟩ => (hf a).uninit ?_, fun hall => (hf a).rest fun r' hmem => hall r' (List.mem_cons_of_mem _ hmem)⟩
    rcases List.mem_cons.1 hmem with rfl | hmem
    · exact absurd (hv.symm.trans hr') Bool.noConfusion
    · exact ⟨r', hmem, hr'⟩

theorem Effect.Reads.readB {i : BSel} {f : BReg → Effect α} (hf : ∀ a, (f a).Reads s rs l) :
    Effect.Reads s (.b i :: rs) l (s.readB i >>= f) :=
  .cons (fun hv => (s.readB_error_iff i _).2 ⟨hv, rfl⟩) (fun hv => ⟨_, (s.readB_ok_iff i _).2 ⟨hv, rfl⟩⟩) hf

theorem Effect.Reads.readP {i : PSel} {f : PReg → Effect α} (hf : ∀ a, (f a).Reads s rs l) :
    Effect.Reads s (.p i :: rs) l (s.readP i >>= f) :=
  .cons (fun hv => (s.readP_error_iff i _).2 ⟨hv, rfl⟩) (fun hv => ⟨_, (s.readP_ok_iff i _).2 ⟨hv, rfl⟩⟩) hf

theorem Effect.Reads.readC {i : CSel} {f : Ctx → Effect α} (hf : ∀ a, (f a).Reads s rs l) :
    Effect.Reads s (.c i :: rs) l (s.readC i >>= f) :=
  .cons (fun hv => (s.readC_error_iff i _).2 ⟨hv, rfl⟩) (fun hv => ⟨_, (s.readC_ok_iff i _).2 ⟨hv, rfl⟩⟩) hf

theorem Effect.Reads.readCrv {f : Curve → Effect α} (hf : ∀ a, (f a).Reads s rs l) :
    Effect.Reads s (.crv :: rs) l (s.readCrv >>= f) :=
  .cons (fun hv => (s.readCrv_error_iff _).2 ⟨hv, rfl⟩) (fun hv => ⟨_, (s.readCrv_ok_iff _).2 ⟨hv, rfl⟩⟩) hf

theorem Effect.Reads.readRun {n : Nat} {f : BReg → Effect α} (hn : n < 16) (hf : ∀ a, (f a).Reads s rs l) :
    Effect.Reads s (.b (Fin.ofNat 16 n) :: rs) l (s.readRun n >>= f) := by
  rcases s.readRun_cases n with ⟨-, he⟩ | ⟨hle, -⟩
  · rw [he]
    exact .readB hf
  · omega

theorem Effect.Reads.map_readRun {n : Nat} {g : BReg → β} {f : β → Effect α} (hn : n < 16) (hf : ∀ a, (f a).Reads s rs l) :
    Effect.Reads s (.b (Fin.ofNat 16 n) :: rs) l ((s.readRun n).map g >>= f) := by
  rw [Effect.map_eq_bind, bind_assoc]
  exact .readRun hn fun a => hf (g a)

/-- The six registers that every `CRVNEW` reads (43_curve_point_forms.md R171). -/
theorem Effect.Reads.readRun_six {n : Nat} {f : BReg → BReg → BReg → BReg → BReg → BReg → Effect α} (hn : n + 6 ≤ 16)
    (hf : ∀ p a bd order gx gy, (f p a bd order gx gy).Reads s rs l) :
    Effect.Reads s (.b (Fin.ofNat 16 n) :: .b (Fin.ofNat 16 (n + 1)) :: .b (Fin.ofNat 16 (n + 2)) :: .b (Fin.ofNat 16 (n + 3))
        :: .b (Fin.ofNat 16 (n + 4)) :: .b (Fin.ofNat 16 (n + 5)) :: rs) l
      (s.readRun n >>= fun p => s.readRun (n + 1) >>= fun a => s.readRun (n + 2) >>= fun bd => s.readRun (n + 3) >>= fun order =>
        s.readRun (n + 4) >>= fun gx => s.readRun (n + 5) >>= fun gy => f p a bd order gx gy) :=
  .readRun (by omega) fun p => .readRun (by omega) fun a => .readRun (by omega) fun bd => .readRun (by omega) fun order =>
    .readRun (by omega) fun gx => .readRun (by omega) fun gy => hf p a bd order gx gy

/-- A step that succeeds before or between the reads. -/
theorem Effect.Reads.bind_ok {a : β} {e : Effect β} {f : β → Effect α} (he : e = .ok a) (hf : (f a).Reads s rs l) :
    Effect.Reads s rs l (e >>= f) := he ▸ hf

end

theorem raiseIf_of_not {b : Prop} [Decidable b] (h : ¬b) (c : ErrCode) : raiseIf (decide b) c = .ok () := by
  rw [decide_eq_false h, raiseIf_false]

end Sys2Proof.Machine

namespace Sys2Proof
open Machine

/-! ## The order of the checks -/

/-- The faults of a command's own checks: those of its row of 60_exceptions.md R255 that stand neither for the run of the buffer nor for
the sources. -/
def Instr.checks (i : Instr) : List ErrCode := i.faults.filter fun c => c != .iobRange && c != .uninit

theorem Instr.mem_checks {i : Instr} {c : ErrCode} : c ∈ i.checks ↔ c ∈ i.faults ∧ c ≠ .iobRange ∧ c ≠ .uninit := by
  simp [Instr.checks]

/-- A command that names a run of the buffer has `E_IOB_RANGE` in its row (60_exceptions.md R255). -/
theorem Instr.iobRange_mem_faults {i : Instr} (h : i.outOfBuffer = true) : .iobRange ∈ i.faults := by
  cases i with
  | ldb | stb | penc | pdec => exact List.mem_cons_self
  | _ => cases h

/-- A command that reads a register has `E_UNINIT` in its row (60_exceptions.md R255). -/
theorem Instr.uninit_mem_faults {i : Instr} {r : Source} (h : r ∈ i.sources) : .uninit ∈ i.faults := by
  cases i with
  | ldb | clr | pclr | crvld => cases h
  | _ => simp [Instr.faults]

/-- The command checks its run of the buffer, then its sources, and what it checks after them is listed (60_exceptions.md R254). -/
def Instr.ChecksInOrder (i : Instr) (s : State) : Prop :=
  ∃ e : Effect State, exec i s = s.finish e ∧ (i.outOfBuffer = true → e = .error .iobRange)
    ∧ (i.outOfBuffer = false → e.Reads s i.sources i.checks)

section
variable {i : Instr} {s : State}

/-- A command without a run of the buffer. -/
theorem Instr.ChecksInOrder.of_reads {e : Effect State} (hexec : exec i s = s.finish e) (hrun : i.run = none)
    (h : e.Reads s i.sources i.checks) : i.ChecksInOrder s := by
  have hout : i.outOfBuffer = false := by rw [Instr.outOfBuffer, hrun]
  exact ⟨e, hexec, fun ht => absurd (ht.symm.trans hout) Bool.noConfusion, fun _ => h⟩

/-- A command with a run of the buffer, which it checks first. -/
theorem Instr.ChecksInOrder.of_run {off len : Nat} {f : Unit → Effect State}
    (hexec : exec i s = s.finish (raiseIf (decide (off + len > Config.iobBytes)) .iobRange >>= f)) (hrun : i.run = some (off, len))
    (h : (f ()).Reads s i.sources i.checks) : i.ChecksInOrder s := by
  have hout : i.outOfBuffer = decide (off + len > Config.iobBytes) := by rw [Instr.outOfBuffer, hrun]; rfl
  refine ⟨_, hexec, fun ht => ?_, fun hf => ?_⟩
  · rw [← hout, ht]
    rfl
  · rw [← hout, hf]
    exact h

end

/-- The type is checked first; a type without a meaning reads nothing (43_curve_point_forms.md R171). -/
theorem crvnew_checksInOrder {first : BSel} {type : Imm8} (s : State) (hwf : (Instr.crvnew first type).WellFormed) :
    (Instr.crvnew first type).ChecksInOrder s := by
  refine .of_reads rfl rfl ?_
  rcases curveType_cases type.val with ⟨ht, he⟩ | ⟨ht, he⟩ | ⟨ht, he⟩
  · have hrun : first.val + 6 ≤ 16 := by simpa [Instr.WellFormed, Instr.wf, ht] using hwf
    rw [Instr.sources, if_pos ht]
    exact .bind_ok he <| .bind_ok (raiseIf_of_not (Nat.not_lt.2 hrun) _) <| .readRun_six (n := first.val) hrun fun _ _ _ _ _ _ =>
      .nil <| .bind .ok fun _ => .bind (buildCurve_faultsIn rfl rfl rfl rfl) fun _ => .ok
  · have hrun : first.val + 7 ≤ 16 := by simpa [Instr.WellFormed, Instr.wf, ht] using hwf
    rw [Instr.sources, if_neg (by omega), if_pos ht]
    exact .bind_ok he <| .bind_ok (raiseIf_of_not (Nat.not_lt.2 hrun) _) <| .readRun_six (n := first.val) (by omega) fun _ _ _ _ _ _ =>
      .map_readRun (n := first.val + 6) (by omega) fun _ => .nil <| .bind (buildCurve_faultsIn rfl rfl rfl rfl) fun _ => .ok
  · rw [Instr.sources, if_neg (by omega), if_neg (by omega), he]
    exact .nil (.error rfl)

/-- A curve of the table passes the checks of 43_curve_point_forms.md R171. -/
theorem crvld_checksInOrder_of_named {id : Imm8} {s : State} {q : CurveParams} {rb w : Nat} (hrom : romCurve s.W id.val = .ok q)
    (hq : q.Named rb w) : (Instr.crvld id).ChecksInOrder s := by
  obtain ⟨k, -, -, -, -, -, -, -, -, -, -, -, -, -, hexec⟩ := crvld_installs hrom hq
  exact .of_reads (e := .ok _) hexec rfl (.nil .ok)

/-- `CRVLD` reads nothing and faults for an unknown id alone (43_curve_point_forms.md R174). -/
theorem crvld_checksInOrder (id : Imm8) (s : State) : (Instr.crvld id).ChecksInOrder s := by
  rcases romCurve_cases s.W id.val with ⟨-, he⟩ | ⟨-, he⟩ | ⟨-, he⟩ | ⟨-, -, -, he⟩
  · exact crvld_checksInOrder_of_named he (romP256_named _)
  · exact crvld_checksInOrder_of_named he (romP384_named _)
  · exact crvld_checksInOrder_of_named he (romP521_named _)
  · exact .of_reads (e := .error .unknownCurve) (by rw [exec, execCrvld, he]; rfl) rfl (.nil (.error rfl))

/-- Every well-formed command checks in the order of 60_exceptions.md R254, with the faults of R255. -/
theorem Instr.checksInOrder (s : State) : ∀ i : Instr, i.WellFormed → i.ChecksInOrder s
  | .ldb .., _ => .of_run rfl rfl (.nil .ok)
  | .stb .., _ => .of_run rfl rfl (.readB fun _ => .nil (.check rfl .ok))
  | .mov .., _ => .of_reads rfl rfl (.readB fun _ => .nil .ok)
  | .clr _, _ => .of_reads rfl rfl (.nil .ok)
  | .norm .., _ => .of_reads rfl rfl (.readB fun _ => .nil .ok)
  | .cmp .., _ => .of_reads rfl rfl (.readB fun _ => .readB fun _ => .nil .ok)
  | .add .., _ => .of_reads rfl rfl (.readB fun _ => .readB fun _ => .nil .ok)
  | .sub .., _ => .of_reads rfl rfl (.readB fun _ => .readB fun _ => .nil .ok)
  | .mul .., _ => .of_reads rfl rfl (.readB fun _ => .readB fun _ => .nil (.check rfl .ok))
  | .divrem .., hwf => .of_reads rfl rfl (.bind_ok (raiseIf_of_not (bne_iff_ne.1 hwf) _)
      (.readB fun _ => .readB fun _ => .nil (.check rfl .ok)))
  | .ctxnew .., _ => .of_reads rfl rfl (.readB fun _ => .nil (.bind (makeCtx_faultsIn rfl) fun _ => .ok))
  | .montmul .., _ | .modadd .., _ | .modsub .., _ | .modmul .., _ =>
    .of_reads rfl rfl (.readC fun _ => .readB fun _ => .readB fun _ => .nil <|
      .bind (residue_faultsIn rfl) fun _ => .bind (residue_faultsIn rfl) fun _ => .ok)
  | .tomont .., _ | .frommont .., _ | .modinvct .., _ =>
    .of_reads rfl rfl (.readC fun _ => .readB fun _ => .nil (.bind (residue_faultsIn rfl) fun _ => .ok))
  | .modexp .., _ => .of_reads rfl rfl (.readC fun _ => .readB fun _ => .readB fun _ => .nil (.bind (residue_faultsIn rfl) fun _ => .ok))
  | .bred .., _ => .of_reads rfl rfl (.readC fun _ => .readB fun _ => .nil (.check rfl .ok))
  | .ctxget .., _ => .of_reads rfl rfl (.readC fun _ => .nil .ok)
  | .modinv .., _ => .of_reads rfl rfl (.readB fun _ => .readB fun _ => .nil (.check rfl (.check rfl (.check rfl .ok))))
  | .gcd .., _ => .of_reads rfl rfl (.readB fun _ => .readB fun _ => .nil .ok)
  | .crvnew .., hwf => crvnew_checksInOrder s hwf
  | .crvld id, _ => crvld_checksInOrder id s
  | .crvget .., _ | .pgen _, _ | .pinf _, _ => .of_reads rfl rfl (.readCrv fun _ => .nil .ok)
  | .pset .., _ => .of_reads rfl rfl (.readCrv fun _ => .readB fun _ => .readB fun _ => .nil (.check rfl .ok))
  | .pget .., _ => .of_reads rfl rfl (.readCrv fun _ => .readP fun _ => .nil (.bind (ptFieldValue_faultsIn rfl) fun _ => .ok))
  | .pmov .., _ => .of_reads rfl rfl (.readCrv fun _ => .readP fun _ => .nil .ok)
  | .pclr _, _ => .of_reads rfl rfl (.nil .ok)
  | .ptomont .., _ => .of_reads rfl rfl (.readCrv fun _ => .readP fun _ => .nil (.check rfl (.check rfl .ok)))
  | .pfrommont .., _ | .ptoproj .., _ | .ptoaff .., _ | .pval _, _ | .pdbl .., _ | .pneg .., _ =>
    .of_reads rfl rfl (.readCrv fun _ => .readP fun _ => .nil (.check rfl .ok))
  | .penc .., _ => .of_run rfl rfl (.readCrv fun _ => .readP fun _ =>
      .nil (.check rfl (.check rfl (.ite .ok (.check rfl .ok)))))
  | .pdec .., _ => .of_run rfl rfl (.readCrv fun _ => .nil (.bind (decodePoint_faultsIn rfl) fun _ => .ok))
  | .padd .., _ => .of_reads rfl rfl (.readCrv fun _ => .readP fun _ => .readP fun _ => .nil (.check rfl .ok))
  | .smul .., _ => .of_reads rfl rfl (.readCrv fun _ => .readP fun _ => .readB fun _ =>
      .nil (.check rfl (.check rfl (.check rfl .ok))))

end Sys2Proof

namespace Sys2Proof.Machine

/-- Settles O7: a fault is of the run, of a source, or of the checks after them, and the row lists each where it can occur. -/
theorem faultTable : Obligations.FaultTable := by
  intro i s c hwf hfault
  obtain ⟨e, hexec, hrange, hreads⟩ := Instr.checksInOrder s i hwf
  have he : e = .error c := State.finish_eq_faulted (hexec ▸ hfault)
  cases hout : i.outOfBuffer with
  | true =>
    cases he.symm.trans (hrange hout)
    exact Instr.iobRange_mem_faults hout
  | false =>
    by_cases hinvalid : ∃ r ∈ i.sources, s.sourceValid r = false
    · cases he.symm.trans ((hreads hout).uninit hinvalid)
      obtain ⟨r, hr, -⟩ := hinvalid
      exact Instr.uninit_mem_faults hr
    · have hvalid : ∀ r ∈ i.sources, s.sourceValid r = true := by simpa using hinvalid
      exact (Instr.mem_checks.1 ((hreads hout).rest hvalid c he)).1

/-- Settles O8: the order of the checks, and `E_UNINIT` is not among those after the sources. -/
theorem rangeThenUninit : Obligations.RangeThenUninit := by
  intro i s hwf
  obtain ⟨e, hexec, hrange, hreads⟩ := Instr.checksInOrder s i hwf
  refine ⟨fun hout => ?_, fun hout hinvalid => ?_, fun hout hvalid hfault => ?_⟩
  · rw [hexec, hrange hout]
    rfl
  · rw [hexec, (hreads hout).uninit hinvalid]
    rfl
  · have he : e = .error .uninit := State.finish_eq_faulted (hexec ▸ hfault)
    exact (Instr.mem_checks.1 ((hreads hout).rest hvalid _ he)).2.2 rfl

end Sys2Proof.Machine
end

section
/-! The command register and the reset wire: what a command word does to an idle, a busy and a faulted core, and what the wire leaves
(10_state.md R27, R41; 60_exceptions.md R262; 70_reset_and_hazards.md R280, R281, R288). -/

namespace Sys2Proof.Machine

/-- A busy or faulted core ignores a command word (60_exceptions.md R262, 70_reset_and_hazards.md R288). -/
theorem State.hostAccess_cmd_ignored {s : State} (h : s.status.busy = true ∨ s.status.fault = true) (w : Word) :
    s.hostAccess (.writeReg 0 w) = s :=
  if_neg fun ⟨_, hidle, hclear⟩ => h.elim (fun hbusy => Bool.false_ne_true (hidle.symm.trans hbusy))
    fun hfault => Bool.false_ne_true (hclear.symm.trans hfault)

/-- Settles O9: an idle core accepts the word, any other core ignores it, and the register holds nothing. -/
theorem cmdWrite : Obligations.CmdWrite := fun _ w =>
  ⟨fun hidle hclear => State.hostAccess_cmd hidle hclear w, fun hbusy => State.hostAccess_cmd_ignored (.inl hbusy) w,
    fun hfault => State.hostAccess_cmd_ignored (.inr hfault) w, rfl⟩

/-- The state after reset is one the wire leaves (70_reset_and_hazards.md R280). -/
theorem State.resetCore_reset : State.reset.resetCore = State.reset := rfl

/-- The register files the wire leaves are empty (10_state.md R41). -/
theorem State.resetCore_files (s : State) :
    (∀ i : BSel, s.resetCore.b[i] = BReg.empty) ∧ (∀ i : PSel, s.resetCore.p[i] = PReg.empty)
    ∧ ∀ i : CSel, s.resetCore.c[i] = Ctx.empty := by
  simp [Fin.getElem_fin]

/-- Settles O11: either way the state is one the wire leaves, whose files are empty and whose other fields have their reset values. -/
theorem resetValues : Obligations.ResetValues := by
  intro s t ht
  obtain rfl : t = s.resetCore := by
    rcases ht with rfl | ⟨rfl, rfl⟩
    · rfl
    · exact State.resetCore_reset.symm
  obtain ⟨hb, hp, hc⟩ := s.resetCore_files
  exact ⟨hb, hp, hc, rfl, fun _ => rfl, rfl, rfl, rfl, s.resetCore_W, rfl⟩

end Sys2Proof.Machine
end

section
/-! Constant access patterns of the datapath's loops: the traces of the digit loops, of the exponentiation and of the point operations are
fixed by lengths, the curve and the public flags, and the table reads among them are the full scans (70_reset_and_hazards.md R292, R293;
41_montgomery.md R134, R135; 45_scalar_mul.md R237). -/

namespace Sys2Proof.Machine

/-! ## Exponentiation -/

section
variable (W : Nat) (c : Ctx)

theorem powerTable_length (base n i prev : Nat) : (powerTable W c base n i prev).value.length = n := by
  induction n generalizing i prev with
  | zero => rfl
  | succ n ih => simp [powerTable, ih]

/-- The table of an exponentiation has an entry for every window digit (41_montgomery.md R132). -/
theorem windowTable_length (nbits base : Nat) :
    (c.rmod :: base :: (powerTable W c base (2 ^ optimalWindow nbits - 2) 2 base).value).length = 2 ^ optimalWindow nbits := by
  have htwo : 2 ^ 1 ≤ 2 ^ optimalWindow nbits := Nat.pow_le_pow_right two_pos (optimalWindow_pos nbits)
  simp only [List.length_cons, powerTable_length]
  omega

/-- The operations that build the table do not depend on the base (41_montgomery.md R135). -/
theorem powerTable_trace_eq (base base' n i prev prev' : Nat) :
    (powerTable W c base n i prev).trace = (powerTable W c base' n i prev').trace := by
  induction n generalizing i prev prev' with
  | zero => rfl
  | succ n ih =>
    simp only [powerTable, Traced.trace_bind, observe_trace, montT_trace, Traced.trace_pure]
    rw [ih]

/-- The operations of a scan do not depend on the entries or on the one looked for (41_montgomery.md R134). -/
theorem scanTable_trace_eq (d d' : Nat) {ts ts' : List Nat} (h : ts.length = ts'.length) (j ent ent' : Nat) :
    (scanTable d ts j ent).trace = (scanTable d' ts' j ent').trace := by
  induction ts generalizing ts' j ent ent' with
  | nil => rw [List.eq_nil_of_length_eq_zero h.symm, scanTable, scanTable, Traced.trace_pure, Traced.trace_pure]
  | cons t ts ih =>
    obtain ⟨t', ts', rfl⟩ := List.exists_cons_of_length_eq_add_one h.symm
    simp only [scanTable, Traced.trace_bind, observe_trace]
    rw [ih (Nat.succ.inj h)]

theorem squarings_trace_eq (n acc acc' : Nat) : (squarings W c n acc).trace = (squarings W c n acc').trace := by
  induction n generalizing acc acc' with
  | zero => rfl
  | succ n ih =>
    simp only [squarings, Traced.trace_bind, observe_trace, montT_trace]
    rw [ih]

/-- The operations of the windows do not depend on the exponent or on the table's entries (41_montgomery.md R135). -/
theorem windowLoop_trace_eq (w e e' : Nat) {tab tab' : List Nat} (h : tab.length = tab'.length) (i acc acc' : Nat) :
    (windowLoop W c w e tab i acc).trace = (windowLoop W c w e' tab' i acc').trace := by
  induction i generalizing acc acc' with
  | zero => rfl
  | succ i ih =>
    simp only [windowLoop, Traced.trace_bind, observe_trace, montT_trace]
    rw [squarings_trace_eq W c w acc acc', scanTable_trace_eq _ (e' / 2 ^ (w * i) % 2 ^ w) h 0 0 0, ih]

/-- The exponentiation's operations do not depend on the base or on the exponent (41_montgomery.md R135, 70_reset_and_hazards.md R292). -/
theorem modexpWindows_trace_eq (a a' e e' le : Nat) : (modexpWindows W c a e le).trace = (modexpWindows W c a' e' le).trace := by
  simp only [modexpWindows, Traced.trace_bind, montT_trace, montT_value]
  rw [powerTable_trace_eq W c _ (mont W c a' c.r2mod) _ 2 _ (mont W c a' c.r2mod),
    windowLoop_trace_eq W c _ e e'
      ((windowTable_length W c (W * le) _).trans (windowTable_length W c (W * le) (mont W c a' c.r2mod)).symm) _ _ c.rmod]

end

/-! ## Table reads of the exponentiation -/

@[simp] theorem LeakOp.isTableRead_iter : LeakOp.iter.isTableRead = false := rfl
@[simp] theorem LeakOp.isTableRead_mont : LeakOp.mont.isTableRead = false := rfl
@[simp] theorem LeakOp.isTableRead_tableRead (j : Nat) : (LeakOp.tableRead j).isTableRead = true := rfl

@[simp] theorem replicate_iter_tableReads (n : Nat) : (List.replicate n LeakOp.iter).filter LeakOp.isTableRead = [] :=
  List.filter_replicate_of_neg Bool.false_ne_true

section
variable (W : Nat) (c : Ctx)

/-- Each entry is made from the one before it and entry 1 (41_montgomery.md R132). -/
theorem powerTable_tableReads (base n i prev : Nat) :
    (powerTable W c base n (i + 1) prev).trace.filter LeakOp.isTableRead
      = (List.range' i n).flatMap fun j => [.tableRead j, .tableRead 1] := by
  induction n generalizing i prev with
  | zero => rfl
  | succ n ih => simp [powerTable, ih, List.filter_cons, List.range'_succ]

/-- A scan reads the entries one after another, whatever the one looked for (41_montgomery.md R134). -/
theorem scanTable_tableReads (d : Nat) (ts : List Nat) (j ent : Nat) :
    (scanTable d ts j ent).trace.filter LeakOp.isTableRead = (List.range' j ts.length).map .tableRead := by
  induction ts generalizing j ent with
  | nil => rfl
  | cons t ts ih => simp [scanTable, ih, List.filter_cons, List.range'_succ]

theorem squarings_tableReads (n acc : Nat) : (squarings W c n acc).trace.filter LeakOp.isTableRead = [] := by
  induction n generalizing acc with
  | zero => rfl
  | succ n ih => simp [squarings, ih]

/-- Every window reads the whole table once (41_montgomery.md R134). -/
theorem windowLoop_tableReads (w e : Nat) (tab : List Nat) (i acc : Nat) :
    (windowLoop W c w e tab i acc).trace.filter LeakOp.isTableRead
      = (List.replicate i ((List.range tab.length).map .tableRead)).flatten := by
  induction i generalizing acc with
  | zero => rfl
  | succ i ih =>
    simp [windowLoop, ih, squarings_tableReads, scanTable_tableReads, List.range_eq_range', List.replicate_succ]

theorem modexpWindows_tableReads (a e le : Nat) {w : Nat} (hw : w = optimalWindow (W * le)) :
    (modexpWindows W c a e le).trace.filter LeakOp.isTableRead
      = ((List.range (2 ^ w - 2)).flatMap fun i => [.tableRead (i + 1), .tableRead 1])
        ++ (List.replicate (ceilDiv (W * le) w) ((List.range (2 ^ w)).map .tableRead)).flatten := by
  subst hw
  simp [modexpWindows, powerTable_tableReads, windowLoop_tableReads, windowTable_length, List.range'_eq_map_range, List.flatMap_map,
    Nat.add_comm 1, -List.length_cons]

end

/-! ## Table reads of the point operations -/

section
variable (k : Curve) (W : Nat)

/-- A doubling is field arithmetic or a copy (44_point_arith.md R212, R213). -/
theorem wdblT_tableReads (q : PReg) : (k.wdblT W q).trace.filter LeakOp.isTableRead = [] := by
  unfold Curve.wdblT
  split
  · simp
  · split
    · simp [Curve.dblZeroT]
    · simp [Curve.dblMinus3T]

theorem dblT_tableReads (q : PReg) : (k.dblT W q).trace.filter LeakOp.isTableRead = [] := by
  cases ht : k.type with
  | weierstrass => rw [Curve.dblT, ht, wdblT_tableReads]
  | twistedEdwards => simp [Curve.dblT, ht, Curve.tdblT]

theorem differencesT_tableReads (q1 q2 : PReg) : (k.differencesT W q1 q2).trace.filter LeakOp.isTableRead = [] := by
  simp [Curve.differencesT]

theorem addGeneralT_tableReads (q : PReg) (h r : Nat) : (k.addGeneralT W q h r).trace.filter LeakOp.isTableRead = [] := by
  simp [Curve.addGeneralT]

/-- An addition, on whichever path, is field arithmetic or a copy (44_point_arith.md R215, R216). -/
theorem paddT_tableReads (q1 q2 : PReg) : (k.paddT W q1 q2).trace.filter LeakOp.isTableRead = [] := by
  cases ht : k.type with
  | weierstrass =>
    rw [Curve.paddT, ht, Curve.wmaddT]
    cases k.addCase W q1 q2 <;>
      simp [differencesT_tableReads, wdblT_tableReads, addGeneralT_tableReads]
  | twistedEdwards => simp [Curve.paddT, ht, Curve.taddT]

theorem doublingsT_tableReads (n : Nat) (a : PReg) : (k.doublingsT W n a).trace.filter LeakOp.isTableRead = [] := by
  induction n generalizing a with
  | zero => rfl
  | succ n ih => simp [Curve.doublingsT, dblT_tableReads, ih]

/-- Every digit of the main loop reads the whole table once (45_scalar_mul.md R237). -/
theorem mainLoopT_tableReads (table : List PReg) (ds : List Int) (a : PReg) :
    (k.mainLoopT W table ds a).trace.filter LeakOp.isTableRead
      = (List.replicate ds.length ((List.range table.length).map .tableRead)).flatten := by
  induction ds generalizing a with
  | nil => rfl
  | cons d ds ih =>
    simp [Curve.mainLoopT, doublingsT_tableReads, lookupT_tableReads, paddT_tableReads, ih, List.replicate_succ]

end

end Sys2Proof.Machine
end

section
/-! Traces of the point operations and of scalar multiplication: on a TED-curve they depend on the curve alone, on a W-curve also on the
path of each operation, which 45_scalar_mul.md R236 fixes outside its degenerate cases (70_reset_and_hazards.md R292, R293). -/

namespace Sys2Proof.Machine

section
variable (k : Curve) (W : Nat)

/-! ## Point operations -/

/-- A doubling tests the flag `inf` on a W-curve, and nothing else (44_point_arith.md R212, R213). -/
theorem dblT_trace_eq {q q' : PReg} (h : k.type = .weierstrass → q.inf = q'.inf) : (k.dblT W q).trace = (k.dblT W q').trace := by
  cases ht : k.type with
  | weierstrass =>
    simp only [Curve.dblT, ht, Curve.wdblT, h ht]
    split
    · rfl
    · split
      · simp only [Curve.dblZeroT, Traced.trace_bind, mulT_trace, addT_trace, subT_trace, timesT_trace, Traced.trace_pure]
      · simp only [Curve.dblMinus3T, Traced.trace_bind, mulT_trace, addT_trace, subT_trace, timesT_trace, Traced.trace_pure]
  | twistedEdwards =>
    simp only [Curve.dblT, ht, Curve.tdblT, Traced.trace_bind, mulT_trace, addT_trace, subT_trace, timesT_trace, Traced.trace_pure]

/-- An addition on the general path, or on a TED-curve, does not look at the coordinates (44_point_arith.md R215, R216). -/
theorem paddT_trace_eq {q1 q2 q1' q2' : PReg} (h : k.type = .weierstrass → k.addCase W q1 q2 = .general)
    (h' : k.type = .weierstrass → k.addCase W q1' q2' = .general) : (k.paddT W q1 q2).trace = (k.paddT W q1' q2').trace := by
  cases ht : k.type with
  | weierstrass =>
    simp only [Curve.paddT, ht, Curve.wmaddT, h ht, h' ht, Curve.differencesT, Curve.addGeneralT, Traced.trace_bind, mulT_trace, subT_trace,
      timesT_trace, Traced.trace_pure]
  | twistedEdwards =>
    simp only [Curve.paddT, ht, Curve.taddT, Traced.trace_bind, mulT_trace, addT_trace, subT_trace, Traced.trace_pure]

theorem negCoordsT_trace_eq (withT : Bool) (q q' : PReg) : (k.negCoordsT W withT q).trace = (k.negCoordsT W withT q').trace := by
  cases ht : k.type with
  | weierstrass => simp only [Curve.negCoordsT, ht, Traced.trace_bind, negT_trace, Traced.trace_pure]
  | twistedEdwards => cases withT <;> simp [Curve.negCoordsT, ht]

/-- An inversion is an exponentiation with a public exponent length (43_curve_point_forms.md R194). -/
theorem finvT_trace_eq (z z' : Nat) : (k.finvT W z).trace = (k.finvT W z').trace := by
  simp only [Curve.finvT, Traced.trace_bind, mulT_trace, Traced.trace_pure]
  rw [modexpWindows_trace_eq]

/-- The conversion to affine form tests the flag `inf` on a W-curve, and nothing else (43_curve_point_forms.md R193). -/
theorem affineT_trace_eq {q q' : PReg} (h : k.type = .weierstrass → q.inf = q'.inf) :
    (k.affineT W q).trace = (k.affineT W q').trace := by
  cases ht : k.type with
  | weierstrass =>
    simp only [Curve.affineT, ht, h ht]
    split
    · rfl
    · simp only [Traced.trace_bind, mulT_trace, finvT_trace_eq k W q.z q'.z, Traced.trace_pure]
  | twistedEdwards =>
    simp only [Curve.affineT, ht, Traced.trace_bind, mulT_trace, finvT_trace_eq k W q.z q'.z, Traced.trace_pure]

/-! ## Scalar multiplication -/

/-- The scan of a table does not look at the index (45_scalar_mul.md R237). -/
theorem scanPoints_trace_eq (idx idx' : Nat) (ts : List PReg) (j : Nat) (ent ent' : PReg) :
    (scanPoints idx ts j ent).trace = (scanPoints idx' ts j ent').trace := by
  induction ts generalizing j ent ent' with
  | nil => rfl
  | cons t ts ih =>
    simp only [scanPoints, Traced.trace_bind, observe_trace]
    rw [ih]

/-- A look-up does not look at its digit (45_scalar_mul.md R237). -/
theorem lookupT_trace_eq (table : List PReg) (d d' : Int) : (k.lookupT W table d).trace = (k.lookupT W table d').trace := by
  simp only [Curve.lookupT, Traced.trace_bind, Traced.trace_pure]
  rw [scanPoints_trace_eq _ ((d'.natAbs - 1) / 2), negCoordsT_trace_eq]

/-- Doublings of points that are not flagged, or on a TED-curve, trace alike (45_scalar_mul.md R232). -/
theorem doublingsT_trace_eq (n : Nat) {a a' : PReg} (h : k.type = .weierstrass → k.regularDoublings W n a = true)
    (h' : k.type = .weierstrass → k.regularDoublings W n a' = true) : (k.doublingsT W n a).trace = (k.doublingsT W n a').trace := by
  induction n generalizing a a' with
  | zero => rfl
  | succ n ih =>
    simp only [Curve.regularDoublings, Bool.and_eq_true, Bool.not_eq_true'] at h h'
    simp only [Curve.doublingsT, Traced.trace_bind, dblT_value]
    rw [dblT_trace_eq k W fun ht => (h ht).1.trans (h' ht).1.symm, ih (fun ht => (h ht).2) fun ht => (h' ht).2]

/-- Outside the degenerate cases the main loop over a number of digits does not look at them (45_scalar_mul.md R236). -/
theorem mainLoopT_trace_eq (table : List PReg) {ds ds' : List Int} (hlen : ds.length = ds'.length) {a a' : PReg}
    (h : k.type = .weierstrass → k.regularLoop W table ds a = true) (h' : k.type = .weierstrass → k.regularLoop W table ds' a' = true) :
    (k.mainLoopT W table ds a).trace = (k.mainLoopT W table ds' a').trace := by
  induction ds generalizing ds' a a' with
  | nil =>
    rw [List.eq_nil_of_length_eq_zero hlen.symm]
    rfl
  | cons d ds ih =>
    obtain ⟨d', ds', rfl⟩ := List.exists_cons_of_length_eq_add_one hlen.symm
    simp only [Curve.regularLoop, Bool.and_eq_true, beq_iff_eq] at h h'
    simp only [Curve.mainLoopT, Traced.trace_bind, doublingsT_value, lookupT_value, paddT_value]
    rw [doublingsT_trace_eq k W _ (fun ht => (h ht).1.1) fun ht => (h' ht).1.1, lookupT_trace_eq k W table d d',
      paddT_trace_eq k W (fun ht => (h ht).1.2) fun ht => (h' ht).1.2, ih (Nat.succ.inj hlen) (fun ht => (h ht).2) fun ht => (h' ht).2]

/-- Outside the degenerate cases the main loop does not end in a flagged identity (45_scalar_mul.md R236). -/
theorem mainLoop_inf_of_regularLoop {table : List PReg} {ds : List Int} {a : PReg} (h : k.regularLoop W table ds a = true) :
    (k.mainLoop W table ds a).inf = false := by
  induction ds generalizing a with
  | nil => exact Bool.not_eq_true' _ ▸ h
  | cons d ds ih => exact ih (Bool.and_eq_true_iff.1 h).2

end

/-- The flag `inf` of a negated point is that of the point (44_point_arith.md R218). -/
theorem Curve.neg_inf (k : Curve) (q : PReg) : (k.neg q).inf = q.inf := by
  cases hi : q.inf with
  | true => rw [k.neg_of_inf hi, hi]
  | false =>
    cases ht : k.type with
    | weierstrass => rw [Curve.neg_of_weierstrass ht hi]; exact hi
    | twistedEdwards => rw [Curve.neg_of_twistedEdwards ht hi]; exact hi

section
variable (k : Curve) (W : Nat)

/-- The end computes the negated point whatever the scalar's parity (45_scalar_mul.md R238). -/
theorem smulEndT_trace_eq (n n' : Nat) {a a' : PReg} (h : k.type = .weierstrass → a.inf = a'.inf) :
    (k.smulEndT W n a).trace = (k.smulEndT W n' a').trace := by
  have hinf (n : Nat) (a : PReg) : (if n % 2 = 0 then k.neg a else a).inf = a.inf := by
    rw [apply_ite PReg.inf, k.neg_inf, ite_self]
  simp only [Curve.smulEndT, Traced.trace_bind, Traced.trace_pure]
  rw [negCoordsT_trace_eq k W true a a', affineT_trace_eq k W fun ht => (hinf n a).trans ((h ht).trans (hinf n' a').symm)]

/-- The parity step always computes `n - k` (45_scalar_mul.md R233). -/
theorem oddScalarT_trace_eq (order n n' : Nat) : (oddScalarT W order n).trace = (oddScalarT W order n').trace := by
  simp only [oddScalarT, Traced.trace_bind, subLoop_trace, digits_length, Traced.trace_pure]

variable {k W}

/-- The operations of `smul` on a finite point: the recoding, the table, and the loop from the top digit's entry (45_scalar_mul.md
R232). -/
theorem smulT_trace_of_finite {n : Nat} {q : PReg} {top : Int} {rest : List Int} (hi : q.inf = false)
    (hds : (recode k.w k.windows (oddScalar k.order n)).reverse = top :: rest) :
    (k.smulT W n q).trace = (oddScalarT W k.order n).trace ++ ((turns k.windows).trace ++ ((k.tableT W q).trace
      ++ ((k.lookupT W (k.table W q) top).trace
        ++ ((k.mainLoopT W (k.table W q) rest (k.firstEntry (k.table W q) top)).trace
          ++ (k.smulEndT W n (k.mainLoop W (k.table W q) rest (k.firstEntry (k.table W q) top))).trace)))) := by
  rw [Curve.smulT, if_neg (Bool.eq_false_iff.1 hi)]
  cases ht : k.type <;>
    simp only [Traced.trace_bind, oddScalarT_value, recodeT, Traced.trace_pure, List.append_nil, Traced.value_bind,
      Traced.value_pure, tableT_value, hds, lookupT_value, mainLoopT_value, Curve.firstEntry, ht]

/-- On a W-curve a regular scalar's main loop is regular (45_scalar_mul.md R236). -/
theorem Curve.regularLoop_of_regular {n : Nat} {q : PReg} {top : Int} {rest : List Int}
    (hds : (recode k.w k.windows (oddScalar k.order n)).reverse = top :: rest) (h : k.regular W n q = true) (ht : k.type = .weierstrass) :
    k.regularLoop W (k.table W q) rest (k.firstEntry (k.table W q) top) = true := by
  simpa only [Curve.regular, ht, hds] using h

/-- Two scalars that are none of the degenerate cases leave the same trace on a point (45_scalar_mul.md R236). -/
theorem smulT_trace_eq {n n' : Nat} {q : PReg} (h : q.inf = false → k.regular W n q = true ∧ k.regular W n' q = true) :
    (k.smulT W n q).trace = (k.smulT W n' q).trace := by
  cases hi : q.inf with
  | true => rw [Curve.smulT, Curve.smulT, if_pos hi, if_pos hi]
  | false =>
    obtain ⟨hreg, hreg'⟩ := h hi
    obtain ⟨top, rest, hds⟩ := exists_recode_reverse k.w k.windows (oddScalar k.order n)
    obtain ⟨top', rest', hds'⟩ := exists_recode_reverse k.w k.windows (oddScalar k.order n')
    have hlen : rest.length = rest'.length := by
      have hl := congrArg List.length hds
      have hl' := congrArg List.length hds'
      rw [List.length_reverse, recode_length, List.length_cons] at hl hl'
      omega
    have hloop := Curve.regularLoop_of_regular hds hreg
    have hloop' := Curve.regularLoop_of_regular hds' hreg'
    rw [smulT_trace_of_finite hi hds, smulT_trace_of_finite hi hds', oddScalarT_trace_eq W k.order n n', lookupT_trace_eq k W _ top top',
      mainLoopT_trace_eq k W _ hlen hloop hloop', smulEndT_trace_eq k W n n' fun ht =>
        (mainLoop_inf_of_regularLoop k W (hloop ht)).trans (mainLoop_inf_of_regularLoop k W (hloop' ht)).symm]

end

end Sys2Proof.Machine
end

section
/-! Two-state noninterference of the commands: a run's trace follows its reads, its loops and its writes, and what it reads in two states of
one shape has one length, one context, one curve or the same public flags (70_reset_and_hazards.md R292, R293; 10_state.md R38). -/

namespace Sys2Proof.Machine

/-! ## Two runs side by side -/

/-- Two runs that both end well leave the same trace. -/
def Run.TraceAlike {α β : Type} (x : Run α) (y : Run β) : Prop :=
  ∀ a b, x.value = .ok a → y.value = .ok b → x.trace = y.trace

section
variable {α β γ δ : Type}

theorem Run.TraceAlike.of_trace {x : Run α} {y : Run β} (h : x.trace = y.trace) : x.TraceAlike y := fun _ _ _ _ => h

/-- The traces of two sequences agree when those of their parts do, on the values that the first parts end with. -/
theorem Run.TraceAlike.bind {x : Run α} {y : Run β} {f : α → Run γ} {g : β → Run δ} (h : x.TraceAlike y)
    (hfg : ∀ a b, x.value = .ok a → y.value = .ok b → (f a).TraceAlike (g b)) : (x >>= f).TraceAlike (y >>= g) := by
  intro c d hc hd
  obtain ⟨a, ha, hfa, hx⟩ := Run.bind_ok hc
  obtain ⟨b, hb, hgb, hy⟩ := Run.bind_ok hd
  rw [hx, hy, h a b ha hb, hfg a b ha hb c d hfa hgb]

/-- A part that cannot fault. -/
theorem Run.TraceAlike.perform {x : Traced α} {y : Traced β} {f : α → Run γ} {g : β → Run δ} (h : x.trace = y.trace)
    (hfg : (f x.value).TraceAlike (g y.value)) : (perform x >>= f).TraceAlike (perform y >>= g) :=
  .bind (.of_trace (by rw [perform_trace, perform_trace, h])) fun _ _ ha hb => by cases ha; cases hb; exact hfg

/-- A check leaves no operation. -/
theorem Run.TraceAlike.check {e e' : Effect Unit} {f g : Unit → Run γ} (hfg : (f ()).TraceAlike (g ())) :
    (require e >>= f).TraceAlike (require e' >>= g) :=
  .bind (.of_trace rfl) fun _ _ _ _ => hfg

/-- A branch that both runs take alike. -/
theorem Run.TraceAlike.ite {b b' : Bool} (hb : b = b') {x x' : Run α} {y y' : Run β} (hx : x.TraceAlike y) (hx' : x'.TraceAlike y') :
    (if b then x else x').TraceAlike (if b' then y else y') := by
  subst hb
  cases b
  · exact hx'
  · exact hx

end

/-! ## Reads and writes -/

section
variable {γ δ : Type} {s s' : State}

theorem Run.TraceAlike.readBT (i : BSel) {f : BReg → Run γ} {g : BReg → Run δ} (h : (f s.b[i]).TraceAlike (g s'.b[i])) :
    (s.readBT i >>= f).TraceAlike (s'.readBT i >>= g) :=
  .bind (.of_trace rfl) fun a b ha hb => by
    rw [readBT_value, State.readB_ok_iff] at ha hb
    rwa [← ha.2, ← hb.2]

theorem Run.TraceAlike.readPT (i : PSel) {f : PReg → Run γ} {g : PReg → Run δ} (h : (f s.p[i]).TraceAlike (g s'.p[i])) :
    (s.readPT i >>= f).TraceAlike (s'.readPT i >>= g) :=
  .bind (.of_trace rfl) fun a b ha hb => by
    rw [readPT_value, State.readP_ok_iff] at ha hb
    rwa [← ha.2, ← hb.2]

theorem Run.TraceAlike.readCT (hs : s.SameShape s') (i : CSel) {f : Ctx → Run γ} {g : Ctx → Run δ}
    (h : (f s.c[i]).TraceAlike (g s.c[i])) : (s.readCT i >>= f).TraceAlike (s'.readCT i >>= g) :=
  .bind (.of_trace rfl) fun a b ha hb => by
    rw [readCT_value, State.readC_ok_iff] at ha hb
    rwa [← ha.2, ← hb.2, ← hs.c]

theorem Run.TraceAlike.readCrvT (hs : s.SameShape s') {f : Curve → Run γ} {g : Curve → Run δ} (h : (f s.crv).TraceAlike (g s.crv)) :
    (s.readCrvT >>= f).TraceAlike (s'.readCrvT >>= g) :=
  .bind (.of_trace rfl) fun a b ha hb => by
    rw [readCrvT_value, State.readCrv_ok_iff] at ha hb
    rwa [← ha.2, ← hb.2, ← hs.crv]

/-- The reading that commands on one point share (43_curve_point_forms.md R170 a). -/
theorem Run.TraceAlike.pointT (hs : s.SameShape s') (i : PSel) {f : Curve × PReg → Run γ} {g : Curve × PReg → Run δ}
    (h : (f (s.crv, s.p[i])).TraceAlike (g (s.crv, s'.p[i]))) : (s.pointT i >>= f).TraceAlike (s'.pointT i >>= g) := by
  simp only [State.pointT, Run.bind_assoc, Run.pure_bind]
  exact .readCrvT hs (.readPT i h)

end

theorem Run.TraceAlike.writeBT {s s' : State} {i : BSel} {n n' v v' : Nat} : (s.writeBT i n v).TraceAlike (s'.writeBT i n' v') :=
  .of_trace rfl

theorem Run.TraceAlike.writePT {s s' : State} {i : PSel} {q q' : PReg} : (s.writePT i q).TraceAlike (s'.writePT i q') :=
  .of_trace rfl

/-! ## Shared checks -/

section
variable {γ δ : Type}

/-- A range check against a public bound looks at the length alone (70_reset_and_hazards.md R294). -/
theorem Run.TraceAlike.belowT (W bound : Nat) {n n' v v' : Nat} (hn : n = n') (e : ErrCode) {f g : Unit → Run γ}
    (h : (f ()).TraceAlike (g ())) : (belowT W n v bound e >>= f).TraceAlike (belowT W n' v' bound e >>= g) := by
  subst hn
  refine .bind (.perform ?_ (.of_trace rfl)) fun _ _ _ _ => h
  rw [cmpDigits_trace, cmpDigits_trace]

theorem Run.TraceAlike.residueT (W : Nat) (c : Ctx) {r r' : BReg} (hr : r.len = r'.len) {f : Nat → Run γ} {g : Nat → Run δ}
    (h : ∀ a a', (f a).TraceAlike (g a')) : (residueT W c r >>= f).TraceAlike (residueT W c r' >>= g) :=
  .bind (.belowT W c.m hr .range (.of_trace rfl)) fun a b _ _ => h a b

theorem Run.TraceAlike.rangesT (W p : Nat) {l l' : List (Nat × Nat)} (hl : l.map Prod.fst = l'.map Prod.fst) :
    (rangesT W p l).TraceAlike (rangesT W p l') := by
  induction l generalizing l' with
  | nil => rw [List.map_eq_nil_iff.1 hl.symm]; exact .of_trace rfl
  | cons t l ih =>
    obtain ⟨t', l', rfl, ht, hl⟩ := List.map_eq_cons_iff.1 hl.symm
    exact .perform rfl (.belowT W p ht.symm .range (ih hl.symm))

end

section
variable {γ δ : Type} {s s' : State} (hs : s.SameShape s')
include hs

theorem State.SameShape.W_eq : s.W = s'.W := congrArg DigitWidth.bits hs.width

theorem State.SameShape.len (i : BSel) : s.b[i].len = s'.b[i].len := (hs.b i).2

/-- The reading and checking that commands on one residue share (41_montgomery.md R120). -/
theorem Run.TraceAlike.residueOperandT (c : CSel) (i : BSel) {f : Ctx × Nat → Run γ} {g : Ctx × Nat → Run δ}
    (h : ∀ a a', (f (s.c[c], a)).TraceAlike (g (s.c[c], a'))) :
    (s.residueOperandT c i >>= f).TraceAlike (s'.residueOperandT c i >>= g) := by
  simp only [State.residueOperandT, Run.bind_assoc, Run.pure_bind, ← hs.W_eq]
  exact .readCT hs c (.readBT i (.residueT s.W _ (hs.len i) h))

/-- The reading and checking that commands on two residues share (41_montgomery.md R120 e). -/
theorem Run.TraceAlike.residuesT (c : CSel) (i j : BSel) {f : Ctx × Nat × Nat → Run γ} {g : Ctx × Nat × Nat → Run δ}
    (h : ∀ a b a' b', (f (s.c[c], a, b)).TraceAlike (g (s.c[c], a', b'))) :
    (s.residuesT c i j >>= f).TraceAlike (s'.residuesT c i j >>= g) := by
  simp only [State.residuesT, Run.bind_assoc, Run.pure_bind, ← hs.W_eq]
  exact .readCT hs c (.readBT i (.readBT j (.residueT s.W _ (hs.len i) fun a a' => .residueT s.W _ (hs.len j) fun b b' => h a b a' b')))

end

/-! ## Public parts of a point -/

theorem PReg.present_length (q : PReg) : q.present.length = 2 + q.hasZ.toNat + 2 * q.hasT.toNat := by
  cases hz : q.hasZ <;> cases ht : q.hasT <;> simp [PReg.present, hz, ht]

/-- The number of coordinates a point has is public (43_curve_point_forms.md R190). -/
theorem State.SameShape.present_length {s s' : State} (hs : s.SameShape s') (i : PSel) :
    s.p[i].present.length = s'.p[i].present.length := by
  obtain ⟨-, hz, ht, -⟩ := hs.p i
  rw [PReg.present_length, PReg.present_length, hz, ht]

theorem State.SameShape.inf {s s' : State} (hs : s.SameShape s') (i : PSel) : s.p[i].inf = s'.p[i].inf := by
  obtain ⟨-, -, -, hi, -⟩ := hs.p i
  exact hi

section
variable (k : Curve)

/-- A projective point has the coordinates of its family, the identity among them (43_curve_point_forms.md R192). -/
theorem Curve.proj_present_length (q q' : PReg) : (k.proj q).present.length = (k.proj q').present.length := by
  have hform (q : PReg) : (k.proj q).hasZ = true ∧ (k.proj q).hasT = (k.type == .twistedEdwards) := by
    cases ht : k.type with
    | weierstrass => simp only [Curve.proj, ht]; split <;> exact ⟨rfl, rfl⟩
    | twistedEdwards => simp only [Curve.proj, ht]; exact ⟨rfl, rfl⟩
  rw [PReg.present_length, PReg.present_length, (hform q).1, (hform q').1, (hform q).2, (hform q').2]

theorem convertT_trace_eq (W factor : Nat) {ts ts' : List Nat} (h : ts.length = ts'.length) :
    (k.convertT W factor ts).trace = (k.convertT W factor ts').trace := by
  induction ts generalizing ts' with
  | nil => rw [List.eq_nil_of_length_eq_zero h.symm]
  | cons t ts ih =>
    obtain ⟨t', ts', rfl⟩ := List.exists_cons_of_length_eq_add_one h.symm
    simp only [Curve.convertT, Traced.trace_bind, observe_trace, mulT_trace]
    rw [ih (Nat.succ.inj h)]

/-- Validation is one fixed sequence on each family (43_curve_point_forms.md R196). -/
theorem validateT_trace_eq (W : Nat) (q q' : PReg) : (k.validateT W q).trace = (k.validateT W q').trace := by
  cases ht : k.type <;>
    simp only [Curve.validateT, ht, Traced.trace_bind, cmpDigits_trace, mulT_trace, addT_trace, Traced.trace_pure]

variable {k}

theorem Run.TraceAlike.copyT {γ : Type} {q q' : PReg} (h : q.present.length = q'.present.length) {f g : Unit → Run γ}
    (hfg : (f ()).TraceAlike (g ())) : (k.copyT q >>= f).TraceAlike (k.copyT q' >>= g) :=
  .perform (by rw [h]) hfg

end

/-- The Barrett steps look at no digit (41_montgomery.md R140). -/
theorem barrettT_trace_eq (W : Nat) (c : Ctx) (x x' : Nat) : (barrettT W c x).trace = (barrettT W c x').trace := by
  simp only [barrettT, Traced.trace_bind, mulDigits_trace, subLoop_trace, observe_trace, digits_length, Traced.trace_pure]

theorem addLoop_digits_trace_eq (W n a b a' b' : Nat) :
    (addLoop W (digits W a n) (digits W b n) 0).trace = (addLoop W (digits W a' n) (digits W b' n) 0).trace := by
  simp only [addLoop_trace, digits_length]

theorem subLoop_digits_trace_eq (W n a b a' b' : Nat) :
    (subLoop W (digits W a n) (digits W b n) 0).trace = (subLoop W (digits W a' n) (digits W b' n) 0).trace := by
  simp only [subLoop_trace, digits_length]

theorem mulDigits_digits_trace_eq (W n m a b a' b' : Nat) :
    (mulDigits W (digits W a n) (digits W b m)).trace = (mulDigits W (digits W a' n) (digits W b' m)).trace := by
  simp only [mulDigits_trace, digits_length]

/-! ## The commands -/

section
variable {s s' : State} (hs : s.SameShape s')
include hs

/-- The length-only commands and `MODEXP` (70_reset_and_hazards.md R292, R293). -/
theorem lengthOnly_traceAlike {i : Instr} (hi : i.lengthOnly = true) : (commandT i s).TraceAlike (commandT i s') := by
  have hW := hs.W_eq
  cases i with
  | mov bd bs => exact .readBT bs (.perform (by rw [hs.len]) .writeBT)
  | cmp ba bb =>
    exact .readBT ba (.readBT bb (.perform (by rw [cmpDigits_trace, cmpDigits_trace, hs.len, hs.len]) (.of_trace rfl)))
  | add bd ba bb =>
    refine .readBT ba (.readBT bb (.perform ?_ (.of_trace rfl)))
    rw [← hW, ← hs.len, ← hs.len, addLoop_digits_trace_eq]
  | sub bd ba bb =>
    refine .readBT ba (.readBT bb (.perform ?_ (.of_trace rfl)))
    rw [← hW, ← hs.len, ← hs.len, subLoop_digits_trace_eq]
  | mul bd ba bb =>
    refine .readBT ba (.readBT bb (.check (.perform ?_ .writeBT)))
    rw [← hW, ← hs.len, ← hs.len, mulDigits_digits_trace_eq]
  | montmul bd ba bb c =>
    exact .residuesT hs c ba bb fun _ _ _ _ => .perform (by rw [montT_trace, montT_trace]) .writeBT
  | tomont bd bs c | frommont bd bs c =>
    exact .residueOperandT hs c bs fun _ _ => .perform (by rw [montT_trace, montT_trace]) .writeBT
  | modexp bd base expo c =>
    refine .readCT hs c (.readBT base (.readBT expo ?_))
    rw [← hW]
    refine .residueT s.W _ (hs.len base) fun a a' => .perform ?_ .writeBT
    rw [hs.len expo, modexpWindows_trace_eq]
  | bred bd bs c =>
    refine .readCT hs c (.readBT bs ?_)
    rw [← hW]
    exact .belowT s.W _ (hs.len bs) .range (.perform (barrettT_trace_eq ..) .writeBT)
  | modinvct bd bs c =>
    refine .residueOperandT hs c bs fun a a' => .perform ?_ .writeBT
    rw [hW, modexpWindows_trace_eq]
  | modadd bd ba bb c =>
    exact .residuesT hs c ba bb fun _ _ _ _ => .perform (by rw [modAddT_trace, modAddT_trace]) .writeBT
  | modsub bd ba bb c =>
    exact .residuesT hs c ba bb fun _ _ _ _ => .perform (by rw [modSubT_trace, modSubT_trace]) .writeBT
  | modmul bd ba bb c =>
    exact .residuesT hs c ba bb fun _ _ _ _ => .perform (by rw [montT_trace, montT_trace])
      (.perform (by rw [montT_trace, montT_trace]) .writeBT)
  | ptomont pd ps =>
    have hpresent := hs.present_length ps
    refine .pointT hs ps (.check (.bind ?_ fun _ _ _ _ => .perform ?_ .writePT))
    · rw [← hW]
      refine .rangesT s.W _ ?_
      simpa [Function.comp_def, List.map_const'] using hpresent
    · rw [← hW, convertT_trace_eq _ _ _ hpresent]
  | pfrommont pd ps =>
    exact .pointT hs ps (.check (.perform (by rw [← hW, convertT_trace_eq _ _ _ (hs.present_length ps)]) .writePT))
  | ptoproj pd ps => exact .pointT hs ps (.check (.copyT (Curve.proj_present_length ..) .writePT))
  | pval ps => exact .pointT hs ps (.check (.perform (by rw [← hW, validateT_trace_eq]) (.of_trace rfl)))
  | pdbl pd ps => exact .pointT hs ps (.check (.perform (by rw [← hW, dblT_trace_eq _ _ fun _ => hs.inf ps]) .writePT))
  | pneg pd ps =>
    obtain ⟨-, -, ht, -⟩ := hs.p ps
    refine .pointT hs ps (.check (.ite (hs.inf ps) (.copyT (hs.present_length ps) .writePT) (.perform ?_ .writePT)))
    rw [← hW, ← ht, negCoordsT_trace_eq]
  | _ => cases hi

/-- `SMUL` on one point, for two scalars of one length that are none of the degenerate cases (45_scalar_mul.md R236). -/
theorem smul_traceAlike {pd ps : PSel} {bk : BSel} (hp : s.p[ps] = s'.p[ps])
    (hreg : s.p[ps].inf = false → s.crv.regular s.W s.b[bk].val s.p[ps] = true ∧ s.crv.regular s.W s'.b[bk].val s.p[ps] = true) :
    (commandT (.smul pd ps bk) s).TraceAlike (commandT (.smul pd ps bk) s') := by
  refine .pointT hs ps (.readBT bk ?_)
  rw [← hs.W_eq, ← hp]
  refine .check (.check (.perform ?_ (.check (.belowT s.W _ (hs.len bk) .scalarRange (.perform (smulT_trace_eq hreg) .writePT)))))
  rw [cmpDigits_trace, cmpDigits_trace, hs.len]

end

/-- Settles O53: the loops' traces are fixed by lengths, and the commands' by what two states of one shape have in common. -/
theorem traceIndependence : Obligations.TraceIndependence := by
  refine ⟨modexpWindows_trace_eq, fun W c a e le w => modexpWindows_tableReads W c a e le, fun W n a b a' b' => ⟨?_, ?_, ?_⟩,
    mulDigits_digits_trace_eq, fun W c a b a' b' => ?_, fun i s s' t t' hi hs ht ht' => lengthOnly_traceAlike hs hi t t' ht ht',
    fun W k q n n' ht => smulT_trace_eq fun _ => ⟨?_, ?_⟩, fun W k => mainLoopT_tableReads k W,
    fun pd ps bk s s' t t' hs hp ht ht' hreg => smul_traceAlike hs hp hreg t t' ht ht'⟩
  · rw [cmpDigits_trace, cmpDigits_trace]
  · exact addLoop_digits_trace_eq W n a b a' b'
  · exact subLoop_digits_trace_eq W n a b a' b'
  · rw [cios_trace, cios_trace]
  · rw [Curve.regular, ht]
  · rw [Curve.regular, ht]

end Sys2Proof.Machine
end
